-- ==== Sys2Proof/Word.lean ====
section
/-! DEFINITION. Words, scopes, suffixes, causes and the plain data that instructions and events carry. -/

namespace Sys2Proof

/-- A byte of memory. -/
abbrev Byte := BitVec 8
/-- A 32-bit word: g, w and e registers, system registers, status words. -/
abbrev W32 := BitVec 32
/-- A pointer register (01 R35). -/
abbrev W64 := BitVec 64
/-- A vector register (01 R27). -/
abbrev W128 := BitVec 128
/-- The 64 bytes of a line, a FIFO entry or a command block; byte i in bits [8i+7:8i]. -/
abbrev Line := BitVec 512
/-- A local offset, and the PC (03 R63). -/
abbrev Off := BitVec 17
/-- A list of keys and values; the maps of the state. -/
abbrev SMap (α : Type) := List (Nat × α)

/-- Lane size of VINT and VMOV (03 R71). -/
inductive Lane where
  | b | h | w
deriving DecidableEq, Repr

/-- Type of VFLT (03 R71). -/
inductive FLane where
  | f | bf
deriving DecidableEq, Repr

/-- Scope codes 0 to 4 (03 R75). -/
inductive Scope where
  | core | basin | die | pkg | sys
deriving DecidableEq, Repr

/-- ORD of MEMP (03 R73): `order` is acquire for a load and release for a store. -/
inductive MemOrd where
  | relaxed | order | sc
deriving DecidableEq, Repr

/-- ORD of ATOM (03 R74). -/
inductive AtomOrd where
  | relaxed | acquire | release | acqRel
deriving DecidableEq, Repr

/-- Operations of ATOM (03 R74, 05 R136). -/
inductive AtomOp where
  | add | and | or | xor | min | max | minu | maxu | swap | cas | dec
deriving DecidableEq, Repr

/-- ROUND of `mrun` and `macc` (02 R54, 07 R174). -/
inductive MatRound where
  | rne | rdn | sr
deriving DecidableEq, Repr

/-- Load mode of `mwld` (07 R174). -/
inductive LoadMode where
  | t5 | p24 | p14
deriving DecidableEq, Repr

/-- Type of `mdrain` (07 R174). -/
inductive DrainType where
  | i8 | i8b4 | bf16 | fp32 | raw
deriving DecidableEq, Repr

/-- What `msave` and `mrest` move (07 R174). -/
inductive SaveWhat where
  | tile | slot | queue
deriving DecidableEq, Repr

/-- Shift of `shi` (03 R77). -/
inductive ShiOp where
  | sll | srl | sra | ror
deriving DecidableEq, Repr

/-- Kinds of `vcvt` (06 R151). -/
inductive CvtKind where
  | f2bf | bflo2f | bfhi2f | w2f | f2w | blo2h | bhi2h | hlo2w | hhi2w | h2b | w2h
deriving DecidableEq, Repr

/-- Policy of `rcopen` (05 R125): the launch record's, event, fault. -/
inductive RcPolicy where
  | launch | event | fault
deriving DecidableEq, Repr

/-- Class of a register (03 R67), in the coding of FOVREG (01 R34). -/
inductive RegClass where
  | g | v | p | w | e
deriving DecidableEq, Repr

/-- Trap and status causes (08 R230). -/
inductive Cause where
  | none | ill | align | range | xlate | perm | overread | underread | cntwrite | linkovf | linkunf
  | budget | taskbuf | barover | fmt | meta_ | trit | cap | ue | order | queue | pressure | ptr | svc
  | brk | overrun
deriving DecidableEq, Repr

/-- Who waits for a pinned way (09 R247): the `stc` of a context, a transfer, a tug command. -/
inductive PinWaiter where
  | stc (core ctx : Nat)
  | xfer (core id : Nat)
  | tug (basin token : Nat)
deriving DecidableEq, Repr

/-- A granule of R27, or an accumulator tile (15 R344). -/
inductive Granule where
  | g (group : Nat) | v (group : Nat) | pw | e | bb | link | tile (t : Nat)
deriving DecidableEq, Repr

/-- What a host request names (10 R273): a near address, LPDDR 6 or host memory by physical address. -/
inductive HostTarget where
  | near (p : W64) | lpddr (pa : Nat) | host (pa : Nat)
deriving DecidableEq, Repr

/-- Kind of a towpath flit (16 R351). -/
inductive FlitKind where
  | chunks | entries | handler | ack | time | idle
deriving DecidableEq, Repr

/-- One arrival through a ring window (16 R354): a chunk of 16 bytes, a counted line, a FIFO entry, or the
handler enqueue that ends a transfer. `off` is the unit-8 offset at the destination basin. -/
inductive RingItem where
  | chunk (off : Nat) (data : List Byte)
  | counted (off : Nat) (data : Line) (count : Nat)
  | entry (bank : Nat) (data : Line)
  | handler (hslot : Nat) (word arg0 arg1 : W32) (srcCore : Nat) (seq : Nat)
deriving DecidableEq, Repr

/-- An arrival with its source and destination (16 R351, R354). `hop` is the hop it was sent with, `left` the packages it
has still to go: 1 where it is for this one (R349). -/
structure RingPkt where
  port : Nat
  hop : BitVec 4
  left : Nat := 1
  srcBasin : Nat
  basin : Nat
  item : RingItem
deriving DecidableEq, Repr

/-- A towpath flit as received (16 R351). `crcOk` is the outcome of the CRC-32 check over its bytes. -/
structure Flit where
  kind : FlitKind
  seq : BitVec 12
  ackd : BitVec 12
  crcOk : Bool
  pkts : List RingPkt
  time : W64
deriving DecidableEq, Repr

/-- What a snoop asks of a host line held at its home (14 R322, 10 R274): to share its data, or to give the line up. -/
inductive SnoopKind where
  | share | invalidate
deriving DecidableEq, Repr

end Sys2Proof
end

