-- ==== Sys2Proof/Syntax.lean ====
section
/-! DEFINITION. The one inductive of the instruction set: a constructor for every row of the opcode table,
coded instructions (03 R72) and the machine's other steps (95_what_each_step_holds.md). Register fields hold the
legal values of their class (03 R67). -/

namespace Sys2Proof

inductive Instr where
  -- OPR (04 R93)
  | add (d a b : BitVec 5) | sub (d a b : BitVec 5) | and (d a b : BitVec 5) | or (d a b : BitVec 5)
  | xor (d a b : BitVec 5) | andn (d a b : BitVec 5) | orn (d a b : BitVec 5) | sll (d a b : BitVec 5)
  | srl (d a b : BitVec 5) | sra (d a b : BitVec 5) | rol (d a b : BitVec 5) | ror (d a b : BitVec 5)
  | slt (d a b : BitVec 5) | sltu (d a b : BitVec 5) | min (d a b : BitVec 5) | max (d a b : BitVec 5)
  | minu (d a b : BitVec 5) | maxu (d a b : BitVec 5) | mul (d a b : BitVec 5) | mulh (d a b : BitVec 5)
  | mulhu (d a b : BitVec 5) | div (d a b : BitVec 5) | divu (d a b : BitVec 5) | rem (d a b : BitVec 5)
  | remu (d a b : BitVec 5) | clz (d a : BitVec 5) | ctz (d a : BitVec 5) | popc (d a : BitVec 5)
  | sextb (d a : BitVec 5) | sexth (d a : BitVec 5) | zexth (d a : BitVec 5)
  -- OPI, HIIM, PCIM (04 R95, R96)
  | addi (d a : BitVec 5) (imm : BitVec 12) | andi (d a : BitVec 5) (imm : BitVec 12)
  | ori (d a : BitVec 5) (imm : BitVec 12) | xori (d a : BitVec 5) (imm : BitVec 12)
  | slti (d a : BitVec 5) (imm : BitVec 12) | sltiu (d a : BitVec 5) (imm : BitVec 12)
  | shi (d a : BitVec 5) (op : ShiOp) (n : BitVec 5)
  | lui (d : BitVec 5) (imm : BitVec 20) | aui (d : BitVec 5) (imm : BitVec 20)
  -- LDG, STG (05 R119, R120)
  | ldb (d a : BitVec 5) (imm : BitVec 12) | ldbu (d a : BitVec 5) (imm : BitVec 12)
  | ldh (d a : BitVec 5) (imm : BitVec 12) | ldhu (d a : BitVec 5) (imm : BitVec 12)
  | ldw (d a : BitVec 5) (imm : BitVec 12)
  | stb (b a : BitVec 5) (imm : BitVec 12) | sth (b a : BitVec 5) (imm : BitVec 12)
  | stw (b a : BitVec 5) (imm : BitVec 12)
  -- MEMP (05 R121)
  | ldbPtr (d : BitVec 5) (a : BitVec 3) (ord : MemOrd) (scope : BitVec 2) (cons post : Bool)
  | ldbuPtr (d : BitVec 5) (a : BitVec 3) (ord : MemOrd) (scope : BitVec 2) (cons post : Bool)
  | ldhPtr (d : BitVec 5) (a : BitVec 3) (ord : MemOrd) (scope : BitVec 2) (cons post : Bool)
  | ldhuPtr (d : BitVec 5) (a : BitVec 3) (ord : MemOrd) (scope : BitVec 2) (cons post : Bool)
  | ldwPtr (d : BitVec 5) (a : BitVec 3) (ord : MemOrd) (scope : BitVec 2) (cons post : Bool)
  | stbPtr (d : BitVec 5) (a : BitVec 3) (ord : MemOrd) (scope : BitVec 2) (post : Bool)
  | sthPtr (d : BitVec 5) (a : BitVec 3) (ord : MemOrd) (scope : BitVec 2) (post : Bool)
  | stwPtr (d : BitVec 5) (a : BitVec 3) (ord : MemOrd) (scope : BitVec 2) (post : Bool)
  | vld (d : BitVec 4) (a : BitVec 3) (ord : MemOrd) (scope : BitVec 2) (cons post : Bool)
  | vst (d : BitVec 4) (a : BitVec 3) (ord : MemOrd) (scope : BitVec 2) (post : Bool)
  | vldg (d : BitVec 4) (a : BitVec 3) (cons post : Bool)
  | vstg (d : BitVec 4) (a : BitVec 3) (post : Bool)
  -- BR, CALL, JMP, JIND, REP (04 R103, R104, R108)
  | beq (a b : BitVec 5) (imm : BitVec 12) | bne (a b : BitVec 5) (imm : BitVec 12)
  | blt (a b : BitVec 5) (imm : BitVec 12) | bge (a b : BitVec 5) (imm : BitVec 12)
  | bltu (a b : BitVec 5) (imm : BitVec 12) | bgeu (a b : BitVec 5) (imm : BitVec 12)
  | call (imm : BitVec 25) | j (imm : BitVec 25)
  | jr (a : BitVec 5) (imm : BitVec 12) | callr (a : BitVec 5) (imm : BitVec 12) | ret
  | rep (a : BitVec 5) | repi (n : BitVec 12)
  | loop (a : BitVec 5) (imm : BitVec 12) | loopi (n : BitVec 10) (imm : BitVec 12)
  -- PTR (04 R97)
  | pset (d : BitVec 3) (a b : BitVec 5) | pnear (d : BitVec 3) (a b : BitVec 5) (unit : Bool)
  | pfar (d : BitVec 3) (a b : BitVec 5) | padd (d a : BitVec 3) (b : BitVec 5)
  | pwalk (d a : BitVec 3) | pget (d : BitVec 5) (a : BitVec 3) (hi : Bool)
  | wset (d : BitVec 3) (a : BitVec 5) (e : Bool)
  -- BITS (04 R99, R101, R102)
  | ext (d a b : BitVec 5) | extu (d a b : BitVec 5) | ins (d a b : BitVec 5)
  | bbset (a : BitVec 5) | bget (d a : BitVec 5) | bpeek (d a : BitVec 5) | bskip (a : BitVec 5) | balign
  | bgetu (d a : BitVec 5) | hlay (d a b : BitVec 5) | hpack (d a b : BitVec 5) | hunpk (d a b : BitVec 5)
  -- VINT (06 R144)
  | vadd (z : Lane) (d a b : BitVec 4) | vsub (z : Lane) (d a b : BitVec 4)
  | vadds (z : Lane) (d a b : BitVec 4) | vsubs (z : Lane) (d a b : BitVec 4)
  | vaddus (z : Lane) (d a b : BitVec 4) | vsubus (z : Lane) (d a b : BitVec 4)
  | vmin (z : Lane) (d a b : BitVec 4) | vmax (z : Lane) (d a b : BitVec 4)
  | vminu (z : Lane) (d a b : BitVec 4) | vmaxu (z : Lane) (d a b : BitVec 4)
  | vand (d a b : BitVec 4) | vor (d a b : BitVec 4) | vxor (d a b : BitVec 4) | vandn (d a b : BitVec 4)
  | vsll (z : Lane) (d a b : BitVec 4) | vsrl (z : Lane) (d a b : BitVec 4)
  | vsra (z : Lane) (d a b : BitVec 4) | vceq (z : Lane) (d a b : BitVec 4)
  | vclt (z : Lane) (d a b : BitVec 4) | vcltu (z : Lane) (d a b : BitVec 4)
  | vabs (z : Lane) (d a : BitVec 4) | vneg (z : Lane) (d a : BitVec 4)
  | vmul (z : Lane) (d a b : BitVec 4) | vmulh (z : Lane) (d a b : BitVec 4)
  | vsum (z : Lane) (d a : BitVec 4) | vdot4 (d a b : BitVec 4)
  -- VFLT (06 R146)
  | vfadd (z : FLane) (d a b : BitVec 4) | vfsub (z : FLane) (d a b : BitVec 4)
  | vfmul (z : FLane) (d a b : BitVec 4) | vfma (z : FLane) (d a b : BitVec 4)
  | vfmin (z : FLane) (d a b : BitVec 4) | vfmax (z : FLane) (d a b : BitVec 4)
  | vfceq (z : FLane) (d a b : BitVec 4) | vfclt (z : FLane) (d a b : BitVec 4)
  | vfcle (z : FLane) (d a b : BitVec 4) | vfabs (z : FLane) (d a : BitVec 4)
  | vfneg (z : FLane) (d a : BitVec 4) | vfsum (z : FLane) (d a : BitVec 4)
  | vfrcp (z : FLane) (d a : BitVec 4) | vfrsq (z : FLane) (d a : BitVec 4)
  -- VCVT (06 R150)
  | vcvt (kind : CvtKind) (rtz : Bool) (d a b : BitVec 4)
  | vq8b (d a : BitVec 4) | vdq8b (d a b : BitVec 4) | vmx8 (d a b : BitVec 4)
  | vtern (sr : Bool) (d a b : BitVec 4) | vthr (d a b : BitVec 4) | vtrpk (d a b : BitVec 4)
  | vtrunpk (d a : BitVec 4) (b : BitVec 5)
  -- VMOV (06 R159)
  | vsplat (z : Lane) (d : BitVec 4) (a : BitVec 5) | vext (z : Lane) (d : BitVec 5) (a : BitVec 4) (n : BitVec 5)
  | vins (z : Lane) (d : BitVec 4) (a : BitVec 5) (n : BitVec 5) | vshuf (z : Lane) (d a b : BitVec 4)
  | vzip (z : Lane) (d a b : BitVec 4) | vuzp (z : Lane) (d a b : BitVec 4) | vsel (d a b : BitVec 4)
  | vmv (d a : BitVec 4)
  -- LMEM, CNT, FAR (05 R122, R124, R129)
  | lcopy (d a b : BitVec 5) | lfill (d a b : BitVec 5)
  | stc (scope : Scope) (d : BitVec 4) (a : BitVec 3) (b : BitVec 5) (post : Bool)
  | rcopen (n : BitVec 3) (a : BitVec 3) (b : BitVec 5) (policy : RcPolicy)
  | rcclose (d : BitVec 5) (n : BitVec 3)
  | rcdec (rel : Bool) (scope : Scope) (a : BitVec 3) (post : Bool)
  | rcpeek (d : BitVec 5) (a : BitVec 3)
  | get (d : BitVec 5) (a : BitVec 3) (b : BitVec 5) (ctr cons : Bool)
  | put (d : BitVec 5) (a : BitVec 3) (b : BitVec 5) (ctr cnt hnd : Bool)
  | getx (d : BitVec 5) (a : BitVec 3) (b : BitVec 5) (ctr cons : Bool)
  | putx (d : BitVec 5) (a : BitVec 3) (b : BitVec 5) (ctr : Bool)
  | fwait
  -- ATOM, FENCE (05 R135, R139)
  | rmwadd (vec : Bool) (ord : AtomOrd) (scope : Scope) (d : BitVec 5) (a : BitVec 3) (b : BitVec 5)
  | rmwand (vec : Bool) (ord : AtomOrd) (scope : Scope) (d : BitVec 5) (a : BitVec 3) (b : BitVec 5)
  | rmwor (vec : Bool) (ord : AtomOrd) (scope : Scope) (d : BitVec 5) (a : BitVec 3) (b : BitVec 5)
  | rmwxor (vec : Bool) (ord : AtomOrd) (scope : Scope) (d : BitVec 5) (a : BitVec 3) (b : BitVec 5)
  | rmwmin (vec : Bool) (ord : AtomOrd) (scope : Scope) (d : BitVec 5) (a : BitVec 3) (b : BitVec 5)
  | rmwmax (vec : Bool) (ord : AtomOrd) (scope : Scope) (d : BitVec 5) (a : BitVec 3) (b : BitVec 5)
  | rmwminu (vec : Bool) (ord : AtomOrd) (scope : Scope) (d : BitVec 5) (a : BitVec 3) (b : BitVec 5)
  | rmwmaxu (vec : Bool) (ord : AtomOrd) (scope : Scope) (d : BitVec 5) (a : BitVec 3) (b : BitVec 5)
  | rmwswap (vec : Bool) (ord : AtomOrd) (scope : Scope) (d : BitVec 5) (a : BitVec 3) (b : BitVec 5)
  | rmwcas (ord : AtomOrd) (scope : Scope) (d : BitVec 5) (a : BitVec 3) (b : BitVec 5)
  | rmwdec (ord : AtomOrd) (scope : Scope) (d : BitVec 5) (a : BitVec 3) (b : BitVec 5)
  | fence (scope : Scope) (pred succ : BitVec 4)
  -- MAT (07 R174)
  | mwld (mode : LoadMode) (n : BitVec 1) (d : BitVec 5) (a b : BitVec 3)
  | mrun (round : MatRound) (ovw cons gth : Bool) (n : BitVec 1) (d : BitVec 5) (a b : BitVec 3)
  | macz (b : BitVec 3) (a : BitVec 5)
  | mdrain (type : DrainType) (d : BitVec 5) (a b : BitVec 3)
  | macc (rdn : Bool) (b a : BitVec 3)
  | mstat (d : BitVec 5) (n : BitVec 1) | mfmt (a : BitVec 5)
  | mcmd (d : BitVec 5) (a : BitVec 3) (b : BitVec 5) | mcap (n : BitVec 3) (a : BitVec 5)
  | msave (what : SaveWhat) (d : BitVec 5) (a b : BitVec 3)
  | mrest (what : SaveWhat) (d : BitVec 5) (a b : BitVec 3)
  -- MSG, TASK, BAR, ENG, SYS (08 R197, R205, R210, R215, R219)
  | send (a b : BitVec 5) | sendw (d a b : BitVec 5) | spawn (d a b : BitVec 5) | callat (d a b : BitVec 5)
  | reply (a : BitVec 5) | start (a b : BitVec 5)
  | done | commit | tmsg (d : BitVec 5) (n : BitVec 3) | waitf (a b : BitVec 5)
  | barinit (a b : BitVec 5) | bararr (d a b : BitVec 5) | barwait (d a b : BitVec 5)
  | bardrop (d a b : BitVec 5) | bartest (d a : BitVec 5) (exp : Bool)
  | kick (d a : BitVec 5) | keep (d a : BitVec 5) | ktest (d a : BitVec 5) (kp : Bool)
  | mfs (d : BitVec 5) (r : BitVec 6) | mts (r : BitVec 6) (a : BitVec 5) | clr (cls : RegClass) (a : BitVec 5)
  | trap (a b : BitVec 5) | svc (a : BitVec 5) | tret | idle | brk (n : BitVec 6) | bmode (a b : BitVec 5)
  | l2wb (a : BitVec 3) (b : BitVec 5) | l2inv (a : BitVec 3) (b : BitVec 5) (dis : Bool)
  | rdtime (d : BitVec 5) | isync | skey (a : BitVec 5)
  -- compact forms (03 R66)
  | hMv (d b : BitVec 5) | hLi (d imm : BitVec 5) | hAddi (d imm : BitVec 5) | hAdd (d b : BitVec 5)
  | hSub (d b : BitVec 5) | hAnd (d b : BitVec 5) | hOr (d b : BitVec 5) | hXor (d b : BitVec 5)
  | hShl (d n : BitVec 5) | hShr (d n : BitVec 5) | hAsr (d n : BitVec 5) | hLdw (d b : BitVec 5)
  | hStw (d b : BitVec 5) | hBz (d imm : BitVec 5) | hBnz (d imm : BitVec 5) | hJ (imm : BitVec 10)
  | hRet | hDone | hCommit | hNop | hNeg (d b : BitVec 5)
  /-- A word that names no instruction (03 R78); a halfword is held zero-extended. -/
  | illegalInstruction (w : W32)
  -- steps of the cores
  /-- 01 R28. -/ | reset
  /-- 01 R25: result `k` of the context lands. -/ | resultLand (core ctx k : Nat)
  /-- 01 R31: fill `k` in flight reaches its register. -/ | remoteFill (k : Nat)
  /-- 05 R133. -/ | deferredFault (core ctx : Nat)
  /-- 11 R287. -/ | budget (core ctx : Nat)
  /-- 15 R344. -/ | lazyRestore (core ctx : Nat) (gr : Granule)
  /-- 11 R277: message `k` in flight reaches its queue. -/ | messageAccept (k : Nat)
  /-- 11 R282. -/ | dispatch (core : Nat)
  /-- 11 R289: retry `k` waiting at the port enters its slot. -/ | retrySlotEntry (core k : Nat)
  /-- 09 R238. -/ | fifoPopServed (basin bank : Nat)
  /-- 09 R238. -/ | fifoPushAppended (basin bank : Nat)
  /-- 09 R247. -/ | countedFillPin (w : PinWaiter)
  /-- 09 R247. -/ | cntLimitExpiry (w : PinWaiter)
  /-- 05 R130: the next chunk of a transfer. -/ | transferChunk (core id : Nat)
  /-- 05 R132. -/ | transferCompletion (core id : Nat)
  /-- 08 R212: the network performs the arrival a context sent. -/ | barrierArrival (core ctx : Nat)
  /-- 12 R293. -/ | kickRegisterStore (core ctx basin : Nat) (val : W32)
  -- steps of the tug and the keeper
  /-- 12 R298: the tug starts the command with this token. -/ | lin (basin token : Nat)
  | patch (basin token : Nat) | cdel (basin token : Nat) | host (basin token : Nat)
  | tern (basin token : Nat)
  /-- 12 R299. -/ | tugBox (basin token box : Nat)
  /-- 12 R296. -/ | tugCompletion (basin token : Nat)
  /-- 12 R308: the keeper runs the request at the head of its queue. -/ | bin (basin : Nat)
  | merge (basin : Nat) | isect (basin : Nat) | part (basin : Nat) | scan (basin : Nat)
  /-- 12 R296. -/ | keeperCompletion (basin : Nat)
  -- steps of the matrix unit
  /-- 07 R179. -/ | operandLatchLoad (core : Nat)
  /-- 07 R182: the next weight group of the mrun at the head. -/ | arrayRun (core : Nat)
  | tileZero (core : Nat) | tileAdd (core : Nat) | tileDrain (core : Nat) | slotStatistics (core : Nat)
  /-- 07 R189. -/ | formatChange (core : Nat)
  /-- 07 R192. -/ | matrixSave (core : Nat)
  | matrixRestore (core : Nat)
  /-- 07 R191: carried command `k` in flight reaches its target. -/ | mcmdArrival (k : Nat)
  -- steps of the quay cores and the host
  /-- 14 R324. -/ | doorbell (quay queue : Nat) (x : W32)
  | queueReset (quay queue : Nat) (x : W32) | queueEnable (quay queue : Nat) (x : W32)
  /-- 14 R325: the quay core consumes the entry at the head of the queue. -/ | launch (quay queue : Nat)
  | open_ (quay queue : Nat) | seal (quay queue : Nat) | cancel (quay queue : Nat) | msg (quay queue : Nat)
  | free (quay queue : Nat)
  /-- 14 R326. -/ | launchLoad (handle : Nat)
  /-- 14 R320. -/ | ended (handle : Nat)
  /-- 15 R340. -/ | preemption (handle : Nat)
  | preemptionSave (handle : Nat) | preemptionRestore (handle : Nat)
  /-- 15 R337. -/ | invalidation (quay : Nat) (ctl : W32)
  /-- 15 R338. -/ | fix (quay : Nat) (x : W32)
  /-- 10 R273. -/ | hostWrite (quay : Nat) (t : HostTarget) (data : List Byte)
  | hostRead (quay : Nat) (t : HostTarget) (size : Nat)
  /-- 18 R372. -/ | hsqRdptr (quay : Nat) (fq : Bool) (x : W32)
  /-- 14 R323. -/ | barRegisterWrite (quay off : Nat) (x : W32)
  -- steps of the ring
  /-- 16 R351. -/ | flitReceive (port : Nat) (f : Flit)
  /-- 16 R354. -/ | ringArrival (p : RingPkt)
  /-- 16 R359. -/ | portFailure (port : Nat)
  /-- 16 R360. -/ | packageFailure (pos : BitVec 6)
  | reconfigurationDone
  /-- 16 R361. -/ | timeSync (t : W64)
  -- steps of the service
  /-- 19 R375: `fails` are the reasons of the attempts that fail before one succeeds. -/
  | startSequence (fails : List (BitVec 8)) (pos last : BitVec 6) (up : BitVec 4)
  /-- 19 R379. -/ | stage | switch | tugload | islandSetFrequency | islandRecalibrate
  /-- 19 R380. -/ | recalibrationEnd (us : W32)
  | retbasin | retchan | attest | identity | badarg
  /-- 18 R374. -/ | portRestored (port : Nat)
  /-- 19 R380. -/ | ioIslandRecalibration (island : Nat)
  /-- 14 R322. -/ | cxlCacheSnoop (pa : Nat) (kind : SnoopKind)
deriving DecidableEq, Repr

end Sys2Proof
end

