-- ==== Sys2Proof/Machine/State.lean ====
section
/-! DEFINITION. The state of the package as plain data, the outcomes' reasons, and the state after reset.
Maps are lists of keys and values with a default for the keys they do not list. -/

namespace Sys2Proof.Machine

/-- Memory: (key, byte) pairs, keys strictly rising, no entry 0. Keys are laid out in Machine/Ops.lean. -/
abbrev Mem := List Host.Cell

/-- State of a context (01 R21). READY, PARKED and WAITING are what the last look at the context found. -/
inductive Status where
  | idle | ready | parked | waiting
deriving DecidableEq, Repr

/-- State of a register (01 R30). -/
inductive RegState where
  | full | empty | absent
deriving DecidableEq, Repr

/-- State of a line with its count (05 R115). -/
inductive LineState where
  | plain | counted (n : Nat) | dropped
deriving DecidableEq, Repr

/-- A message (08 R199, 11 R279). `reply` is coded as the status target of 07 R195; `attempt` is the attempt
number a retried message carries (11 R283); `host` says that it came from the host (14 R329). -/
structure Message where
  pc : Off := 0
  level : BitVec 2 := 0
  call : Bool := false
  arg0 : W32 := 0
  arg1 : W32 := 0
  arg2 : W32 := 0
  arg3 : W32 := 0
  id : W32 := 0
  reply : W32 := 0
  attempt : Nat := 0
  host : Bool := false
  /-- The entry that holds it has an uncorrectable error (18 R369). -/
  bad : Bool := false
deriving DecidableEq, Repr

/-- A g register of a context, as the target of a status (07 R195). -/
structure RegTarget where
  core : Nat
  ctx : Nat
  reg : Nat
deriving DecidableEq, Repr

/-- An open fault tag of a quay core (15 R338). -/
structure TagRef where
  quay : Nat
  tag : Nat
deriving DecidableEq, Repr

/-- A translation that failed (15 R338): space, virtual address, access kind of R374, reason (0 unmapped, 1
malformed, 2 permission). -/
structure Miss where
  space : Nat
  va : Nat
  kind : Nat
  reason : Nat
deriving DecidableEq, Repr

inductive XferKind where
  | get | put | getx | putx
deriving DecidableEq, Repr

/-- A one-sided transfer (05 R130, R131). `pos` is the byte or element reached, `sub` the byte within an
element, `att` the attempt of the context that issued it. -/
structure Xfer where
  id : Nat
  core : Nat
  ctx : Nat
  att : Nat
  handle : Nat
  kind : XferKind
  ptr : W64
  loff : Nat
  len : Nat
  esize : Nat := 0
  idx : Nat := 0
  stride : W32 := 0
  hnd : Option W32 := none
  cnt : Option Nat := none
  cons : Bool := false
  ctr : Option Nat := none
  dst : Nat := 0
  pos : Nat := 0
  sub : Nat := 0
  /-- Bytes read and not yet written: reads and writes are made in aligned chunks of their own (10 R259). -/
  buf : List Byte := []
  curIdx : Option W32 := none
  /-- The ring leaf that the first byte was written through (16 R355). -/
  win : Option W64 := none
  stop : Option (Cause × W32) := none
  tag : Option TagRef := none
  verdict : Option Cause := none
  pinned : Option Nat := none
  ringOut : Nat := 0
  /-- The handler task has been offered (05 R130). -/
  handed : Bool := false
  /-- The issuer's accesses numbered below this are performed first (10 R265). -/
  after : Nat := 0
deriving DecidableEq, Repr

/-- Operations of the matrix queue (07 R174). -/
inductive MatOp where
  | mwld (mode : LoadMode) (slot : Nat)
  | mrun (round : MatRound) (ovw cons gth : Bool) (slot tile : Nat)
  | macz (tile : Nat)
  | mdrain (type : DrainType) (tile : Nat)
  | macc (rdn : Bool) (dst src : Nat)
  | mstat (slot : Nat)
  | msave (what : SaveWhat) (b : Nat)
  | mrest (what : SaveWhat) (b : Nat)
deriving DecidableEq, Repr

/-- A command with the operands read at issue (07 R195). `anchor` is g[a] of `macz`. `pc` and the issuer say
where a fault is raised (R177). -/
structure MatCmd where
  op : MatOp
  word : W32
  e0 : W32 := 0
  e1 : W32 := 0
  e2 : W32 := 0
  anchor : W32 := 0
  pa : W64 := 0
  pb : W64 := 0
  wa : W32 := 0
  pregA : Nat := 0
  seq : W32 := 0
  keyLo : W32 := 0
  keyHi : W32 := 0
  gather : Line := 0
  target : Option RegTarget := none
  core : Nat := 0
  ctx : Nat := 0
  att : Nat := 0
  handle : Nat := 0
  tag : Option TagRef := none
  verdict : Option Cause := none
  /-- TRAP_VAL of the access that waits on the tag (15 R339). -/
  missVal : W32 := 0
  /-- The image of an `msave`, or as much of that of an `mrest` as has been read, and how much has been written: it goes on
  from there (15 R339). -/
  image : List Byte := []
  pos : Nat := 0
  /-- The issuer's accesses numbered below this are performed first (10 R265). -/
  after : Nat := 0
  /-- Its queue entry has an uncorrectable error (18 R364). -/
  bad : Bool := false
deriving DecidableEq, Repr

/-- A held effect of a retryable task (05 R117, 11 R286). `val` is the TRAP_VAL of a failure at publication, `rel` the
scope of a release (10 R255: each enters with its own order and scope). -/
inductive Held where
  | store (ptr : W64) (data : List Byte) (rel : Option Scope)
  | lmem (off : Nat) (data : List Byte)
  | stc (ptr : W64) (data : Line) (count : Nat) (rel : Option Scope)
  | atomic (ptr : W64) (op : AtomOp) (vec : Bool) (y : W128) (e0 e4 e5 : W32) (rel : Option Scope)
  | decr (ptr : W64) (val : W32) (rel : Option Scope)
  | put (x : Xfer)
  | send (tgt : Nat) (m : Message) (word : W32) (dst : Nat)
  | reply (value : W32)
  | kick (val : W32) (basin : Nat)
  | mat (c : MatCmd)
  | mcmd (tgt : Nat) (cap : BitVec 16) (c : MatCmd)
  | fence (scope : Scope) (pred : BitVec 4)
deriving DecidableEq, Repr

/-- A result issued and not landed (01 R25, R26): registers by FOVREG id with their values, flags for FFLAGS where the
instruction may set any (06 R143), the cycle it is due (none: any later cycle), and whether it is a load's or an atomic's (05 R118). -/
structure Landing where
  regs : List (Nat × W128)
  flags : Option (BitVec 5) := none
  due : Option Nat := none
  mem : Bool := false
deriving DecidableEq, Repr

/-- A deferred fault (05 R133, 07 R177); `xfer` is the issue number of a transfer's fault, `fill` the number of the status
that the fault comes after. -/
structure Deferred where
  cause : Cause
  val : W32
  xfer : Option Nat := none
  fill : Option Nat := none
deriving DecidableEq, Repr

/-- A message waiting for its page (15 R339); `tag` is none while no tag can be opened (R338). `answer` is what the host
answered while the attempt was still ending: retry, or refuse with a cause. -/
structure PageWait where
  msg : Message
  miss : Miss
  tag : Option TagRef
  answer : Option (Option Cause) := none
deriving DecidableEq, Repr

/-- An attempt that has trapped and waits for its transfers and commands (11 R288); `page` when the message
goes to the waiting-for-page list (15 R339). -/
structure Ending where
  kill : Bool
  cause : Cause
  pc : Off
  val : W32
  page : Option PageWait := none
deriving DecidableEq, Repr

/-- The running task of a helper (11 R276, R285, R287). -/
structure TaskRun where
  msg : Message
  replied : Bool := false
  retryable : Bool := true
  used : Nat := 0
deriving DecidableEq, Repr

/-- The arrival of the present `bararr` or `bardrop`, or the object and phase that the present `barwait` waits for, with
the flags of the release once it has come (08 R212, R213). -/
inductive BarPhase where
  | none
  | wait (id : Nat) (phase : Bool)
  | freed (flags : BitVec 5)
  | sent (id : Nat) (phase drop : Bool) (flags : BitVec 5)
  | done (next : Bool)
  | over (id : Nat)
deriving DecidableEq, Repr

/-- A context (01 R27; the model's own fields are named in INVENTORY.md). Register maps default to 0, the map of
states (which also has bb under 160, the link store under 161 and the rest of granule g0-7 under 162, for lazy restore)
to full. `links` is the link store, oldest first. -/
structure Ctx where
  status : Status := .idle
  pc : Off := 0
  g : SMap W32 := []
  v : SMap W128 := []
  p : SMap W64 := []
  w : SMap W32 := []
  e : SMap W32 := []
  rst : SMap RegState := []
  saved : SMap RegState := []
  bbData : W64 := 0
  bbFill : Nat := 0
  bbOff : Off := 0
  links : List (BitVec 18) := []
  spillBase : BitVec 15 := 0
  spillTop : BitVec 15 := 0
  linkLimit : BitVec 15 := 0
  rc : W32 := 0
  ls : BitVec 16 := 0
  le : BitVec 16 := 0
  prog : W32 := 0
  fflags : BitVec 5 := 0
  frm : BitVec 2 := 0
  srkeyLo : W32 := 0
  srkeyHi : W32 := 0
  srseq : W32 := 0
  fov : Bool := false
  fovreg : BitVec 8 := 0
  sel : BitVec 5 := 0
  inh : Bool := false
  code : BitVec 8 := 0
  trapPc : BitVec 16 := 0
  trapVal : W32 := 0
  trapVec : BitVec 16 := 0
  budget : W32 := 0
  started : Bool := false
  task : Option TaskRun := none
  held : List Held := []
  pend : List Landing := []
  deferred : List Deferred := []
  ending : Option Ending := none
  xtag : Option TagRef := none
  verdict : Option Cause := none
  /-- TRAP_VAL of the access that waits on the tag (15 R339). -/
  missVal : W32 := 0
  pinStart : Option Nat := none
  bar : BarPhase := .none
  /-- Registers whose state keeps the next instruction from issuing: empty sources of a parked context, or absent ones. -/
  blockedOn : List Nat := []
  /-- Whether the present park is a commit point, once judged: `some true` while it has still to publish (11 R285). -/
  judged : Option Bool := none
  publishing : Bool := false
  att : Nat := 0
  /-- The core's count of `isync`s at its last one: what it fetches is as memory was then (10 R275). -/
  epoch : Nat := 0
deriving DecidableEq, Repr

/-- What a spilled message keeps outside memory: its size and its origin (11 R279). -/
structure SpillMeta where
  call : Bool
  host : Bool
deriving DecidableEq, Repr

/-- One queue level (11 R278): hardware entries, spill head (in entries) with the spilled messages' sizes, retry slot. -/
structure QLevel where
  hw : List Message := []
  head : Nat := 0
  spill : List SpillMeta := []
  retry : Option Message := none
deriving DecidableEq, Repr

/-- A counted region (05 R125): base pointer, length, fault policy, and the ranges of line keys it registers. -/
structure Region where
  base : W64
  len : Nat
  faultPolicy : Bool
  ranges : List (Nat × Nat)
deriving DecidableEq, Repr

inductive SlotState where
  | empty | loading | valid
deriving DecidableEq, Repr

/-- Statistics of a slot (07 R173): MODE of R188, terms, L, residual left, dropped, residual left per group. -/
structure SlotStats where
  mode : Nat := 0
  terms : Nat := 0
  left : Nat := 0
  res : Nat := 0
  dropped : Nat := 0
  perGroup : List Nat := []
deriving DecidableEq, Repr

/-- An operand slot (07 R162). `trits` is the tile after the drop, column-major: entry j holds the K applied trits
of column j. -/
structure Slot where
  state : SlotState := .empty
  mode : LoadMode := .t5
  kq : Nat := 0
  drop : Nat := 0
  image : List Byte := []
  scales : List (BitVec 16) := []
  trits : List (List Int) := []
  stats : SlotStats := {}
  bad : Bool := false
deriving DecidableEq, Repr

/-- An accumulator tile (02 R51); element (i, j) has key 16·i + j. -/
structure Tile where
  acc : SMap (BitVec 36) := []
  inv : SMap Bool := []
  anchor : BitVec 10 := 0
  tag : BitVec 2 := 0
  sat : Bool := false
  prog : Nat := 0
  absent : Bool := false
deriving DecidableEq, Repr

/-- The matrix unit (07 R162). `running` says that the `mrun` at the head has started; `preHalt` is the halt of a
pre-emption (R164); `fmt` a pending `mfmt` and whether it has been performed (R189); `port` carried commands that
wait for room (R163). -/
structure MatUnit where
  slot0 : Slot := {}
  slot1 : Slot := {}
  tiles : SMap Tile := []
  queue : List MatCmd := []
  running : Bool := false
  halt : Bool := false
  preHalt : Bool := false
  caps : SMap (BitVec 16) := []
  fmt : Option (BitVec 2 × Bool) := none
  port : List MatCmd := []
  /-- Commands that `msave.q` has moved out and that have not come back (R177, R195), oldest first. -/
  moved : List MatCmd := []
deriving DecidableEq, Repr

structure Core where
  ctxs : SMap Ctx := []
  ilast : Nat := 10
  cyc : Nat := 0
  netfmt : BitVec 2 := 0
  launchId : BitVec 16 := 0
  spaceId : BitVec 12 := 0
  launch : Option Nat := none
  cntLimit : W32 := 65536
  pstall : BitVec 16 := 0
  dropTotal : W32 := 0
  regions : SMap (Option Region) := []
  msgSeq : BitVec 18 := 0
  levels : SMap QLevel := []
  stv : Nat := 0
  port : List Message := []
  pages : List PageWait := []
  noDispatch : Bool := false
  mat : MatUnit := {}
  xfers : List Xfer := []
  nextXfer : Nat := 0
  /-- Registers (context·256 + id) that a fill or a landing has written since the core's last cycle (01 R32). -/
  touched : List Nat := []
  /-- `isync`s executed on the core (10 R275). -/
  epoch : Nat := 0
deriving DecidableEq, Repr

/-- A pop waiting at an empty FIFO bank (09 R238): the context, the first v register, P[31:0], and its number among the
accesses under way. -/
structure PopWait where
  core : Nat
  ctx : Nat
  vreg : Nat
  val : W32
  seq : Nat := 0
deriving DecidableEq, Repr

/-- Source of a push (09 R239): a context, a tug command, or a towpath port. -/
inductive PushSrc where
  | ctx (core ctx : Nat) | tug (basin token : Nat) | port (p : Nat)
deriving DecidableEq, Repr

structure PushWait where
  src : PushSrc
  data : Line
  seq : Nat := 0
deriving DecidableEq, Repr

/-- A FIFO bank (09 R238). `bad` lists the entries, counted from the oldest, that hold an uncorrectable error (18 R364);
`head` is the line of the bank in which the oldest lies (log entry 52). -/
structure Fifo where
  entries : List Line := []
  head : Nat := 0
  bad : List Nat := []
  pops : List PopWait := []
  pushes : List PushWait := []
deriving DecidableEq, Repr

/-- A tug command (12 R294 to R300). -/
structure TugCmd where
  token : Nat
  /-- The basin of the tug. -/
  basin : Nat := 0
  core : Nat
  ctx : Nat
  att : Nat
  handle : Nat
  off : Nat
  block : Line := 0
  started : Bool := false
  nboxes : Nat := 0
  boxes : SMap Bool := []
  stop : Option (Cause × W32) := none
  noCompletion : Bool := false
  invg : Bool := false
  tag : Option TagRef := none
  verdict : Option Cause := none
  pinned : Option Nat := none
  /-- First line or entry of the box in hand not yet performed, for a box that goes on (R300). -/
  resume : Nat := 0
  resumeBox : Nat := 0
  /-- The box in hand goes on where it waits, and is not performed again (R300). -/
  boxed : Bool := false
  /-- The lines that the box in hand, whose accesses are made, has still to decrement (R298). -/
  decs : Option (List Nat) := none
  ringOut : Nat := 0
  /-- The kicker's accesses numbered below this are performed first (10 R265). -/
  after : Nat := 0
  /-- The block has been read before the start, at a save (R300). -/
  blockRead : Bool := false
  /-- An error of the instruction memory stops it (18 R369). -/
  imem : Bool := false
  /-- TRAP_VAL of the access that waits on the tag (15 R339). -/
  missVal : W32 := 0
  /-- Its handler task has been offered (R303). -/
  handed : Bool := false
  /-- Its completion word has been sent, with the cause that the write met (R296). -/
  cword : Option (Option Cause) := none
deriving DecidableEq, Repr

structure Tug where
  next : BitVec 16 := 0
  cmds : List TugCmd := []
  uver : W32 := 0x00010000
  imemBad : Bool := false
  /-- Tokens and causes of ended commands, newest first, for `ktest` (08 R218). -/
  ended : List (Nat × Cause) := []
deriving DecidableEq, Repr

/-- A keeper request (12 R306, R307). `result` is its cause and VAL once it has run. -/
structure KeepReq where
  token : Nat
  core : Nat
  ctx : Nat
  att : Nat
  handle : Nat
  off : Nat
  block : Line
  result : Option (Cause × W32) := none
  noCompletion : Bool := false
  tag : Option TagRef := none
  verdict : Option Cause := none
  /-- The address whose translation waits on the tag (15 R339). -/
  missPtr : W64 := 0
  ringOut : Nat := 0
  /-- Its completion word has been sent, with the cause that the write met (R296). -/
  cword : Option (Option Cause) := none
  /-- The issuer's accesses numbered below this are performed first (10 R265). -/
  after : Nat := 0
deriving DecidableEq, Repr

structure Keeper where
  next : BitVec 16 := 0
  reqs : List KeepReq := []
  ended : List (Nat × Cause) := []
deriving DecidableEq, Repr

/-- A basin: bank modes (0 CACHE, 1 SCRATCH, 2 FIFO), FIFO banks, engines (09 R234, 12). -/
structure Basin where
  modes : SMap (BitVec 2) := []
  fifos : SMap Fifo := []
  tug : Tug := {}
  keeper : Keeper := {}
deriving DecidableEq, Repr

/-- A barrier object (08 R210); `drops` is EXP − EXP_next. -/
structure Barrier where
  exp : BitVec 16 := 0
  arr : BitVec 16 := 0
  ph : Bool := false
  acc : BitVec 5 := 0
  rfl : BitVec 5 := 0
  brk : Bool := false
  drops : Nat := 0
  /-- An uncorrectable error that no operation has met yet (18 R369). -/
  bad : Bool := false
deriving DecidableEq, Repr

/-- A far line held at its home (09 R242 to R248): the bank of its way, its data and state. -/
structure FarLine where
  bank : Nat
  dirty : Bool
  data : Line
  st : LineState := .plain
deriving DecidableEq, Repr

/-- A host queue (14 R323). -/
structure HQueue where
  base : BitVec 48 := 0
  en : Bool := false
  state : BitVec 2 := 0
  space : BitVec 12 := 0
  log2 : BitVec 5 := 0
  wptr : W32 := 0
  rdptr : W32 := 0
  tag : Option TagRef := none
  verdict : Option Cause := none
  /-- The translation waited for is that of the ring read (15 R339). -/
  onRing : Bool := false
deriving DecidableEq, Repr

/-- The entry that a quay core has in hand (14 R324): its queue, where it stands, in which space, and its bytes once they have
been read. -/
structure Hand where
  queue : Nat
  space : BitVec 12
  va : Nat
  entry : Option (List Byte) := none
deriving DecidableEq, Repr

/-- A host status queue or fault queue (18 R371). -/
structure SQueue where
  base : BitVec 48 := 0
  en : Bool := false
  space : BitVec 12 := 0
  log2 : BitVec 5 := 0
  wptr : W32 := 0
  rdptr : W32 := 0
  lost : W32 := 0
deriving DecidableEq, Repr

/-- An open fault tag (15 R338): space, 512 KiB block, reason (0 unmapped, 1 malformed, 2 permission). -/
structure Tag where
  space : Nat
  block : Nat
  reason : Nat
deriving DecidableEq, Repr

structure Quay where
  queues : SMap HQueue := []
  hsq : SQueue := {}
  fq : SQueue := {}
  heldRecs : List (List W32) := []
  xinvVa : BitVec 48 := 0
  xinvCtl : W32 := 0
  /-- The invalidation under way: the VA and the control word it was started with (15 R337). -/
  inv : Option (Nat × W32) := none
  svpool : BitVec 48 := 0
  svblocks : BitVec 16 := 0
  tags : SMap (Option Tag) := []
  nextTag : BitVec 16 := 0
  msgSeq : BitVec 18 := 0
  /-- The queue whose entry is in hand, and the queue served last (14 R324). -/
  inHand : Option Hand := none
  served : Nat := 63
deriving DecidableEq, Repr

/-- A launch record (14 R315). -/
structure LaunchRec where
  lid : BitVec 16 := 0
  space : BitVec 12 := 0
  d0 : Nat := 0
  d1 : Nat := 0
  r0 : Nat := 0
  r1 : Nat := 0
  c0 : Nat := 0
  c1 : Nat := 0
  entry : Off := 0
  arg0 : W32 := 0
  arg1 : W32 := 0
  budget : W32 := 0
  barlo : Nat := 0
  barhi : Nat := 0
  baren : Bool := false
  retry : BitVec 3 := 0
  prio : Nat := 0
  fmt : BitVec 2 := 0
  policyFault : Bool := false
  spill : Nat := 4096
  srkeyLo : W32 := 0
  srkeyHi : W32 := 0
  srseq : W32 := 0
deriving DecidableEq, Repr

/-- A FIFO operation withdrawn at a save (15 R340, R342). -/
structure Withdrawn where
  basin : Nat
  bank : Nat
  pop : Option PopWait := none
  push : Option PushWait := none
deriving DecidableEq, Repr

/-- Corrections counted for one structure and basin since the last record (18 R365). -/
structure CeCount where
  count : Nat := 0
deriving DecidableEq, Repr

/-- When the last CE record of one structure and quadrant was posted (18 R365). -/
structure CePost where
  last : Nat := 0
  posted : Bool := false
deriving DecidableEq, Repr

/-- Errors present in storage (18 R364 to R368): memory granules of 8 bytes by key, LPDDR 6 granules by line, registers,
registers whose next read fails in the read path, elements. -/
structure Errs where
  mem : SMap Bool := []
  dram : SMap Bool := []
  regs : SMap Bool := []
  glitch : SMap Bool := []
  acc : SMap Bool := []
  retiredLines : SMap Bool := []
  spares : SMap Nat := []
  ce : SMap CeCount := []
  cePosts : SMap CePost := []
deriving DecidableEq, Repr

/-- A byte of local memory before a store to it (10 R275): the core's count of `isync`s at the store, the byte, and what would
have stopped its fetch then. -/
structure Stale where
  epoch : Nat
  byte : Byte
  stop : Option Cause
deriving DecidableEq, Repr

/-- What a save area holds (15 R342), as the device reads it back. -/
structure Saved where
  cores : SMap Core := []
  basins : SMap Basin := []
  mem : Mem := []
  lines : SMap LineState := []
  bars : SMap Barrier := []
  withdrawn : List Withdrawn := []
  /-- What its contexts still fetch of local memory as it was before a store (10 R275). -/
  fetched : SMap (List Stale) := []
  /-- Uncorrectable errors in what it holds (log entry 72). -/
  bad : Errs := {}
deriving DecidableEq, Repr

inductive Phase where
  | waiting | loading | running | preempting | saved | over
deriving DecidableEq, Repr

/-- A launch (14 R325 to R328): its record, image and status queue (virtual addresses in `qspace`), its phase,
the order of its acceptance, and its save area (physical address and contents). -/
structure Launch where
  lrec : LaunchRec := {}
  image : Nat := 0
  qspace : Nat := 0
  lsq : Nat := 0
  quay : Nat := 0
  notify : Bool := false
  /-- Queue and index of its entry, and its handler table (14 R317, R325). -/
  queue : Nat := 0
  qidx : W32 := 0
  handlers : List W32 := []
  phase : Phase := .waiting
  age : Nat := 0
  area : Option Nat := none
  save : Option Saved := none
  /-- The tag the `.far` write of the load waits on, and its answer (R326). -/
  tag : Option TagRef := none
  verdict : Option Cause := none
deriving DecidableEq, Repr

inductive ObjState where
  | free | open_ | sealed_ | ended | cancelled
deriving DecidableEq, Repr

/-- A work object (14 R318). `live` counts children; a launch's LIVE is counted from the state (R319). -/
structure WorkObj where
  level : Nat := 0
  parent : Option Nat := none
  state : ObjState := .free
  live : Nat := 0
  notify : Bool := false
  launch : Option Launch := none
  /-- The steps of R320 have run for the object. -/
  closed : Bool := false
  /-- FREE has returned the CANCELLED object to FREE before those steps have run (R318). -/
  freed : Bool := false
  /-- An uncorrectable error of its counters that nothing has met yet (18 R369). -/
  bad : Bool := false
deriving DecidableEq, Repr

/-- Where a fill comes from, as far as something waits for it: the reply of a context, with its number among the accesses
under way (08 R202); or a status, with the number by which a deferred fault knows it (07 R177). -/
inductive FillSrc where
  | none
  | ctx (core ctx seq : Nat)
  | status (seq : Nat)
deriving DecidableEq, Repr

/-- Something on its way between agents. Each belongs to a launch, by its handle (14 R319). -/
inductive Flight where
  | fill (handle core ctx reg : Nat) (val : W128) (src : FillSrc := .none)
  | msg (handle srcCore srcCtx tgt : Nat) (m : Message) (word : W32) (status : Option RegTarget) (after : Nat)
  | retry (handle tgt : Nat) (m : Message)
  | mcmd (handle tgt : Nat) (cap : BitVec 16) (c : MatCmd)
  | kick (handle core ctx att basin : Nat) (val : W32) (after : Nat)
deriving DecidableEq, Repr

/-- Who made a write through a ring window: a context's store, a transfer, a command of the tug or of the keeper. -/
inductive RingOwner where
  | stc (core ctx : Nat)
  | xfer (core id : Nat)
  | tug (basin token : Nat)
  | keeper (basin token : Nat)
deriving DecidableEq, Repr

/-- A write through a ring window that has left the basin and has not been answered (16 R357, R358). -/
structure RingOut where
  srcBasin : Nat
  hop : Int
  destBasin : Nat
  item : RingItem
  owner : RingOwner
  val : W32
  seq : Nat := 0
  /-- The port and the sequence number of the flit it left in, once it has left. -/
  sent : Option (Nat × BitVec 12) := none
  /-- Its flit has been acknowledged: it is on its way beyond the link, and its answer has still to come. -/
  linked : Bool := false
  /-- Another part of the same store has failed, and the store's one fault is deferred (16 R354). -/
  told : Bool := false
deriving DecidableEq, Repr

/-- An item that passes through this package (16 R349), with the flit it left in. -/
structure Transit where
  pkt : RingPkt
  sent : Option (Nat × BitVec 12) := none
deriving DecidableEq, Repr

/-- A towpath port (16 R351, R359). -/
structure Port where
  txSeq : BitVec 12 := 0
  rxSeq : BitVec 12 := 0
  failed : Bool := false
deriving DecidableEq, Repr

structure Ring where
  pos : BitVec 6 := 0
  last : BitVec 6 := 0
  reconf : Bool := false
  fo : BitVec 4 := 0
  up : BitVec 4 := 0
  out : List RingOut := []
  ports : SMap Port := []
  /-- Old position of a failed package while the ring is being closed around it (R360). -/
  failed : Option Nat := none
  /-- Arrivals received in order and not yet performed. -/
  inbox : List RingPkt := []
  /-- Arrived entries whose push waits at its full bank (09 R238). -/
  atBank : List RingPkt := []
  /-- Traffic that passes through, until the next package has it. -/
  transit : List Transit := []
deriving DecidableEq, Repr

/-- A firmware bank (19 R381): the image body and whether it has verified. -/
structure FwBank where
  body : List Byte := []
  ok : Bool := true
deriving DecidableEq, Repr

structure Firmware where
  bankA : FwBank := {}
  bankB : FwBank := {}
  activeB : Bool := false
deriving DecidableEq, Repr

/-- The management mailbox (19 R377). -/
structure Mailbox where
  go : Bool := false
  status : BitVec 8 := 0
  op : BitVec 8 := 0
  arg0 : W32 := 0
  arg1 : W32 := 0
  arg2 : W32 := 0
  arg3 : W32 := 0
  bufVa : BitVec 48 := 0
  bufSpace : BitVec 12 := 0
  res : W32 := 0
deriving DecidableEq, Repr

/-- Service state (19): islands, firmware (0 quay, 1 management), staged microcode, spares, channels. -/
structure Service where
  mb : Mailbox := {}
  freq : SMap Nat := []
  stopped : Option Nat := none
  fw : SMap Firmware := []
  staged : Option (List Byte) := none
  microcode : SMap (List Byte) := []
  usedSites : SMap Nat := []
  /-- Repair map: basins in the order they were moved to spare sites (R384). -/
  moved : List Nat := []
  retired : W32 := 0
deriving DecidableEq, Repr

/-- A soft error from outside (18 R364). -/
inductive Upset where
  | mem (granule : Nat)
  | reg (core ctx reg : Nat)
  /-- The next read of the register fails parity in the read path (18 R368). -/
  | readPath (core ctx reg : Nat)
  | matEntry (core k : Nat)
  | fifoEntry (basin bank k : Nat)
  | acc (core tile elem : Nat)
  | slot (core n : Nat)
  | queueEntry (core level k : Nat)
  | retrySlot (core level : Nat)
  | imem (basin : Nat)
  | barrier (id : Nat)
  | obj (handle : Nat)
  | corrected (struct basin : Nat) (addr : W32)
deriving DecidableEq, Repr

/-- A context that waits in `waitf` (08 R208): core, context, offset, threshold, and what the read that ended the wait found. -/
structure Watch where
  core : Nat
  ctx : Nat
  off : Nat
  need : W32
  /-- `some none`: the word reached the threshold; `some (some c)`: the read met OVERREAD or UE. -/
  hit : Option (Option Cause) := none
deriving DecidableEq, Repr

/-- Who moves next: one cycle of a core, one event, the time counter, or a soft error. -/
inductive Turn where
  | cycle (core : Nat)
  | event (i : Instr)
  | tick (ns : Nat)
  | upset (u : Upset)
deriving DecidableEq, Repr, Inhabited

structure State where
  /-- MODEL: the core and context whose instruction is executed. -/
  core : Nat := 0
  ctx : Nat := 0
  /-- MODEL: the moves to make next, oldest first; when empty, the next move is a free value (log entry 4). -/
  sched : List Turn := []
  /-- MODEL: names the next free value (log entry 5). -/
  free : Nat := 0
  cores : SMap Core := []
  basins : SMap Basin := []
  /-- MODEL: numbers the accesses of contexts that go on under way: pops, pushes and ring stores (10 R265). -/
  seq : Nat := 0
  mem : Mem := []
  lines : SMap LineState := []
  /-- MODEL: what contexts still fetch of local memory as it was before a store (10 R275): for a byte, its former values,
  oldest first. -/
  fetched : SMap (List Stale) := []
  /-- MODEL: registers (as in `errs.regs`) written by results of latency 1 that land in their core's next cycle (01 R32). -/
  written : List Nat := []
  /-- MODEL: the words that contexts wait on in `waitf` (08 R208). -/
  watches : List Watch := []
  far : SMap FarLine := []
  /-- Table entries the stations hold (15 R335), keyed by station, space, level and address prefix. -/
  tlb : SMap W64 := []
  bars : SMap Barrier := []
  quays : SMap Quay := []
  objs : SMap WorkObj := []
  nextAge : Nat := 0
  net : List Flight := []
  sptbase : BitVec 48 := 0
  time : W64 := 0
  bootReason : BitVec 8 := 0
  bootMode : BitVec 2 := 0
  ring : Ring := {}
  svc : Service := {}
  errs : Errs := {}
  /-- Last value a host read returned (10 R273): its bytes, lowest address first. -/
  hostRead : List Byte := []
deriving DecidableEq, Repr

/-- Why a run stops with a fault. -/
inductive Fault where
  /-- Raised by `step` when the schedule names a core above 16,383, which the package does not have (00 R4), or an
  event whose subject does not exist. Safe: nothing is said of the hardware. -/
  | noSuchSubject
deriving DecidableEq, Repr

/-- Why an instruction is refused. -/
inductive Refusal where
  /-- Raised by `exec` for an instruction that has no meaning yet. Safe: the model stops. -/
  | notModelled (mnemonic : String)
deriving DecidableEq, Repr

/-- The machine right after reset (01 R28; 02 R51; 09 R233, R234; 08 R221): every context IDLE with the start
state, every tile zero, local memory plain and zero, every bank in CACHE mode. Values the spec does not give are
named in log entries 1 and 2. -/
def State.reset : State := {}

end Sys2Proof.Machine
end

