-- ==== Sys2Proof/Config.lean ====
section
/-! DEFINITION. What the spec leaves to the implementation or leaves open: constants without a body, so that no
proof can use a value of them. Each is named in the assumption log. -/

namespace Sys2Proof.Config

/-- The next move of the package and the world around it, where the schedule names none: the spec fixes no order
between agents (10 R251; log entry 4). -/
opaque freeTurn : Nat → Machine.Turn
/-- Which of the ways open to a far line it takes, and which line a full set evicts (09 R244: "may take any way
that is not pinned"; log entry 5). -/
opaque freeWay : Nat → Nat
/-- A word that the spec states no value for: VAL of a tug command that a tug instruction memory error stops
(18 R369; log entry 5). -/
opaque freeWord : Nat → BitVec 32
/-- How a write through a ring window ends at the destination package, which is outside this model (16 R354; log
entry 11). -/
opaque ringAnswer : Nat → Nat
/-- Whether a station still holds a translation it once cached (15 R335, R336; log entry 6). -/
opaque stationKeeps : Nat → Bool
/-- The vendor public key, x and y, whose digest the fuses hold (19 R381; log entry 7). -/
opaque vendorKey : Nat × Nat
/-- What the identity private key is derived from (19 R386; log entry 7). -/
opaque identitySecret : Nat
/-- The secret numbers of the identity key's signatures (19 R386; log entry 7). -/
opaque signNumber : Nat → Nat
/-- The fill of a save area's block 0, whose layout belongs to the device (15 R345; log entry 8). -/
opaque saveHeader : Nat → Byte

end Sys2Proof.Config
end

