-- ==== Sys2Proof/WellFormed.lean ====
section
/-! DEFINITION. Which terms of the syntax stand for words (03 R69 to R78) or for steps whose subject exists. -/

namespace Sys2Proof

/-- A register that lies in a group of `n` named by its first register (03 R69). -/
def inGroup {w : Nat} (r first : BitVec w) (n : Nat) : Bool :=
  decide (first.toNat ≤ r.toNat ∧ r.toNat < first.toNat + n)

/-- A legal group start (03 R69). -/
def groupStart {w : Nat} (r : BitVec w) (n : Nat) : Bool := r.toNat % n == 0

/-- Lanes of a vector register (06 R142). -/
def Lane.count : Lane → Nat
  | .b => 16 | .h => 8 | .w => 4

/-- Width of a lane in bits (06 R142). -/
def Lane.width : Lane → Nat
  | .b => 8 | .h => 16 | .w => 32

/-- SCOPE must be 0 when ORD = 0 (03 R73). -/
def memScopeOk (ord : MemOrd) (scope : BitVec 2) : Bool := !decide (ord = .relaxed) || scope == 0

/-- SCOPE must be 0 when ORD = 0; the 16-byte form names v registers (03 R74, R67). -/
def atomOk (vec : Bool) (ord : AtomOrd) (scope : Scope) (d b : BitVec 5) : Bool :=
  (!decide (ord = .relaxed) || decide (scope = .core)) && (!vec || (decide (d.toNat < 16) && decide (b.toNat < 16)))

/-- Two-source kinds use b (06 R151). -/
def CvtKind.twoSource : CvtKind → Bool
  | .f2bf | .h2b | .w2h => true
  | _ => false

/-- `.rtz` is legal only on f2bf, w2f and f2w (06 R151). -/
def CvtKind.rtzOk : CvtKind → Bool
  | .f2bf | .w2f | .f2w => true
  | _ => false

/-- System registers that `mfs` and `mts` name (08 R220). -/
def sysRegOk (r : BitVec 6) : Bool := decide (r.toNat ≤ 28)

/-- Numbers of a register class (03 R67). -/
def RegClass.count : RegClass → Nat
  | .g => 32 | .v => 16 | .p => 8 | .w => 8 | .e => 8

/-- A core, context, basin, quay core, queue, port that the package has (00 R4, R6; 14 R323; 16 R349). -/
def coreOk (n : Nat) : Bool := decide (n < 16384)
def ctxOk (c : Nat) : Bool := decide (c ≤ 10)
def basinOk (b : Nat) : Bool := decide (b < 2048)
def bankOk (k : Nat) : Bool := decide (k < 12)
def quayOk (q : Nat) : Bool := decide (q < 16)
def queueOk (n : Nat) : Bool := decide (n < 64)
def portOk (p : Nat) : Bool := decide (p < 4)
/-- The islands of the I/O dies (00 R10). -/
def ioIslandOk (i : Nat) : Bool := decide (64 ≤ i ∧ i < 70)
def handleOk (h : Nat) : Bool := decide (h < 16384)

def pinWaiterOk : PinWaiter → Bool
  | .stc n c => coreOk n && ctxOk c
  | .xfer n _ => coreOk n
  | .tug b _ => basinOk b

def wellFormed : Instr → Bool
  | .ldbPtr _ _ o s _ _ | .ldbuPtr _ _ o s _ _ | .ldhPtr _ _ o s _ _ | .ldhuPtr _ _ o s _ _
  | .ldwPtr _ _ o s _ _ | .vld _ _ o s _ _ => memScopeOk o s
  | .stbPtr _ _ o s _ | .sthPtr _ _ o s _ | .stwPtr _ _ o s _ | .vst _ _ o s _ => memScopeOk o s
  | .vldg d _ _ _ => groupStart d 4
  | .vstg d _ _ => groupStart d 4
  | .loop _ imm => !(imm == 0 || imm == 1)
  | .loopi _ imm => !(imm == 0 || imm == 1)
  | .hpack d a b => groupStart d 2 && !inGroup a d 2 && !inGroup b d 2
  | .hunpk d a _ => groupStart a 2 && !inGroup d a 2
  | .vcvt k rtz _ _ b => (k.twoSource || b == 0) && (!rtz || k.rtzOk)
  | .vq8b d a => groupStart d 2 && groupStart a 4 && !inGroup d a 4
  | .vdq8b d a b => groupStart d 4 && !inGroup a d 4 && !inGroup b d 4
  | .vmx8 d a b => groupStart d 2 && !inGroup a d 2 && !inGroup b d 2
  | .vtern _ d a _ | .vthr d a _ | .vtrpk d a _ => groupStart a 4 && !inGroup d a 4
  | .vext z _ _ n => decide (n.toNat < z.count)
  | .vins z _ _ n => decide (n.toNat < z.count)
  | .vzip _ d a b | .vuzp _ d a b => groupStart d 2 && !inGroup a d 2 && !inGroup b d 2
  | .stc _ d _ _ _ => groupStart d 4
  | .rcdec rel s _ _ => rel || decide (s = .core)
  | .get d _ _ t _ | .put d _ _ t _ _ | .getx d _ _ t _ | .putx d _ _ t => !t || d == 0
  | .rmwadd v o s d _ b | .rmwand v o s d _ b | .rmwor v o s d _ b | .rmwxor v o s d _ b
  | .rmwmin v o s d _ b | .rmwmax v o s d _ b | .rmwminu v o s d _ b | .rmwmaxu v o s d _ b
  | .rmwswap v o s d _ b => atomOk v o s d b
  | .rmwcas o s d _ b | .rmwdec o s d _ b => atomOk false o s d b
  | .fence _ p s => !(p == 0) && !(s == 0)
  | .msave w _ _ b | .mrest w _ _ b =>
    match w with
    | .tile => true
    | .slot => decide (b.toNat ≤ 1)
    | .queue => b == 0
  | .callat d _ b => groupStart b 4 && !inGroup d b 4
  | .mfs _ r => sysRegOk r
  | .mts r _ => sysRegOk r
  | .clr c a => decide (a.toNat < c.count)
  | .rdtime d => groupStart d 2
  | .hMv d _ | .hLi d _ | .hAddi d _ | .hAdd d _ | .hSub d _ | .hAnd d _ | .hOr d _ | .hXor d _
  | .hShl d _ | .hShr d _ | .hAsr d _ | .hLdw d _ | .hNeg d _ => !(d == 0)
  -- events: the subject exists
  | .resultLand n c _ | .deferredFault n c | .budget n c | .lazyRestore n c _ | .barrierArrival n c =>
    coreOk n && ctxOk c
  | .dispatch n | .retrySlotEntry n _ | .transferChunk n _ | .transferCompletion n _ | .operandLatchLoad n
  | .arrayRun n | .tileZero n | .tileAdd n | .tileDrain n | .slotStatistics n | .formatChange n
  | .matrixSave n | .matrixRestore n => coreOk n
  | .fifoPopServed b k | .fifoPushAppended b k => basinOk b && bankOk k
  | .countedFillPin w | .cntLimitExpiry w => pinWaiterOk w
  | .kickRegisterStore n c b _ => coreOk n && ctxOk c && basinOk b
  | .lin b _ | .patch b _ | .cdel b _ | .host b _ | .tern b _ | .tugBox b _ _ | .tugCompletion b _
  | .bin b | .merge b | .isect b | .part b | .scan b | .keeperCompletion b => basinOk b
  | .doorbell q n _ | .queueReset q n _ | .queueEnable q n _ | .launch q n | .open_ q n | .seal q n
  | .cancel q n | .msg q n | .free q n => quayOk q && queueOk n
  | .launchLoad h | .ended h | .preemption h | .preemptionSave h | .preemptionRestore h => handleOk h
  | .invalidation q _ | .fix q _ | .hostWrite q _ _ | .hostRead q _ _ | .hsqRdptr q _ _
  | .barRegisterWrite q _ _ => quayOk q
  | .flitReceive p _ | .portFailure p | .portRestored p => portOk p
  | .ringArrival p => portOk p.port && basinOk p.basin
  | .ioIslandRecalibration i => ioIslandOk i
  | _ => true

end Sys2Proof
end

