-- ==== Sys2Proof/Decode.lean ====
section
/-! DEFINITION. The decoder of 16-bit and 32-bit words (03 R62 to R78), total on any word and rejecting by name,
and the encoder written from the same tables. Words are numbers with bit 0 least significant. -/

namespace Sys2Proof

/-- Why a word names no instruction (03 R78). -/
inductive Illegal where
  | major | index | size | unused | regClass | option | illFormed | compact
deriving DecidableEq, Repr

/-- Bits [lo + n − 1 : lo]. -/
def fld (w lo n : Nat) : Nat := w / 2 ^ lo % 2 ^ n

def bit (w lo : Nat) : Bool := fld w lo 1 == 1

/-- Accept `i` where the fields it does not use are 0 (03 R68). -/
def unused (rest : Nat) (i : Instr) : Except Illegal Instr :=
  if rest = 0 then .ok i else .error .unused

/-- Accept `i` where a register field lies in its class (03 R67). -/
def inClass (r limit : Nat) (i : Except Illegal Instr) : Except Illegal Instr :=
  if r < limit then i else .error .regClass

/-- Accept `i` where the option bits it does not define are 0 (03 R70). -/
def options (rest : Nat) (i : Except Illegal Instr) : Except Illegal Instr :=
  if rest = 0 then i else .error .option

abbrev b1 (x : Nat) : BitVec 1 := BitVec.ofNat 1 x
abbrev b2 (x : Nat) : BitVec 2 := BitVec.ofNat 2 x
abbrev b3 (x : Nat) : BitVec 3 := BitVec.ofNat 3 x
abbrev b4 (x : Nat) : BitVec 4 := BitVec.ofNat 4 x
abbrev b5 (x : Nat) : BitVec 5 := BitVec.ofNat 5 x
abbrev b6 (x : Nat) : BitVec 6 := BitVec.ofNat 6 x
abbrev b12 (x : Nat) : BitVec 12 := BitVec.ofNat 12 x

def laneOf : Nat → Option Lane
  | 0 => some .b | 1 => some .h | 2 => some .w | _ => none
def laneCode : Lane → Nat
  | .b => 0 | .h => 1 | .w => 2
def flaneOf : Nat → Option FLane
  | 0 => some .f | 1 => some .bf | _ => none
def flaneCode : FLane → Nat
  | .f => 0 | .bf => 1
def scopeOf : Nat → Option Scope
  | 0 => some .core | 1 => some .basin | 2 => some .die | 3 => some .pkg | 4 => some .sys | _ => none
def scopeCode : Scope → Nat
  | .core => 0 | .basin => 1 | .die => 2 | .pkg => 3 | .sys => 4
def memOrdOf : Nat → Option MemOrd
  | 0 => some .relaxed | 1 => some .order | 2 => some .sc | _ => none
def memOrdCode : MemOrd → Nat
  | .relaxed => 0 | .order => 1 | .sc => 2
def atomOrdOf : Nat → AtomOrd
  | 0 => .relaxed | 1 => .acquire | 2 => .release | _ => .acqRel
def atomOrdCode : AtomOrd → Nat
  | .relaxed => 0 | .acquire => 1 | .release => 2 | .acqRel => 3
def roundOf : Nat → Option MatRound
  | 0 => some .rne | 1 => some .rdn | 2 => some .sr | _ => none
def roundCode : MatRound → Nat
  | .rne => 0 | .rdn => 1 | .sr => 2
def loadModeOf : Nat → Option LoadMode
  | 0 => some .t5 | 1 => some .p24 | 2 => some .p14 | _ => none
def loadModeCode : LoadMode → Nat
  | .t5 => 0 | .p24 => 1 | .p14 => 2
def drainOf : Nat → Option DrainType
  | 0 => some .i8 | 1 => some .i8b4 | 2 => some .bf16 | 3 => some .fp32 | 4 => some .raw | _ => none
def drainCode : DrainType → Nat
  | .i8 => 0 | .i8b4 => 1 | .bf16 => 2 | .fp32 => 3 | .raw => 4
def whatOf : Nat → Option SaveWhat
  | 0 => some .tile | 1 => some .slot | 2 => some .queue | _ => none
def whatCode : SaveWhat → Nat
  | .tile => 0 | .slot => 1 | .queue => 2
def shiOf : Nat → ShiOp
  | 0 => .sll | 1 => .srl | 2 => .sra | _ => .ror
def shiCode : ShiOp → Nat
  | .sll => 0 | .srl => 1 | .sra => 2 | .ror => 3
def cvtOf : Nat → Option CvtKind
  | 0 => some .f2bf | 1 => some .bflo2f | 2 => some .bfhi2f | 3 => some .w2f | 4 => some .f2w
  | 5 => some .blo2h | 6 => some .bhi2h | 7 => some .hlo2w | 8 => some .hhi2w | 9 => some .h2b
  | 10 => some .w2h | _ => none
def cvtCode : CvtKind → Nat
  | .f2bf => 0 | .bflo2f => 1 | .bfhi2f => 2 | .w2f => 3 | .f2w => 4 | .blo2h => 5 | .bhi2h => 6
  | .hlo2w => 7 | .hhi2w => 8 | .h2b => 9 | .w2h => 10
def policyOf : Nat → Option RcPolicy
  | 0 => some .launch | 1 => some .event | 2 => some .fault | _ => none
def policyCode : RcPolicy → Nat
  | .launch => 0 | .event => 1 | .fault => 2
def classOf : Nat → Option RegClass
  | 0 => some .g | 1 => some .v | 2 => some .p | 3 => some .w | 4 => some .e | _ => none
/-- The class code of FOVREG (01 R34). -/
def classCode : RegClass → Nat
  | .g => 0 | .v => 1 | .p => 2 | .w => 3 | .e => 4
def boolCode : Bool → Nat
  | false => 0 | true => 1

/-- Use a decoded code, or reject the word. -/
def code {α : Type} (c : Option α) (why : Illegal) (f : α → Except Illegal Instr) : Except Illegal Instr :=
  match c with
  | some x => f x
  | none => .error why

/-- OPR, layout L (03 R72). -/
def decOpr (F b a d : Nat) : Except Illegal Instr :=
  match F with
  | 0 => .ok (.add (b5 d) (b5 a) (b5 b)) | 1 => .ok (.sub (b5 d) (b5 a) (b5 b))
  | 2 => .ok (.and (b5 d) (b5 a) (b5 b)) | 3 => .ok (.or (b5 d) (b5 a) (b5 b))
  | 4 => .ok (.xor (b5 d) (b5 a) (b5 b)) | 5 => .ok (.andn (b5 d) (b5 a) (b5 b))
  | 6 => .ok (.orn (b5 d) (b5 a) (b5 b)) | 7 => .ok (.sll (b5 d) (b5 a) (b5 b))
  | 8 => .ok (.srl (b5 d) (b5 a) (b5 b)) | 9 => .ok (.sra (b5 d) (b5 a) (b5 b))
  | 10 => .ok (.rol (b5 d) (b5 a) (b5 b)) | 11 => .ok (.ror (b5 d) (b5 a) (b5 b))
  | 12 => .ok (.slt (b5 d) (b5 a) (b5 b)) | 13 => .ok (.sltu (b5 d) (b5 a) (b5 b))
  | 14 => .ok (.min (b5 d) (b5 a) (b5 b)) | 15 => .ok (.max (b5 d) (b5 a) (b5 b))
  | 16 => .ok (.minu (b5 d) (b5 a) (b5 b)) | 17 => .ok (.maxu (b5 d) (b5 a) (b5 b))
  | 18 => .ok (.mul (b5 d) (b5 a) (b5 b)) | 19 => .ok (.mulh (b5 d) (b5 a) (b5 b))
  | 20 => .ok (.mulhu (b5 d) (b5 a) (b5 b)) | 21 => .ok (.div (b5 d) (b5 a) (b5 b))
  | 22 => .ok (.divu (b5 d) (b5 a) (b5 b)) | 23 => .ok (.rem (b5 d) (b5 a) (b5 b))
  | 24 => .ok (.remu (b5 d) (b5 a) (b5 b))
  | 25 => unused b (.clz (b5 d) (b5 a)) | 26 => unused b (.ctz (b5 d) (b5 a))
  | 27 => unused b (.popc (b5 d) (b5 a)) | 28 => unused b (.sextb (b5 d) (b5 a))
  | 29 => unused b (.sexth (b5 d) (b5 a)) | 30 => unused b (.zexth (b5 d) (b5 a))
  | _ => .error .index

/-- OPI (03 R72, R77). -/
def decOpi (imm f3 a d : Nat) : Except Illegal Instr :=
  match f3 with
  | 0 => .ok (.addi (b5 d) (b5 a) (b12 imm)) | 1 => .ok (.andi (b5 d) (b5 a) (b12 imm))
  | 2 => .ok (.ori (b5 d) (b5 a) (b12 imm)) | 3 => .ok (.xori (b5 d) (b5 a) (b12 imm))
  | 4 => .ok (.slti (b5 d) (b5 a) (b12 imm)) | 5 => .ok (.sltiu (b5 d) (b5 a) (b12 imm))
  | 6 => unused (imm / 32 % 32) (.shi (b5 d) (b5 a) (shiOf (imm / 1024)) (b5 imm))
  | _ => .error .index

/-- LDG (03 R72). -/
def decLdg (imm f3 a d : Nat) : Except Illegal Instr :=
  match f3 with
  | 0 => .ok (.ldb (b5 d) (b5 a) (b12 imm)) | 1 => .ok (.ldbu (b5 d) (b5 a) (b12 imm))
  | 2 => .ok (.ldh (b5 d) (b5 a) (b12 imm)) | 3 => .ok (.ldhu (b5 d) (b5 a) (b12 imm))
  | 4 => .ok (.ldw (b5 d) (b5 a) (b12 imm))
  | _ => .error .index

/-- STG (03 R72). -/
def decStg (imm f3 b a : Nat) : Except Illegal Instr :=
  match f3 with
  | 0 => .ok (.stb (b5 b) (b5 a) (b12 imm)) | 1 => .ok (.sth (b5 b) (b5 a) (b12 imm))
  | 2 => .ok (.stw (b5 b) (b5 a) (b12 imm))
  | _ => .error .index

/-- BR (03 R72). -/
def decBr (imm f3 b a : Nat) : Except Illegal Instr :=
  match f3 with
  | 0 => .ok (.beq (b5 a) (b5 b) (b12 imm)) | 1 => .ok (.bne (b5 a) (b5 b) (b12 imm))
  | 2 => .ok (.blt (b5 a) (b5 b) (b12 imm)) | 3 => .ok (.bge (b5 a) (b5 b) (b12 imm))
  | 4 => .ok (.bltu (b5 a) (b5 b) (b12 imm)) | 5 => .ok (.bgeu (b5 a) (b5 b) (b12 imm))
  | _ => .error .index

/-- MEMP (03 R73). -/
def decMemp (F b a d : Nat) : Except Illegal Instr :=
  let post := bit F 4
  let cons := bit F 5
  let scope := b2 (F / 256)
  options b <| inClass a 8 <| code (memOrdOf (fld F 6 2)) .option fun ord =>
  match F % 16 with
  | 0 => .ok (.ldbPtr (b5 d) (b3 a) ord scope cons post)
  | 1 => .ok (.ldbuPtr (b5 d) (b3 a) ord scope cons post)
  | 2 => .ok (.ldhPtr (b5 d) (b3 a) ord scope cons post)
  | 3 => .ok (.ldhuPtr (b5 d) (b3 a) ord scope cons post)
  | 4 => .ok (.ldwPtr (b5 d) (b3 a) ord scope cons post)
  | 5 => options (fld F 5 1) (.ok (.stbPtr (b5 d) (b3 a) ord scope post))
  | 6 => options (fld F 5 1) (.ok (.sthPtr (b5 d) (b3 a) ord scope post))
  | 7 => options (fld F 5 1) (.ok (.stwPtr (b5 d) (b3 a) ord scope post))
  | 8 => inClass d 16 (.ok (.vld (b4 d) (b3 a) ord scope cons post))
  | 9 => inClass d 16 (options (fld F 5 1) (.ok (.vst (b4 d) (b3 a) ord scope post)))
  | 10 => inClass d 16 (options (fld F 6 4) (.ok (.vldg (b4 d) (b3 a) cons post)))
  | 11 => inClass d 16 (options (fld F 5 5) (.ok (.vstg (b4 d) (b3 a) post)))
  | _ => .error .index

/-- JIND (03 R72). -/
def decJind (imm f3 a d : Nat) : Except Illegal Instr :=
  match f3 with
  | 0 => unused d (.jr (b5 a) (b12 imm))
  | 1 => unused d (.callr (b5 a) (b12 imm))
  | 2 => unused (d + a + imm) .ret
  | _ => .error .index

/-- REP (03 R72). -/
def decRep (imm f3 a d : Nat) : Except Illegal Instr :=
  match f3 with
  | 0 => unused (d + imm) (.rep (b5 a))
  | 1 => unused (d + a) (.repi (b12 imm))
  | 2 => unused d (.loop (b5 a) (b12 imm))
  | 3 => .ok (.loopi (BitVec.ofNat 10 (a * 32 + d)) (b12 imm))
  | _ => .error .index

/-- PTR, layout O (04 R97). -/
def decPtr (F b a d : Nat) : Except Illegal Instr :=
  let o := bit F 4
  options (fld F 5 5) <|
  match F % 16 with
  | 0 => options (fld F 4 1) (inClass d 8 (.ok (.pset (b3 d) (b5 a) (b5 b))))
  | 1 => inClass d 8 (.ok (.pnear (b3 d) (b5 a) (b5 b) o))
  | 2 => options (fld F 4 1) (inClass d 8 (.ok (.pfar (b3 d) (b5 a) (b5 b))))
  | 3 => options (fld F 4 1) (inClass d 8 (inClass a 8 (.ok (.padd (b3 d) (b3 a) (b5 b)))))
  | 4 => options (fld F 4 1) (inClass d 8 (inClass a 8 (unused b (.pwalk (b3 d) (b3 a)))))
  | 5 => inClass a 8 (unused b (.pget (b5 d) (b3 a) o))
  | 6 => inClass d 8 (unused b (.wset (b3 d) (b5 a) o))
  | _ => .error .index

/-- BITS, layout L (04 R99, R101, R102). -/
def decBits (F b a d : Nat) : Except Illegal Instr :=
  match F with
  | 0 => .ok (.ext (b5 d) (b5 a) (b5 b)) | 1 => .ok (.extu (b5 d) (b5 a) (b5 b))
  | 2 => .ok (.ins (b5 d) (b5 a) (b5 b)) | 3 => unused (d + b) (.bbset (b5 a))
  | 4 => unused b (.bget (b5 d) (b5 a)) | 5 => unused b (.bpeek (b5 d) (b5 a))
  | 6 => unused (d + b) (.bskip (b5 a)) | 7 => unused (d + a + b) .balign
  | 8 => unused b (.bgetu (b5 d) (b5 a)) | 9 => .ok (.hlay (b5 d) (b5 a) (b5 b))
  | 10 => .ok (.hpack (b5 d) (b5 a) (b5 b)) | 11 => .ok (.hunpk (b5 d) (b5 a) (b5 b))
  | _ => .error .index

/-- Three v registers. -/
def vvv (b a d : Nat) (i : Except Illegal Instr) : Except Illegal Instr := inClass d 16 (inClass a 16 (inClass b 16 i))

/-- VINT, layout S (06 R144). -/
def decVint (F b a d : Nat) : Except Illegal Instr :=
  let s (f : Lane → Instr) : Except Illegal Instr := code (laneOf (F % 4)) .size fun z => vvv b a d (.ok (f z))
  let s1 (f : Lane → Instr) : Except Illegal Instr :=
    code (laneOf (F % 4)) .size fun z => vvv b a d (unused b (f z))
  let u (i : Instr) : Except Illegal Instr := if F % 4 = 0 then vvv b a d (.ok i) else .error .size
  match F / 4 with
  | 0 => s fun z => .vadd z (b4 d) (b4 a) (b4 b) | 1 => s fun z => .vsub z (b4 d) (b4 a) (b4 b)
  | 2 => s fun z => .vadds z (b4 d) (b4 a) (b4 b) | 3 => s fun z => .vsubs z (b4 d) (b4 a) (b4 b)
  | 4 => s fun z => .vaddus z (b4 d) (b4 a) (b4 b) | 5 => s fun z => .vsubus z (b4 d) (b4 a) (b4 b)
  | 6 => s fun z => .vmin z (b4 d) (b4 a) (b4 b) | 7 => s fun z => .vmax z (b4 d) (b4 a) (b4 b)
  | 8 => s fun z => .vminu z (b4 d) (b4 a) (b4 b) | 9 => s fun z => .vmaxu z (b4 d) (b4 a) (b4 b)
  | 10 => u (.vand (b4 d) (b4 a) (b4 b)) | 11 => u (.vor (b4 d) (b4 a) (b4 b))
  | 12 => u (.vxor (b4 d) (b4 a) (b4 b)) | 13 => u (.vandn (b4 d) (b4 a) (b4 b))
  | 14 => s fun z => .vsll z (b4 d) (b4 a) (b4 b) | 15 => s fun z => .vsrl z (b4 d) (b4 a) (b4 b)
  | 16 => s fun z => .vsra z (b4 d) (b4 a) (b4 b) | 17 => s fun z => .vceq z (b4 d) (b4 a) (b4 b)
  | 18 => s fun z => .vclt z (b4 d) (b4 a) (b4 b) | 19 => s fun z => .vcltu z (b4 d) (b4 a) (b4 b)
  | 20 => s1 fun z => .vabs z (b4 d) (b4 a) | 21 => s1 fun z => .vneg z (b4 d) (b4 a)
  | 22 => s fun z => .vmul z (b4 d) (b4 a) (b4 b) | 23 => s fun z => .vmulh z (b4 d) (b4 a) (b4 b)
  | 24 => s1 fun z => .vsum z (b4 d) (b4 a) | 25 => u (.vdot4 (b4 d) (b4 a) (b4 b))
  | _ => .error .index

/-- VFLT, layout S (06 R146). -/
def decVflt (F b a d : Nat) : Except Illegal Instr :=
  code (flaneOf (F % 4)) .size fun z => vvv b a d <|
  match F / 4 with
  | 0 => .ok (.vfadd z (b4 d) (b4 a) (b4 b)) | 1 => .ok (.vfsub z (b4 d) (b4 a) (b4 b))
  | 2 => .ok (.vfmul z (b4 d) (b4 a) (b4 b)) | 3 => .ok (.vfma z (b4 d) (b4 a) (b4 b))
  | 4 => .ok (.vfmin z (b4 d) (b4 a) (b4 b)) | 5 => .ok (.vfmax z (b4 d) (b4 a) (b4 b))
  | 6 => .ok (.vfceq z (b4 d) (b4 a) (b4 b)) | 7 => .ok (.vfclt z (b4 d) (b4 a) (b4 b))
  | 8 => .ok (.vfcle z (b4 d) (b4 a) (b4 b)) | 9 => unused b (.vfabs z (b4 d) (b4 a))
  | 10 => unused b (.vfneg z (b4 d) (b4 a)) | 11 => unused b (.vfsum z (b4 d) (b4 a))
  | 12 => unused b (.vfrcp z (b4 d) (b4 a)) | 13 => unused b (.vfrsq z (b4 d) (b4 a))
  | _ => .error .index

/-- VCVT, layout O (06 R150, R151). -/
def decVcvt (F b a d : Nat) : Except Illegal Instr :=
  inClass d 16 <| inClass a 16 <|
  match F % 16 with
  | 0 => options (fld F 9 1) (code (cvtOf (fld F 4 4)) .option fun k =>
      inClass b 16 (.ok (.vcvt k (bit F 8) (b4 d) (b4 a) (b4 b))))
  | 1 => options (F / 16) (unused b (.vq8b (b4 d) (b4 a)))
  | 2 => options (F / 16) (inClass b 16 (.ok (.vdq8b (b4 d) (b4 a) (b4 b))))
  | 3 => options (F / 16) (inClass b 16 (.ok (.vmx8 (b4 d) (b4 a) (b4 b))))
  | 4 => options (fld F 5 5) (inClass b 16 (.ok (.vtern (bit F 4) (b4 d) (b4 a) (b4 b))))
  | 5 => options (F / 16) (inClass b 16 (.ok (.vthr (b4 d) (b4 a) (b4 b))))
  | 6 => options (F / 16) (inClass b 16 (.ok (.vtrpk (b4 d) (b4 a) (b4 b))))
  | 7 => options (F / 16) (.ok (.vtrunpk (b4 d) (b4 a) (b5 b)))
  | _ => .error .index

/-- VMOV, layout S (06 R159). -/
def decVmov (F b a d : Nat) : Except Illegal Instr :=
  let s (f : Lane → Except Illegal Instr) : Except Illegal Instr := code (laneOf (F % 4)) .size f
  match F / 4 with
  | 0 => s fun z => inClass d 16 (unused b (.vsplat z (b4 d) (b5 a)))
  | 1 => s fun z => inClass a 16 (.ok (.vext z (b5 d) (b4 a) (b5 b)))
  | 2 => s fun z => inClass d 16 (.ok (.vins z (b4 d) (b5 a) (b5 b)))
  | 3 => s fun z => vvv b a d (.ok (.vshuf z (b4 d) (b4 a) (b4 b)))
  | 4 => s fun z => vvv b a d (.ok (.vzip z (b4 d) (b4 a) (b4 b)))
  | 5 => s fun z => vvv b a d (.ok (.vuzp z (b4 d) (b4 a) (b4 b)))
  | 6 => if F % 4 = 0 then vvv b a d (.ok (.vsel (b4 d) (b4 a) (b4 b))) else .error .size
  | 7 => if F % 4 = 0 then vvv b a d (unused b (.vmv (b4 d) (b4 a))) else .error .size
  | _ => .error .index

/-- LMEM, layout O without option bits (05 R122). -/
def decLmem (F b a d : Nat) : Except Illegal Instr :=
  match F with
  | 0 => .ok (.lcopy (b5 d) (b5 a) (b5 b))
  | 1 => .ok (.lfill (b5 d) (b5 a) (b5 b))
  | _ => .error .index

/-- CNT, layout O (05 R124 to R128). -/
def decCnt (F b a d : Nat) : Except Illegal Instr :=
  match F % 16 with
  | 0 => options (fld F 8 2) (code (scopeOf (fld F 4 3)) .option fun s =>
      inClass d 16 (inClass a 8 (.ok (.stc s (b4 d) (b3 a) (b5 b) (bit F 7)))))
  | 1 => options (fld F 9 1) (code (policyOf (fld F 7 2)) .option fun p =>
      inClass a 8 (unused d (.rcopen (b3 (F / 16)) (b3 a) (b5 b) p)))
  | 2 => options (fld F 7 3) (unused (a + b) (.rcclose (b5 d) (b3 (F / 16))))
  | 3 => options (fld F 9 1) (code (scopeOf (fld F 4 3)) .option fun s =>
      inClass a 8 (unused (d + b) (.rcdec (bit F 8) s (b3 a) (bit F 7))))
  | 4 => options (F / 16) (inClass a 8 (unused b (.rcpeek (b5 d) (b3 a))))
  | _ => .error .index

/-- FAR, layout O (05 R129). -/
def decFar (F b a d : Nat) : Except Illegal Instr :=
  options (fld F 8 2) <|
  match F % 16 with
  | 0 => options (fld F 5 2) (inClass a 8 (.ok (.get (b5 d) (b3 a) (b5 b) (bit F 7) (bit F 4))))
  | 1 => options (fld F 4 1) (inClass a 8 (.ok (.put (b5 d) (b3 a) (b5 b) (bit F 7) (bit F 6) (bit F 5))))
  | 2 => options (fld F 5 2) (inClass a 8 (.ok (.getx (b5 d) (b3 a) (b5 b) (bit F 7) (bit F 4))))
  | 3 => options (fld F 4 3) (inClass a 8 (.ok (.putx (b5 d) (b3 a) (b5 b) (bit F 7))))
  | 4 => options (fld F 4 4) (unused (d + a + b) .fwait)
  | _ => .error .index

/-- ATOM (03 R74). -/
def decAtom (F b a d : Nat) : Except Illegal Instr :=
  let v := bit F 5
  let o := atomOrdOf (fld F 3 2)
  inClass a 8 <| code (scopeOf (F % 8)) .option fun s =>
  match F / 64 with
  | 0 => .ok (.rmwadd v o s (b5 d) (b3 a) (b5 b)) | 1 => .ok (.rmwand v o s (b5 d) (b3 a) (b5 b))
  | 2 => .ok (.rmwor v o s (b5 d) (b3 a) (b5 b)) | 3 => .ok (.rmwxor v o s (b5 d) (b3 a) (b5 b))
  | 4 => .ok (.rmwmin v o s (b5 d) (b3 a) (b5 b)) | 5 => .ok (.rmwmax v o s (b5 d) (b3 a) (b5 b))
  | 6 => .ok (.rmwminu v o s (b5 d) (b3 a) (b5 b)) | 7 => .ok (.rmwmaxu v o s (b5 d) (b3 a) (b5 b))
  | 8 => .ok (.rmwswap v o s (b5 d) (b3 a) (b5 b))
  | 9 => options (fld F 5 1) (.ok (.rmwcas o s (b5 d) (b3 a) (b5 b)))
  | 10 => options (fld F 5 1) (.ok (.rmwdec o s (b5 d) (b3 a) (b5 b)))
  | _ => .error .index

/-- FENCE (03 R76): f3 is the scope. -/
def decFence (imm f3 a d : Nat) : Except Illegal Instr :=
  code (scopeOf f3) .option fun s =>
  unused (imm % 16 + a + d) (.fence s (b4 (imm / 256)) (b4 (imm / 16)))

/-- MAT, layout O (07 R174). -/
def decMat (F b a d : Nat) : Except Illegal Instr :=
  match F % 16 with
  | 0 => options (fld F 7 3) (code (loadModeOf (fld F 5 2)) .option fun m =>
      inClass a 8 (inClass b 8 (.ok (.mwld m (b1 (F / 16)) (b5 d) (b3 a) (b3 b)))))
  | 1 => code (roundOf (fld F 4 2)) .option fun r =>
      inClass a 8 (inClass b 8 (.ok (.mrun r (bit F 6) (bit F 7) (bit F 8) (b1 (F / 512)) (b5 d) (b3 a) (b3 b))))
  | 2 => options (F / 16) (inClass b 8 (unused d (.macz (b3 b) (b5 a))))
  | 3 => options (fld F 7 3) (code (drainOf (fld F 4 3)) .option fun t =>
      inClass a 8 (inClass b 8 (.ok (.mdrain t (b5 d) (b3 a) (b3 b)))))
  | 4 => options (fld F 5 5) (inClass a 8 (inClass b 8 (unused d (.macc (bit F 4) (b3 b) (b3 a)))))
  | 5 => options (fld F 5 5) (unused (a + b) (.mstat (b5 d) (b1 (F / 16))))
  | 6 => options (F / 16) (unused (d + b) (.mfmt (b5 a)))
  | 7 => options (F / 16) (inClass a 8 (.ok (.mcmd (b5 d) (b3 a) (b5 b))))
  | 8 => options (fld F 7 3) (unused (d + b) (.mcap (b3 (F / 16)) (b5 a)))
  | 9 => options (fld F 6 4) (code (whatOf (fld F 4 2)) .option fun w =>
      inClass a 8 (inClass b 8 (.ok (.msave w (b5 d) (b3 a) (b3 b)))))
  | 10 => options (fld F 6 4) (code (whatOf (fld F 4 2)) .option fun w =>
      inClass a 8 (inClass b 8 (.ok (.mrest w (b5 d) (b3 a) (b3 b)))))
  | _ => .error .index

/-- MSG, layout O without option bits (08 R197). -/
def decMsg (F b a d : Nat) : Except Illegal Instr :=
  match F with
  | 0 => unused d (.send (b5 a) (b5 b)) | 1 => .ok (.sendw (b5 d) (b5 a) (b5 b))
  | 2 => .ok (.spawn (b5 d) (b5 a) (b5 b)) | 3 => .ok (.callat (b5 d) (b5 a) (b5 b))
  | 4 => unused (d + b) (.reply (b5 a)) | 5 => unused d (.start (b5 a) (b5 b))
  | _ => .error .index

/-- TASK, layout O (08 R205). -/
def decTask (F b a d : Nat) : Except Illegal Instr :=
  match F % 16 with
  | 0 => options (F / 16) (unused (d + a + b) .done)
  | 1 => options (F / 16) (unused (d + a + b) .commit)
  | 2 => options (fld F 7 3) (unused (a + b) (.tmsg (b5 d) (b3 (F / 16))))
  | 3 => options (F / 16) (unused d (.waitf (b5 a) (b5 b)))
  | _ => .error .index

/-- BAR, layout O (08 R210). -/
def decBar (F b a d : Nat) : Except Illegal Instr :=
  match F % 16 with
  | 0 => options (F / 16) (unused d (.barinit (b5 a) (b5 b)))
  | 1 => options (F / 16) (.ok (.bararr (b5 d) (b5 a) (b5 b)))
  | 2 => options (F / 16) (.ok (.barwait (b5 d) (b5 a) (b5 b)))
  | 3 => options (F / 16) (.ok (.bardrop (b5 d) (b5 a) (b5 b)))
  | 4 => options (fld F 5 5) (unused b (.bartest (b5 d) (b5 a) (bit F 4)))
  | _ => .error .index

/-- ENG, layout O (08 R215). -/
def decEng (F b a d : Nat) : Except Illegal Instr :=
  match F % 16 with
  | 0 => options (F / 16) (unused b (.kick (b5 d) (b5 a)))
  | 1 => options (F / 16) (unused b (.keep (b5 d) (b5 a)))
  | 2 => options (fld F 5 5) (unused b (.ktest (b5 d) (b5 a) (bit F 4)))
  | _ => .error .index

/-- SYS, layout O (08 R219). -/
def decSys (F b a d : Nat) : Except Illegal Instr :=
  match F % 16 with
  | 0 => unused (a + b) (.mfs (b5 d) (b6 (F / 16)))
  | 1 => if F / 16 = 63 then code (classOf d) .regClass fun c => unused b (.clr c (b5 a))
         else unused (d + b) (.mts (b6 (F / 16)) (b5 a))
  | 2 => options (F / 16) (unused d (.trap (b5 a) (b5 b)))
  | 3 => options (F / 16) (unused (d + b) (.svc (b5 a)))
  | 4 => options (F / 16) (unused (d + a + b) .tret)
  | 5 => options (F / 16) (unused (d + a + b) .idle)
  | 6 => unused (d + a + b) (.brk (b6 (F / 16)))
  | 7 => options (F / 16) (unused d (.bmode (b5 a) (b5 b)))
  | 8 => options (F / 16) (inClass a 8 (unused d (.l2wb (b3 a) (b5 b))))
  | 9 => options (fld F 5 5) (inClass a 8 (unused d (.l2inv (b3 a) (b5 b) (bit F 4))))
  | 10 => options (F / 16) (unused (a + b) (.rdtime (b5 d)))
  | 11 => options (F / 16) (unused (d + a + b) .isync)
  | 12 => options (F / 16) (unused (d + b) (.skey (b5 a)))
  | _ => .error .index

/-- A 32-bit word by its major opcode (03 R64, R72), before the checks of `wellFormed`. -/
def decRaw32 (w : Nat) : Except Illegal Instr :=
  let F := fld w 22 10
  let b := fld w 17 5
  let a := fld w 12 5
  let d := fld w 7 5
  let imm := fld w 20 12
  let f3 := fld w 17 3
  let sImm := fld w 25 7 + fld w 7 5 * 128
  let sF3 := fld w 22 3
  match fld w 1 6 with
  | 0x01 => decOpr F b a d
  | 0x02 => decOpi imm f3 a d
  | 0x03 => .ok (.lui (b5 (fld w 27 5)) (BitVec.ofNat 20 (fld w 7 20)))
  | 0x04 => .ok (.aui (b5 (fld w 27 5)) (BitVec.ofNat 20 (fld w 7 20)))
  | 0x05 => decLdg imm f3 a d
  | 0x06 => decStg sImm sF3 b a
  | 0x07 => decMemp F b a d
  | 0x08 => decBr sImm sF3 b a
  | 0x09 => .ok (.call (BitVec.ofNat 25 (fld w 7 25)))
  | 0x0A => .ok (.j (BitVec.ofNat 25 (fld w 7 25)))
  | 0x0B => decJind imm f3 a d
  | 0x0C => decRep imm f3 a d
  | 0x0D => decPtr F b a d
  | 0x0E => decBits F b a d
  | 0x0F => decVint F b a d
  | 0x10 => decVflt F b a d
  | 0x11 => decVcvt F b a d
  | 0x12 => decVmov F b a d
  | 0x13 => decLmem F b a d
  | 0x14 => decCnt F b a d
  | 0x15 => decFar F b a d
  | 0x16 => decAtom F b a d
  | 0x17 => decFence imm f3 a d
  | 0x18 => decMat F b a d
  | 0x19 => decMsg F b a d
  | 0x1A => decTask F b a d
  | 0x1B => decBar F b a d
  | 0x1C => decEng F b a d
  | 0x1D => decSys F b a d
  | _ => .error .major

/-- A halfword by its cop (03 R66), before the field rules of `wellFormed`. -/
def decRaw16 (h : Nat) : Except Illegal Instr :=
  let b := fld h 11 5
  let d := fld h 6 5
  match fld h 1 5 with
  | 1 => .ok (.hMv (b5 d) (b5 b)) | 2 => .ok (.hLi (b5 d) (b5 b)) | 3 => .ok (.hAddi (b5 d) (b5 b))
  | 4 => .ok (.hAdd (b5 d) (b5 b)) | 5 => .ok (.hSub (b5 d) (b5 b)) | 6 => .ok (.hAnd (b5 d) (b5 b))
  | 7 => .ok (.hOr (b5 d) (b5 b)) | 8 => .ok (.hXor (b5 d) (b5 b)) | 9 => .ok (.hShl (b5 d) (b5 b))
  | 10 => .ok (.hShr (b5 d) (b5 b)) | 11 => .ok (.hAsr (b5 d) (b5 b)) | 12 => .ok (.hLdw (b5 d) (b5 b))
  | 13 => .ok (.hStw (b5 d) (b5 b)) | 14 => .ok (.hBz (b5 d) (b5 b)) | 15 => .ok (.hBnz (b5 d) (b5 b))
  | 16 => .ok (.hJ (BitVec.ofNat 10 (fld h 6 10)))
  | 17 => unused (d + b) .hRet | 18 => unused (d + b) .hDone | 19 => unused (d + b) .hCommit
  | 20 => unused (d + b) .hNop
  | 21 => .ok (.hNeg (b5 d) (b5 b))
  | _ => .error .compact

/-- Keep a decoded term only where it is well formed (03 R69, R78). -/
def vetted (r : Except Illegal Instr) : Except Illegal Instr :=
  match r with
  | .ok i => if wellFormed i then .ok i else .error .illFormed
  | .error e => .error e

/-- Whether a first halfword is a whole instruction (03 R62). -/
def isCompact (h : Nat) : Bool := h % 2 == 0

/-- The instruction a word names: a halfword with bit 0 = 0, or a 32-bit word with bit 0 = 1 (03 R62). -/
def decode (w : Nat) : Except Illegal Instr :=
  if isCompact w then vetted (decRaw16 (w % 65536)) else vetted (decRaw32 (w % 4294967296))

/-- The decoder over bytes in memory order: the instruction and the bytes after it (03 R62, 00 R11). -/
def decodeBytes : List Byte → Except Illegal (Instr × List Byte)
  | b0 :: b1 :: rest =>
    let h := b0.toNat + 256 * b1.toNat
    if isCompact h then (decode h).map fun i => (i, rest)
    else
      match rest with
      | b2 :: b3 :: rest' => (decode (h + 65536 * (b2.toNat + 256 * b3.toNat))).map fun i => (i, rest')
      | _ => .error .major
  | _ => .error .major

/-- The bytes of a number, least significant first (00 R11). -/
def leBytes : Nat → Nat → List Byte
  | 0, _ => []
  | k + 1, n => BitVec.ofNat 8 n :: leBytes k (n / 256)

/-- What the decoder reads from an instruction whose bits are `w` in `nbits` bits, the bits above being 0. -/
def decodeTableWord (_nbits w : Nat) : Option Instr :=
  match decodeBytes (leBytes 4 w) with
  | .ok (i, _) => some i
  | .error _ => none

/-- R and M forms (03 R64). -/
def encR (maj F b a d : Nat) : Nat := F * 4194304 + b * 131072 + a * 4096 + d * 128 + maj * 2 + 1
/-- I form (03 R64). -/
def encI (maj imm f3 a d : Nat) : Nat := imm * 1048576 + f3 * 131072 + a * 4096 + d * 128 + maj * 2 + 1
/-- S form (03 R64). -/
def encS (maj imm f3 b a : Nat) : Nat :=
  (imm % 128) * 33554432 + f3 * 4194304 + b * 131072 + a * 4096 + (imm / 128) * 128 + maj * 2 + 1
/-- U form (03 R64). -/
def encU (maj d imm : Nat) : Nat := d * 134217728 + imm * 128 + maj * 2 + 1
/-- J form (03 R64). -/
def encJ (maj imm : Nat) : Nat := imm * 128 + maj * 2 + 1
/-- 16-bit form (03 R66). -/
def encH (cop d b : Nat) : Nat := b * 2048 + d * 64 + cop * 2

/-- F of MEMP (03 R73). -/
def memF (kind : Nat) (ord : MemOrd) (scope : BitVec 2) (cons post : Bool) : Nat :=
  scope.toNat * 256 + memOrdCode ord * 64 + boolCode cons * 32 + boolCode post * 16 + kind

/-- F of ATOM (03 R74). -/
def atomF (op : Nat) (vec : Bool) (ord : AtomOrd) (scope : Scope) : Nat :=
  op * 64 + boolCode vec * 32 + atomOrdCode ord * 8 + scopeCode scope

def encOpr (F : Nat) (d a b : BitVec 5) : Nat := encR 0x01 F b.toNat a.toNat d.toNat
def encOpi (f3 : Nat) (d a : BitVec 5) (imm : BitVec 12) : Nat := encI 0x02 imm.toNat f3 a.toNat d.toNat
def encLdg (f3 : Nat) (d a : BitVec 5) (imm : BitVec 12) : Nat := encI 0x05 imm.toNat f3 a.toNat d.toNat
def encStg (f3 : Nat) (b a : BitVec 5) (imm : BitVec 12) : Nat := encS 0x06 imm.toNat f3 b.toNat a.toNat
def encBr (f3 : Nat) (a b : BitVec 5) (imm : BitVec 12) : Nat := encS 0x08 imm.toNat f3 b.toNat a.toNat
def encMem {w : Nat} (F : Nat) (d : BitVec w) (a : BitVec 3) : Nat := encR 0x07 F 0 a.toNat d.toNat
def encV {w x y : Nat} (maj F : Nat) (d : BitVec w) (a : BitVec x) (b : BitVec y) : Nat :=
  encR maj F b.toNat a.toNat d.toNat
def encVi (idx : Nat) (z : Lane) (d a b : BitVec 4) : Nat := encV 0x0F (idx * 4 + laneCode z) d a b
def encVf (idx : Nat) (z : FLane) (d a b : BitVec 4) : Nat := encV 0x10 (idx * 4 + flaneCode z) d a b
def encG (maj F : Nat) (d a b : BitVec 5) : Nat := encR maj F b.toNat a.toNat d.toNat
def encA (op : Nat) (vec : Bool) (o : AtomOrd) (s : Scope) (d : BitVec 5) (a : BitVec 3) (b : BitVec 5) : Nat :=
  encR 0x16 (atomF op vec o s) b.toNat a.toNat d.toNat

/-- The word of a coded instruction, from the same tables; none for the machine's other steps. -/
def encode : Instr → Option Nat
  | .add d a b => some (encOpr 0 d a b) | .sub d a b => some (encOpr 1 d a b)
  | .and d a b => some (encOpr 2 d a b) | .or d a b => some (encOpr 3 d a b)
  | .xor d a b => some (encOpr 4 d a b) | .andn d a b => some (encOpr 5 d a b)
  | .orn d a b => some (encOpr 6 d a b) | .sll d a b => some (encOpr 7 d a b)
  | .srl d a b => some (encOpr 8 d a b) | .sra d a b => some (encOpr 9 d a b)
  | .rol d a b => some (encOpr 10 d a b) | .ror d a b => some (encOpr 11 d a b)
  | .slt d a b => some (encOpr 12 d a b) | .sltu d a b => some (encOpr 13 d a b)
  | .min d a b => some (encOpr 14 d a b) | .max d a b => some (encOpr 15 d a b)
  | .minu d a b => some (encOpr 16 d a b) | .maxu d a b => some (encOpr 17 d a b)
  | .mul d a b => some (encOpr 18 d a b) | .mulh d a b => some (encOpr 19 d a b)
  | .mulhu d a b => some (encOpr 20 d a b) | .div d a b => some (encOpr 21 d a b)
  | .divu d a b => some (encOpr 22 d a b) | .rem d a b => some (encOpr 23 d a b)
  | .remu d a b => some (encOpr 24 d a b)
  | .clz d a => some (encOpr 25 d a 0) | .ctz d a => some (encOpr 26 d a 0)
  | .popc d a => some (encOpr 27 d a 0) | .sextb d a => some (encOpr 28 d a 0)
  | .sexth d a => some (encOpr 29 d a 0) | .zexth d a => some (encOpr 30 d a 0)
  | .addi d a i => some (encOpi 0 d a i) | .andi d a i => some (encOpi 1 d a i)
  | .ori d a i => some (encOpi 2 d a i) | .xori d a i => some (encOpi 3 d a i)
  | .slti d a i => some (encOpi 4 d a i) | .sltiu d a i => some (encOpi 5 d a i)
  | .shi d a op n => some (encI 0x02 (shiCode op * 1024 + n.toNat) 6 a.toNat d.toNat)
  | .lui d i => some (encU 0x03 d.toNat i.toNat) | .aui d i => some (encU 0x04 d.toNat i.toNat)
  | .ldb d a i => some (encLdg 0 d a i) | .ldbu d a i => some (encLdg 1 d a i)
  | .ldh d a i => some (encLdg 2 d a i) | .ldhu d a i => some (encLdg 3 d a i)
  | .ldw d a i => some (encLdg 4 d a i)
  | .stb b a i => some (encStg 0 b a i) | .sth b a i => some (encStg 1 b a i)
  | .stw b a i => some (encStg 2 b a i)
  | .ldbPtr d a o s c p => some (encMem (memF 0 o s c p) d a)
  | .ldbuPtr d a o s c p => some (encMem (memF 1 o s c p) d a)
  | .ldhPtr d a o s c p => some (encMem (memF 2 o s c p) d a)
  | .ldhuPtr d a o s c p => some (encMem (memF 3 o s c p) d a)
  | .ldwPtr d a o s c p => some (encMem (memF 4 o s c p) d a)
  | .stbPtr d a o s p => some (encMem (memF 5 o s false p) d a)
  | .sthPtr d a o s p => some (encMem (memF 6 o s false p) d a)
  | .stwPtr d a o s p => some (encMem (memF 7 o s false p) d a)
  | .vld d a o s c p => some (encMem (memF 8 o s c p) d a)
  | .vst d a o s p => some (encMem (memF 9 o s false p) d a)
  | .vldg d a c p => some (encMem (memF 10 .relaxed 0 c p) d a)
  | .vstg d a p => some (encMem (memF 11 .relaxed 0 false p) d a)
  | .beq a b i => some (encBr 0 a b i) | .bne a b i => some (encBr 1 a b i)
  | .blt a b i => some (encBr 2 a b i) | .bge a b i => some (encBr 3 a b i)
  | .bltu a b i => some (encBr 4 a b i) | .bgeu a b i => some (encBr 5 a b i)
  | .call i => some (encJ 0x09 i.toNat) | .j i => some (encJ 0x0A i.toNat)
  | .jr a i => some (encI 0x0B i.toNat 0 a.toNat 0) | .callr a i => some (encI 0x0B i.toNat 1 a.toNat 0)
  | .ret => some (encI 0x0B 0 2 0 0)
  | .rep a => some (encI 0x0C 0 0 a.toNat 0) | .repi n => some (encI 0x0C n.toNat 1 0 0)
  | .loop a i => some (encI 0x0C i.toNat 2 a.toNat 0)
  | .loopi n i => some (encI 0x0C i.toNat 3 (n.toNat / 32) (n.toNat % 32))
  | .pset d a b => some (encV 0x0D 0 d a b)
  | .pnear d a b u => some (encV 0x0D (boolCode u * 16 + 1) d a b)
  | .pfar d a b => some (encV 0x0D 2 d a b) | .padd d a b => some (encV 0x0D 3 d a b)
  | .pwalk d a => some (encV 0x0D 4 d a (0 : BitVec 5))
  | .pget d a h => some (encV 0x0D (boolCode h * 16 + 5) d a (0 : BitVec 5))
  | .wset d a e => some (encV 0x0D (boolCode e * 16 + 6) d a (0 : BitVec 5))
  | .ext d a b => some (encG 0x0E 0 d a b) | .extu d a b => some (encG 0x0E 1 d a b)
  | .ins d a b => some (encG 0x0E 2 d a b) | .bbset a => some (encG 0x0E 3 0 a 0)
  | .bget d a => some (encG 0x0E 4 d a 0) | .bpeek d a => some (encG 0x0E 5 d a 0)
  | .bskip a => some (encG 0x0E 6 0 a 0) | .balign => some (encG 0x0E 7 0 0 0)
  | .bgetu d a => some (encG 0x0E 8 d a 0) | .hlay d a b => some (encG 0x0E 9 d a b)
  | .hpack d a b => some (encG 0x0E 10 d a b) | .hunpk d a b => some (encG 0x0E 11 d a b)
  | .vadd z d a b => some (encVi 0 z d a b) | .vsub z d a b => some (encVi 1 z d a b)
  | .vadds z d a b => some (encVi 2 z d a b) | .vsubs z d a b => some (encVi 3 z d a b)
  | .vaddus z d a b => some (encVi 4 z d a b) | .vsubus z d a b => some (encVi 5 z d a b)
  | .vmin z d a b => some (encVi 6 z d a b) | .vmax z d a b => some (encVi 7 z d a b)
  | .vminu z d a b => some (encVi 8 z d a b) | .vmaxu z d a b => some (encVi 9 z d a b)
  | .vand d a b => some (encVi 10 .b d a b) | .vor d a b => some (encVi 11 .b d a b)
  | .vxor d a b => some (encVi 12 .b d a b) | .vandn d a b => some (encVi 13 .b d a b)
  | .vsll z d a b => some (encVi 14 z d a b) | .vsrl z d a b => some (encVi 15 z d a b)
  | .vsra z d a b => some (encVi 16 z d a b) | .vceq z d a b => some (encVi 17 z d a b)
  | .vclt z d a b => some (encVi 18 z d a b) | .vcltu z d a b => some (encVi 19 z d a b)
  | .vabs z d a => some (encVi 20 z d a 0) | .vneg z d a => some (encVi 21 z d a 0)
  | .vmul z d a b => some (encVi 22 z d a b) | .vmulh z d a b => some (encVi 23 z d a b)
  | .vsum z d a => some (encVi 24 z d a 0) | .vdot4 d a b => some (encVi 25 .b d a b)
  | .vfadd z d a b => some (encVf 0 z d a b) | .vfsub z d a b => some (encVf 1 z d a b)
  | .vfmul z d a b => some (encVf 2 z d a b) | .vfma z d a b => some (encVf 3 z d a b)
  | .vfmin z d a b => some (encVf 4 z d a b) | .vfmax z d a b => some (encVf 5 z d a b)
  | .vfceq z d a b => some (encVf 6 z d a b) | .vfclt z d a b => some (encVf 7 z d a b)
  | .vfcle z d a b => some (encVf 8 z d a b) | .vfabs z d a => some (encVf 9 z d a 0)
  | .vfneg z d a => some (encVf 10 z d a 0) | .vfsum z d a => some (encVf 11 z d a 0)
  | .vfrcp z d a => some (encVf 12 z d a 0) | .vfrsq z d a => some (encVf 13 z d a 0)
  | .vcvt k r d a b => some (encV 0x11 (boolCode r * 256 + cvtCode k * 16) d a b)
  | .vq8b d a => some (encV 0x11 1 d a (0 : BitVec 4)) | .vdq8b d a b => some (encV 0x11 2 d a b)
  | .vmx8 d a b => some (encV 0x11 3 d a b)
  | .vtern sr d a b => some (encV 0x11 (boolCode sr * 16 + 4) d a b)
  | .vthr d a b => some (encV 0x11 5 d a b) | .vtrpk d a b => some (encV 0x11 6 d a b)
  | .vtrunpk d a b => some (encV 0x11 7 d a b)
  | .vsplat z d a => some (encV 0x12 (laneCode z) d a (0 : BitVec 5))
  | .vext z d a n => some (encV 0x12 (4 + laneCode z) d a n)
  | .vins z d a n => some (encV 0x12 (8 + laneCode z) d a n)
  | .vshuf z d a b => some (encV 0x12 (12 + laneCode z) d a b)
  | .vzip z d a b => some (encV 0x12 (16 + laneCode z) d a b)
  | .vuzp z d a b => some (encV 0x12 (20 + laneCode z) d a b)
  | .vsel d a b => some (encV 0x12 24 d a b) | .vmv d a => some (encV 0x12 28 d a (0 : BitVec 4))
  | .lcopy d a b => some (encG 0x13 0 d a b) | .lfill d a b => some (encG 0x13 1 d a b)
  | .stc s d a b p => some (encV 0x14 (boolCode p * 128 + scopeCode s * 16) d a b)
  | .rcopen n a b pol => some (encV 0x14 (policyCode pol * 128 + n.toNat * 16 + 1) (0 : BitVec 5) a b)
  | .rcclose d n => some (encG 0x14 (n.toNat * 16 + 2) d 0 0)
  | .rcdec r s a p => some (encV 0x14 (boolCode r * 256 + boolCode p * 128 + scopeCode s * 16 + 3) (0 : BitVec 5) a (0 : BitVec 5))
  | .rcpeek d a => some (encV 0x14 4 d a (0 : BitVec 5))
  | .get d a b t c => some (encV 0x15 (boolCode t * 128 + boolCode c * 16) d a b)
  | .put d a b t n h => some (encV 0x15 (boolCode t * 128 + boolCode n * 64 + boolCode h * 32 + 1) d a b)
  | .getx d a b t c => some (encV 0x15 (boolCode t * 128 + boolCode c * 16 + 2) d a b)
  | .putx d a b t => some (encV 0x15 (boolCode t * 128 + 3) d a b)
  | .fwait => some (encG 0x15 4 0 0 0)
  | .rmwadd v o s d a b => some (encA 0 v o s d a b) | .rmwand v o s d a b => some (encA 1 v o s d a b)
  | .rmwor v o s d a b => some (encA 2 v o s d a b) | .rmwxor v o s d a b => some (encA 3 v o s d a b)
  | .rmwmin v o s d a b => some (encA 4 v o s d a b) | .rmwmax v o s d a b => some (encA 5 v o s d a b)
  | .rmwminu v o s d a b => some (encA 6 v o s d a b) | .rmwmaxu v o s d a b => some (encA 7 v o s d a b)
  | .rmwswap v o s d a b => some (encA 8 v o s d a b)
  | .rmwcas o s d a b => some (encA 9 false o s d a b) | .rmwdec o s d a b => some (encA 10 false o s d a b)
  | .fence s p q => some (encI 0x17 (p.toNat * 256 + q.toNat * 16) (scopeCode s) 0 0)
  | .mwld m n d a b => some (encV 0x18 (loadModeCode m * 32 + n.toNat * 16) d a b)
  | .mrun r o c g n d a b =>
    some (encV 0x18 (n.toNat * 512 + boolCode g * 256 + boolCode c * 128 + boolCode o * 64 + roundCode r * 16 + 1) d a b)
  | .macz b a => some (encV 0x18 2 (0 : BitVec 5) a b)
  | .mdrain t d a b => some (encV 0x18 (drainCode t * 16 + 3) d a b)
  | .macc r b a => some (encV 0x18 (boolCode r * 16 + 4) (0 : BitVec 5) a b)
  | .mstat d n => some (encG 0x18 (n.toNat * 16 + 5) d 0 0)
  | .mfmt a => some (encG 0x18 6 0 a 0) | .mcmd d a b => some (encV 0x18 7 d a b)
  | .mcap n a => some (encG 0x18 (n.toNat * 16 + 8) 0 a 0)
  | .msave w d a b => some (encV 0x18 (whatCode w * 16 + 9) d a b)
  | .mrest w d a b => some (encV 0x18 (whatCode w * 16 + 10) d a b)
  | .send a b => some (encG 0x19 0 0 a b) | .sendw d a b => some (encG 0x19 1 d a b)
  | .spawn d a b => some (encG 0x19 2 d a b) | .callat d a b => some (encG 0x19 3 d a b)
  | .reply a => some (encG 0x19 4 0 a 0) | .start a b => some (encG 0x19 5 0 a b)
  | .done => some (encG 0x1A 0 0 0 0) | .commit => some (encG 0x1A 1 0 0 0)
  | .tmsg d n => some (encG 0x1A (n.toNat * 16 + 2) d 0 0) | .waitf a b => some (encG 0x1A 3 0 a b)
  | .barinit a b => some (encG 0x1B 0 0 a b) | .bararr d a b => some (encG 0x1B 1 d a b)
  | .barwait d a b => some (encG 0x1B 2 d a b) | .bardrop d a b => some (encG 0x1B 3 d a b)
  | .bartest d a e => some (encG 0x1B (boolCode e * 16 + 4) d a 0)
  | .kick d a => some (encG 0x1C 0 d a 0) | .keep d a => some (encG 0x1C 1 d a 0)
  | .ktest d a k => some (encG 0x1C (boolCode k * 16 + 2) d a 0)
  | .mfs d r => some (encG 0x1D (r.toNat * 16) d 0 0) | .mts r a => some (encG 0x1D (r.toNat * 16 + 1) 0 a 0)
  | .clr c a => some (encR 0x1D 1009 0 a.toNat (classCode c))
  | .trap a b => some (encG 0x1D 2 0 a b) | .svc a => some (encG 0x1D 3 0 a 0)
  | .tret => some (encG 0x1D 4 0 0 0) | .idle => some (encG 0x1D 5 0 0 0)
  | .brk n => some (encG 0x1D (n.toNat * 16 + 6) 0 0 0) | .bmode a b => some (encG 0x1D 7 0 a b)
  | .l2wb a b => some (encV 0x1D 8 (0 : BitVec 5) a b)
  | .l2inv a b x => some (encV 0x1D (boolCode x * 16 + 9) (0 : BitVec 5) a b)
  | .rdtime d => some (encG 0x1D 10 d 0 0) | .isync => some (encG 0x1D 11 0 0 0)
  | .skey a => some (encG 0x1D 12 0 a 0)
  | .hMv d b => some (encH 1 d.toNat b.toNat) | .hLi d b => some (encH 2 d.toNat b.toNat)
  | .hAddi d b => some (encH 3 d.toNat b.toNat) | .hAdd d b => some (encH 4 d.toNat b.toNat)
  | .hSub d b => some (encH 5 d.toNat b.toNat) | .hAnd d b => some (encH 6 d.toNat b.toNat)
  | .hOr d b => some (encH 7 d.toNat b.toNat) | .hXor d b => some (encH 8 d.toNat b.toNat)
  | .hShl d b => some (encH 9 d.toNat b.toNat) | .hShr d b => some (encH 10 d.toNat b.toNat)
  | .hAsr d b => some (encH 11 d.toNat b.toNat) | .hLdw d b => some (encH 12 d.toNat b.toNat)
  | .hStw d b => some (encH 13 d.toNat b.toNat) | .hBz d b => some (encH 14 d.toNat b.toNat)
  | .hBnz d b => some (encH 15 d.toNat b.toNat) | .hJ i => some (i.toNat * 64 + 32)
  | .hRet => some (encH 17 0 0) | .hDone => some (encH 18 0 0) | .hCommit => some (encH 19 0 0)
  | .hNop => some (encH 20 0 0) | .hNeg d b => some (encH 21 d.toNat b.toNat)
  | .illegalInstruction w => some w.toNat
  | _ => none

/-- The word an ILL of this instruction reports (03 R78). -/
def wordOf (i : Instr) : W32 := BitVec.ofNat 32 ((encode i).getD 0)

/-- The length of an instruction in bytes (03 R62). -/
def lengthOf (i : Instr) : Nat :=
  match encode i with
  | some w => if isCompact w then 2 else 4
  | none => 4

end Sys2Proof
end

