-- ==== Sys2Proof/Machine/Map.lean ====
section
/-! DEFINITION. Operations on the maps of the state: read with a default, write in key order, erase. -/

namespace Sys2Proof.Machine

/-- The value at `k`, or `d` where the map lists none. -/
def mget {α : Type} (d : α) : SMap α → Nat → α
  | [], _ => d
  | (k', v) :: t, k => if k' = k then v else mget d t k

/-- The value at `k` where the map lists one. -/
def mfind {α : Type} : SMap α → Nat → Option α
  | [], _ => none
  | (k', v) :: t, k => if k' = k then some v else mfind t k

/-- The map without its entries at `k`. -/
def mdel {α : Type} : SMap α → Nat → SMap α
  | [], _ => []
  | (k', v) :: t, k => if k' = k then mdel t k else (k', v) :: mdel t k

/-- Put an entry before the first greater key. -/
def mins {α : Type} (k : Nat) (v : α) : SMap α → SMap α
  | [] => [(k, v)]
  | (k', v') :: t => if k < k' then (k, v) :: (k', v') :: t else (k', v') :: mins k v t

/-- Write `v` at `k`. -/
def mput {α : Type} (m : SMap α) (k : Nat) (v : α) : SMap α := mins k v (mdel m k)

/-- Write `v` at `k` in canonical form: the default is not listed. -/
def mset {α : Type} [DecidableEq α] (d : α) (m : SMap α) (k : Nat) (v : α) : SMap α :=
  if v = d then mdel m k else mput m k v

/-- Keys strictly rising and no entry equal to the default. -/
def mwf {α : Type} [DecidableEq α] (d : α) : SMap α → Bool
  | [] => true
  | [(_, v)] => !decide (v = d)
  | (k, v) :: (k', v') :: t => !decide (v = d) && decide (k < k') && mwf d ((k', v') :: t)

/-- The entries with keys in [lo, lo + n), the keys counted from `lo`. -/
def mslice {α : Type} (m : SMap α) (lo n : Nat) : SMap α :=
  (m.filter fun e => decide (lo ≤ e.1 ∧ e.1 < lo + n)).map fun e => (e.1 - lo, e.2)

/-- The map without its entries in [lo, lo + n). -/
def mclear {α : Type} (m : SMap α) (lo n : Nat) : SMap α :=
  m.filter fun e => !decide (lo ≤ e.1 ∧ e.1 < lo + n)

/-- Write every entry of `src`, its keys counted from `lo`. -/
def mpaste {α : Type} (m : SMap α) (lo : Nat) (src : SMap α) : SMap α :=
  src.foldl (fun a e => mput a (lo + e.1) e.2) m

/-- The memory's canonical form. -/
def Memory.wf (m : Mem) : Bool := mwf 0#8 m

end Sys2Proof.Machine
end

