-- ==== Sys2Proof/Machine/Store.lean ====
section
/-! DEFINITION. Accessors of the state: cores, contexts, registers, and the bytes and lines of every memory. -/

namespace Sys2Proof.Machine

/-! ## Coordinates (00 R6 to R9) -/

/-- Basin of a core (R7). -/
def basinOf (n : Nat) : Nat := n / 8
/-- Die of a basin (R7). -/
def dieOf (b : Nat) : Nat := b / 512
def rowOf (b : Nat) : Nat := b / 32 % 16
def colOf (b : Nat) : Nat := b % 32
/-- Quay core of a basin's quadrant (R9). -/
def quayOf (b : Nat) : Nat := dieOf b * 4 + 2 * (rowOf b / 8) + colOf b / 16
/-- Island of a basin (R10). -/
def islandOf (b : Nat) : Nat := dieOf b * 16 + rowOf b / 4 * 4 + colOf b / 8

/-! ## Cores, contexts, basins, quay cores -/

def State.getCore (s : State) (n : Nat) : Core := mget {} s.cores n
def State.setCore (s : State) (n : Nat) (k : Core) : State := { s with cores := mput s.cores n k }
def Core.getCtx (k : Core) (c : Nat) : Ctx := mget {} k.ctxs c
def Core.setCtx (k : Core) (c : Nat) (x : Ctx) : Core := { k with ctxs := mput k.ctxs c x }
def State.getCtx (s : State) (n c : Nat) : Ctx := (s.getCore n).getCtx c
def State.setCtx (s : State) (n c : Nat) (x : Ctx) : State := s.setCore n ((s.getCore n).setCtx c x)

/-- The issuing context. -/
def State.cur (s : State) : Ctx := s.getCtx s.core s.ctx
def State.setCur (s : State) (x : Ctx) : State := s.setCtx s.core s.ctx x
/-- The issuing core. -/
def State.me (s : State) : Core := s.getCore s.core
def State.setMe (s : State) (k : Core) : State := s.setCore s.core k

def State.getBasin (s : State) (b : Nat) : Basin := mget {} s.basins b
def State.setBasin (s : State) (b : Nat) (x : Basin) : State := { s with basins := mput s.basins b x }
def State.getQuay (s : State) (q : Nat) : Quay := mget {} s.quays q
def State.setQuay (s : State) (q : Nat) (x : Quay) : State := { s with quays := mput s.quays q x }
def State.getObj (s : State) (h : Nat) : WorkObj := mget {} s.objs h
def State.setObj (s : State) (h : Nat) (x : WorkObj) : State := { s with objs := mput s.objs h x }
def State.getBar (s : State) (i : Nat) : Barrier := mget {} s.bars i
def State.setBar (s : State) (i : Nat) (x : Barrier) : State := { s with bars := mset {} s.bars i x }

/-- The launch a handle names, where there is one. -/
def State.launchOf (s : State) (h : Nat) : Option Launch := (s.getObj h).launch
def State.setLaunch (s : State) (h : Nat) (l : Launch) : State := s.setObj h { s.getObj h with launch := some l }
/-- The record of the launch on a core; the fields of an empty record where none runs. -/
def State.recOf (s : State) (n : Nat) : LaunchRec :=
  match (s.getCore n).launch with
  | some h => match s.launchOf h with
    | some l => l.lrec
    | none => {}
  | none => {}

/-- The core set of a record (14 R315). -/
def LaunchRec.hasBasin (r : LaunchRec) (b : Nat) : Bool :=
  decide (r.d0 ≤ dieOf b ∧ dieOf b ≤ r.d1 ∧ r.r0 ≤ rowOf b ∧ rowOf b ≤ r.r1 ∧ r.c0 ≤ colOf b ∧ colOf b ≤ r.c1)
def LaunchRec.hasCore (r : LaunchRec) (n : Nat) : Bool := decide (n < 16384) && r.hasBasin (basinOf n)

/-! ## Registers (01 R27 to R34), named by their FOVREG id -/

def gid (r : BitVec 5) : Nat := r.toNat
def vid (r : BitVec 4) : Nat := 32 + r.toNat
def pid (r : BitVec 3) : Nat := 64 + r.toNat
def wid (r : BitVec 3) : Nat := 96 + r.toNat
def eid (n : Nat) : Nat := 128 + n
/-- The bit buffer, the link store and the rest of granule g0-7 (RC, LS, LE, PROG, FFLAGS, FRM, SRKEY, SRSEQ, REGSTATE)
have no state but absent (01 R27, 15 R344). -/
def bbId : Nat := 160
def linkId : Nat := 161
def repeatId : Nat := 162

/-- The state of a register; g0 is always full (R29). -/
def Ctx.regState (x : Ctx) (id : Nat) : RegState := if id = 0 then .full else mget .full x.rst id
def Ctx.setRegState (x : Ctx) (id : Nat) (r : RegState) : Ctx :=
  if id = 0 then x else { x with rst := mset .full x.rst id r }

def Ctx.rg (x : Ctx) (r : BitVec 5) : W32 := if r = 0 then 0 else mget 0 x.g r.toNat
def Ctx.rv (x : Ctx) (r : BitVec 4) : W128 := mget 0 x.v r.toNat
def Ctx.rp (x : Ctx) (r : BitVec 3) : W64 := mget 0 x.p r.toNat
def Ctx.rw (x : Ctx) (r : BitVec 3) : W32 := mget 0 x.w r.toNat
def Ctx.re (x : Ctx) (n : Nat) : W32 := mget 0 x.e n

/-- Set the value and make the register full; a write to g0 is discarded (R29, R30). -/
def Ctx.write (x : Ctx) (id : Nat) (v : W128) : Ctx :=
  let n := id % 32
  if id = 0 then x else
  { (match id / 32 with
     | 0 => { x with g := mset 0 x.g n (v.truncate 32) }
     | 1 => { x with v := mset 0 x.v n v }
     | 2 => { x with p := mset 0 x.p n (v.truncate 64) }
     | 3 => { x with w := mset 0 x.w n (v.truncate 32) }
     | _ => { x with e := mset 0 x.e n (v.truncate 32) } : Ctx) with rst := mset .full x.rst id .full }

def Ctx.wg (x : Ctx) (r : BitVec 5) (v : W32) : Ctx := x.write (gid r) (v.zeroExtend 128)
def Ctx.wv (x : Ctx) (r : BitVec 4) (v : W128) : Ctx := x.write (vid r) v
def Ctx.wp (x : Ctx) (r : BitVec 3) (v : W64) : Ctx := x.write (pid r) (v.zeroExtend 128)

/-- The value of a register by its id. -/
def Ctx.value (x : Ctx) (id : Nat) : W128 :=
  let n := id % 32
  if id = 0 then 0 else
  match id / 32 with
  | 0 => (mget 0 x.g n).zeroExtend 128
  | 1 => mget 0 x.v n
  | 2 => (mget 0 x.p n).zeroExtend 128
  | 3 => (mget 0 x.w n).zeroExtend 128
  | _ => (mget 0 x.e n).zeroExtend 128

/-- The issuing context's registers. -/
def State.rg (s : State) (r : BitVec 5) : W32 := s.cur.rg r
def State.rv (s : State) (r : BitVec 4) : W128 := s.cur.rv r
def State.rp (s : State) (r : BitVec 3) : W64 := s.cur.rp r
def State.re (s : State) (n : Nat) : W32 := s.cur.re n
def State.wg (s : State) (r : BitVec 5) (v : W32) : State := s.setCur (s.cur.wg r v)
def State.wv (s : State) (r : BitVec 4) (v : W128) : State := s.setCur (s.cur.wv r v)
def State.wp (s : State) (r : BitVec 3) (v : W64) : State := s.setCur (s.cur.wp r v)

/-- Key of a register in the map of register errors (18 R368). -/
def regKey (n c id : Nat) : Nat := (n * 16 + c) * 256 + id

/-- A register that is written holds its new value (18 R368). -/
def State.clearReg (s : State) (n c id : Nat) : State :=
  if s.errs.regs.isEmpty then s
  else { s with errs := { s.errs with regs := mset false s.errs.regs (regKey n c id) false } }

/-- Registers of a context that are written hold their new values (18 R368). -/
def State.clearRegsOf (s : State) (n c : Nat) (ids : List Nat) : State := ids.foldl (fun s id => s.clearReg n c id) s

/-- Results of latency 1 written at issue land in the core's next cycle (01 R25, R32): these are the g registers among
`ids` that the instruction has left full. -/
def State.markWritten (s : State) (ids : List Nat) : State :=
  { s with written := ((ids.filter fun id => decide (id ≠ 0 ∧ id < 32) && decide (s.cur.regState id = .full)).map
      (regKey s.core s.ctx)) ++ s.written }

/-- Every register of a context is written (01 R28). -/
def State.clearCtx (s : State) (n c : Nat) : State :=
  { s with errs := { s.errs with regs := mclear s.errs.regs (regKey n c 0) 256 } }

/-- The registers of granule `gr` by their ids (01 R27; 15 R344). -/
def granuleIds : Granule → List Nat
  | .g k => (List.range 8).map (k * 8 + ·) ++ if k = 0 then [repeatId] else []
  | .v k => (List.range 4).map (32 + k * 4 + ·)
  | .pw => (List.range 8).map (64 + ·) ++ (List.range 8).map (96 + ·)
  | .e => (List.range 8).map (128 + ·)
  | .bb => [160]
  | .link => [161]
  | .tile _ => []

/-! ## Keys of the one byte memory -/

/-- Local memory of core `n` (09 R231). -/
def localKey (n off : Nat) : Nat := n * 131072 + off
/-- Byte `x` of bank `k` of basin `b` (09 R234). -/
def bankKey (b k x : Nat) : Nat := 2 ^ 32 + (b * 16 + k) * 131072 + x
/-- LPDDR 6 by physical address. -/
def lpddrKey (pa : Nat) : Nat := 2 ^ 48 + pa
/-- Host memory by physical address. -/
def hostKey (pa : Nat) : Nat := 2 ^ 49 + pa

def isFarKey (k : Nat) : Bool := decide (2 ^ 48 ≤ k)
/-- The physical address of a far key. -/
def farPa (k : Nat) : Nat := if k < 2 ^ 49 then k - 2 ^ 48 else k - 2 ^ 49

/-! ## Bytes and lines -/

def leNat : List Byte → Nat
  | [] => 0
  | b :: t => b.toNat + 256 * leNat t

/-- The 64 bytes of a line value. -/
def lineBytes (d : Line) : List Byte := leBytes 64 d.toNat
def bytesLine (bs : List Byte) : Line := BitVec.ofNat 512 (leNat bs)
def bytes32 (bs : List Byte) : W32 := BitVec.ofNat 32 (leNat bs)
def bytes128 (bs : List Byte) : W128 := BitVec.ofNat 128 (leNat bs)

/-- The bytes stored from key `k` upwards, wherever no cached copy stands above them. -/
def Mem.bytes (m : Mem) (k : Nat) : Nat → List Byte
  | 0 => []
  | n + 1 => mget 0 m k :: Mem.bytes m (k + 1) n

def Mem.put (m : Mem) (k : Nat) : List Byte → Mem
  | [] => m
  | b :: t => Mem.put (mset 0 m k b) (k + 1) t

/-- The far line held at its home (09 R242), where there is one. -/
def State.farLine (s : State) (lk : Nat) : Option FarLine := mfind s.far lk

/-- A byte as its home holds it: the cached far line where there is one, else memory. -/
def State.byteAt (s : State) (k : Nat) : Byte :=
  if isFarKey k then
    match s.farLine (k / 64) with
    | some l => BitVec.ofNat 8 (l.data.toNat / 2 ^ (8 * (k % 64)))
    | none => mget 0 s.mem k
  else mget 0 s.mem k

def State.bytesAt (s : State) (k n : Nat) : List Byte := (List.range n).map fun i => s.byteAt (k + i)

/-! ## Line states and errors -/

/-- State and count of the line with this key (05 R115). -/
def State.lineState (s : State) (lk : Nat) : LineState :=
  match s.farLine lk with
  | some l => l.st
  | none => mget .plain s.lines lk

/-- A granule of `z` bytes in a map that `n` bytes from `k` touch; with `part`, one that they do not cover whole. -/
def badIn (m : SMap Bool) (z k n : Nat) (part : Bool) : Option Nat :=
  (m.find? fun e => e.2 && decide (k < e.1 * z + z ∧ e.1 * z < k + n)
    && !(part && decide (k ≤ e.1 * z ∧ e.1 * z + z ≤ k + n))).map (·.1)

/-- The first 8 bytes of an unreadable granule of a range (18 R366): 8 bytes of SRAM, 64 of LPDDR 6 (R364). -/
def State.badGranule (s : State) (k n : Nat) : Option Nat :=
  match badIn s.errs.mem 8 k n false with
  | some g => some g
  | none => (badIn s.errs.dram 64 k n false).map (· * 8)

/-- What stops a plain read of bytes that lie in one line. -/
def State.readStop (s : State) (k n : Nat) : Option Cause :=
  if s.lineState (k / 64) = .dropped then some .overread else if (s.badGranule k n).isSome then some .ue else none

/-! ## What contexts fetch of their local memory (10 R275) -/

/-- Before a store to a byte of local memory: the byte, and whether its fetch would stop, stay what every context fetches until
its next `isync`. -/
def State.keepFetched (s : State) (k : Nat) (b : Byte) : State :=
  if 2 ^ 32 ≤ k ∨ mget 0 s.mem k = b then s
  else
    let t := (s.getCore (k / 131072)).epoch
    let old := mget [] s.fetched k
    if (old.getLast?.map (·.epoch)) = some t then s
    else { s with fetched := mput s.fetched k (old ++ [{ epoch := t, byte := mget 0 s.mem k, stop := s.readStop k 1 }]) }

/-- What a context fetches of a byte that has been stored to since its last `isync`: the byte before the first such store. -/
def State.stale (s : State) (n c off : Nat) : Option Stale :=
  (mget [] s.fetched (localKey n off)).find? fun e => decide ((s.getCtx n c).epoch ≤ e.epoch)

/-- The byte that a context fetches. -/
def State.fetchByte (s : State) (n c off : Nat) : Byte :=
  match s.stale n c off with
  | some e => e.byte
  | none => s.byteAt (localKey n off)

/-- What stops the fetch of a halfword (03 R63). The fetch touches line state and bytes at one point (10 R254): now; or, where
it gives the bytes as they were before a store, just before that store. A line that is dropped now stops it in any case. -/
def State.fetchStop (s : State) (n c off : Nat) : Option Cause :=
  if s.lineState (localKey n off / 64) = .dropped then some .overread
  else match (s.stale n c off).or (s.stale n c (off + 1)) with
    | some e => e.stop
    | none => s.readStop (localKey n off) 2

/-- An `isync` of a context: what has been stored before is fetched from now on (08 R226). -/
def State.refetch (s : State) (n c : Nat) : State :=
  let k := s.getCore n
  s.setCore n ({ k with epoch := k.epoch + 1 }.setCtx c { k.getCtx c with epoch := k.epoch + 1 })

/-- A load of a core's local memory comes before the first instruction of every context (14 R326): nothing older is fetched. -/
def State.freshFetch (s : State) (n : Nat) : State := { s with fetched := s.fetched.filter fun e => e.1 / 131072 != n }

/-! ## Writes -/

/-- Keys of the lines that `n` bytes from `k` touch. -/
def linesOf (k n : Nat) : List Nat := (List.range ((k + n + 63) / 64 - k / 64)).map (k / 64 + ·)

/-- Write one byte at its home; a cached far line becomes dirty. -/
def State.putByte (s : State) (k : Nat) (b : Byte) : State :=
  if isFarKey k then
    match s.farLine (k / 64) with
    | some l =>
      let sh := 8 * (k % 64)
      let d := l.data &&& ~~~((0xFF : Line) <<< sh) ||| (b.zeroExtend 512 <<< sh)
      { s with far := mput s.far (k / 64) { l with data := d, dirty := true } }
    | none => { s with mem := mset 0 s.mem k b }
  else { s.keepFetched k b with mem := mset 0 s.mem k b }

def State.putBytesAux (s : State) (k : Nat) : List Byte → State
  | [] => s
  | b :: t => (s.putByte k b).putBytesAux (k + 1) t

/-- Granules of `z` bytes that a write of `n` bytes at `k` covers whole (18 R367). -/
def coveredGranules (z k n : Nat) : List Nat :=
  (List.range ((k + n) / z - (k + z - 1) / z)).map ((k + z - 1) / z + ·)

/-- A granule that a write of `n` bytes at `k` covers only in part and that holds an error (18 R367). -/
def State.badPartial (s : State) (k n : Nat) : Option Nat :=
  match badIn s.errs.mem 8 k n true with
  | some g => some g
  | none => (badIn s.errs.dram 64 k n true).map (· * 8)

/-- A waiting `waitf` reads its word (08 R208). -/
def State.readWatch (s : State) (w : Watch) : Watch :=
  let key := localKey w.core w.off
  let hit : Option (Option Cause) :=
    if s.lineState (key / 64) = .dropped then some (some .overread)
    else if (s.badGranule key 4).isSome then some (some .ue)
    else if w.need.toNat ≤ leNat (s.bytesAt key 4) then some none else none
  { w with hit := hit }

/-- After a write, or a change of count or state, of a line: the waiting `waitf` of its words read again (08 R208). -/
def State.noteLine (s : State) (lk : Nat) : State :=
  { s with watches := s.watches.map fun w =>
      if w.hit.isNone && localKey w.core w.off / 64 == lk then s.readWatch w else w }

/-- The wait of a context's `waitf` has ended. -/
def State.dropWatch (s : State) (n c : Nat) : State :=
  { s with watches := s.watches.filter fun w => !(w.core == n && w.ctx == c) }

/-- Write bytes at their home. Granules covered whole hold fresh data (18 R367). -/
def State.putBytes (s : State) (k : Nat) (bs : List Byte) : State :=
  let s := s.putBytesAux k bs
  let s : State := if s.errs.mem.isEmpty && s.errs.dram.isEmpty then s
    else { s with errs := { s.errs with
            mem := (coveredGranules 8 k bs.length).foldl mdel s.errs.mem
            dram := (coveredGranules 64 k bs.length).foldl mdel s.errs.dram } }
  (linesOf k bs.length).foldl State.noteLine s

def State.setLine (s : State) (lk : Nat) (st : LineState) : State :=
  (match s.farLine lk with
    | some l => { s with far := mput s.far lk { l with st := st } }
    | none => { s with lines := mset .plain s.lines lk st } : State).noteLine lk

/-- A free value's index (log entry 5); the counter advances. -/
def State.freeBit (s : State) (f : Nat → Nat) : Nat × State := (f s.free, { s with free := s.free + 1 })

end Sys2Proof.Machine
end

