-- ==== Sys2Proof/Machine/Far.lean ====
section
/-! DEFINITION. Far memory: homes and cached lines (09 R242 to R248), page tables, stations and translation
(15 R330 to R336), ring leaves (16 R352, R353). -/

namespace Sys2Proof.Machine

/-! ## Bank modes and homes -/

def Basin.mode (x : Basin) (k : Nat) : BitVec 2 := mget 0 x.modes k
def Basin.setMode (x : Basin) (k : Nat) (m : BitVec 2) : Basin := { x with modes := mset 0 x.modes k m }
def Basin.fifo (x : Basin) (k : Nat) : Fifo := mget {} x.fifos k
def Basin.setFifo (x : Basin) (k : Nat) (f : Fifo) : Basin := { x with fifos := mset {} x.fifos k f }
/-- The banks in CACHE mode, which are the ways of each set (09 R244). -/
def Basin.ways (x : Basin) : List Nat := (List.range 12).filter fun k => decide (x.mode k = 0)
/-- Pinned ways that a set may hold (09 R244). -/
def Basin.pinLimit (x : Basin) : Nat := 2 * x.ways.length / 3

def State.mode (s : State) (b k : Nat) : BitVec 2 := (s.getBasin b).mode k
def State.fifo (s : State) (b k : Nat) : Fifo := (s.getBasin b).fifo k
def State.setFifo (s : State) (b k : Nat) (f : Fifo) : State := s.setBasin b ((s.getBasin b).setFifo k f)

/-- Basins of a die without a CACHE bank, by rising number within the die. -/
def State.outOfPool (s : State) (die : Nat) : List Nat :=
  (s.basins.filter fun e => decide (e.1 < 2048 ∧ dieOf e.1 = die) && e.2.ways.isEmpty).map (·.1 % 512)

/-- The i-th number that a rising list leaves out. -/
def nthFree (i : Nat) (out : List Nat) : Nat := out.foldl (fun a e => if e ≤ a then a + 1 else a) i

/-- Home basin of a physical address; none where no bank of the die caches (09 R242). -/
def State.home (s : State) (pa : Nat) : Option Nat :=
  let die := pa / 2 ^ 21 % 4
  let out := s.outOfPool die
  let fold := (pa / 2 ^ 6 % 2 ^ 14) ^^^ (pa / 2 ^ 20 % 2 ^ 14) ^^^ (pa / 2 ^ 34 % 2 ^ 14)
  let n := 512 - out.length
  if n = 0 then none else some (die * 512 + nthFree (fold % n) out)

/-- The set of a physical address (09 R242). -/
def setOf (pa : Nat) : Nat := pa / 2 ^ 6 % 2 ^ 11

/-- The far lines of a set of a home. -/
def State.setLines (s : State) (b set : Nat) : List (Nat × FarLine) :=
  s.far.filter fun e => decide (setOf (farPa (e.1 * 64)) = set ∧ s.home (farPa (e.1 * 64)) = some b)

def FarLine.pinned (l : FarLine) : Bool := !decide (l.st = .plain)

/-- Write a dirty uncounted line back (09 R244, R245). -/
def State.writeBack (s : State) (lk : Nat) : State :=
  match s.farLine lk with
  | some l =>
    if l.dirty && !l.pinned then
      { s with mem := Mem.put s.mem (lk * 64) (lineBytes l.data), far := mput s.far lk { l with dirty := false } }
    else s
  | none => s

/-- Remove a line from its home without writing it back. -/
def State.dropFar (s : State) (lk : Nat) : State := { s with far := mdel s.far lk }

/-- Remove an unpinned line, written back first when it is dirty (09 R244). -/
def State.evict (s : State) (lk : Nat) : State := (s.writeBack lk).dropFar lk

/-- The stored bytes of a line, below any cached copy. -/
def State.memLine (s : State) (lk : Nat) : Line := bytesLine (Mem.bytes s.mem (lk * 64) 64)

/-- Bring a far line into a way of its home: a free way, else one whose unpinned line is evicted (09 R244). Which
way is a free value. -/
def State.touchLine (s : State) (lk : Nat) : State :=
  match s.farLine lk with
  | some _ => s
  | none =>
    match s.home (farPa (lk * 64)) with
    | none => s
    | some b =>
      let held := s.setLines b (setOf (farPa (lk * 64)))
      let ways := (s.getBasin b).ways
      let free := ways.filter fun k => !held.any fun e => e.2.bank == k
      let open_ := if free.isEmpty then ways.filter fun k => !held.any fun e => e.2.bank == k && e.2.pinned else free
      if open_.isEmpty then s
      else
        let (r, s) := s.freeBit Config.freeWay
        let bank := open_.getD (r % open_.length) 0
        let s := match held.find? fun e => e.2.bank == bank with
          | some e => s.evict e.1
          | none => s
        { s with far := mput s.far lk { bank, dirty := false, data := s.memLine lk } }

/-! ## Page tables (15 R331 to R334) -/

/-- An 8-byte entry of LPDDR 6, read as its home holds it. -/
def State.entry (s : State) (pa : Nat) : W64 := BitVec.ofNat 64 (leNat (s.bytesAt (lpddrKey pa) 8))

/-- First bit of the index of a level, and of the offset a leaf of the level keeps (15 R332). -/
def levelShift : Nat → Nat
  | 0 => 48 | 1 => 39 | 2 => 31 | 3 => 25 | _ => 19

/-- Bits of the index of a level (15 R332). -/
def levelBits : Nat → Nat
  | 1 => 9 | 2 => 8 | _ => 6

def bitsOf (e : W64) (lo n : Nat) : Nat := e.toNat / 2 ^ lo % 2 ^ n
def flag (e : W64) (i : Nat) : Bool := e.getLsbD i

/-- HOP of a ring leaf, signed (16 R352). -/
def ringHop (e : W64) : Int := ((e.extractLsb' 44 4 : BitVec 4)).toInt
def ringBasin (e : W64) : Nat := bitsOf e 33 11
def ringBank (e : W64) : Nat := bitsOf e 29 4
def ringFifo (e : W64) : Bool := flag e 28
def ringSlot (e : W64) : Nat := bitsOf e 25 3

/-- A ring leaf that keeps the rules of R352. -/
def ringLeafOk (level : Nat) (e : W64) : Bool :=
  level == 4 && (decide (1 ≤ ringHop e ∧ ringHop e ≤ 4) || decide (-4 ≤ ringHop e ∧ ringHop e ≤ -1))
    && (if ringFifo e then decide (ringBank e ≤ 11) else decide (ringBank e ≤ 8)) && bitsOf e 12 13 == 0

/-- Channels that have been retired (19 R385). -/
def retiredCount (w : W32) : Nat := ((List.range 32).filter fun i => w.getLsbD i).length

/-- Bytes of LPDDR 6 that a page may name: 248 GiB, less 7.75 GiB for each retired channel (15 R333, 19 R385). -/
def lpddrBytes (retired : W32) : Nat := (32 - retiredCount retired) * (31 * 2 ^ 28)

/-- A valid entry that R333 calls malformed. -/
def malformed (retired : W32) (level : Nat) (e : W64) : Bool :=
  bitsOf e 48 16 != 0 || bitsOf e 8 4 != 0 ||
  if flag e 1 then
    level == 1 ||
    match bitsOf e 6 2 with
    | 3 => true
    | 2 => flag e 5 || !ringLeafOk level e
    | k => bitsOf e 12 (levelShift level - 12) != 0 ||
      (k == 0 && decide (lpddrBytes retired < bitsOf e 12 36 * 4096 + 2 ^ levelShift level))
  else level == 4 || bitsOf e 2 6 != 0

/-- What a walk ends at; `ue` names the key of a table entry that cannot be read (18 R366). -/
inductive Walked where
  | leaf (e : W64) (level : Nat)
  | unmapped
  | malformed
  | ue (key : Nat)
deriving DecidableEq, Repr

/-- The station of a basin column (15 R335). -/
def stationOf (b : Nat) : Nat := dieOf b * 16 + colOf b / 2
/-- The translations that a quay core caches for its own accesses (log entry 41). -/
def quayStation (q : Nat) : Nat := 64 + q

/-- Through which station an access goes, and whether it uses what the station may still hold of changed entries: one
choice for the whole access (15 R336; log entry 6). -/
structure Via where
  station : Nat
  keep : Bool
deriving DecidableEq, Repr

/-- The choice of an access through a station. -/
def State.via (s : State) (station : Nat) : Via × State :=
  ({ station, keep := Config.stationKeeps s.free }, { s with free := s.free + 1 })

/-- Key of an entry in the stations' caches: station, level, space (15 R335) and address prefix. -/
def tlbKey (station level space va : Nat) : Nat := ((station * 5 + level) * 4096 + space) * 2 ^ 30 + va / 2 ^ levelShift level

/-- The station of a key of the caches. -/
def tlbStation (key : Nat) : Nat := key / 2 ^ 30 / 4096 / 5

/-- Put an entry into a station's cache, which holds at most 2,048: a full one drops an entry, which is a free value
(15 R335; log entry 6). -/
def State.cacheEntry (s : State) (e : Nat × W64) : State :=
  let mine := s.tlb.filter fun x => tlbStation x.1 == tlbStation e.1
  if (mfind s.tlb e.1).isNone && decide (2048 ≤ mine.length) then
    let (r, s) := s.freeBit Config.freeWay
    { s with tlb := mput (mdel s.tlb ((mine.getD (r % mine.length) (0, 0)).1)) e.1 e.2 }
  else { s with tlb := mput s.tlb e.1 e.2 }

/-- Whether an invalidation names a cached entry: one that maps, or leads to, an address of the range. Root entries go
only with ALL (15 R337). -/
def invalidates (va : Nat) (ctl : W32) (key : Nat) : Bool :=
  let level := key / 2 ^ 30 / 4096 % 5
  let space := key / 2 ^ 30 % 4096
  let first := key % 2 ^ 30 * 2 ^ levelShift level
  let size := match ctl.toNat / 2 ^ 29 % 4 with
    | 0 => 2 ^ 19 | 1 => 2 ^ 25 | 2 => 2 ^ 31 | _ => 2 ^ 48
  let base := va / size * size
  let all := ctl.getLsbD 28
  (all || space == ctl.toNat % 4096) && (all || level != 0)
    && decide (base < first + 2 ^ levelShift level ∧ first < base + size)

/-- An invalidation under way names the translation of an address. -/
def State.inInvalidation (s : State) (space va : Nat) : Bool :=
  s.quays.any fun e => match e.2.inv with
    | some (at_, ctl) => invalidates at_ ctl (tlbKey 0 4 space va)
    | none => false

/-- A walk so far: the entries used, for the caches, and whether the last came from one. -/
structure WalkEnd where
  end_ : Walked
  used : List (Nat × W64) := []
  cached : Bool := false
deriving DecidableEq, Repr

/-- What tells the ends of walks apart, beside the entries used. -/
def Walked.code : Walked → Nat
  | .leaf .. => 0
  | .unmapped => 1
  | .malformed => 2
  | .ue key => 3 + key

/-- Two walks found the same. -/
def WalkEnd.same (a b : WalkEnd) : Bool :=
  a.end_.code == b.end_.code && (a.used.map fun u => u.2.toNat) == b.used.map fun u => u.2.toNat

/-- The entry at an address of table memory, or the one that the station holds; none where memory cannot be read. -/
def State.useEntry (s : State) (old : Bool) (key pa : Nat) : Option (W64 × Bool) :=
  match if old then mfind s.tlb key else none with
  | some e => some (e, true)
  | none => if (s.badGranule (lpddrKey pa) 8).isSome then none else some (s.entry pa, false)

/-- Walk from a table at `pa`, level `level`, with `fuel` levels left. -/
def State.walkFrom (s : State) (st : Nat) (old : Bool) (space va : Nat) : Nat → Nat → Nat → List (Nat × W64) → WalkEnd
  | 0, _, _, _ => { end_ := .malformed }
  | fuel + 1, level, pa, used =>
    let key := tlbKey st level space va
    let at_ := pa + 8 * (va / 2 ^ levelShift level % 2 ^ levelBits level)
    match s.useEntry old key at_ with
    | none => { end_ := .ue (lpddrKey at_) }
    | some (e, cached) =>
      if !flag e 0 then { end_ := .unmapped }
      else if malformed s.svc.retired level e then { end_ := .malformed }
      else if flag e 1 then { end_ := .leaf e level, used := (key, e) :: used, cached }
      else s.walkFrom st old space va fuel (level + 1) (bitsOf e 12 36 * 4096) ((key, e) :: used)

/-- Walk a virtual address in a space from its root entry (15 R331, R332), with the entries the station holds or without. -/
def State.walkOnce (s : State) (st : Nat) (old : Bool) (space va : Nat) : WalkEnd :=
  let key := tlbKey st 0 space va
  let at_ := s.sptbase.toNat + 8 * space
  match s.useEntry old key at_ with
  | none => { end_ := .ue (lpddrKey at_) }
  | some (root, _) =>
    if !flag root 0 then { end_ := .unmapped }
    else if bitsOf root 1 11 != 0 || bitsOf root 48 16 != 0 then { end_ := .malformed }
    else s.walkFrom st old space va 4 1 (bitsOf root 12 36 * 4096) [(key, root)]

/-- The old translation or, where it differs, the new one, never a mixture: while an invalidation of the address is under
way, the old one only where the station holds its leaf (15 R336). Misses are not cached. -/
def State.walk (s : State) (via : Via) (space va : Nat) : Walked × State :=
  let old := s.walkOnce via.station true space va
  let new := s.walkOnce via.station false space va
  let w := if old.same new then new else if via.keep && (old.cached || !s.inInvalidation space va) then old else new
  (w.end_, match w.end_ with
    | .leaf .. => w.used.foldl State.cacheEntry s
    | _ => s)

/-! ## Translation -/

/-- Kinds of access (15 R334, 18 R374). -/
inductive Acc where
  | read | write | atomic | consume | dec | peek | counted | open_ | inv | invDis
deriving DecidableEq, Repr

/-- Who makes an access, for the access kind of an XFAULT record (18 R374). -/
inductive Who where
  | ctx | tug | quay
deriving DecidableEq, Repr

/-- Access kind in an XFAULT record (18 R374). -/
def Acc.code (a : Acc) : Who → Nat
  | .tug => match a with
    | .write | .counted => 6
    | _ => 5
  | .quay => match a with
    | .write => 8
    | _ => 7
  | .ctx => match a with
    | .write | .invDis => 1
    | .atomic => 2
    | .consume | .dec => 3
    | .counted | .open_ => 4
    | _ => 0

def isRing (e : W64) : Bool := bitsOf e 6 2 == 2

/-- Whether a leaf permits an access (15 R334; ring windows 16 R353). `rcopen` on a ring leaf is RANGE, not PERM. -/
def permits (a : Acc) (e : W64) : Bool :=
  let r := flag e 2; let w := flag e 3; let cnt := flag e 4; let cache := flag e 5
  match a with
  | .read | .peek => r && !isRing e
  | .inv => r
  | .write => w
  | .invDis => w
  | .atomic => r && w && !isRing e
  | .consume | .dec => r && cnt && !isRing e
  | .counted => w && cnt && (cache || isRing e)
  | .open_ => isRing e || (w && cnt && cache)

/-- What a far address names. -/
inductive Target where
  | mem (key : Nat) (cache : Bool)
  | ring (leaf : W64)
deriving DecidableEq, Repr

/-- The key of an address under a leaf: PA = (ADDR, offset bits) (15 R333). -/
def leafTarget (e : W64) (level va : Nat) : Target :=
  if isRing e then .ring e
  else
    let pa := bitsOf e 12 36 * 4096 + va % 2 ^ levelShift level
    .mem (if bitsOf e 6 2 == 0 then lpddrKey pa else hostKey pa) (flag e 5)

/-- Outcome of a translation. -/
inductive Xlt where
  | ok (t : Target) (s : State)
  | miss (m : Miss) (s : State)
  | ue (key : Nat) (s : State)

/-- Translate a virtual address for an access (15 R334, step 4 of R113). A read of a ring window is never permitted, the tug's
neither (16 R353; log entry 83). -/
def State.translate (s : State) (via : Via) (space va : Nat) (a : Acc) (who : Who := .ctx) : Xlt :=
  let m (r : Nat) : Miss := { space, va, kind := a.code who, reason := r }
  match s.walk via space va with
  | (.unmapped, s) => .miss (m 0) s
  | (.malformed, s) => .miss (m 1) s
  | (.ue key, s) => .ue key s
  | (.leaf e l, s) => if permits a e then .ok (leafTarget e l va) s else .miss (m 2) s

/-- The cause of a refused miss (15 R334). -/
def Miss.cause (m : Miss) : Cause := if m.reason = 2 then .perm else .xlate

end Sys2Proof.Machine
end

