-- ==== Sys2Proof/Machine/Records.lean ====
section
/-! DEFINITION. Accesses of the quay cores to far memory, status queues and their records (18 R370 to R374), and
fault tags (15 R338). -/

namespace Sys2Proof.Machine

/-- Codes of the cause table (08 R230). -/
def causeCode : Cause → Nat
  | .none => 0 | .ill => 1 | .align => 2 | .range => 3 | .xlate => 4 | .perm => 5 | .overread => 6
  | .underread => 7 | .cntwrite => 8 | .linkovf => 9 | .linkunf => 10 | .budget => 11 | .taskbuf => 12
  | .barover => 13 | .fmt => 14 | .meta_ => 15 | .trit => 16 | .cap => 17 | .ue => 18 | .order => 19
  | .queue => 20 | .pressure => 21 | .ptr => 22 | .svc => 23 | .brk => 24 | .overrun => 25

/-- Causes that `trap` may raise: those R230 lists as faults, and UNDERREAD (08 R223). -/
def trapCauseOf : Nat → Option Cause
  | 1 => some .ill | 2 => some .align | 3 => some .range | 4 => some .xlate | 5 => some .perm
  | 6 => some .overread | 7 => some .underread | 8 => some .cntwrite | 9 => some .linkovf | 10 => some .linkunf
  | 11 => some .budget | 12 => some .taskbuf | 13 => some .barover | 14 => some .fmt | 15 => some .meta_
  | 16 => some .trit | 18 => some .ue | 21 => some .pressure | 22 => some .ptr | 23 => some .svc
  | 24 => some .brk | _ => none

/-! ## Retired lines (18 R367) -/

/-- An error of a far key lies in the L2 bank that caches its line; otherwise in LPDDR 6 (18 R364). -/
def State.inBank (s : State) (key : Nat) : Bool := isFarKey key && (badIn s.errs.mem 8 (key / 8 * 8) 8 false).isSome

/-- STRUCT of the memory that holds a key (18 R374). -/
def State.structOf (s : State) (key : Nat) : Nat :=
  if s.inBank key then 2 else if isFarKey key then 9 else if key < 2 ^ 32 then 1 else 2

/-- The storage of a key: its own, or the way that caches its line. -/
def State.storageKey (s : State) (key : Nat) : Nat :=
  match s.farLine (key / 64), s.home (farPa key) with
  | some l, some b => if s.inBank key then bankKey b l.bank (setOf (farPa key) * 64) else key
  | _, _ => key

/-- Retire the line of a failing granule, once, into a spare of its 128 KiB (R367); the answer says that no spare
was left. LPDDR 6 lines have a spare in their row. -/
def State.retireLine (s : State) (key : Nat) : State × Bool :=
  let at_ := s.storageKey key
  let lk := at_ / 64
  if mget false s.errs.retiredLines lk then (s, false)
  else if isFarKey at_ then
    ({ s with errs := { s.errs with retiredLines := mset false s.errs.retiredLines lk true } }, false)
  else
    let used := mget 0 s.errs.spares (at_ / 131072)
    if 16 ≤ used then (s, true)
    else ({ s with errs := { s.errs with
              retiredLines := mset false s.errs.retiredLines lk true
              spares := mset 0 s.errs.spares (at_ / 131072) (used + 1) } }, false)

/-! ## Ranges by line -/

/-- The parts of a range of addresses that lie in one line each: first address and length. -/
def lineParts : Nat → Nat → Nat → List (Nat × Nat)
  | 0, _, _ => []
  | fuel + 1, a, n =>
    if n = 0 then [] else (a, min n (64 - a % 64)) :: lineParts fuel (a + min n (64 - a % 64)) (n - min n (64 - a % 64))

def partsOf (a n : Nat) : List (Nat × Nat) := lineParts (n / 64 + 2) a n

/-- The near pointer, less its KIND, that names a key of local memory or of a bank. -/
def nearAddr (key : Nat) : Nat :=
  if key < 2 ^ 32 then key / 2 ^ 20 * 2 ^ 25 + key / 131072 % 8 * 2 ^ 21 + key % 131072
  else (key - 2 ^ 32) / 2 ^ 21 * 2 ^ 25 + 8 * 2 ^ 21 + (key - 2 ^ 32) % 2 ^ 21

/-- Outcome of a far access made outside a context. -/
inductive Got where
  | ok (bs : List Byte) (s : State)
  | miss (m : Miss) (s : State)
  | bad (c : Cause) (va : Nat) (s : State)
  /-- An uncorrectable error, met at a key. -/
  | ue (key va : Nat) (s : State)

/-- A plain read of a range that lies in one line. -/
def State.farReadPart (s : State) (via : Via) (space va n : Nat) (who : Who) : Got :=
  match s.translate via space va .read who with
  | .miss m s => .miss m s
  | .ue key s => .ue key va s
  | .ok (.ring _) s => .bad .perm va s
  | .ok (.mem key cache) s =>
    let s := if cache then s.touchLine (key / 64) else s
    if s.lineState (key / 64) = .dropped then .bad .overread va s
    else match s.badGranule key n with
      | some g => .ue (g * 8) va s
      | none => .ok (s.bytesAt key n) s

/-- An access of a quay core that meets an error retires the line (18 R367). -/
def Got.retire : Got → Got
  | .ue key va s => .ue key va (s.retireLine key).1
  | g => g

/-- The state that an access leaves. -/
def Got.state : Got → State
  | .ok _ s => s
  | .miss _ s => s
  | .bad _ _ s => s
  | .ue _ _ s => s

def State.farReadParts (s : State) (via : Via) (space : Nat) (who : Who) : List (Nat × Nat) → List Byte → Got
  | [], acc => .ok acc s
  | (va, n) :: t, acc =>
    match s.farReadPart via space va n who with
    | .ok bs s => s.farReadParts via space who t (acc ++ bs)
    | g => g

/-- A plain read of far memory by quay core `q`. -/
def State.farRead (s : State) (q space va n : Nat) (who : Who := .quay) : Got :=
  let (via, s) := s.via (quayStation q)
  (s.farReadParts via space who (partsOf va n) []).retire

/-- A plain write of a range that lies in one line. -/
def State.farWritePart (s : State) (via : Via) (space va : Nat) (bs : List Byte) (who : Who) : Got :=
  match s.translate via space va .write who with
  | .miss m s => .miss m s
  | .ue key s => .ue key va s
  | .ok (.ring _) s => .bad .range va s
  | .ok (.mem key cache) s =>
    let s := if cache then s.touchLine (key / 64) else s
    match s.lineState (key / 64) with
    | .dropped => .bad .overread va s
    | .counted _ => .bad .cntwrite va s
    | .plain =>
      match s.badPartial key bs.length with
      | some g => .ue (g * 8) va s
      | none => .ok [] (s.putBytes key bs)

def State.farWriteParts (s : State) (via : Via) (space base : Nat) (bs : List Byte) (who : Who) : List (Nat × Nat) → Got
  | [] => .ok [] s
  | (va, n) :: t =>
    match s.farWritePart via space va ((bs.drop (va - base)).take n) who with
    | .ok _ s => s.farWriteParts via space base bs who t
    | g => g

/-- A plain write of far memory by quay core `q`. -/
def State.farWrite (s : State) (q space va : Nat) (bs : List Byte) (who : Who := .quay) : Got :=
  let (via, s) := s.via (quayStation q)
  (s.farWriteParts via space va bs who (partsOf va bs.length)).retire

/-- Whether the write was made, and the state after it. -/
def State.farTry (s : State) (q space va : Nat) (bs : List Byte) : Bool × State :=
  match s.farWrite q space va bs with
  | .ok _ s => (true, s)
  | g => (false, g.state)

/-! ## Records (18 R373, R374) -/

/-- A record: its header (R373) and words 2 to 5. -/
def mkRecord (kind : Nat) (c : Cause) (lid : BitVec 16) (ctx core : Nat) (host : Bool) (w2 w3 w4 w5 : W32) : List W32 :=
  [BitVec.ofNat 32 (kind * 2 ^ 24 + causeCode c * 2 ^ 16 + lid.toNat),
   BitVec.ofNat 32 (ctx * 2 ^ 28 + (if host then 2 ^ 27 else 0) + core), w2, w3, w4, w5, 0, 0]

def recordBytes (ws : List W32) : List Byte := ws.flatMap fun w => leBytes 4 w.toNat

def full (wptr rdptr : Nat) (log2 : Nat) : Bool := decide (2 ^ log2 ≤ (wptr + 2 ^ 32 - rdptr) % 2 ^ 32)

def SQueue.at_ (q : SQueue) : Nat := q.base.toNat + 32 * (q.wptr.toNat % 2 ^ q.log2.toNat)
def SQueue.dropOne (q : SQueue) : SQueue := { q with lost := if q.lost = BitVec.allOnes 32 then q.lost else q.lost + 1 }

/-- Write one record to the fault queue: whether it could be written now (R372), and the state after it. -/
def State.writeFq (s : State) (k : Nat) (ws : List W32) : Bool × State :=
  let q := (s.getQuay k).fq
  if !q.en || full q.wptr.toNat q.rdptr.toNat q.log2.toNat then (false, s)
  else match s.farTry k q.space.toNat q.at_ (recordBytes ws) with
    | (true, s) => (true, s.setQuay k { s.getQuay k with fq := { (s.getQuay k).fq with wptr := q.wptr + 1 } })
    | (false, s) => (false, s)

/-- Write the held fault records while they can be written (R372). -/
def State.drainHeld (s : State) (k : Nat) : Nat → State
  | 0 => s
  | fuel + 1 =>
    match (s.getQuay k).heldRecs with
    | [] => s
    | r :: t =>
      match s.writeFq k r with
      | (true, s) => (s.setQuay k { s.getQuay k with heldRecs := t }).drainHeld k fuel
      | (false, s) => s

/-- Post to the fault queue: held while it cannot be written (R372). -/
def State.postFault (s : State) (k : Nat) (ws : List W32) : State :=
  let x := s.getQuay k
  (s.setQuay k { x with heldRecs := x.heldRecs ++ [ws] }).drainHeld k 65

/-! ## Fault tags (15 R338) -/

def Quay.openTags (x : Quay) : List (Nat × Tag) :=
  x.tags.filterMap fun e => e.2.map fun t => (e.1, t)

/-- The next tag value that names no open tag. -/
def freeTag (opens : List (Nat × Tag)) (from_ : Nat) : Nat :=
  ((List.range 65).map fun i => (from_ + i) % 65536).find? (fun t => !opens.any fun e => e.1 == t) |>.getD from_

/-- Join the open tag of a miss, or open one and post its record; none while 64 tags are open. `src` is the context and
the core that missed; a source that is no context is named as 15 with the quay core (18 R373). -/
def State.openTag (s : State) (k : Nat) (m : Miss) (lid : BitVec 16) (src : Option (Nat × Nat) := none) : State × Option TagRef :=
  let x := s.getQuay k
  let opens := x.openTags
  let block := m.va / 2 ^ 19
  match opens.find? fun e => decide (e.2 = { space := m.space, block := block, reason := m.reason }) with
  | some e => (s, some { quay := k, tag := e.1 })
  | none =>
    if 64 ≤ opens.length then (s, none)
    else
      let t := freeTag opens x.nextTag.toNat
      let s := s.setQuay k { x with
        tags := mset none x.tags t (some { space := m.space, block := block, reason := m.reason })
        nextTag := BitVec.ofNat 16 (t + 1) }
      (s.postFault k (mkRecord 0x0D m.cause lid ((src.map (·.1)).getD 15) ((src.map (·.2)).getD k) false
        (BitVec.ofNat 32 (m.reason * 2 ^ 30 + m.kind * 2 ^ 24 + t)) (BitVec.ofNat 32 m.va)
        (BitVec.ofNat 32 (m.space * 2 ^ 16 + m.va / 2 ^ 32)) 0), some { quay := k, tag := t })

/-! ## Status queues -/

/-- An access of a quay core to a status queue that misses opens a tag, though nothing waits on it (15 R338; log
entry 21). -/
def Got.note (q : Nat) (lid : BitVec 16) : Got → State
  | .miss m s => (s.openTag q m lid).1
  | g => g.state

/-- A write to a status queue or to its descriptor: whether it was made, and the state after it. -/
def State.putRecord (s : State) (q : Nat) (lid : BitVec 16) (space va : Nat) (bs : List Byte) : Bool × State :=
  match s.farWrite q space va bs with
  | .ok _ s => (true, s)
  | g => (false, g.note q lid)

/-- Post to a launch status queue (R370, R372); a launch without one discards the record. -/
def State.postLaunch (s : State) (h : Nat) (ws : List W32) : State :=
  match s.launchOf h with
  | none => s
  | some l =>
    if l.lsq = 0 then s
    else
      let put (s : State) (va : Nat) (bs : List Byte) : Bool × State := s.putRecord l.quay l.lrec.lid l.qspace va bs
      match s.farRead l.quay l.qspace l.lsq 64 with
      | .ok d s =>
        let word (i : Nat) : Nat := leNat ((d.drop i).take 4)
        let wptr := word 12
        let at_ := leNat (d.take 8) + 32 * (wptr % 2 ^ (word 8 % 32))
        let lost (s : State) : State := (put s (l.lsq + 20) (leBytes 4 (min (word 20 + 1) (2 ^ 32 - 1)))).2
        if full wptr (word 16) (word 8 % 32) then lost s
        else match put s at_ (recordBytes ws) with
          | (true, s) => (put s (l.lsq + 12) (leBytes 4 ((wptr + 1) % 2 ^ 32))).2
          | (false, s) => lost s
      | g => g.note l.quay l.lrec.lid

/-- Post to the host status queue of a quay core (R371, R372). -/
def State.postHost (s : State) (k : Nat) (ws : List W32) : State :=
  let x := s.getQuay k
  let q := x.hsq
  let lost (s : State) : State := s.setQuay k { s.getQuay k with hsq := (s.getQuay k).hsq.dropOne }
  if !q.en || full q.wptr.toNat q.rdptr.toNat q.log2.toNat then lost s
  else match s.putRecord k 0 q.space.toNat q.at_ (recordBytes ws) with
    | (true, s) => s.setQuay k { s.getQuay k with hsq := { (s.getQuay k).hsq with wptr := q.wptr + 1 } }
    | (false, s) => lost s

/-! ## Uncorrectable errors (18 R366) -/

/-- Post the UE record of a launch (R366, R374). `addr` is the address it names. -/
def State.postUe (s : State) (h : Option Nat) (core ctx struct addr : Nat) (nospare : Bool) : State :=
  match h with
  | none => s
  | some h =>
    match s.launchOf h with
    | none => s
    | some l => s.postLaunch h (mkRecord 0x08 .ue l.lrec.lid ctx core false (BitVec.ofNat 32 addr)
        (BitVec.ofNat 32 (struct * 2 ^ 24 + if nospare then 1 else 0)) (BitVec.ofNat 32 (addr / 2 ^ 32 % 65536)) 0)

/-! ## Corrections (18 R365) -/

/-- Count a correction against its structure and basin; a CE record is posted when none was for the structure and quadrant
in the last 1,000,000 ns. Its COUNT holds the corrections of the quadrant's basins since the record before. -/
def State.correction (s : State) (struct basin : Nat) (addr : W32) : State :=
  let at_ := struct * 2048 + basin
  let c : CeCount := mget {} s.errs.ce at_
  let s : State := { s with errs := { s.errs with ce := mset {} s.errs.ce at_ { count := c.count + 1 } } }
  let p : CePost := mget {} s.errs.cePosts (struct * 16 + quayOf basin)
  if p.posted && decide (s.time.toNat < p.last + 1000000) then s
  else
    let mine (e : Nat × CeCount) : Bool := e.1 / 2048 == struct && quayOf (e.1 % 2048) == quayOf basin
    let n := ((s.errs.ce.filter mine).map (·.2.count)).sum
    ({ s with errs := { s.errs with
        ce := s.errs.ce.filter fun e => !mine e
        cePosts := mset {} s.errs.cePosts (struct * 16 + quayOf basin) { last := s.time.toNat, posted := true } } } : State).postHost 0
      (mkRecord 0x09 .none 0 15 0 false (BitVec.ofNat 32 (struct * 2 ^ 24 + quayOf basin)) (BitVec.ofNat 32 n) addr 0)

/-- A UE record of a structure without an address that the spec states, and of no context: it names the quay core that
serves the structure (R373). -/
def State.postUeFree (s : State) (h : Option Nat) (quay struct : Nat) : State :=
  { s with free := s.free + 1 }.postUe h quay 15 struct (Config.freeWord s.free).toNat false

/-- A memory error met at `key`, at the address `addr` of the access. -/
def State.meetUe (s : State) (h : Option Nat) (core ctx key addr : Nat) : State :=
  let struct := s.structOf key
  let (s, nospare) := s.retireLine key
  s.postUe h core ctx struct addr nospare

end Sys2Proof.Machine
end

