-- ==== Sys2Proof/Machine/Access.lean ====
section
/-! DEFINITION. Pointers and walks (01 R35 to R38), the checks of an access (05 R113 to R115), line states, and
reads and writes of resolved places. -/

namespace Sys2Proof.Machine

/-! ## Pointers (01 R35, R36) and walks (R38) -/

def ptrKind (P : W64) : Nat := bitsOf P 62 2
/-- Width of the offset by kind (R38); none for KIND 0b11. -/
def ptrWidth (P : W64) : Option Nat :=
  match ptrKind P with
  | 0 => some 17 | 1 => some 21 | 2 => some 48 | _ => none
def ptrBasin (P : W64) : Nat := bitsOf P 25 11
def ptrUnit (P : W64) : Nat := bitsOf P 21 4
/-- The byte offset of a local or near pointer, or the virtual address of a far one. -/
def ptrOff (P : W64) : Nat := P.toNat % 2 ^ (ptrWidth P).getD 0
/-- P[31:0], the TRAP_VAL of steps 2 to 6 of R113. -/
def ptrLow (P : W64) : W32 := P.truncate 32

/-- A local pointer to an offset. -/
def localPtr (off : Nat) : W64 := BitVec.ofNat 64 (off % 131072)

/-- Step 1 of R113: the checks of R36, in order. -/
def ptrCheck (r : LaunchRec) (P : W64) : Option Cause :=
  match ptrKind P with
  | 0 => if bitsOf P 17 45 != 0 then some .ptr else none
  | 1 =>
    if bitsOf P 36 26 != 0 || decide (11 ≤ ptrUnit P) then some .ptr
    else if !r.hasBasin (ptrBasin P) then some .range
    else if decide (ptrUnit P < 8 ∧ 131072 ≤ ptrOff P) then some .range
    else none
  | 2 => if bitsOf P 48 14 != 0 then some .ptr else none
  | _ => some .ptr

/-- Replace the low `w` bits of a pointer by a value. -/
def setOff (P : W64) (w : Nat) (x : Int) : W64 :=
  BitVec.ofNat 64 (P.toNat / 2 ^ w * 2 ^ w + (x % (2 ^ w : Nat)).toNat)

/-- `padd` (04 R98): the offset moved by a signed amount, within its width; none for KIND 0b11. -/
def ptrAdd (P : W64) (x : Int) : Option W64 :=
  (ptrWidth P).map fun w => setOff P w ((P.toNat % 2 ^ w : Nat) + x)

/-- Post-increment of a pointer by a walk register (R38); none for KIND 0b11. -/
def walkPtr (P : W64) (W : W32) : Option W64 :=
  match ptrWidth P with
  | none => none
  | some width =>
    let step : Int := (W.extractLsb' 0 20 : BitVec 20).toInt
    let cstep : Int := (W.extractLsb' 25 7 : BitVec 7).toInt
    let sp := min (W.toNat / 2 ^ 20 % 32) width
    let off := P.toNat % 2 ^ width
    let base := off - off % 2 ^ sp
    let t : Int := (off % 2 ^ sp : Nat) + step
    let k := t / (2 ^ sp : Nat)
    let P' := setOff P width ((base : Int) + t % (2 ^ sp : Nat))
    if ptrKind P = 1 ∧ !P.getLsbD 24 then
      let n := ptrBasin P * 8 + ptrUnit P
      let n' := (((n : Int) + k * cstep) % 16384).toNat
      some (BitVec.ofNat 64 (P'.toNat / 2 ^ 36 * 2 ^ 36 + (n' / 8) * 2 ^ 25 + (n' % 8) * 2 ^ 21 + P'.toNat % 2 ^ 21))
    else some P'

/-! ## Places -/

/-- Why an access does not go ahead: step 1 (whose TRAP_VAL is the register number), another cause, a translation
that failed, or an uncorrectable error at a key. -/
inductive Fail where
  | ptr (c : Cause)
  | cause (c : Cause)
  | miss (m : Miss)
  | ue (key : Nat)
deriving DecidableEq, Repr

/-- Part of an access within one line: the key of its first byte and its length. -/
structure Part where
  key : Nat
  len : Nat
  cache : Bool := false
deriving DecidableEq, Repr

/-- A part of an access through a ring window: the leaf, the virtual address and the length. -/
structure RingPart where
  leaf : W64
  va : Nat
  len : Nat
deriving DecidableEq, Repr

/-- What an access reaches (05 R114). -/
inductive Place where
  | mem (ps : List Part)
  | fifo (b k : Nat)
  | engine (b unit off : Nat)
  | ring (ps : List RingPart)
deriving DecidableEq, Repr

/-- Forms whose targets R114 limits: `vldg` and `vstg` reach FIFO banks, `ldw` and `stw` reach registers. -/
inductive Form where
  | any | group | word
deriving DecidableEq, Repr

def memPlace (key z : Nat) : Place := .mem ((partsOf key z).map fun p => { key := p.1, len := p.2 })

/-- Whether ring parts reach a FIFO window and something else beside it. -/
def splitFifo (rs : List RingPart) : Bool :=
  rs.any fun p => ringFifo p.leaf && rs.any fun q => q.leaf != p.leaf

/-- The places of a far access, part by part (step 4 of R113). An access partly through a ring window, or through a FIFO window
and another one, faults RANGE (log entry 9). -/
def State.farParts (s : State) (via : Via) (space : Nat) (a : Acc) (who : Who) :
    List (Nat × Nat) → List Part → List RingPart → Except Fail (Place × State)
  | [], ps, [] => .ok (.mem ps, s)
  | [], [], rs => if splitFifo rs then .error (.cause .range) else .ok (.ring rs, s)
  | [], _, _ => .error (.cause .range)
  | (va, n) :: t, ps, rs =>
    match s.translate via space va a who with
    | .miss m _ => .error (.miss m)
    | .ue key _ => .error (.ue key)
    | .ok (.ring leaf) s => s.farParts via space a who t ps (rs ++ [{ leaf := leaf, va := va, len := n }])
    | .ok (.mem key cache) s =>
      let s := if cache then s.touchLine (key / 64) else s
      s.farParts via space a who t (ps ++ [{ key := key, len := n, cache := cache }]) rs

/-- Registers of the tug and of the keeper (12 R293, R306). -/
def engineOff (unit off : Nat) : Bool :=
  if unit = 9 then off == 0 || off == 4 || off == 8 else off == 0

/-- Steps 1 to 4 of R113 for `z` bytes at P, accessed for core `n` from its basin, or from that of its tug (15 R335). An
access that leaves the end of its target fails at step 2, whatever its alignment (log entry 42). -/
def State.resolve (s : State) (n : Nat) (P : W64) (z align : Nat) (a : Acc) (form : Form := .any) (who : Who := .ctx)
    (basin : Nat := basinOf n) : Except Fail (Place × State) :=
  let off := ptrOff P
  let aligned (r : Except Fail (Place × State)) : Except Fail (Place × State) :=
    if off % align = 0 then r else .error (.cause .align)
  match ptrCheck (s.recOf n) P with
  | some c => .error (.ptr c)
  | none =>
    match ptrKind P with
    | 0 => if 131072 < off + z then .error (.cause .range) else aligned (.ok (memPlace (localKey n off) z, s))
    | 1 =>
      let b := ptrBasin P
      if ptrUnit P < 8 then
        if 131072 < off + z then .error (.cause .range)
        else aligned (.ok (memPlace (localKey (b * 8 + ptrUnit P) off) z, s))
      else if ptrUnit P = 8 then
        let k := off / 131072
        let x := off % 131072
        if 12 ≤ k then .error (.cause .range)
        else match (s.mode b k).toNat with
          | 1 => if 131072 < x + z then .error (.cause .range) else aligned (.ok (memPlace (bankKey b k x) z, s))
          | 2 => if form = .group ∧ x = 0 then .ok (.fifo b k, s) else .error (.cause .range)
          | _ => .error (.cause .range)
      else if form = .word ∧ engineOff (ptrUnit P) off then .ok (.engine b (ptrUnit P) off, s)
      else .error (.cause .range)
    | _ =>
      if 2 ^ 48 < off + z then .error (.cause .range)
      else if off % align ≠ 0 then .error (.cause .align)
      else
        let (via, s) := s.via (stationOf basin)
        s.farParts via (s.getCore n).spaceId.toNat a who (partsOf off z) [] []

/-! ## Line states and errors (steps 5 and 6 of R113) -/

/-- Lines with the number of decrements that the task holds against each (05 R117). -/
abbrev HeldDecs := List Nat

/-- The state of a line as an access meets it: a task counts its own held decrements (05 R117). -/
def State.seenState (s : State) (decs : HeldDecs) (lk : Nat) : LineState :=
  match s.lineState lk with
  | .counted n => if n ≤ decs.count lk then .dropped else .counted (n - decs.count lk)
  | st => st

/-- Step 5 of R113 by R115. -/
def stateFault (a : Acc) (st : LineState) : Option Cause :=
  match st with
  | .plain => none
  | .dropped =>
    match a with
    | .counted | .peek | .open_ | .inv | .invDis => none
    | _ => some .overread
  | .counted _ =>
    match a with
    | .write | .atomic | .counted => some .cntwrite
    | _ => none

def State.checkStates (s : State) (a : Acc) (decs : HeldDecs) : List Part → Option Cause
  | [] => none
  | p :: t =>
    match stateFault a (s.seenState decs (p.key / 64)) with
    | some c => some c
    | none => s.checkStates a decs t

/-- The key of a granule that stops an access: any that a read touches, or one that a write covers in part. -/
def State.checkErrs (s : State) (a : Acc) : List Part → Option Nat
  | [] => none
  | p :: t =>
    let bad : Option Nat := match a with
      | .read | .atomic | .consume => s.badGranule p.key p.len
      | .write | .counted => s.badPartial p.key p.len
      | _ => none
    match bad with
    | some g => some (g * 8)
    | none => s.checkErrs a t

/-- Steps 5 and 6 of R113 over every line of the access. -/
def State.checkParts (s : State) (a : Acc) (decs : HeldDecs) (ps : List Part) : Except Fail Unit :=
  match s.checkStates a decs ps with
  | some c => .error (.cause c)
  | none =>
    match s.checkErrs a ps with
    | some k => .error (.ue k)
    | none => .ok ()

/-! ## Reads, writes and counts -/

def State.readParts (s : State) (ps : List Part) : List Byte := ps.flatMap fun p => s.bytesAt p.key p.len

def State.writeParts (s : State) (bs : List Byte) : List Part → State
  | [] => s
  | p :: t => (s.putBytes p.key (bs.take p.len)).writeParts (bs.drop p.len) t

/-- Discard the data of a line: the bytes read zero once the line is plain again (05 R126). That is no store. -/
def State.zeroLine (s : State) (lk : Nat) : State := { s.putBytes (lk * 64) (List.replicate 64 0) with fetched := s.fetched }

/-- One decrement of a line (05 R115, R116). -/
def State.decLine (s : State) (lk : Nat) : State :=
  match s.lineState lk with
  | .counted n => if n ≤ 1 then (s.zeroLine lk).setLine lk .dropped else s.setLine lk (.counted (n - 1))
  | _ => s

/-- A line leaves its region: a counted or dropped line becomes plain and zero (05 R126, 09 R246). -/
def State.closeLine (s : State) (lk : Nat) : State :=
  match s.lineState lk with
  | .plain => s
  | _ => (s.zeroLine lk).setLine lk .plain

/-! ## Held bytes of a task (05 R117) -/

/-- The bytes that a held write gives to memory, by key; none where its address does not translate now. -/
def State.heldBytes (s : State) (n : Nat) : Held → List (Nat × Byte)
  | .store P data _ => place P data .write
  | .stc P data .. => place P (lineBytes data) .counted
  | .lmem off data => place (localPtr off) data .write
  | _ => []
where
  place (P : W64) (data : List Byte) (a : Acc) : List (Nat × Byte) :=
    match s.resolve n P data.length 1 a .any with
    | .ok (.mem ps, _) => (ps.flatMap fun p => (List.range p.len).map (p.key + ·)).zip data
    | _ => []

/-- Lines against which the task holds decrements, once for each. -/
def State.heldDecs (s : State) (n : Nat) (held : List Held) : HeldDecs :=
  held.flatMap fun h => match h with
    | .decr P .. =>
      match s.resolve n P 1 1 .dec with
      | .ok (.mem ps, _) => ps.map (·.key / 64)
      | _ => []
    | _ => []

/-- Bytes as the task reads them: its latest held write of each byte, else memory (05 R117). -/
def overlay (held : List (Nat × Byte)) (k : Nat) (b : Byte) : Byte :=
  held.foldl (fun v e => if e.1 = k then e.2 else v) b

/-- The held writes that a context's own reads see. -/
def State.heldWrites (s : State) (n : Nat) (x : Ctx) : List (Nat × Byte) := x.held.flatMap (s.heldBytes n)

def State.readSeen (s : State) (n : Nat) (x : Ctx) (ps : List Part) : List Byte :=
  let held := s.heldWrites n x
  ps.flatMap fun p => (List.range p.len).map fun i => overlay held (p.key + i) (s.byteAt (p.key + i))

/-- Decrements that the context holds. -/
def State.decsOf (s : State) (n : Nat) (x : Ctx) : HeldDecs := s.heldDecs n x.held

/-! ## Regions (05 R125, 09 R245) -/

/-- Keys of lines [lo, hi) that some core has registered. -/
def Core.hasLine (k : Core) (lk : Nat) : Bool :=
  k.regions.any fun e => match e.2 with
    | some r => r.ranges.any fun g => decide (g.1 ≤ lk ∧ lk < g.2)
    | none => false

/-- Whether a line lies in a counted region registered where it is stored (05 R124, R125). -/
def State.inRegion (s : State) (lk : Nat) : Bool := s.cores.any fun e => e.2.hasLine lk

end Sys2Proof.Machine
end

