-- ==== Sys2Proof/Machine/Queue.lean ====
section
/-! DEFINITION. Messages and the queues of a core (08 R198 to R200; 11 R277 to R284), and remote fills (01 R31). -/

namespace Sys2Proof.Machine

/-! ## Spill segments (11 R278, R279) -/

/-- Spill size rounded up to a multiple of 64 (11 R278). -/
def LaunchRec.spillBytes (r : LaunchRec) : Nat := (r.spill + 63) / 64 * 64
/-- Entries of one level's spill segment. -/
def LaunchRec.spillCap (r : LaunchRec) : Nat := r.spillBytes / 64
/-- Local offset of spill entry `i` of a level. -/
def LaunchRec.spillOff (r : LaunchRec) (level i : Nat) : Nat :=
  131072 - r.spillBytes + level * (r.spillBytes / 4) + 16 * i

def Message.size (m : Message) : Nat := if m.call then 2 else 1

/-- The entries of a message (11 R279), 16 bytes each. -/
def Message.image (m : Message) : List Byte :=
  let e (a b c d : Nat) : List Byte := leBytes 4 a ++ leBytes 4 b ++ leBytes 4 c ++ leBytes 4 d
  e (m.level.toNat * 2 ^ 30 + (if m.call then 2 ^ 29 else 0) + m.pc.toNat / 2 * 2) m.arg0.toNat m.arg1.toNat m.id.toNat
    ++ if m.call then e (2 ^ 28) m.arg2.toNat m.arg3.toNat m.reply.toNat else []

/-- The message that an image holds (11 R279). How many entries it takes is the core's queue state; its CALL bit says
whether it is dispatched as a call. Its second entry, where it has none, reads as zero. -/
def messageOf (k : SpillMeta) (bs : List Byte) : Message :=
  let w (i : Nat) : W32 := bytes32 ((bs.drop (4 * i)).take 4)
  { pc := BitVec.ofNat 17 ((w 0).toNat / 2 * 2 % 131072), level := BitVec.ofNat 2 ((w 0).toNat / 2 ^ 30)
    call := (w 0).getLsbD 29, host := k.host, arg0 := w 1, arg1 := w 2, id := w 3
    arg2 := w 5, arg3 := w 6, reply := w 7 }

def QLevel.hwUsed (q : QLevel) : Nat := (q.hw.map Message.size).sum
def SpillMeta.size (k : SpillMeta) : Nat := if k.call then 2 else 1
def QLevel.spillUsed (q : QLevel) : Nat := (q.spill.map SpillMeta.size).sum

def Core.level (k : Core) (l : Nat) : QLevel := mget {} k.levels l
def Core.setLevel (k : Core) (l : Nat) (q : QLevel) : Core := { k with levels := mset {} k.levels l q }
def State.level (s : State) (n l : Nat) : QLevel := (s.getCore n).level l
def State.setLevel (s : State) (n l : Nat) (q : QLevel) : State := s.setCore n ((s.getCore n).setLevel l q)

/-- The keys of the `size` entries of a level from entry `i`, as the ring wraps. -/
def spillKeys (r : LaunchRec) (n l i size : Nat) : List Nat :=
  (List.range size).map fun j => localKey n (r.spillOff l ((i + j) % r.spillCap))

/-- The core writes and reads the segment as plain memory; a dropped or counted line or an error stops it (11 R279). -/
def State.spillBad (s : State) (keys : List Nat) (write : Bool) : Option Nat :=
  keys.find? fun k => !decide (s.lineState (k / 64) = .plain)
    || (if write then (s.badPartial k 16).isSome else (s.badGranule k 16).isSome)

/-- Report a message lost in a queue entry or a retry slot (18 R369). -/
def State.loseEntry (s : State) (n : Nat) : State := s.postUeFree (s.getCore n).launch (quayOf (basinOf n)) 5

/-- Report a message lost in the spill segment (11 R279, 18 R369). -/
def State.loseSpill (s : State) (n key : Nat) : State :=
  let (s, nospare) := if (s.badGranule key 16).isSome then s.retireLine key else (s, false)
  s.postUe (s.getCore n).launch (quayOf (basinOf n)) 15 5 (key % 131072 / 64 * 64) nospare

/-! ## Acceptance (11 R277, R280) -/

/-- Place a message in its level or refuse it (11 R280). -/
def State.enqueue (s : State) (n : Nat) (m : Message) : Bool × State :=
  let l := m.level.toNat
  let q := s.level n l
  let r := s.recOf n
  if q.spill.isEmpty ∧ q.hwUsed + m.size ≤ 16 then (true, s.setLevel n l { q with hw := q.hw ++ [m] })
  else if q.spillUsed + m.size ≤ r.spillCap then
    let keys := spillKeys r n l (q.head + q.spillUsed) m.size
    match s.spillBad keys true with
    | some k => (true, s.loseSpill n k)
    | none =>
      let img := m.image
      let s := (keys.zip [0, 16]).foldl (fun s e => s.putBytes e.1 ((img.drop e.2).take 16)) s
      (true, s.setLevel n l { q with spill := q.spill ++ [{ call := m.call, host := m.host }] })
  else (false, s)

/-- Refill hardware entries from the head of the spill segment while they have room (11 R280). -/
def State.refill (s : State) (n l : Nat) : Nat → State
  | 0 => s
  | fuel + 1 =>
    let q := s.level n l
    match q.spill with
    | [] => s
    | k :: t =>
      if 16 < q.hwUsed + k.size then s
      else
        let r := s.recOf n
        let keys := spillKeys r n l q.head k.size
        let head := if r.spillCap = 0 then 0 else (q.head + k.size) % r.spillCap
        match s.spillBad keys false with
        | some key => ((s.setLevel n l { q with head := head, spill := t }).loseSpill n key).refill n l fuel
        | none =>
          let m := messageOf k (keys.flatMap fun key => s.bytesAt key 16)
          (s.setLevel n l { q with hw := q.hw ++ [m], head := head, spill := t }).refill n l fuel

/-! ## Remote fills (01 R31) -/

/-- Every source that the parked instruction found empty is full: the context wakes (01 R21, R31). -/
def Ctx.wake (x : Ctx) : Ctx :=
  if x.status = .parked ∧ x.blockedOn.all (fun id => decide (x.regState id = .full)) = true then
    { x with status := .ready, blockedOn := [] } else x

/-- Restore a granule: its registers take their saved states (15 R344). -/
def Ctx.restoreGranule (x : Ctx) (gr : Granule) : Ctx :=
  (granuleIds gr).foldl (fun x id =>
      if x.regState id = .absent then
        { x with rst := mset .full x.rst id (mget .full x.saved id), saved := mset .full x.saved id .full }
      else x) x

/-- Apply a fill to a register of a context that is not absent (01 R31). A register with an own result outstanding is
empty, unless an earlier fill made it full: then the row of a full register applies (log entry 40). -/
def Ctx.fill (x : Ctx) (helper : Bool) (id : Nat) (v : W128) : Ctx :=
  let setFov (x : Ctx) : Ctx := { x with fov := true, fovreg := BitVec.ofNat 8 id }
  if id = 0 ∨ (helper = true ∧ x.status = .idle) then setFov x
  else if x.regState id = .full then setFov (x.write id v) else (x.write id v).wake

/-- The mark of a register in Core.touched. -/
def touchKey (c id : Nat) : Nat := c * 256 + id

/-- A fill or a landing writes registers in this cycle of the core (01 R32). -/
def State.touchRegs (s : State) (n c : Nat) (ids : List Nat) : State :=
  s.setCore n { s.getCore n with touched := (s.getCore n).touched ++ ids.map (touchKey c) }

/-- A fill must wait: its register is absent, and the granule is restored first (01 R31); or a fill or a result has been
applied to the register in this cycle, and it is applied in a later one (01 R32). -/
def State.fillWaits (s : State) (n c id : Nat) : Bool :=
  (decide ((s.getCtx n c).regState id = .absent) && (decide (c = 0) || !decide ((s.getCtx n c).status = .idle)))
    || (s.getCore n).touched.contains (touchKey c id)

/-- A fill. Where a result of latency 1, issued in the cycle before, lands with it, the row of R31 for a register with an own
result is taken: the result lands over the fill (01 R32), and FOV stays as it is (log entry 40). A fill that is discarded leaves
a register that cannot be read as it was (18 R368). -/
def State.applyFill (s : State) (n c id : Nat) (v : W128) : State :=
  let stores := decide (id ≠ 0) && (decide (c = 0) || !decide ((s.getCtx n c).status = .idle))
  let filled := s.setCtx n c ((s.getCtx n c).fill (!decide (c = 0)) id v)
  if stores && s.written.contains (regKey n c id) then s.touchRegs n c [id]
  else (if stores then filled.clearReg n c id else filled).touchRegs n c [id]

/-- Send a fill (01 R31); it lands by a later step. -/
def State.sendFill (s : State) (h : Nat) (t : RegTarget) (v : W32) (src : FillSrc := .none) : State :=
  { s with net := s.net ++ [.fill h t.core t.ctx t.reg (v.zeroExtend 128) src] }

/-- A fill that the core itself makes: applied at once, or on its way while the register has to wait for it (01 R31, R32). -/
def State.deliverFill (s : State) (h : Nat) (t : RegTarget) (v : W32) (src : FillSrc := .none) : State :=
  if s.fillWaits t.core t.ctx t.reg then s.sendFill h t v src else s.applyFill t.core t.ctx t.reg (v.zeroExtend 128)

/-- A status target coded as in 07 R195: [31] valid, [22:9] core, [8:5] context, [4:0] register. -/
def targetWord (t : RegTarget) : W32 := BitVec.ofNat 32 (2 ^ 31 + t.core * 2 ^ 9 + t.ctx * 2 ^ 5 + t.reg)
def targetOf (w : W32) : Option RegTarget :=
  if w.getLsbD 31 then some { core := w.toNat / 2 ^ 9 % 2 ^ 14, ctx := w.toNat / 2 ^ 5 % 16, reg := w.toNat % 32 } else none

/-- The launch is saved: what is on its way waits until it resumes (15 R340; log entry 58). -/
def State.savedAway (s : State) (h : Nat) : Bool :=
  match s.launchOf h with
  | some l => decide (l.phase = .saved)
  | none => false

/-- A launch whose messages are still accepted: it exists and was neither ended nor cancelled (14 R321). -/
def State.liveLaunch (s : State) (h : Nat) : Bool :=
  match (s.getObj h).state with
  | .ended | .cancelled => false
  | _ => true

/-! ## Sending (08 R199, R200) -/

/-- The handle of the launch on a core; 0 where none runs. -/
def State.handleOf (s : State) (n : Nat) : Nat := ((s.getCore n).launch).getD 0

/-- A handler word without a reserved bit (08 R198). -/
def handlerOk (w : W32) : Bool := w.toNat / 2 ^ 17 % 2 ^ 13 == 0 && !w.getLsbD 0
/-- The handler's PC, whose bit 0 is 0 (03 R63). -/
def handlerPc (w : W32) : Off := BitVec.ofNat 17 (w.toNat % 131072 / 2 * 2)
def handlerLevel (w : W32) : BitVec 2 := BitVec.ofNat 2 (w.toNat / 2 ^ 30)

/-- The next message id of a core (08 R199). -/
def State.nextId (s : State) (n : Nat) : W32 × State :=
  let k := s.getCore n
  (BitVec.ofNat 32 (n * 2 ^ 18 + k.msgSeq.toNat), s.setCore n { k with msgSeq := k.msgSeq + 1 })

/-- Publish a message: it gets its id and travels to its target (08 R199, R200). -/
def State.sendMsg (s : State) (n c tgt : Nat) (m : Message) (word : W32) (status : Option RegTarget) : State :=
  let (id, s) := s.nextId n
  { s with net := s.net ++ [.msg (s.handleOf n) n c tgt { m with id := id } word status s.seq] }

/-- QUEUE event (08 R200, 18 R374). -/
def State.postQueueEvent (s : State) (h core ctx tgt : Nat) (word a0 a1 : W32) : State :=
  match s.launchOf h with
  | none => s
  | some l => s.postLaunch h (mkRecord 0x06 .queue l.lrec.lid ctx core false (BitVec.ofNat 32 tgt) word a0 a1)

/-! ## The start of a context (01 R28) -/

/-- The state a start gives a context; LINK_SPILL.BASE and LINK_LIMIT stay, and so does what it fetches (10 R275). -/
def startCtx (r : LaunchRec) (x : Ctx) (pc : Off) : Ctx :=
  { status := .ready, pc := pc, spillBase := x.spillBase, spillTop := x.spillBase, linkLimit := x.linkLimit
    srkeyLo := r.srkeyLo, srkeyHi := r.srkeyHi, srseq := r.srseq, att := x.att + 1, epoch := x.epoch }

end Sys2Proof.Machine
end

