-- ==== Sys2Proof/Machine/Fabric.lean ====
section
/-! DEFINITION. How an instruction stops, and the effects that an instruction performs when it issues, or a task when
it publishes (05 R113 to R140, 09 R238 to R247, 11 R285, R286). -/

namespace Sys2Proof.Machine

/-! ## How an instruction stops -/

/-- Why an instruction does not complete: it waits; it waits for absent registers; it traps with a cause and a TRAP_VAL;
its word is illegal where it stands; a translation fails; an uncorrectable error is met at a key. The state is the one
in which it stops. -/
inductive Stop where
  | wait (s : State)
  | absent (s : State) (ids : List Nat)
  | trap (s : State) (c : Cause) (v : W32)
  | ill (s : State)
  | miss (s : State) (m : Miss) (v : W32)
  | ue (s : State) (key addr : Nat) (v : W32)

/-- What an instruction does with the PC: the next instruction, a transfer, the same instruction again, or the next
instruction with a trap there (08 R223). -/
inductive Flow where
  | seq
  | jump (t : Off)
  | stay
  | trapNext (c : Cause) (v : W32)
deriving DecidableEq, Repr

abbrev Body := State → Except Stop (State × Flow)

/-- The address of an access in a UE record: 48 bits of a far address, else P[31:0] (18 R374). -/
def ueAddr (P : W64) : Nat := if ptrKind P = 2 then ptrOff P else (ptrLow P).toNat

/-- A failed access through register `preg` holding P (05 R113). -/
def Fail.stop (f : Fail) (s : State) (preg : Nat) (P : W64) : Stop :=
  match f with
  | .ptr c => .trap s c (BitVec.ofNat 32 preg)
  | .cause c => .trap s c (ptrLow P)
  | .miss m => .miss s m (ptrLow P)
  | .ue k => .ue s k (ueAddr P) (ptrLow P)

/-- Lift a check of an access. -/
def liftFail {α : Type} (s : State) (preg : Nat) (P : W64) : Except Fail α → Except Stop α
  | .ok a => .ok a
  | .error f => .error (f.stop s preg P)

def trapIf (b : Bool) (s : State) (c : Cause) (v : W32) : Except Stop Unit :=
  if b then .error (.trap s c v) else .ok ()
def waitIf (b : Bool) (s : State) : Except Stop Unit := if b then .error (.wait s) else .ok ()
/-- Wait for those of the registers that are absent (15 R344). -/
def waitAbsent (ids : List Nat) (s : State) : Except Stop Unit :=
  let gone := ids.filter fun id => decide (s.cur.regState id = .absent)
  if gone.isEmpty then .ok () else .error (.absent s gone)

/-- The same stop with the state it leaves replaced. -/
def Stop.at_ (e : Stop) (s : State) : Stop :=
  match e with
  | .wait _ => .wait s
  | .absent _ ids => .absent s ids
  | .trap _ c v => .trap s c v
  | .ill _ => .ill s
  | .miss _ m v => .miss s m v
  | .ue _ k a v => .ue s k a v

/-- An instruction that faults leaves all visible state as it was (00 R16). -/
def undo {α : Type} (s : State) : Except Stop α → Except Stop α
  | .ok a => .ok a
  | .error e => .error (e.at_ s)

/-! ## FIFO banks (09 R238, R239) -/

def Fifo.cap : Nat := 2048

/-- A pop that waits behind an earlier push of its context at the bank (09 R238). -/
def Fifo.held (f : Fifo) (p : PopWait) : Bool :=
  f.pushes.any fun q => q.src == .ctx p.core p.ctx && decide (q.seq < p.seq)

/-- The pops that wait at the bank itself, which holds 16; the others wait at their mesh ports (09 R238). -/
def Fifo.popsHere (f : Fifo) : List PopWait := (f.pops.filter fun p => !f.held p).take 16

/-- A push that follows a pop of its context which still waits at its mesh port: it has not reached the bank (09 R239). -/
def Fifo.behind (f : Fifo) (q : PushWait) : Bool :=
  f.pops.any fun p => q.src == .ctx p.core p.ctx && decide (p.seq < q.seq) && !f.popsHere.contains p

/-- Push an entry, or let it wait: at the full bank, behind the pushes that wait there, or behind its context's pop (09 R238,
R239). -/
def Fifo.push (f : Fifo) (src : PushSrc) (d : Line) (seq : Nat := 0) : Fifo :=
  let q : PushWait := { src := src, data := d, seq := seq }
  if f.entries.length < Fifo.cap ∧ f.behind q = false ∧ f.pushes.all f.behind = true then { f with entries := f.entries ++ [d] }
  else { f with pushes := f.pushes ++ [q] }

/-- The oldest push that has reached the bank, and the pushes without it. -/
def Fifo.nextPush (f : Fifo) : Option (PushWait × List PushWait) :=
  (f.pushes.find? fun q => !f.behind q).map fun q => (q, f.pushes.erase q)

/-- The bank without its oldest entry. -/
def Fifo.drop (f : Fifo) : Fifo :=
  { f with entries := f.entries.tail, bad := (f.bad.filter (· ≠ 0)).map (· - 1), head := (f.head + 1) % 2048 }

/-- The key of the line that holds the oldest entry of a bank. -/
def Fifo.headKey (f : Fifo) (b k : Nat) : Nat := bankKey b k (f.head * 64)

/-- The oldest entry cannot be read (18 R364). -/
def Fifo.headBad (f : Fifo) : Bool := f.bad.contains 0

/-- The oldest pop that an entry may be given to, and the pops without it. -/
def Fifo.nextPop (f : Fifo) : Option (PopWait × List PopWait) :=
  f.popsHere.head?.map fun p => (p, f.pops.erase p)

/-! ## Accesses of a context under way (10 R264, R265)

Pops and pushes that wait at a bank, and stores through ring windows, go on while their context issues. Each has a number,
and whatever must follow them takes the next number. -/

/-- The number of an access that goes on under way. -/
def State.nextSeq (s : State) : Nat × State := (s.seq, { s with seq := s.seq + 1 })

/-- Stores of a context with numbers below `m` that are not performed: at a bank, or at the system scope of a ring. -/
def State.storesBefore (s : State) (n c m : Nat) (ring : Bool) : Bool :=
  (s.basins.any fun e => e.2.fifos.any fun f => f.2.pushes.any fun p => p.src == .ctx n c && decide (p.seq < m))
    || (ring && (s.ring.out.any fun o => o.owner == .stc n c && decide (o.seq < m)))

/-- Pops of a context with numbers below `m` that still wait. -/
def State.popsBefore (s : State) (n c m : Nat) : Bool :=
  s.basins.any fun e => e.2.fifos.any fun f => f.2.pops.any fun p => p.core == n && p.ctx == c && decide (p.seq < m)

/-- Replies of a context with numbers below `m` whose fills have not landed (08 R202). -/
def State.repliesBefore (s : State) (n c m : Nat) : Bool := s.net.any fun f => match f with
  | .fill _ _ _ _ _ (.ctx n' c' q) => n' == n && c' == c && decide (q < m)
  | _ => false

/-- An earlier access of the issuer of a command or a message is not performed (10 R264, R265). -/
def State.priorPending (s : State) (n c m : Nat) : Bool :=
  s.storesBefore n c m true || s.popsBefore n c m || s.repliesBefore n c m

/-- Pops that wait go with their context when it ends: no entry is taken for them (log entry 63). -/
def State.withdrawPops (s : State) (n c : Nat) : State :=
  if !(s.basins.any fun e => e.2.fifos.any fun f => f.2.pops.any fun p => p.core == n && p.ctx == c) then s
  else { s with basins := s.basins.map fun e => (e.1, { e.2 with fifos := e.2.fifos.map fun f =>
      (f.1, { f.2 with pops := f.2.pops.filter fun p => !(p.core == n && p.ctx == c) }) }) }

/-- FIFO banks at which pops of a context wait. -/
def State.popBanks (s : State) (n c : Nat) : List (Nat × Nat) :=
  s.basins.flatMap fun e => e.2.fifos.filterMap fun f =>
    if f.2.pops.any fun p => p.core == n && p.ctx == c then some (e.1, f.1) else none

/-- Pops of a context that wait hold back its later accesses to memory, which they precede (10 R258), save those to the
bank where they wait themselves (09 R239; log entry 62). -/
def State.popsHold (s : State) (n c : Nat) (bank : Option (Nat × Nat) := none) : Bool :=
  (s.popBanks n c).any fun b => some b != bank

/-- The FIFO bank that a push or a pop reaches, where it reaches one. -/
def State.bankOf (s : State) (n : Nat) (P : W64) (a : Acc) : Option (Nat × Nat) :=
  match s.resolve n P 64 16 a .group with
  | .ok (.fifo b k, _) => some (b, k)
  | _ => none

/-- Whether a push of the context waits at any bank. -/
def State.pushWaits (s : State) (n c : Nat) : Bool := s.storesBefore n c s.seq false

/-- The accesses of a context that a release at a scope must follow (10 R261): the pops and pushes that wait, its replies on
their way, and ring stores for system scope (16 R358). -/
def State.accessPending (s : State) (n c : Nat) (sc : Scope) : Bool :=
  s.storesBefore n c s.seq (decide (sc = .sys)) || s.popsBefore n c s.seq || s.repliesBefore n c s.seq

/-- A release waits for the earlier accesses of its context (10 R261). -/
def releaseWait (s : State) (ordered : Bool) (sc : Scope) : Except Stop Unit :=
  waitIf (ordered && s.accessPending s.core s.ctx sc) s

/-! ## Ring windows (16 R353, R354, R357) -/

/-- Number of packages of the ring (16 R350). -/
def Ring.size (r : Ring) : Nat := r.last.toNat + 1

/-- Unit-8 offset at the destination of a window address (16 R352). -/
def ringOff (leaf : W64) (va : Nat) : Nat := if ringFifo leaf then ringBank leaf * 131072 else ringBank leaf * 131072 + va % 2 ^ 19

def ringOutOf (src : Nat) (leaf : W64) (item : RingItem) (owner : RingOwner) (val : W32) : RingOut :=
  { srcBasin := src, hop := ringHop leaf, destBasin := ringBasin leaf, item := item, owner := owner, val := val }

/-- The chunks of 16 bytes of a write through a window (16 R356). -/
def ringChunks (src : Nat) (owner : RingOwner) (val : W32) (leaf : W64) (va : Nat) : Nat → List Byte → List RingOut
  | 0, _ => []
  | fuel + 1, bs =>
    if bs.isEmpty then []
    else
      let n := 16 - va % 16
      ringOutOf src leaf (.chunk (ringOff leaf va) (bs.take n)) owner val
        :: ringChunks src owner val leaf (va + n) fuel (bs.drop n)

/-- The position that a write is sent to, or that an arrival came from. -/
def Ring.posAt (r : Ring) (hop : Int) : Nat := (((r.pos.toNat : Int) + hop) % (r.size : Int)).toNat

/-- A hop of N or more sends nothing (16 R358), nor does one to a package that has failed (R360 step 1). -/
def Ring.reaches (r : Ring) (leaf : W64) : Bool :=
  decide ((ringHop leaf).natAbs < r.size) && !(r.reconf && r.failed == some (r.posAt (ringHop leaf)))

/-- A port, or its twin where the port has failed (16 R359). -/
def Ring.livePort (r : Ring) (p : Nat) : Nat :=
  if r.fo.getLsbD (p + 1 - 2 * (p % 2)) then p + 1 - 2 * (p % 2) else p

/-- The port of a write (16 R349). -/
def Ring.portOf (r : Ring) (o : RingOut) : Nat := r.livePort ((if 0 < o.hop then 0 else 2) + o.srcBasin % 2)

/-- The port by which traffic that passes through goes on: that of its source basin and its direction (16 R349). -/
def Ring.onward (r : Ring) (k : RingPkt) : Nat := r.livePort ((if k.hop.msb then 2 else 0) + k.srcBasin % 2)

/-- Flits of a port that wait for their acknowledgement (16 R351). -/
def Ring.waitingFlits (r : Ring) (p : Nat) : Nat :=
  (r.out.filter fun o => (o.sent.map (·.1)) == some p && !o.linked).length
    + (r.transit.filter fun t => (t.sent.map (·.1)) == some p).length

/-- The next flit of a port, while its retry buffer has room. -/
def Ring.nextFlit (r : Ring) (p : Nat) : Option (BitVec 12 × Ring) :=
  if 512 ≤ r.waitingFlits p then none
  else
    let x : Port := mget {} r.ports p
    some (x.txSeq, { r with ports := mset {} r.ports p { x with txSeq := x.txSeq + 1 } })

/-- Give write `k` its flit, where it has not left and may. -/
def Ring.sendOut (r : Ring) (k : Nat) : Ring :=
  match r.out[k]? with
  | some o =>
    if o.sent.isSome then r
    else match r.nextFlit (r.portOf o) with
      | some (q, r') => { r' with out := r'.out.set k { o with sent := some (r.portOf o, q) } }
      | none => r
  | none => r

/-- Give item `k` that passes through its flit. -/
def Ring.sendOn (r : Ring) (k : Nat) : Ring :=
  match r.transit[k]? with
  | some t =>
    if t.sent.isSome then r
    else match r.nextFlit (r.onward t.pkt) with
      | some (q, r') => { r' with transit := r'.transit.set k { t with sent := some (r.onward t.pkt, q) } }
      | none => r
  | none => r

/-- What has not left gets its flits, in egress order, while the retry buffers have room. -/
def Ring.flush (r : Ring) : Ring :=
  if r.reconf then r
  else
    let r := (List.range r.transit.length).foldl Ring.sendOn r
    (List.range r.out.length).foldl Ring.sendOut r

/-- Send the items of a write, in egress order. -/
def State.ringSend (s : State) (xs : List RingOut) : State :=
  let (q, s) := s.nextSeq
  { s with ring := ({ s.ring with out := s.ring.out ++ xs.map fun o => { o with seq := q } } : Ring).flush }

/-- A deferred fault joins those of a context (05 R133). -/
def State.defer (s : State) (n c : Nat) (cause : Cause) (v : W32) (fill : Option Nat := none) : State :=
  s.setCtx n c { s.getCtx n c with deferred := (s.getCtx n c).deferred ++ [{ cause := cause, val := v, fill := fill }] }

/-- The ring items of a write, from source basin `src`. -/
def ringStoreItems (src : Nat) (owner : RingOwner) (val : W32) (group : Bool) (data : List Byte) :
    List RingPart → List RingOut
  | [] => []
  | p :: t =>
    if ringFifo p.leaf && group then [ringOutOf src p.leaf (.entry (ringBank p.leaf) (bytesLine data)) owner val]
    else ringChunks src owner val p.leaf p.va 5 (data.take p.len) ++ ringStoreItems src owner val group (data.drop p.len) t

/-- A store of a context through ring windows: its faults at the destination are deferred (16 R354). -/
def State.ringStore (s : State) (n c : Nat) (P : W64) (data : List Byte) (group : Bool) (rs : List RingPart) :
    Except Stop State :=
  if rs.any (fun p => ringFifo p.leaf) && !group then .error (.trap s .range (ptrLow P))
  else if rs.any fun p => !s.ring.reaches p.leaf then .ok (s.defer n c .range (ptrLow P))
  else .ok (s.ringSend (ringStoreItems (basinOf n) (.stc n c) (ptrLow P) group data rs))

/-! ## Transfers, engines and the matrix queue -/

def State.startXfer (s : State) (n : Nat) (x : Xfer) : State :=
  let k := s.getCore n
  s.setCore n { k with xfers := k.xfers ++ [{ x with id := k.nextXfer, after := s.seq }], nextXfer := k.nextXfer + 1 }

def State.xfersOf (s : State) (n c : Nat) : List Xfer := (s.getCore n).xfers.filter fun x => x.ctx == c

/-- A tug command is accepted with the next command number (12 R293; 08 R216). -/
def State.acceptKick (s : State) (b n c att off h after : Nat) : Nat × State :=
  let x := s.getBasin b
  let t := x.tug.next.toNat
  let cmd : TugCmd := { token := t, basin := b, core := n, ctx := c, att := att, handle := h, off := off, after := after }
  (t, s.setBasin b { x with tug := { x.tug with next := x.tug.next + 1, cmds := x.tug.cmds ++ [cmd] } })

def State.tugFull (s : State) (b : Nat) : Bool := decide (16 ≤ (s.getBasin b).tug.cmds.length)

/-- Checks of a block offset (08 R215): the value is TRAP_VAL. The rule gives them no order: ALIGN comes first (log entry 75). -/
def blockCheck (s : State) (off : Nat) (v : W32) : Except Stop Unit :=
  if off % 64 ≠ 0 then .error (.trap s .align v)
  else if 0x1FFC0 < off then .error (.trap s .range v) else .ok ()

/-- A halt by MSTAT.HALT or by a pre-emption (07 R164). -/
def MatUnit.halted (m : MatUnit) : Bool := m.halt || m.preHalt

/-- `msave` and `mrest`, which a halted unit performs (07 R164). -/
def MatOp.isSave : MatOp → Bool
  | .msave .. | .mrest .. => true
  | _ => false

/-- Whether a command must wait before it enters the queue (07 R163, R189). -/
def MatUnit.full (m : MatUnit) (op : MatOp) : Bool :=
  m.fmt.isSome || (decide (8 ≤ m.queue.length) && !(m.halted && op.isSave))

/-- The matrix unit of a core takes a command, or the issuer waits (07 R163). -/
def State.acceptMat (s : State) (n : Nat) (c : MatCmd) : Except Stop State :=
  let k := s.getCore n
  if k.mat.full c.op then .error (.wait s)
  else .ok (s.setCore n { k with mat := { k.mat with queue := k.mat.queue ++ [{ c with after := s.seq }] } })

/-! ## Stores -/

/-- Perform a store of a context (05 R120, R121; 12 R293; 09 R238; 16 R354). -/
def State.doStore (s : State) (n c preg : Nat) (P : W64) (data : List Byte) (align : Nat) (form : Form) :
    Except Stop State := do
  let (place, s') ← liftFail s preg P (s.resolve n P data.length align .write form)
  match place with
  | .mem ps =>
    liftFail s preg P (s'.checkParts .write [] ps)
    .ok (s'.writeParts data ps)
  | .fifo b k => do
    waitIf (s.repliesBefore n c s.seq) s
    let (q, s) := s.nextSeq
    .ok (s.setFifo b k ((s.fifo b k).push (.ctx n c) (bytesLine data) q))
  | .ring rs => s'.ringStore n c P data (form = .group) rs
  | .engine b unit off =>
    if unit = 9 ∧ off = 0 then do
      let v := bytes32 data
      blockCheck s (v.toNat % 131072) v
      waitIf (s.accessPending n c .basin || s.tugFull b) s
      .ok { s with net := s.net ++ [.kick (s.handleOf n) n c (s.getCtx n c).att b v s.seq] }
    else .ok s

/-! ## Local ranges (05 R122, R123) -/

def localParts (n off len : Nat) : List Part :=
  (partsOf (localKey n off) len).map fun p => { key := p.1, len := p.2 }

/-- The first byte of a local range that a line state stops, then the first that an error stops (05 R113, R123). -/
def State.rangeStop (s : State) (n off len : Nat) (a : Acc) (decs : HeldDecs) : Option Stop :=
  let ps := localParts n off len
  match ps.find? fun p => (stateFault a (s.seenState decs (p.key / 64))).isSome with
  | some p =>
    some (.trap s ((stateFault a (s.seenState decs (p.key / 64))).getD .none) (BitVec.ofNat 32 (p.key % 131072)))
  | none =>
    match s.checkErrs a ps with
    | some k =>
      let byte := max k (localKey n off) % 131072
      some (.ue s k byte (BitVec.ofNat 32 byte))
    | none => none

/-- A plain write of a local range. -/
def State.doLmem (s : State) (n off : Nat) (bs : List Byte) : Except Stop State :=
  match s.rangeStop n off bs.length .write [] with
  | some e => .error e
  | none => .ok (s.writeParts bs (localParts n off bs.length))

/-! ## Counted stores (05 R124, 09 R245, R247) -/

/-- Where a counted line may lie (09 R245); far lines only in LPDDR 6. -/
def countedKey (key : Nat) : Bool := decide (key < 2 ^ 49)

/-- Whether a far line finds a pinned way: none where it never will (09 R247). -/
def State.pinRoom (s : State) (lk : Nat) : Option Bool :=
  match s.home (farPa (lk * 64)) with
  | none => none
  | some b =>
    let lim := (s.getBasin b).pinLimit
    if lim = 0 then none
    else if ((s.farLine lk).map FarLine.pinned).getD false then some true
    else some (decide (((s.setLines b (setOf (farPa (lk * 64)))).filter fun e => e.2.pinned).length < lim))

/-- Write data and count as one event (05 R124). A plain line that its home holds dirty goes to memory first, which keeps
the line it was before it was counted (09 R248). -/
def State.fillCounted (s : State) (lk count : Nat) (d : Line) : State :=
  let s := if isFarKey (lk * 64) then (s.touchLine lk).writeBack lk else s
  (s.putBytes (lk * 64) (lineBytes d)).setLine lk (.counted count)

/-- The wait of a fill for a way begins: PSTALL rises (09 R247). -/
def State.stall (s : State) (n : Nat) : State :=
  let k := s.getCore n
  s.setCore n { k with pstall := if k.pstall = 0xFFFF then k.pstall else k.pstall + 1 }

/-- The checks of R124 after the place is known: target, alignment, region; then count. Through a ring window the region
and the count are checked on arrival (16 R354). -/
def State.stcChecks (s : State) (P : W64) (place : Place) (count : W32) : Except Stop Unit :=
  match place with
  | .mem ps => do
    trapIf (ps.any fun p => !countedKey p.key) s .range (ptrLow P)
    trapIf (ptrOff P % 64 != 0) s .align (ptrLow P)
    trapIf (ps.any fun p => !s.inRegion (p.key / 64)) s .range (ptrLow P)
    trapIf (decide (count.toNat = 0 ∨ 255 < count.toNat)) s .range count
  | .ring rs => do
    trapIf (rs.any fun p => ringFifo p.leaf) s .range (ptrLow P)
    trapIf (ptrOff P % 64 != 0) s .align (ptrLow P)
  | _ => .error (.trap s .range (ptrLow P))

/-- Perform an `stc` of a context (05 R124): it waits for a pinned way under R247, and once the wait has lasted CNT_LIMIT
cycles it does not fill. The trap clears the wait. -/
def State.doStc (s : State) (n c preg : Nat) (P : W64) (d : Line) (count : W32) : Except Stop State := do
  let (place, s') ← liftFail s preg P (s.resolve n P 64 1 .counted .group)
  s'.stcChecks P place count
  match place with
  | .mem ps =>
    liftFail s preg P (s'.checkParts .counted [] ps)
    match ps with
    | p :: _ =>
      let lk := p.key / 64
      let x := s'.getCtx n c
      let fill (s : State) : State := (s.setCtx n c { s.getCtx n c with pinStart := none }).fillCounted lk count.toNat d
      if !isFarKey p.key then .ok (s'.fillCounted lk count.toNat d)
      else
        let cyc := (s'.getCore n).cyc
        let expired : Bool := match x.pinStart with
          | some t => decide ((s'.getCore n).cntLimit.toNat ≤ cyc - t)
          | none => false
        if expired then .error (.trap s .pressure (ptrLow P))
        else match s'.pinRoom lk with
          | none => .error (.trap s .pressure (ptrLow P))
          | some true => .ok (fill s')
          | some false =>
            match x.pinStart with
            | none => .error (.wait ((s'.stall n).setCtx n c { x with pinStart := some cyc }))
            | some _ => .error (.wait s')
    | [] => .ok s'
  | .ring rs =>
    match rs with
    | p :: _ =>
      if !s'.ring.reaches p.leaf then .ok (s'.defer n c .range (ptrLow P))
      else .ok (s'.ringSend [ringOutOf (basinOf n) p.leaf (.counted (ringOff p.leaf p.va) d count.toNat) (.stc n c) (ptrLow P)])
    | [] => .ok s'
  | _ => .ok s'

/-! ## Atomics and decrements (05 R127, R136, R137) -/

/-- One word lane of R136. -/
def atomLane (op : AtomOp) (x y e0 : W32) : W32 :=
  match op with
  | .add => x + y
  | .and => x &&& y
  | .or => x ||| y
  | .xor => x ^^^ y
  | .min => if x.toInt ≤ y.toInt then x else y
  | .max => if x.toInt ≤ y.toInt then y else x
  | .minu => if x.toNat ≤ y.toNat then x else y
  | .maxu => if x.toNat ≤ y.toNat then y else x
  | .swap => y
  | .cas => if x = e0 then y else x
  | .dec => x - y

/-- The new value of an atomic, lane by lane. -/
def atomNew (op : AtomOp) (vec : Bool) (x y : W128) (e0 : W32) : W128 :=
  let lane (i : Nat) : W128 :=
    (atomLane op (x.extractLsb' (32 * i) 32) (y.extractLsb' (32 * i) 32) e0).zeroExtend 128 <<< (32 * i)
  if vec then lane 0 ||| lane 1 ||| lane 2 ||| lane 3 else lane 0

/-- `rmwdec` reaches only a core's local memory (05 R137). -/
def atomReach (op : AtomOp) (P : W64) : Bool :=
  !decide (op = .dec) || ptrKind P == 0 || (ptrKind P == 1 && decide (ptrUnit P < 8))

/-- Steps 1 to 4 of R113 for an atomic of `z` bytes, the target of `rmwdec` at step 2 (05 R135, R137). -/
def State.resolveAtomic (s : State) (n : Nat) (P : W64) (op : AtomOp) (z : Nat) : Except Fail (Place × State) :=
  match ptrCheck (s.recOf n) P with
  | some c => .error (.ptr c)
  | none => if atomReach op P then s.resolve n P z z .atomic else .error (.cause .range)

/-- The core whose local memory a key lies in. -/
def coreOfKey (key : Nat) : Nat := key / 131072

/-- Perform an atomic (05 R135 to R137); the answer is the old value. The handler word of `rmwdec` is checked last
(08 R198). One that triggers a task is a release at core scope (10 R264). -/
def State.doAtomic (s : State) (n c preg : Nat) (P : W64) (op : AtomOp) (vec : Bool) (y : W128) (e0 e4 e5 : W32) :
    Except Stop (W128 × State) := do
  let z := if vec then 16 else 4
  let (place, s') ← liftFail s preg P (s.resolveAtomic n P op z)
  match place with
  | .mem ps =>
    liftFail s preg P (s'.checkParts .atomic [] ps)
    trapIf (decide (op = .dec) && !handlerOk e4) s .range e4
    let x := bytes128 (s'.readParts ps)
    let x' := atomNew op vec x y e0
    waitIf (decide (op = .dec ∧ x ≠ 0 ∧ x' = 0) && s.accessPending n c .core) s
    let s' := s'.writeParts (leBytes z x'.toNat) ps
    if op = .dec ∧ x ≠ 0 ∧ x' = 0 then
      let home := coreOfKey ((ps.head?.map Part.key).getD 0)
      let off := ((ps.head?.map Part.key).getD 0) % 131072
      let (id, s') := s'.nextId n
      let m : Message := { pc := handlerPc e4, level := handlerLevel e4, arg0 := e5, arg1 := BitVec.ofNat 32 off, id := id }
      match s'.enqueue home m with
      | (true, s') => .ok (x, s')
      | (false, s') => .ok (x, s'.postQueueEvent (s.handleOf n) n c home e4 e5 (BitVec.ofNat 32 off))
    else .ok (x, s')
  | _ => .error (.trap s .range (ptrLow P))

/-- Perform the decrement of the line that holds P (05 R127, R115). -/
def State.doDec (s : State) (n preg : Nat) (P : W64) : Except Stop State := do
  let (place, s') ← liftFail s preg P (s.resolve n P 1 1 .dec)
  match place with
  | .mem ps =>
    liftFail s preg P (s'.checkParts .dec [] ps)
    .ok (ps.foldl (fun s p => s.decLine (p.key / 64)) s')
  | _ => .error (.trap s .range (ptrLow P))

/-! ## Replies and kicks -/

/-- Fill the reply target of a message (08 R202). -/
def State.sendReply (s : State) (h : Nat) (m : Message) (v : W32) (src : FillSrc := .none) : State :=
  match targetOf m.reply with
  | some t => s.sendFill h t v src
  | none => s

/-! ## The end of an invalidation (15 R336, R337) -/

/-- A transfer whose handler task is still to go through the ring leaf that its first byte was written through (16 R355), a
leaf that an invalidation removes. -/
def Xfer.usesLeaf (x : Xfer) (space va : Nat) (ctl : W32) : Bool :=
  x.hnd.isSome && x.win.isSome && invalidates va ctl (tlbKey 0 4 space (ptrOff x.ptr))

/-- An invalidation that has been started ends once every write through a ring window has been performed, and no transfer
has one to make through a removed leaf (15 R336). -/
def State.finishInv (s : State) (q : Nat) : State :=
  let y := s.getQuay q
  match y.inv with
  | some (va, ctl) =>
    if !s.ring.out.isEmpty || s.cores.any fun e => e.2.xfers.any fun x => x.usesLeaf e.2.spaceId.toNat va ctl then s
    else { s.setQuay q { y with inv := none } with tlb := s.tlb.filter fun e => !invalidates va ctl e.1 }
  | none => s

/-- The invalidations that end now: GO reads 1 no longer (15 R337). -/
def State.finishInvs (s : State) : State := (List.range 16).foldl State.finishInv s

/-! ## The task buffer (11 R285, R286) -/

/-- Entries and data bytes of a held effect (11 R286). -/
def Held.cost : Held → Nat × Nat
  | .store _ data _ => (1, data.length)
  | .lmem _ data => (1, data.length)
  | .stc .. => (1, 64)
  | .atomic _ _ vec .. => (1, if vec then 16 else 4)
  | .send _ m .. => (1, if m.call then 16 else 8)
  | .reply _ => (1, 4)
  | _ => (1, 0)

def heldCost (hs : List Held) : Nat × Nat := hs.foldl (fun a h => (a.1 + h.cost.1, a.2 + h.cost.2)) (0, 0)

/-- Hold effects in the task's buffer, or TASKBUF (11 R286). -/
def State.hold (s : State) (hs : List Held) : Except Stop State :=
  let x := s.cur
  let old := heldCost x.held
  let new := heldCost hs
  if 64 < old.1 + new.1 ∨ 2048 < old.2 + new.2 then
    .error (.trap s .taskbuf (BitVec.ofNat 32 (old.1 * 2 ^ 16 + old.2)))
  else .ok (s.setCur { x with held := x.held ++ hs })

/-- The issuing context runs a task, whose effects are held (11 R285). -/
def State.inTask (s : State) : Bool := s.cur.task.isSome

/-! ## What a fence waits for (05 R139, R140; 10 R266) -/

/-- First v registers of the pops of a context that wait at FIFO banks (09 R238). -/
def State.popsOf (s : State) (n c : Nat) : List Nat :=
  s.basins.flatMap fun e => e.2.fifos.flatMap fun f =>
    (f.2.pops.filter fun p => p.core == n && p.ctx == c).map (·.vreg)

/-- Stores of a context on their way through ring windows (16 R354). -/
def State.ringBusy (s : State) (n c : Nat) : Bool := s.ring.out.any fun o => o.owner == .stc n c

/-- Whether an access of the PRED set of a context is not yet performed at the scope: loads are the pops that wait;
stores, the pushes that wait and ring writes; counts, those of transfers and ring writes; engine commands, transfers
and commands that no engine has accepted. -/
def State.fencePending (s : State) (n c : Nat) (sc : Scope) (pred : BitVec 4) : Bool :=
  let ring := decide (sc = .sys) && s.ringBusy n c
  (pred.getLsbD 0 && !(s.popsOf n c).isEmpty)
    || (pred.getLsbD 1 && (s.pushWaits n c || ring))
    || (pred.getLsbD 2 && (ring || (s.xfersOf n c).any fun x => x.cons || x.cnt.isSome))
    || (pred.getLsbD 3 && (!(s.xfersOf n c).isEmpty || (s.net.any fun f => match f with
        | .kick _ n' c' .. => n' == n && c' == c
        | .mcmd _ _ _ m => m.core == n && m.ctx == c
        | _ => false)
      || s.cores.any fun e => e.2.mat.port.any fun m => m.core == n && m.ctx == c))

/-! ## Publication (05 R117, 11 R285) -/

/-- The scope at which a held effect is a release, with the scope of a reply and of a kick (10 R255, R261, R264). -/
def Held.release : Held → Option Scope
  | .store _ _ rel => rel
  | .stc _ _ _ rel => rel
  | .atomic _ _ _ _ _ _ _ rel => rel
  | .decr _ _ rel => rel
  | .reply _ => some .pkg
  | .kick .. => some .basin
  | _ => none

/-- Stores of a context to the KICK register of a tug that are on their way: its next kick comes after them (10 R258). -/
def State.kicksOut (s : State) (n c b : Nat) : Bool := s.net.any fun f => match f with
  | .kick _ n' c' _ b' .. => n' == n && c' == c && b' == b
  | _ => false

/-- Perform one held effect of context (n, c). -/
def State.performNow (s : State) (n c : Nat) (h : Held) : Except Stop State :=
  let hd := s.handleOf n
  match h with
  | .store P data _ => s.doStore n c 0 P data 1 (if data.length = 64 then .group else if data.length = 4 then .word else .any)
  | .lmem off data => s.doLmem n off data
  | .stc P d count _ => s.doStc n c 0 P d (BitVec.ofNat 32 count)
  | .atomic P op vec y e0 e4 e5 _ => (s.doAtomic n c 0 P op vec y e0 e4 e5).map (·.2)
  | .decr P v _ =>
    match s.doDec n 0 P with
    | .error (.trap s c _) => .error (.trap s c v)
    | r => r
  | .put x => .ok (s.startXfer n x)
  | .send tgt m word dst =>
    .ok (s.sendMsg n c tgt m word (if dst = 0 then none else some { core := n, ctx := c, reg := dst }))
  | .reply v =>
    match (s.getCtx n c).task with
    | some t =>
      let (q, s) := s.nextSeq
      .ok (s.sendReply hd t.msg v (.ctx n c q))
    | none => .ok s
  | .kick v b =>
    if s.tugFull b || s.kicksOut n c b then .error (.wait s) else .ok (s.acceptKick b n c (s.getCtx n c).att (v.toNat % 131072) hd s.seq).2
  | .mat m => s.acceptMat n m
  | .mcmd tgt cap m => .ok { s with net := s.net ++ [.mcmd hd tgt cap { m with after := s.seq }] }
  | .fence sc pred => if s.fencePending n c sc pred then .error (.wait s) else .ok s

/-- Perform one held effect; a release follows the earlier accesses of its context (10 R255). -/
def State.perform (s : State) (n c : Nat) (h : Held) : Except Stop State :=
  match h.release with
  | some sc => if s.accessPending n c sc then .error (.wait s) else s.performNow n c h
  | none => s.performNow n c h

/-- A held store through a ring window, which may follow earlier ones in egress order (16 R357). -/
def State.ringHeld (s : State) (n : Nat) : Held → Bool
  | .store P data none => match s.resolve n P data.length 1 .write .group with
    | .ok (.ring _, _) => true
    | _ => false
  | _ => false

/-- Pops of the context that wait come before the access of a held effect (10 R258). -/
def State.popsHoldHeld (s : State) (n c : Nat) : Held → Bool
  | .store P data _ => s.popsHold n c (if data.length = 64 then s.bankOf n P .write else none)
  | .lmem .. => s.popsHold n c
  | .stc .. => s.popsHold n c
  | .atomic .. => s.popsHold n c
  | .decr .. => s.popsHold n c
  | _ => false

/-- Publish the held effects in program order; the first that fails or waits keeps those after it (05 R117). At the end
the pushes that wait at a bank, and the ring stores, are waited for (09 R238, 16 R354). -/
def State.publishAll (n c : Nat) : List Held → State → Except Stop State
  | [], s => if s.storesBefore n c s.seq true then .error (.wait s) else .ok s
  | h :: t, s =>
    if (s.ringBusy n c && !s.ringHeld n h) || s.popsHoldHeld n c h then .error (.wait s)
    else match s.perform n c h with
    | .ok s => State.publishAll n c t (s.setCtx n c { s.getCtx n c with held := t })
    | .error e => .error e

def State.xferBusy (s : State) (n c att : Nat) : Bool := (s.getCore n).xfers.any fun x => x.ctx == c && x.att == att

/-- Publish everything the issuing context holds. The first commit point waits for the task's transfers (05 R134), and
begins here (11 R285). -/
def State.publish (s : State) : Except Stop State :=
  let x := s.cur
  match x.task with
  | none => .ok s
  | some t =>
    if t.retryable && s.xferBusy s.core s.ctx x.att then .error (.wait s)
    else
      match State.publishAll s.core s.ctx x.held
          (s.setCur { x with publishing := true, task := some { t with retryable := false } }) with
      | .ok s => .ok (s.setCur { s.cur with publishing := false })
      | .error e => .error e

end Sys2Proof.Machine
end

