-- ==== Sys2Proof/Machine/Ops.lean ====
section
/-! DEFINITION. Landing of results (01 R25, R32), the end of an attempt (11 R288, R289), taking an exception and
returning from one (08 R224, R225), translation misses (15 R339), and the issue of an instruction (01 R21, R22, R26;
04 R109). -/

namespace Sys2Proof.Machine

/-! ## Landing (01 R25, R26, R32) -/

def Ctx.land (x : Ctx) (l : Landing) : Ctx :=
  let y := l.regs.foldl (fun x r => x.write r.1 r.2) x
  ({ y with fflags := y.fflags ||| l.flags.getD 0 } : Ctx).wake

/-- Every result issued lands, oldest first (08 R224). -/
def Ctx.landAll (x : Ctx) : Ctx := { x.pend.foldl Ctx.land x with pend := [] }

/-- A result is due by cycle `t`. -/
def Landing.isDue (l : Landing) (t : Nat) : Bool :=
  match l.due with
  | some d => decide (d ≤ t)
  | none => false

/-- The results due by cycle `t` land, oldest first. -/
def Ctx.landDue (x : Ctx) (t : Nat) : Ctx :=
  (x.pend.filter (·.isDue t)).foldl Ctx.land { x with pend := x.pend.filter fun l => !l.isDue t }

/-- The results due in this cycle of a core land, after the fills that arrived in it (01 R32); the registers they write
hold their new values (18 R368). -/
def State.landDue (s : State) (n : Nat) : State :=
  let k := s.getCore n
  let ids (x : Ctx) : List Nat := (x.pend.filter (·.isDue k.cyc)).flatMap fun l => l.regs.map (·.1)
  let s : State := { s with written := s.written.filter fun r => r / 4096 ≠ n }
  k.ctxs.foldl (fun s e => s.clearRegsOf n e.1 (ids e.2)) (s.setCore n { k with ctxs := k.ctxs.map fun e => (e.1, e.2.landDue k.cyc) })

/-- Every result that a context has issued lands (08 R224); the registers they write hold their new values (18 R368). -/
def State.landAll (s : State) (n c : Nat) : State :=
  let x := s.getCtx n c
  (s.setCtx n c x.landAll).clearRegsOf n c (x.pend.flatMap fun l => l.regs.map (·.1))

/-- A result issued with a latency: its registers are empty until it lands (01 R26). -/
def Ctx.pendReg (x : Ctx) (regs : List (Nat × W128)) (flags : Option (BitVec 5)) (due : Option Nat) (mem : Bool) : Ctx :=
  let y := regs.foldl (fun x r => x.setRegState r.1 .empty) x
  { y with pend := y.pend ++ [{ regs := regs, flags := flags, due := due, mem := mem }] }

/-- A result of the issuing context that lands `lat` cycles later (01 R25). -/
def State.later (s : State) (lat : Nat) (regs : List (Nat × W128)) (flags : Option (BitVec 5) := none) : State :=
  s.setCur (s.cur.pendReg regs flags (some (s.me.cyc + lat)) false)

/-- A result of a load or an atomic: a local one lands 3 cycles later, any other at a later step (01 R25, 05 R118). The
rule calls the 3 cycles typical: that they are always 3 is log entry 44. -/
def State.laterMem (s : State) (local_ : Bool) (regs : List (Nat × W128)) : State :=
  s.setCur (s.cur.pendReg regs none (if local_ then some (s.me.cyc + 3) else none) true)

/-! ## Things of a context that are still under way -/

def MatCmd.ofAttempt (m : MatCmd) (n c att : Nat) : Bool := m.core == n && m.ctx == c && m.att == att

/-- Matrix commands of an attempt in the queue or at the port of a core, or on their way. -/
def State.matRuns (s : State) (n c att : Nat) : Bool :=
  (s.cores.any fun e => (e.2.mat.queue ++ e.2.mat.port).any fun m => m.ofAttempt n c att)
    || s.net.any fun f => match f with
      | .mcmd _ _ _ m => m.ofAttempt n c att
      | _ => false

/-- Matrix commands of an attempt that have not retired, with those that `msave.q` has moved out (07 R177, R195). -/
def State.matBusy (s : State) (n c att : Nat) : Bool :=
  s.matRuns n c att || s.cores.any fun e => e.2.mat.moved.any fun m => m.ofAttempt n c att

/-- Instructions of the context that may still set flags: vector results and `mdrain` commands (06 R143, 07 R187). -/
def State.flagsPending (s : State) (n c : Nat) : Bool :=
  let x := s.getCtx n c
  let drains (m : MatCmd) : Bool := m.ofAttempt n c x.att && match m.op with
    | .mdrain .. => true
    | _ => false
  (x.pend.any fun l => l.flags.isSome)
    || (s.cores.any fun e => (e.2.mat.queue ++ e.2.mat.port ++ e.2.mat.moved).any drains)
    || (s.net.any fun f => match f with
        | .mcmd _ _ _ m => drains m
        | _ => false)
    || x.held.any fun h => match h with
        | .mat m => drains m
        | .mcmd _ _ m => drains m
        | _ => false

/-- Tug and keeper commands of an attempt, and kicks on their way. -/
def State.engineBusy (s : State) (n c att : Nat) : Bool :=
  (s.basins.any fun e =>
    (e.2.tug.cmds.any fun k => k.core == n && k.ctx == c && k.att == att)
      || e.2.keeper.reqs.any fun k => k.core == n && k.ctx == c && k.att == att)
    || s.net.any fun f => match f with
      | .kick _ n' c' att' .. => n' == n && c' == c && att' == att
      | _ => false

/-- Transfers and engine commands that an attempt started are still running (11 R288); a command that `msave.q` has moved
out runs nowhere. -/
def State.attemptBusy (s : State) (n c att : Nat) : Bool :=
  s.xferBusy n c att || s.engineBusy n c att || s.matRuns n c att || s.ringBusy n c

/-! ## The end of an attempt (11 R288, R289) -/

/-- The next core of a core set, in rising number, wrapping to the lowest (11 R289). -/
def LaunchRec.nextCore (r : LaunchRec) (n : Nat) : Nat :=
  if n % 8 < 7 then n + 1
  else
    let b := basinOf n
    let at_ (d row col : Nat) : Nat := (d * 512 + row * 32 + col) * 8
    if colOf b < r.c1 then at_ (dieOf b) (rowOf b) (colOf b + 1)
    else if rowOf b < r.r1 then at_ (dieOf b) (rowOf b + 1) r.c0
    else if dieOf b < r.d1 then at_ (dieOf b + 1) r.r0 r.c0
    else at_ r.d0 r.r0 r.c0

/-- Source core of a message id (08 R199). -/
def msgSource (id : W32) : W32 := id >>> 18

/-- Post the exhausted record of a message (11 R288, 18 R374), of an attempt in context `src` of a core, or of a message
that waited for its page, whose record names the quay core (R373). -/
def State.postExhausted (s : State) (h : Nat) (src : Option (Nat × Nat)) (cause : Cause) (m : Message) : State :=
  match s.launchOf h with
  | none => s
  | some l =>
    let (n, c) := src.getD (l.quay, 15)
    s.postHost l.quay (mkRecord 0x04 cause l.lrec.lid c n m.host 0 0 m.id (msgSource m.id))

/-- What the host answers to a message that waits for its page (15 R339): on retry it goes to the core's port, for the
retry slot of its level; on refusal it ends as exhausted. -/
def State.answerPage (s : State) (n : Nat) (m : Message) (refuse : Option Cause) : State :=
  match refuse with
  | none => s.setCore n { s.getCore n with port := (s.getCore n).port ++ [m] }
  | some c => s.postExhausted (s.handleOf n) none c m

/-- The steps of R288 after the attempt's transfers and commands have ended. An abort for a page that finds the list
full is an ordinary one (15 R339). -/
def State.closeAttempt (s : State) (n c : Nat) (e : Ending) : State :=
  let x := s.getCtx n c
  let h := s.handleOf n
  let r := s.recOf n
  let s := s.setCtx n c { x with status := .idle, task := none, held := [], deferred := [], ending := none, pinStart := none
                                 publishing := false, judged := none, blockedOn := [], bar := .none, xtag := none
                                 verdict := none }
  match x.task with
  | none => s
  | some t =>
    let rec_ (kind : Nat) : List W32 := mkRecord kind e.cause r.lid c n t.msg.host (e.pc.zeroExtend 32) e.val t.msg.id
      (BitVec.ofNat 32 t.msg.attempt)
    if e.kill then s.postLaunch h (rec_ 0x03)
    else
      let aborts : State :=
        let s := s.postLaunch h (rec_ 0x02)
        if t.msg.attempt < r.retry.toNat then
          { s with net := s.net ++ [.retry h (r.nextCore n) { t.msg with attempt := t.msg.attempt + 1 }] }
        else s.postExhausted h (some (n, c)) e.cause t.msg
      match e.page with
      | some w =>
        match w.answer with
        | some a => s.answerPage n w.msg a
        | none =>
          if 64 ≤ (s.getCore n).pages.length then aborts
          else s.setCore n { s.getCore n with pages := (s.getCore n).pages ++ [w] }
      | none => aborts

/-- Close an ended attempt once nothing of it is under way (11 R288). -/
def State.settleEnding (s : State) (n c : Nat) : State :=
  let x := s.getCtx n c
  match x.ending with
  | some e => if s.attemptBusy n c x.att then s else s.closeAttempt n c e
  | none => s

/-- End the attempt of a task: abort before its first commit point, kill from then on (11 R288). Its pops that wait are
withdrawn. -/
def State.endAttempt (s : State) (n c : Nat) (cause : Cause) (pc : Off) (v : W32) (page : Option PageWait) : State :=
  let x := s.getCtx n c
  let kill := match x.task with
    | some t => !t.retryable
    | none => true
  ((s.withdrawPops n c).setCtx n c { x with
    held := [], status := .waiting, ending := some { kill := kill, cause := cause, pc := pc, val := v, page := page } }).settleEnding n c

/-! ## Taking an exception, and returning from one (08 R224, R225) -/

/-- Carried commands that wait at the mesh port enter the queue while it has room (07 R163). -/
def MatUnit.pull (m : MatUnit) : Nat → MatUnit
  | 0 => m
  | fuel + 1 =>
    match m.port with
    | c :: t => if m.full c.op then m else MatUnit.pull { m with port := t, queue := m.queue ++ [c] } fuel
    | [] => m

/-- An `mfmt` of c0 that has not completed is abandoned, and what waited for it goes on (07 R189). A NETFMT that it has changed
already stays so, and the `mfmt` is performed again: the rules do not say (log entry 82). -/
def State.dropFmt (s : State) (n c : Nat) : State :=
  let k := s.getCore n
  if c = 0 ∧ k.mat.fmt.isSome then s.setCore n { k with mat := ({ k.mat with fmt := none } : MatUnit).pull 9 } else s

/-- Trap entry of R224 in context (n, c): every result lands, save those of pops that wait, which have none yet; cause, PC
and value are saved; then the attempt ends, or the context stops with a FAULT record, or its handler runs with INH set. -/
def State.trapEntry (s : State) (n c : Nat) (cause : Cause) (pc : Off) (v : W32) : State :=
  let s := ((s.dropFmt n c).dropWatch n c).landAll n c
  let y := s.getCtx n c
  let x : Ctx := { y with code := BitVec.ofNat 8 (causeCode cause), trapPc := BitVec.ofNat 16 (pc.toNat / 2), trapVal := v
                          verdict := none, xtag := none, pinStart := none, publishing := false, judged := none
                          blockedOn := [], bar := .none }
  if x.task.isSome then (s.setCtx n c x).endAttempt n c cause pc v none
  else if x.trapVec = 0 ∨ x.inh = true then
    ((s.withdrawPops n c).setCtx n c { x with status := .idle }).postLaunch (s.handleOf n)
      (mkRecord 0x01 cause (s.recOf n).lid c n false (pc.zeroExtend 32) v 0 0)
  else s.setCtx n c { x with inh := true, pc := BitVec.ofNat 17 (x.trapVec.toNat * 2), status := .ready }

/-- The trap of the issuing context. -/
def State.takeTrap (s : State) (cause : Cause) (pc : Off) (v : W32) : State := s.trapEntry s.core s.ctx cause pc v

/-- `tret` (08 R225): PC ← TRAP_PC.ADDR·2, INH ← 0. -/
def Ctx.returnTrap (x : Ctx) : Ctx := { x with inh := false, pc := BitVec.ofNat 17 (x.trapPc.toNat * 2) }

/-! ## Not issued (01 R21, R22) -/

def State.setStatus (s : State) (st : Status) : State := s.setCur { s.cur with status := st }

/-- The instruction waits (01 R21). -/
def State.waiting (s : State) : State := s.setStatus .waiting

/-- A failed translation of the issuing context (15 R338, R339). -/
def State.takeMiss (s : State) (m : Miss) (v : W32) : State :=
  let x := s.cur
  let (s, tag) := s.openTag (quayOf (basinOf s.core)) m s.me.launchId (some (s.ctx, s.core))
  let waits : State := (s.setCur { s.cur with xtag := tag, missVal := v }).waiting
  match x.task with
  | some t =>
    if t.retryable then
      let s := s.landAll s.core s.ctx
      let s := s.setCur { s.cur with code := BitVec.ofNat 8 (causeCode m.cause), trapPc := BitVec.ofNat 16 (x.pc.toNat / 2), trapVal := v }
      s.endAttempt s.core s.ctx m.cause x.pc v (some { msg := t.msg, miss := m, tag := tag })
    else waits
  | none => waits

/-- How the instruction at the PC stops (05 R113; 03 R78; 18 R366). -/
def State.stopped (i : Instr) (e : Stop) : State :=
  match e with
  | .wait s => s.waiting
  | .absent s ids => (s.setCur { s.cur with blockedOn := ids }).waiting
  | .trap s c v => s.takeTrap c s.cur.pc v
  | .ill s => s.takeTrap .ill s.cur.pc (wordOf i)
  | .miss s m v => s.takeMiss m v
  | .ue s key addr v => (s.meetUe s.me.launch s.core s.ctx key addr).takeTrap .ue s.cur.pc v

/-! ## Issue (01 R21, R26; 04 R109) -/

/-- A park counts as a commit point unless every empty source awaits an own load, atomic, `get` or `getx`
(05 R118, 11 R285). -/
def State.parkCommits (s : State) (empties : List Nat) : Bool :=
  let x := s.cur
  let own (id : Nat) : Bool :=
    (x.pend.any fun l => l.mem && l.regs.any fun r => r.1 == id)
      || ((s.popsOf s.core s.ctx).any fun v => decide (32 + v ≤ id ∧ id < 36 + v))
      || ((s.xfersOf s.core s.ctx).any fun t => t.dst == id && (t.kind == .get || t.kind == .getx))
  !empties.all own

/-- The park of a task is a commit point: it publishes, and then stays parked until its sources are full (11 R285). -/
def State.publishPark (s : State) (i : Instr) : State :=
  match s.publish with
  | .ok s => (s.setCur { s.cur with judged := some false }).setStatus .parked
  | .error e => State.stopped i e

/-- The context parks on its empty sources (01 R21). A task's park is judged once, when it parks, over the sources that
are empty then (11 R285; log entry 45). -/
def State.park (s : State) (i : Instr) (empties : List Nat) : State :=
  let x := s.cur
  let s := s.setCur { x with blockedOn := empties, status := .parked }
  if x.task.isSome && x.judged.isNone then
    let commits := s.parkCommits empties
    let s := s.setCur { s.cur with judged := some commits }
    if commits then s.publishPark i else s
  else s

/-- The next PC and RC of an instruction of `len` bytes that does not transfer control (04 R109). -/
def Ctx.advance (x : Ctx) (len : Nat) : Ctx :=
  if x.rc ≠ 0 ∧ x.le.toNat = x.pc.toNat / 2 then
    if 1 < x.rc.toNat then { x with rc := x.rc - 1, pc := BitVec.ofNat 17 (x.ls.toNat * 2) }
    else { x with rc := 0, pc := x.pc + BitVec.ofNat 17 len }
  else { x with pc := x.pc + BitVec.ofNat 17 len }

/-- The instruction has issued: the context is READY unless it became IDLE. -/
def Ctx.issued (x : Ctx) : Ctx :=
  { x with judged := none, blockedOn := [], verdict := none, status := if x.status = .idle then .idle else .ready }

/-- After the effect of instruction `i`. -/
def State.finish (s : State) (i : Instr) (f : Flow) : State :=
  let x := s.cur.issued
  match f with
  | .seq => s.setCur (x.advance (lengthOf i))
  | .jump t => s.setCur { x with pc := t }
  | .stay => s.setCur x
  | .trapNext c v =>
    let y := x.advance (lengthOf i)
    (s.setCur { y with pc := x.pc }).takeTrap c y.pc v

/-- Registers whose earlier result is outstanding (01 R21). One whose value comes as a remote fill has none outstanding
(log entry 46). -/
def State.outstanding (s : State) (id : Nat) : Bool :=
  !decide (id = 0) &&
  ((s.cur.pend.any fun l => l.regs.any fun r => r.1 == id)
    || (s.popsOf s.core s.ctx).any fun v => decide (32 + v ≤ id ∧ id < 36 + v))

/-- A source that holds an uncorrectable parity error (18 R368). -/
def State.badReg (s : State) (srcs : List Nat) : Option Nat :=
  if s.errs.regs.isEmpty then none else srcs.find? fun id => mget false s.errs.regs (regKey s.core s.ctx id)

/-- A source whose next read fails in the read path (18 R368). -/
def State.glitchReg (s : State) (srcs : List Nat) : Option Nat :=
  if s.errs.glitch.isEmpty then none else srcs.find? fun id => mget false s.errs.glitch (regKey s.core s.ctx id)

/-- TRAP_VAL of an error of a register (18 R366). -/
def regWord (id : Nat) : W32 := BitVec.ofNat 32 (0xFFFF0000 + id)

/-- The register is read again and is clean: a correction, and the instruction issues a cycle later (18 R368). -/
def State.readAgain (s : State) (id : Nat) : State :=
  ({ s with errs := { s.errs with glitch := mset false s.errs.glitch (regKey s.core s.ctx id) false } } : State).correction 4
    (basinOf s.core) (regWord id)

/-- The destinations that the instruction has written hold their new values (18 R368), those of latency 1 from the next cycle
on (01 R32). One that is empty has yet to be written. -/
def State.clearRegs (s : State) (dsts : List Nat) : State :=
  ((dsts.filter fun id => decide (s.cur.regState id = .full)).foldl (fun s id => s.clearReg s.core s.ctx id) s).markWritten dsts

/-- The registers that an instruction uses: its sources and destinations, and the repeat registers of granule g0-7, which
the end of every instruction consults (04 R109, 15 R344; log entry 47). -/
def usedIds (srcs dsts : List Nat) : List Nat := repeatId :: (srcs ++ dsts)

/-- Instructions that access memory or a barrier at issue on every path. Pops of the context that wait come before them
(10 R258; log entry 62); `vldg`, `vstg`, the link store and the bit buffer look for themselves. -/
def accesses : Instr → Bool
  | .ldb .. | .ldbu .. | .ldh .. | .ldhu .. | .ldw .. | .stb .. | .sth .. | .stw .. | .hLdw .. | .hStw .. => true
  | .ldbPtr .. | .ldbuPtr .. | .ldhPtr .. | .ldhuPtr .. | .ldwPtr .. | .vld .. => true
  | .stbPtr .. | .sthPtr .. | .stwPtr .. | .vst .. => true
  | .barinit .. | .barwait .. | .bartest .. | .hlay .. | .lcopy .. | .lfill .. | .waitf .. | .l2wb .. | .l2inv .. => true
  | .stc .. | .rcopen .. | .rcclose .. | .rcdec .. | .rcpeek .. => true
  | .rmwadd .. | .rmwand .. | .rmwor .. | .rmwxor .. | .rmwmin .. | .rmwmax .. | .rmwminu .. | .rmwmaxu .. => true
  | .rmwswap .. | .rmwcas .. | .rmwdec .. => true
  | _ => false

/-- The state of the registers lets the instruction issue: none absent, no source empty or bad, no destination
outstanding, no wait of the context under way, and no pop that waits before an access. -/
def State.ready (s : State) (i : Instr) (srcs dsts : List Nat) : Bool :=
  s.cur.xtag.isNone && s.cur.verdict.isNone && !s.cur.publishing && !decide (s.cur.judged = some true)
    && ((usedIds srcs dsts).all fun id => !decide (s.cur.regState id = .absent))
    && (srcs.all fun id => decide (s.cur.regState id = .full)) && (dsts.all fun id => !s.outstanding id)
    && (s.glitchReg srcs).isNone && (s.badReg srcs).isNone && !(accesses i && s.popsHold s.core s.ctx)

/-- The issue of an instruction with these sources and destinations. One with an empty source parks, whatever its
destinations (log entry 48). -/
def State.tryIssue (s : State) (i : Instr) (srcs dsts : List Nat) (body : Body) : State :=
  let x := s.cur
  let gone := (usedIds srcs dsts).filter fun id => decide (x.regState id = .absent)
  if !gone.isEmpty then State.stopped i (.absent s gone)
  else if srcs.any fun id => !decide (x.regState id = .full) then
    s.park i (srcs.filter fun id => !decide (x.regState id = .full))
  else if dsts.any s.outstanding then s.waiting
  else match s.glitchReg srcs with
    | some id => (s.readAgain id).waiting
    | none =>
      match s.badReg srcs with
      | some id =>
        (s.postUe s.me.launch s.core s.ctx 4 (regWord id).toNat false).takeTrap .ue s.cur.pc (regWord id)
      | none =>
        if accesses i && s.popsHold s.core s.ctx then s.waiting
        else match body s with
        | .ok (s, f) => (s.clearRegs dsts).finish i f
        | .error e => State.stopped i e

/-- The core looks at a context that is to issue: an access whose fault the host refused traps at once (15 R339); a
publication under way goes on (11 R285). -/
def State.attempt (s : State) (i : Instr) (srcs dsts : List Nat) (body : Body) : State :=
  if s.cur.xtag.isSome then s.waiting
  else match s.cur.verdict with
    | some c => s.takeTrap c s.cur.pc s.cur.missVal
    | none =>
      if s.cur.publishing || decide (s.cur.judged = some true) then
        match s.publish with
        | .ok s => (s.setCur { s.cur with judged := s.cur.judged.map fun _ => false }).tryIssue i srcs dsts body
        | .error e => State.stopped i e
      else s.tryIssue i srcs dsts body

/-- Issue an instruction. -/
def issue (i : Instr) (srcs dsts : List Nat) (s : State) (body : Body) : Host.Outcome State Fault Refusal :=
  .next (s.attempt i srcs dsts body)

/-- Issue an instruction that only some contexts may issue; elsewhere its word is ILL, decided at decode (03 R78,
08 R196). -/
def issueIf (legal : Bool) (i : Instr) (srcs dsts : List Nat) (s : State) (body : Body) : Host.Outcome State Fault Refusal :=
  if legal then issue i srcs dsts s body else .next (State.stopped i (.ill s))

/-- A machine's other step: its new state. -/
def event (s : State) : Host.Outcome State Fault Refusal := .next s

end Sys2Proof.Machine
end

