-- ==== Sys2Proof/Machine/Operands.lean ====
section
/-! DEFINITION. Operand forms: immediates (03 R65), g-base addresses (05 R119), pointer operands with post-increment
(05 R121), and the loads and stores of a context over them. -/

namespace Sys2Proof.Machine

def gids (rs : List (BitVec 5)) : List Nat := rs.map gid
def vids (rs : List (BitVec 4)) : List Nat := rs.map vid
/-- The four v registers of a group (03 R69). -/
def vgroup (r : BitVec 4) : List Nat := [vid r, vid r + 1, vid r + 2, vid r + 3]
def ggroup (r : BitVec 5) (n : Nat) : List Nat := (List.range n).map (gid r + ·)
/-- p[a], with w[a] where the access post-increments (01 R38). -/
def ptrIds (a : BitVec 3) (post : Bool) : List Nat := if post then [pid a, wid a] else [pid a]
def ptrDst (a : BitVec 3) (post : Bool) : List Nat := if post then [pid a] else []
def eids (ns : List Nat) : List Nat := ns.map eid

/-- sext(imm12) as 32 bits (03 R65). -/
def imm32 (i : BitVec 12) : W32 := i.signExtend 32

/-- `s(·)`: read as two's complement (04 R93). -/
def sgn (x : W32) : Int := x.toInt

/-- g register `r + i` of a group. -/
def State.rgAt (s : State) (r : BitVec 5) (i : Nat) : W32 := s.rg (BitVec.ofNat 5 (r.toNat + i))
/-- v register `r + i` of a group. -/
def State.rvAt (s : State) (r : BitVec 4) (i : Nat) : W128 := s.rv (BitVec.ofNat 4 (r.toNat + i))
def State.rw (s : State) (r : BitVec 3) : W32 := s.cur.rw r

/-- The 64 bytes of a group of v registers (05 R121). -/
def State.groupLine (s : State) (r : BitVec 4) : Line :=
  s.rvAt r 3 ++ s.rvAt r 2 ++ s.rvAt r 1 ++ s.rvAt r 0

/-- The post-increment of p[a] (01 R38), which takes effect when the access has passed its checks. -/
def State.bump (s : State) (a : BitVec 3) (post : Bool) : State :=
  if post then s.wp a ((walkPtr (s.rp a) (s.rw a)).getD (s.rp a)) else s

/-- Registers whose value comes later as a remote fill are empty from issue (01 R26). -/
def State.emptyRegs (s : State) (ids : List Nat) : State :=
  s.setCur (ids.foldl (fun x id => x.setRegState id .empty) s.cur)

/-! ## g-base accesses (05 R119, R120) -/

/-- a = g[a] + sext(imm12) over unbounded integers, checked for range and alignment. -/
def State.gBase (s : State) (a : BitVec 5) (imm : BitVec 12) (z : Nat) : Except Stop Nat :=
  let x : Int := (s.rg a).toNat + imm.toInt
  if x < 0 ∨ 0x20000 < x + z then .error (.trap s .range (BitVec.ofInt 32 x))
  else if x.toNat % z ≠ 0 then .error (.trap s .align (BitVec.ofInt 32 x)) else .ok x.toNat

/-- Plain read of `z` bytes of own local memory at `off`, with TRAP_VAL and record address `v` (steps 5 and 6 of R113). -/
def State.readLocal (s : State) (off z : Nat) (v : W32) : Except Stop (List Byte) :=
  let ps := (partsOf (localKey s.core off) z).map fun p => ({ key := p.1, len := p.2 } : Part)
  match s.checkParts .read (s.decsOf s.core s.cur) ps with
  | .ok _ => .ok (s.readSeen s.core s.cur ps)
  | .error (.cause c) => .error (.trap s c v)
  | .error (.ue k) => .error (.ue s k v.toNat v)
  | .error _ => .ok []

/-- A plain store to own local memory, held in a task (05 R117, R120). -/
def State.writeLocal (s : State) (off : Nat) (bs : List Byte) : Except Stop State :=
  let ps := (partsOf (localKey s.core off) bs.length).map fun p => ({ key := p.1, len := p.2 } : Part)
  let v : W32 := BitVec.ofNat 32 off
  if s.inTask then
    match s.checkStates .write (s.decsOf s.core s.cur) ps with
    | some c => .error (.trap s c v)
    | none => s.hold [.store (localPtr off) bs none]
  else
    match s.checkParts .write [] ps with
    | .ok _ => .ok (s.writeParts bs ps)
    | .error (.cause c) => .error (.trap s c v)
    | .error (.ue k) => .error (.ue s k v.toNat v)
    | .error _ => .ok s

/-- Extend loaded bytes to 32 bits (05 R119). -/
def extend (signed : Bool) (bs : List Byte) : W32 :=
  match signed, bs with
  | true, [b] => b.signExtend 32
  | true, [b, c] => (c ++ b).signExtend 32
  | _, _ => bytes32 bs

/-- LDG (05 R119). -/
def loadG (z : Nat) (signed : Bool) (d a : BitVec 5) (imm : BitVec 12) : Body := fun s => do
  let off ← s.gBase a imm z
  let bs ← s.readLocal off z (BitVec.ofNat 32 off)
  .ok (s.laterMem true [(gid d, (extend signed bs).zeroExtend 128)], .seq)

/-- STG (05 R120). -/
def storeG (z : Nat) (b a : BitVec 5) (imm : BitVec 12) : Body := fun s => do
  let off ← s.gBase a imm z
  let s ← s.writeLocal off (leBytes z (s.rg b).toNat)
  .ok (s, .seq)

/-! ## Pointer accesses (05 R121) -/

/-- Whether the parts lie in the issuing core's local memory. -/
def ownLocal (n : Nat) (ps : List Part) : Bool := ps.all fun p => decide (n * 131072 ≤ p.key ∧ p.key < (n + 1) * 131072)

/-- The parts of an access, each with its offset from the first byte. -/
def withOffs : List Part → Nat → List (Part × Nat)
  | [], _ => []
  | p :: t, o => (p, o) :: withOffs t (o + p.len)

/-- The decrements of a consuming access: one for each line it touches (05 R115); a task holds them (05 R117). -/
def State.consume (s : State) (P : W64) (ps : List Part) : Except Stop State :=
  if s.inTask then s.hold ((withOffs ps 0).map fun e => .decr ((ptrAdd P e.2).getD P) (ptrLow P) none)
  else .ok (ps.foldl (fun s p => s.decLine (p.key / 64)) s)

/-- A register of the tug or of the keeper (12 R293, R306). -/
def State.engineReg (s : State) (b unit off : Nat) : W32 :=
  let x := s.getBasin b
  if unit = 10 then BitVec.ofNat 32 (x.keeper.next.toNat * 2 ^ 16 + x.keeper.reqs.length)
  else if off = 4 then BitVec.ofNat 32 (x.tug.next.toNat * 2 ^ 16 + x.tug.cmds.length)
  else if off = 8 then x.tug.uver else 0

/-- The bytes a MEMP load reads, whether they are local, and the state after its decrements (05 R121). -/
def State.loadAt (s : State) (a : BitVec 3) (z align : Nat) (cons : Bool) (form : Form) :
    Except Stop (List Byte × Bool × State) := do
  let P := s.rp a
  let acc : Acc := if cons then .consume else .read
  let (place, s') ← liftFail s a.toNat P (s.resolve s.core P z align acc form)
  match place with
  | .mem ps =>
    liftFail s a.toNat P (s'.checkParts acc (s'.decsOf s.core s.cur) ps)
    let bs := s'.readSeen s.core s.cur ps
    if cons then do
      let s'' ← s'.consume P ps
      .ok (bs, ownLocal s.core ps, s'')
    else .ok (bs, ownLocal s.core ps, s')
  | .engine b unit off => .ok (leBytes 4 (s.engineReg b unit off).toNat, false, s')
  | _ => .error (.trap s .range (ptrLow P))

/-- A scalar MEMP load. -/
def loadP (z : Nat) (signed : Bool) (d : BitVec 5) (a : BitVec 3) (cons post : Bool) : Body := fun s => do
  let (bs, own, s) ← s.loadAt a z z cons (if z = 4 then .word else .any)
  .ok ((s.bump a post).laterMem own [(gid d, (extend signed bs).zeroExtend 128)], .seq)

/-- The v registers of a group with the bytes they take (05 R121). -/
def groupVals (d : BitVec 4) (bs : List Byte) : List (Nat × W128) :=
  (List.range 4).map fun j => (vid d + j, bytes128 ((bs.drop (16 * j)).take 16))

/-- MEMP ORD ≠ 0 with SCOPE = 3 reads e7 (03 R75). -/
def memIds (ord : MemOrd) (scope : BitVec 2) : List Nat :=
  if ord = .relaxed ∨ scope ≠ 3 then [] else [eid 7]

/-- The scope of an ordered MEMP access (03 R75). -/
def State.memScope (s : State) (scope : BitVec 2) : Scope :=
  match scope.toNat with
  | 0 => .core | 1 => .basin | 2 => .die
  | _ => if (s.re 7).getLsbD 0 then .sys else .pkg

/-- A store of a context through a pointer, held in a task after the checks made at issue (05 R117, R121); `rel` is its
scope as a release. -/
def State.storeAt (s : State) (a : BitVec 3) (data : List Byte) (align : Nat) (form : Form) (rel : Option Scope) :
    Except Stop State := do
  let P := s.rp a
  if s.inTask then do
    let (place, s') ← liftFail s a.toNat P (s.resolve s.core P data.length align .write form)
    match place with
    | .mem ps =>
      match s'.checkStates .write (s'.decsOf s.core s.cur) ps with
      | some c => .error (.trap s c (ptrLow P))
      | none => s'.hold [.store P data rel]
    | .engine _ unit off => do
      if unit = 9 ∧ off = 0 then blockCheck s ((bytes32 data).toNat % 131072) (bytes32 data)
      s'.hold [.store P data rel]
    | .ring rs => do
      trapIf (rs.any (fun p => ringFifo p.leaf) && !decide (form = .group)) s .range (ptrLow P)
      s'.hold [.store P data rel]
    | .fifo .. => s'.hold [.store P data rel]
  else s.doStore s.core s.ctx a.toNat P data align form

/-- The scope at which a MEMP store is a release: with `.rel` or `.sc` (10 R261). -/
def State.storeRel (s : State) (ord : MemOrd) (scope : BitVec 2) : Option Scope :=
  if ord = .relaxed then none else some (s.memScope scope)

/-- A scalar MEMP store. -/
def storeP (z : Nat) (d : BitVec 5) (a : BitVec 3) (ord : MemOrd) (scope : BitVec 2) (post : Bool) : Body := fun s => do
  releaseWait s (!decide (ord = .relaxed) && !s.inTask) (s.memScope scope)
  let s' ← s.storeAt a (leBytes z (s.rg d).toNat) z (if z = 4 then .word else .any) (s.storeRel ord scope)
  .ok (s'.bump a post, .seq)

end Sys2Proof.Machine
end

