-- ==== Sys2Proof/Machine/Atomic.lean ====
section
/-! DEFINITION. Atomics and fences (05 R135 to R140). -/

namespace Sys2Proof.Machine

/-- An order that has a release side (03 R74). -/
def releases : AtomOrd → Bool
  | .release | .acqRel => true
  | _ => false

/-- FOVREG id of a data register of ATOM: a v register with VEC (03 R74). -/
def atomId (vec : Bool) (r : BitVec 5) : Nat := if vec then 32 + r.toNat % 16 else gid r

/-- e registers that an atomic reads at issue (R136, R137). -/
def atomEs : AtomOp → List Nat
  | .cas => eids [0]
  | .dec => eids [4, 5]
  | _ => []

/-- A result-less atomic of a task: the checks made at issue, then a held effect (R138, R117). -/
def State.holdAtomic (s : State) (a : BitVec 3) (op : AtomOp) (y : W128) (rel : Option Scope) : Except Stop State := do
  let P := s.rp a
  let (place, s') ← liftFail s a.toNat P (s.resolveAtomic s.core P op 4)
  match place with
  | .mem ps =>
    match s'.checkStates .atomic (s'.decsOf s.core s.cur) ps with
    | some c => .error (.trap s c (ptrLow P))
    | none => do
      trapIf (decide (op = .dec) && !handlerOk (s.re 4)) s .range (s.re 4)
      s'.hold [.atomic P op false y (s.re 0) (s.re 4) (s.re 5) rel]
  | _ => .error (.trap s .range (ptrLow P))

/-- Whether an atomic's target is the issuing core's own local memory, whose loads have a fixed latency (R135). -/
def State.ownTarget (s : State) (P : W64) : Bool :=
  ptrKind P == 0 || (ptrKind P == 1 && decide (ptrUnit P < 8) && ptrBasin P * 8 + ptrUnit P == s.core)

/-- ATOM (R135 to R138). One that returns a value is a commit point in a task. -/
def atomic (i : Instr) (op : AtomOp) (vec : Bool) (ord : AtomOrd) (scope : Scope) (d : BitVec 5) (a : BitVec 3)
    (b : BitVec 5) (s : State) : Host.Outcome State Fault Refusal :=
  issue i ([pid a, atomId vec b] ++ atomEs op) [atomId vec d] s fun s => do
    let y := s.cur.value (atomId vec b)
    if s.inTask && !vec && d == 0 then do
      let s ← s.holdAtomic a op y (if releases ord then some scope else none)
      .ok (s, .seq)
    else do
      let s ← s.publish
      releaseWait s (releases ord) scope
      let (x, s') ← s.doAtomic s.core s.ctx a.toNat (s.rp a) op vec y (s.re 0) (s.re 4) (s.re 5)
      .ok (s'.laterMem (s.ownTarget (s.rp a)) [(atomId vec d, x)], .seq)

def execRmwadd (v : Bool) (o : AtomOrd) (sc : Scope) (d : BitVec 5) (a : BitVec 3) (b : BitVec 5) (s : State) :=
  atomic (.rmwadd v o sc d a b) .add v o sc d a b s
def execRmwand (v : Bool) (o : AtomOrd) (sc : Scope) (d : BitVec 5) (a : BitVec 3) (b : BitVec 5) (s : State) :=
  atomic (.rmwand v o sc d a b) .and v o sc d a b s
def execRmwor (v : Bool) (o : AtomOrd) (sc : Scope) (d : BitVec 5) (a : BitVec 3) (b : BitVec 5) (s : State) :=
  atomic (.rmwor v o sc d a b) .or v o sc d a b s
def execRmwxor (v : Bool) (o : AtomOrd) (sc : Scope) (d : BitVec 5) (a : BitVec 3) (b : BitVec 5) (s : State) :=
  atomic (.rmwxor v o sc d a b) .xor v o sc d a b s
def execRmwmin (v : Bool) (o : AtomOrd) (sc : Scope) (d : BitVec 5) (a : BitVec 3) (b : BitVec 5) (s : State) :=
  atomic (.rmwmin v o sc d a b) .min v o sc d a b s
def execRmwmax (v : Bool) (o : AtomOrd) (sc : Scope) (d : BitVec 5) (a : BitVec 3) (b : BitVec 5) (s : State) :=
  atomic (.rmwmax v o sc d a b) .max v o sc d a b s
def execRmwminu (v : Bool) (o : AtomOrd) (sc : Scope) (d : BitVec 5) (a : BitVec 3) (b : BitVec 5) (s : State) :=
  atomic (.rmwminu v o sc d a b) .minu v o sc d a b s
def execRmwmaxu (v : Bool) (o : AtomOrd) (sc : Scope) (d : BitVec 5) (a : BitVec 3) (b : BitVec 5) (s : State) :=
  atomic (.rmwmaxu v o sc d a b) .maxu v o sc d a b s
def execRmwswap (v : Bool) (o : AtomOrd) (sc : Scope) (d : BitVec 5) (a : BitVec 3) (b : BitVec 5) (s : State) :=
  atomic (.rmwswap v o sc d a b) .swap v o sc d a b s
def execRmwcas (o : AtomOrd) (sc : Scope) (d : BitVec 5) (a : BitVec 3) (b : BitVec 5) (s : State) :=
  atomic (.rmwcas o sc d a b) .cas false o sc d a b s
def execRmwdec (o : AtomOrd) (sc : Scope) (d : BitVec 5) (a : BitVec 3) (b : BitVec 5) (s : State) :=
  atomic (.rmwdec o sc d a b) .dec false o sc d a b s

/-! ## Fences (R139, R140, 10 R266) -/

/-- `fence`: in a task it takes its place among the held effects (R140). -/
def execFence (scope : Scope) (pred succ : BitVec 4) (s : State) : Host.Outcome State Fault Refusal :=
  issue (.fence scope pred succ) [] [] s fun s => do
    waitIf (s.fencePending s.core s.ctx scope pred) s
    let s ← if s.inTask then s.hold [.fence scope pred] else .ok s
    .ok (s, .seq)

end Sys2Proof.Machine
end

