-- ==== Sys2Proof/Machine/Scalar.lean ====
section
/-! DEFINITION. Integer arithmetic: OPR, OPI, lui and aui (04 R92 to R96). -/

namespace Sys2Proof.Machine

/-- An instruction of latency 1 that writes one g register. -/
def alu (i : Instr) (srcs : List Nat) (d : BitVec 5) (s : State) (f : State → W32) : Host.Outcome State Fault Refusal :=
  issue i srcs [gid d] s fun s => .ok (s.wg d (f s), .seq)

/-- An instruction whose g result lands `lat` cycles later. -/
def aluLater (i : Instr) (lat : Nat) (srcs : List Nat) (d : BitVec 5) (s : State) (f : State → W32) :
    Host.Outcome State Fault Refusal :=
  issue i srcs [gid d] s fun s => .ok (s.later lat [(gid d, (f s).zeroExtend 128)], .seq)

/-- Binary OPR of latency 1. -/
def opr (i : Instr) (d a b : BitVec 5) (s : State) (f : W32 → W32 → W32) : Host.Outcome State Fault Refusal :=
  alu i (gids [a, b]) d s fun s => f (s.rg a) (s.rg b)
/-- Unary OPR. -/
def opr1 (i : Instr) (d a : BitVec 5) (s : State) (f : W32 → W32) : Host.Outcome State Fault Refusal :=
  alu i (gids [a]) d s fun s => f (s.rg a)
/-- OPI. -/
def opi (i : Instr) (d a : BitVec 5) (imm : BitVec 12) (s : State) (f : W32 → W32 → W32) : Host.Outcome State Fault Refusal :=
  alu i (gids [a]) d s fun s => f (s.rg a) (imm32 imm)
/-- Binary OPR of a longer latency (01 R25). -/
def oprLater (i : Instr) (lat : Nat) (d a b : BitVec 5) (s : State) (f : W32 → W32 → W32) : Host.Outcome State Fault Refusal :=
  aluLater i lat (gids [a, b]) d s fun s => f (s.rg a) (s.rg b)

/-- sh = y[4:0] (04 R93). -/
def shamt (y : W32) : Nat := y.toNat % 32
def bool32 (b : Bool) : W32 := if b then 1 else 0

/-! ## Results of R93 and R94 -/

def srlOp (x y : W32) : W32 := x >>> shamt y
def sllOp (x y : W32) : W32 := x <<< shamt y
def sraOp (x y : W32) : W32 := x.sshiftRight (shamt y)
def rolOp (x y : W32) : W32 := x.rotateLeft (shamt y)
def rorOp (x y : W32) : W32 := x.rotateRight (shamt y)
def sltOp (x y : W32) : W32 := bool32 (decide (sgn x < sgn y))
def sltuOp (x y : W32) : W32 := bool32 (decide (x.toNat < y.toNat))
def minOp (x y : W32) : W32 := if sgn x ≤ sgn y then x else y
def maxOp (x y : W32) : W32 := if sgn x ≤ sgn y then y else x
def minuOp (x y : W32) : W32 := if x.toNat ≤ y.toNat then x else y
def maxuOp (x y : W32) : W32 := if x.toNat ≤ y.toNat then y else x
def mulhOp (x y : W32) : W32 := BitVec.ofInt 32 (sgn x * sgn y / 2 ^ 32)
def mulhuOp (x y : W32) : W32 := BitVec.ofNat 32 (x.toNat * y.toNat / 2 ^ 32)

/-- R94: the quotient truncates toward zero; division by 0 and −2^31 / −1 have the results named there. -/
def divOp (x y : W32) : W32 :=
  if y = 0 then BitVec.allOnes 32
  else if sgn x = -2 ^ 31 ∧ sgn y = -1 then x
  else BitVec.ofInt 32 (Int.tdiv (sgn x) (sgn y))
def remOp (x y : W32) : W32 :=
  if y = 0 then x
  else if sgn x = -2 ^ 31 ∧ sgn y = -1 then 0
  else BitVec.ofInt 32 (sgn x - Int.tdiv (sgn x) (sgn y) * sgn y)
def divuOp (x y : W32) : W32 := if y = 0 then BitVec.allOnes 32 else BitVec.ofNat 32 (x.toNat / y.toNat)
def remuOp (x y : W32) : W32 := if y = 0 then x else BitVec.ofNat 32 (x.toNat % y.toNat)

/-- Leading zeros of the low `n` bits. -/
def clzFrom (x : W32) : Nat → Nat
  | 0 => 0
  | n + 1 => if x.getLsbD n then 0 else clzFrom x n + 1
/-- Trailing zeros from bit `32 − n`. -/
def ctzFrom (x : W32) : Nat → Nat
  | 0 => 0
  | n + 1 => if x.getLsbD (31 - n) then 0 else ctzFrom x n + 1
def popcount (x : W32) : Nat := ((List.range 32).filter fun i => x.getLsbD i).length

def clzOp (x : W32) : W32 := BitVec.ofNat 32 (clzFrom x 32)
def ctzOp (x : W32) : W32 := BitVec.ofNat 32 (ctzFrom x 32)
def popcOp (x : W32) : W32 := BitVec.ofNat 32 (popcount x)
def sextbOp (x : W32) : W32 := (x.truncate 8 : BitVec 8).signExtend 32
def sexthOp (x : W32) : W32 := (x.truncate 16 : BitVec 16).signExtend 32
def zexthOp (x : W32) : W32 := (x.truncate 16 : BitVec 16).zeroExtend 32

/-- Shift of `shi` (04 R95). -/
def shiOp (op : ShiOp) (n : BitVec 5) (x : W32) : W32 :=
  let sh : W32 := n.zeroExtend 32
  match op with
  | .sll => sllOp x sh
  | .srl => srlOp x sh
  | .sra => sraOp x sh
  | .ror => rorOp x sh

/-! ## The instructions -/

def execAdd (d a b : BitVec 5) (s : State) := opr (.add d a b) d a b s fun x y => x + y
def execSub (d a b : BitVec 5) (s : State) := opr (.sub d a b) d a b s fun x y => x - y
def execAnd (d a b : BitVec 5) (s : State) := opr (.and d a b) d a b s fun x y => x &&& y
def execOr (d a b : BitVec 5) (s : State) := opr (.or d a b) d a b s fun x y => x ||| y
def execXor (d a b : BitVec 5) (s : State) := opr (.xor d a b) d a b s fun x y => x ^^^ y
def execAndn (d a b : BitVec 5) (s : State) := opr (.andn d a b) d a b s fun x y => x &&& ~~~y
def execOrn (d a b : BitVec 5) (s : State) := opr (.orn d a b) d a b s fun x y => x ||| ~~~y
def execSll (d a b : BitVec 5) (s : State) := opr (.sll d a b) d a b s sllOp
def execSrl (d a b : BitVec 5) (s : State) := opr (.srl d a b) d a b s srlOp
def execSra (d a b : BitVec 5) (s : State) := opr (.sra d a b) d a b s sraOp
def execRol (d a b : BitVec 5) (s : State) := opr (.rol d a b) d a b s rolOp
def execRor (d a b : BitVec 5) (s : State) := opr (.ror d a b) d a b s rorOp
def execSlt (d a b : BitVec 5) (s : State) := opr (.slt d a b) d a b s sltOp
def execSltu (d a b : BitVec 5) (s : State) := opr (.sltu d a b) d a b s sltuOp
def execMin (d a b : BitVec 5) (s : State) := opr (.min d a b) d a b s minOp
def execMax (d a b : BitVec 5) (s : State) := opr (.max d a b) d a b s maxOp
def execMinu (d a b : BitVec 5) (s : State) := opr (.minu d a b) d a b s minuOp
def execMaxu (d a b : BitVec 5) (s : State) := opr (.maxu d a b) d a b s maxuOp
def execMul (d a b : BitVec 5) (s : State) := oprLater (.mul d a b) 2 d a b s fun x y => x * y
def execMulh (d a b : BitVec 5) (s : State) := oprLater (.mulh d a b) 2 d a b s mulhOp
def execMulhu (d a b : BitVec 5) (s : State) := oprLater (.mulhu d a b) 2 d a b s mulhuOp
def execDiv (d a b : BitVec 5) (s : State) := oprLater (.div d a b) 18 d a b s divOp
def execDivu (d a b : BitVec 5) (s : State) := oprLater (.divu d a b) 18 d a b s divuOp
def execRem (d a b : BitVec 5) (s : State) := oprLater (.rem d a b) 18 d a b s remOp
def execRemu (d a b : BitVec 5) (s : State) := oprLater (.remu d a b) 18 d a b s remuOp
def execClz (d a : BitVec 5) (s : State) := opr1 (.clz d a) d a s clzOp
def execCtz (d a : BitVec 5) (s : State) := opr1 (.ctz d a) d a s ctzOp
def execPopc (d a : BitVec 5) (s : State) := opr1 (.popc d a) d a s popcOp
def execSextb (d a : BitVec 5) (s : State) := opr1 (.sextb d a) d a s sextbOp
def execSexth (d a : BitVec 5) (s : State) := opr1 (.sexth d a) d a s sexthOp
def execZexth (d a : BitVec 5) (s : State) := opr1 (.zexth d a) d a s zexthOp

def execAddi (d a : BitVec 5) (imm : BitVec 12) (s : State) := opi (.addi d a imm) d a imm s fun x y => x + y
def execAndi (d a : BitVec 5) (imm : BitVec 12) (s : State) := opi (.andi d a imm) d a imm s fun x y => x &&& y
def execOri (d a : BitVec 5) (imm : BitVec 12) (s : State) := opi (.ori d a imm) d a imm s fun x y => x ||| y
def execXori (d a : BitVec 5) (imm : BitVec 12) (s : State) := opi (.xori d a imm) d a imm s fun x y => x ^^^ y
def execSlti (d a : BitVec 5) (imm : BitVec 12) (s : State) := opi (.slti d a imm) d a imm s sltOp
def execSltiu (d a : BitVec 5) (imm : BitVec 12) (s : State) := opi (.sltiu d a imm) d a imm s sltuOp
def execShi (d a : BitVec 5) (op : ShiOp) (n : BitVec 5) (s : State) := opr1 (.shi d a op n) d a s (shiOp op n)

/-- imm20·2^12 (04 R96). -/
def upper (imm : BitVec 20) : W32 := imm ++ 0#12
def execLui (d : BitVec 5) (imm : BitVec 20) (s : State) := alu (.lui d imm) [] d s fun _ => upper imm
def execAui (d : BitVec 5) (imm : BitVec 20) (s : State) :=
  alu (.aui d imm) [] d s fun s => s.cur.pc.zeroExtend 32 + upper imm

end Sys2Proof.Machine
end

