-- ==== Sys2Proof/Machine/Tasks.lean ====
section
/-! DEFINITION. Messages, tasks and their queues: MSG and TASK instructions (08 R197 to R209), acceptance, dispatch,
retry, budget and deferred faults (11 R276 to R290, 05 R133). -/

namespace Sys2Proof.Machine

/-! ## Messages (08 R197 to R204) -/

/-- The target and handler checks of R200, in order. -/
def sendChecks (s : State) (tgt : W32) : Except Stop Unit := do
  trapIf (!(s.recOf s.core).hasCore tgt.toNat) s .range tgt
  trapIf (!handlerOk (s.re 4)) s .range (s.re 4)

/-- Hold a message, or publish it at once (R204, R209). A register that takes the answer is empty from issue. -/
def State.offer (s : State) (tgt : Nat) (m : Message) (dst answer : BitVec 5) : Except Stop State := do
  let s' ← if s.inTask then s.hold [.send tgt m (s.re 4) dst.toNat]
    else .ok (s.sendMsg s.core s.ctx tgt m (s.re 4)
      (if dst = 0 then none else some { core := s.core, ctx := s.ctx, reg := dst.toNat }))
  .ok (s'.emptyRegs [gid answer])

/-- `send`, `sendw` and `spawn` (R200). -/
def sendOp (i : Instr) (srcs : List Nat) (d : BitVec 5) (s : State) (args : State → W32 × W32 × W32) :
    Host.Outcome State Fault Refusal :=
  issue i srcs [gid d] s fun s => do
    let (tgt, a0, a1) := args s
    sendChecks s tgt
    let w := s.re 4
    let m : Message := { pc := handlerPc w, level := handlerLevel w, arg0 := a0, arg1 := a1 }
    let s ← s.offer tgt.toNat m d d
    .ok (s, .seq)

def execSend (a b : BitVec 5) (s : State) : Host.Outcome State Fault Refusal :=
  sendOp (.send a b) (gids [a, b] ++ eids [4, 5]) 0 s fun s => (s.rg a, s.rg b, s.re 5)
def execSendw (d a b : BitVec 5) (s : State) : Host.Outcome State Fault Refusal :=
  sendOp (.sendw d a b) (gids [a, b] ++ eids [4, 5]) d s fun s => (s.rg a, s.rg b, s.re 5)
def execSpawn (d a b : BitVec 5) (s : State) : Host.Outcome State Fault Refusal :=
  sendOp (.spawn d a b) (gids [a, b] ++ eids [4]) d s fun s => (BitVec.ofNat 32 s.core, s.rg a, s.rg b)

/-- `callat` (R201). -/
def execCallat (d a b : BitVec 5) (s : State) : Host.Outcome State Fault Refusal :=
  issue (.callat d a b) (gids [a] ++ ggroup b 4 ++ eids [4]) [gid d] s fun s => do
    sendChecks s (s.rg a)
    let w := s.re 4
    let m : Message := { pc := handlerPc w, level := handlerLevel w, call := true
                         arg0 := s.rgAt b 0, arg1 := s.rgAt b 1, arg2 := s.rgAt b 2, arg3 := s.rgAt b 3
                         reply := if d = 0 then 0 else targetWord { core := s.core, ctx := s.ctx, reg := d.toNat } }
    let s ← s.offer (s.rg a).toNat m 0 d
    .ok (s, .seq)

/-- `reply` (R202): once, to a valid reply target of the running task's message. -/
def execReply (a : BitVec 5) (s : State) : Host.Outcome State Fault Refusal :=
  issue (.reply a) (gids [a]) [] s fun s =>
    match s.cur.task with
    | none => .error (.trap s .range 0)
    | some t =>
      if t.replied ∨ (targetOf t.msg.reply).isNone then .error (.trap s .range 0)
      else do
        let s ← s.hold [.reply (s.rg a)]
        .ok (s.setCur { s.cur with task := some { t with replied := true } }, .seq)

/-- `start` (R203), a release at core scope (10 R264). The rule gives its faults no order: they come as its table lists them (log
entry 75). -/
def execStart (a b : BitVec 5) (s : State) : Host.Outcome State Fault Refusal :=
  issueIf (s.ctx == 0) (.start a b) (gids [a, b] ++ eids [0, 1]) [] s fun s => do
    let c := s.rg a
    let pc := s.rg b
    trapIf (decide (c.toNat < 1 ∨ 10 < c.toNat)) s .range c
    let x := s.getCtx s.core c.toNat
    trapIf (!decide (x.status = .idle)) s .range c
    trapIf (decide (0x1FFFE < pc.toNat)) s .range pc
    trapIf (pc.getLsbD 0) s .align pc
    releaseWait s true .core
    let y := startCtx (s.recOf s.core) x (pc.truncate 17)
    .ok ((s.clearCtx s.core c.toNat).setCtx s.core c.toNat { (y.wg 1 (s.re 0)).wg 2 (s.re 1) with started := true }, .seq)

/-! ## Ending and publishing (08 R205 to R208) -/

/-- What `done` and `idle` of a context wait for (R206): its transfers, its matrix commands, and its stores through ring
windows, whose faults would come too late (16 R354). -/
def State.endWait (s : State) (n c : Nat) : Bool :=
  !(s.xfersOf n c).isEmpty || s.matBusy n c (s.getCtx n c).att || s.ringBusy n c

/-- The context becomes IDLE (R206, R226). -/
def Ctx.stop (x : Ctx) : Ctx := { x with status := .idle, task := none, started := false, held := [] }

/-- `done`, and `idle` outside a task: publish, wait, and end. A fault raised meanwhile is taken here (R206). A pop that still
waits at its bank is withdrawn (log entry 63). -/
def endBody : Body := fun s => do
  let s ← s.publish
  waitIf (s.endWait s.core s.ctx || !s.cur.deferred.isEmpty) s
  let s := (s.landAll s.core s.ctx).withdrawPops s.core s.ctx
  .ok (s.setCur s.cur.stop, .seq)

/-- `commit` (R206), which has no effect outside a task. -/
def commitBody : Body := fun s => do
  let s ← s.publish
  .ok (s, .seq)

def execDone (s : State) : Host.Outcome State Fault Refusal := issueIf (s.ctx != 0) .done [] [] s endBody
def execCommit (s : State) : Host.Outcome State Fault Refusal := issue .commit [] [] s commitBody

/-- Field `n` of the running task's message (R207). -/
def tmsgField (x : Ctx) (n : Nat) : W32 :=
  match x.task with
  | none => 0
  | some t =>
    let m := t.msg
    match n with
    | 0 => m.pc.zeroExtend 32
    | 1 => m.arg0
    | 2 => m.arg1
    | 3 => m.id
    | 4 => if m.call then m.arg2 else 0
    | 5 => if m.call then m.arg3 else 0
    | 6 => if m.call then m.reply else 0
    | _ => m.level.zeroExtend 32

def execTmsg (d : BitVec 5) (n : BitVec 3) (s : State) : Host.Outcome State Fault Refusal :=
  alu (.tmsg d n) [] d s fun s => tmsgField s.cur n.toNat

/-- The watch of the issuing context's `waitf` over a word, where it waits already. -/
def State.watchOf (s : State) (off : Nat) (need : W32) : Option Watch :=
  s.watches.find? fun w => w.core == s.core && w.ctx == s.ctx && w.off == off && w.need == need

/-- `waitf` (R208): the word is read at issue, and again at every write or change of its line while the context waits. The
read that ends the wait decides. The rule gives its faults no order: ALIGN comes first (log entry 75). -/
def execWaitf (a b : BitVec 5) (s : State) : Host.Outcome State Fault Refusal :=
  issue (.waitf a b) (gids [a, b]) [] s fun s => do
    let s ← s.publish
    let off := s.rg a
    trapIf (off.toNat % 4 != 0) s .align off
    trapIf (decide (0x1FFFC < off.toNat)) s .range off
    let w := (s.watchOf off.toNat (s.rg b)).getD
      (s.readWatch { core := s.core, ctx := s.ctx, off := off.toNat, need := s.rg b })
    let t := s.dropWatch s.core s.ctx
    match w.hit with
    | some none => .ok (t, .seq)
    | some (some .ue) => .error (.ue s (((s.badGranule (localKey s.core off.toNat) 4).map (· * 8)).getD (localKey s.core off.toNat)) off.toNat off)
    | some (some c) => .error (.trap s c off)
    | none => .error (.wait { t with watches := w :: t.watches })

/-! ## Acceptance (11 R277, R280; 08 R200, R201) -/

/-- Remove flight `k`. -/
def State.dropFlight (s : State) (k : Nat) : State := { s with net := s.net.eraseIdx k }

/-- A message on its way has come to its queue: after the accesses that precede it (10 R264) and the earlier messages of
its sender at its level (08 R204). -/
def State.hasCome (s : State) (k : Nat) : Bool :=
  match s.net[k]? with
  | some (.msg h n c tgt m _ _ after) =>
    !s.savedAway h && !s.storesBefore n c after false && !s.popsBefore n c after && !s.repliesBefore n c after &&
    !(s.net.take k).any (fun f => match f with
      | .msg _ n' c' tgt' m' .. => n' == n && c' == c && tgt' == tgt && m'.level == m.level
      | _ => false)
  | _ => true

/-- A message of a core's own contexts that has come to its queue (11 R277). -/
def State.ownWaits (s : State) (n : Nat) : Bool :=
  (List.range s.net.length).any fun j => s.hasCome j && match s.net[j]? with
    | some (.msg _ n' _ tgt' ..) => n' == n && tgt' == n
    | _ => false

/-- Whether flight `k` may be accepted now: it has come, and a core's own messages that have come are accepted before
others (11 R277). -/
def State.mayAccept (s : State) (k : Nat) : Bool :=
  s.hasCome k && match s.net[k]? with
    | some (.msg _ n _ tgt ..) => n == tgt || !s.ownWaits tgt
    | _ => true

/-- What follows from a queue's answer to a message (R200, R201). -/
def State.answer (s : State) (h n c tgt : Nat) (m : Message) (word : W32) (status : Option RegTarget) (ok : Bool) : State :=
  if m.call then
    if ok then s
    else (s.sendReply h m (BitVec.allOnes 32)).postQueueEvent h n c tgt word m.arg0 m.arg1
  else match status with
    | some t => s.sendFill h t (if ok then 0 else 0x14)
    | none => if ok then s else s.postQueueEvent h n c tgt word m.arg0 m.arg1

/-- MESSAGE_ACCEPT: flight `k` reaches its core. A message of a cancelled launch is discarded; a retry comes to the
core's port (R289). -/
def execMessageAccept (k : Nat) (s : State) : Host.Outcome State Fault Refusal :=
  event (match s.net[k]? with
    | some (.msg h n c tgt m word status _) =>
      if !s.mayAccept k then s
      else
        let s := s.dropFlight k
        if !s.liveLaunch h then s
        else
          let (ok, s) := s.enqueue tgt m
          s.answer h n c tgt m word status ok
    | some (.retry h tgt m) =>
      let s := s.dropFlight k
      if s.liveLaunch h then s.setCore tgt { s.getCore tgt with port := (s.getCore tgt).port ++ [m] } else s
    | _ => s)

/-- RETRY_SLOT_ENTRY (R289): retry `k` at the port enters the empty slot of its level, in order of arrival. -/
def execRetrySlotEntry (n k : Nat) (s : State) : Host.Outcome State Fault Refusal :=
  event (match (s.getCore n).port[k]? with
    | some m =>
      let l := m.level.toNat
      if (s.level n l).retry.isSome ∨ ((s.getCore n).port.take k).any (fun m' => m'.level == m.level) then s
      else
        let s := s.setCore n { s.getCore n with port := (s.getCore n).port.eraseIdx k }
        s.setLevel n l { s.level n l with retry := some m }
    | none => s)

/-! ## Dispatch (11 R282, R283) -/

def Ctx.free (x : Ctx) : Bool := decide (x.status = .idle) && !x.started

/-- The lowest-numbered free helper. -/
def Core.freeHelper (k : Core) : Option Nat := ((List.range 10).map (· + 1)).find? fun c => (k.getCtx c).free

/-- `waiting(L)` of R282: the retry slot holds a message, or the level is not empty. -/
def QLevel.waiting (q : QLevel) : Bool := q.retry.isSome || !q.hw.isEmpty || !q.spill.isEmpty

/-- The highest waiting level below `n`. -/
def Core.topLevel (k : Core) (n : Nat) : Option Nat := ((List.range n).reverse).find? fun l => (k.level l).waiting

/-- The level R282 chooses, and the starvation count after it. -/
def Core.chooseLevel (k : Core) : Option (Nat × Nat) :=
  match k.topLevel 4 with
  | none => none
  | some h =>
    match k.topLevel h with
    | some x => if k.stv = 32 then some (x, 0) else some (h, k.stv + 1)
    | none => some (h, 0)

/-- The start of a task in a helper (R283). -/
def taskCtx (r : LaunchRec) (x : Ctx) (m : Message) : Ctx :=
  { ((startCtx r x m.pc).wg 1 m.arg0).wg 2 m.arg1 with task := some { msg := m }, budget := r.budget }

/-- The start of message `m` in helper `c` of core `n`. -/
def State.beginTask (s : State) (n c : Nat) (m : Message) : State :=
  (s.clearCtx n c).setCtx n c (taskCtx (s.recOf n) (s.getCtx n c) m)

/-- DISPATCH. The entry read next may hold an error: its message is lost (18 R369). -/
def execDispatch (n : Nat) (s : State) : Host.Outcome State Fault Refusal :=
  let k := s.getCore n
  event (if k.noDispatch then s
    else match k.freeHelper, k.chooseLevel with
      | some c, some (l, stv) =>
        let q := k.level l
        let go (m : Message) (q : QLevel) : State :=
          if m.bad then (s.setLevel n l q).loseEntry n
          else (s.setCore n ({ k with stv := stv }.setLevel l q)).beginTask n c m
        (match q.retry, q.hw with
          | some m, _ => go m { q with retry := none }
          | none, m :: t => go m { q with hw := t }
          | none, [] => s).refill n l 64
      | _, _ => s)

/-! ## Deferred faults and BUDGET (05 R133, 11 R287) -/

/-- The task has reached its budget (R287). -/
def Ctx.overBudget (x : Ctx) : Bool :=
  match x.task with
  | some t => !decide (x.budget = 0) && decide (x.budget.toNat ≤ t.used)
  | none => false

/-- A barrier arrival has been made and its instruction has not completed (08 R212). -/
def Ctx.inArrival (x : Ctx) : Bool :=
  match x.bar with
  | .sent .. => true
  | .done _ => true
  | .over _ => true
  | _ => false

/-- The instruction that a context fetches at a PC in its local memory. -/
def State.instrAt (s : State) (n c : Nat) (pc : Off) : Option Instr :=
  match decodeBytes ((List.range 4).map fun i => s.fetchByte n c (pc.toNat + i)) with
  | .ok (i, _) => some i
  | .error _ => none

/-- A waiting `done` has finished its waits: it holds nothing, and nothing of the task runs; it ends the task normally
(R206, R287). -/
def State.doneEnds (s : State) (n c : Nat) : Bool :=
  let x := s.getCtx n c
  x.task.isSome && decide (x.status = .waiting) && x.held.isEmpty && !x.publishing && !s.endWait n c
    && match s.instrAt n c x.pc with
      | some .done => true
      | some .hDone => true
      | _ => false

/-- The deferred fault that comes next, with those after it. One that a status goes with waits until the status has landed
(05 R133, 07 R177). -/
def State.dueFault (s : State) (n c : Nat) : Option (Deferred × List Deferred) :=
  match (s.getCtx n c).deferred with
  | d :: t =>
    let landed : Bool := match d.fill with
      | some q => !s.net.any fun f => match f with
        | .fill _ _ _ _ _ (.status q') => q' == q
        | _ => false
      | none => true
    if landed then some (d, t) else none
  | [] => none

/-- A deferred fault is to be taken (05 R133), or BUDGET, which a publication under way and a `done` that ends the task
come before (R287). A barrier arrival is answered first (08 R212). -/
def State.trapDue (s : State) (n c : Nat) : Bool :=
  let x := s.getCtx n c
  !x.inArrival && ((s.dueFault n c).isSome || (x.overBudget && !x.publishing && !s.doneEnds n c))

/-- The trap a context has to take at its next instruction boundary (01 R23): a deferred fault, then BUDGET, whatever the
states of its registers. -/
def State.boundaryTrap (s : State) (n c : Nat) : Option State :=
  let x := s.getCtx n c
  if x.status = .idle ∨ x.ending.isSome ∨ s.trapDue n c = false then none
  else match s.dueFault n c with
    | some (d, t) => some ((s.setCtx n c { x with deferred := t }).trapEntry n c d.cause x.pc d.val)
    | none => some (s.trapEntry n c .budget x.pc x.budget)

/-! ## Cycles (01 R21 to R23) -/

/-- Step 2 of a pre-emption holds c0 and the started helpers, save one whose barrier arrival is to be answered
(15 R340, R341). -/
def State.heldAtBoundary (s : State) (n : Nat) (x : Ctx) : Bool :=
  x.task.isNone && !x.inArrival && match (s.getCore n).launch.bind s.launchOf with
    | some l => decide (l.phase = .preempting)
    | none => false

/-- The context takes no part in the search: IDLE, its attempt ending, or held at a boundary. -/
def State.passesBy (s : State) (n c : Nat) : Bool :=
  let x := s.getCtx n c
  decide (x.status = .idle) || x.ending.isSome || s.heldAtBoundary n x

/-- The order of the search: ILAST + 1, ILAST + 2, … modulo 11. -/
def searchOrder (ilast : Nat) : List Nat := (List.range 11).map fun k => (ilast + 1 + k) % 11

/-- A parked context none of whose sources has changed: the search passes it by. -/
def State.stillParked (s : State) (n c : Nat) : Bool :=
  let x := s.getCtx n c
  decide (x.status = .parked) && x.judged != some true && !s.trapDue n c
    && x.blockedOn.any fun id => !decide (x.regState id = .full)

/-- The search of R23 comes to context `c`: no context before it is READY. -/
def State.reached (s : State) (n c : Nat) : Bool :=
  !s.passesBy n c
    && ((searchOrder (s.getCore n).ilast).takeWhile (· ≠ c)).all fun k => s.passesBy n k || s.stillParked n k

/-- A task's budget count runs on (R287). -/
def Ctx.passCycle (x : Ctx) : Ctx := { x with task := x.task.map fun k => { k with used := k.used + 1 } }

/-- A cycle of core `n` ends. Carried commands that wait at the mesh port are accepted, after those issued in the cycle
(07 R163). -/
def State.endCycle (s : State) (n : Nat) : State :=
  let k := s.getCore n
  s.setCore n { k with cyc := k.cyc + 1, ctxs := k.ctxs.map fun e => (e.1, e.2.passCycle), touched := []
                       mat := k.mat.pull 9 }

/-- The trap entry is the issue of its cycle (01 R23). -/
def State.takeBoundary (s : State) (n c : Nat) : State := (s.setCore n { s.getCore n with ilast := c }).endCycle n

/-- A cycle whose issue is the trap that context `c` has to take, where the search comes to it. -/
def State.trapCycle (s : State) (n c : Nat) : State :=
  let t := s.landDue n
  if !t.reached n c then s
  else match t.boundaryTrap n c with
    | some t => t.takeBoundary n c
    | none => s

/-- DEFERRED_FAULT. -/
def execDeferredFault (n c : Nat) (s : State) : Host.Outcome State Fault Refusal :=
  event (if (s.dueFault n c).isNone then s else s.trapCycle n c)

/-- BUDGET. -/
def execBudget (n c : Nat) (s : State) : Host.Outcome State Fault Refusal :=
  event (if (s.dueFault n c).isSome || !(s.getCtx n c).overBudget then s else s.trapCycle n c)

end Sys2Proof.Machine
end

