-- ==== Sys2Proof/Machine/Barriers.lean ====
section
/-! DEFINITION. Barriers (08 R210 to R214). -/

namespace Sys2Proof.Machine

/-- A BAR instruction may name only an id that the launch record grants (R210). -/
def barrierId (s : State) (a : BitVec 5) : Except Stop Nat :=
  let id := (s.rg a).toNat
  let r := s.recOf s.core
  if r.baren = true ∧ r.barlo ≤ id ∧ id ≤ r.barhi ∧ id ≤ 255 then .ok id else .error (.trap s .range (s.rg a))

/-- What becomes of every context that waits in `barwait` on the object for a phase. -/
def State.wakeWaiters (s : State) (id : Nat) (become : Bool → BarPhase) : State :=
  let one (x : Ctx) : Ctx := match x.bar with
    | .wait i ph => if i = id then { x with bar := become ph } else x
    | _ => x
  { s with cores := s.cores.map fun e => (e.1, { e.2 with ctxs := e.2.ctxs.map fun f => (f.1, one f.2) }) }

/-- Waiters of an object that has been set anew or is broken fault BAROVER when they next issue (R211, R212). -/
def State.failWaiters (s : State) (id : Nat) : State := s.wakeWaiters id fun _ => .over id

/-- The object breaks (R212; 18 R369). -/
def State.breakBar (s : State) (id : Nat) : State := (s.setBar id { s.getBar id with brk := true, bad := false }).failWaiters id

/-- The launch that was granted a barrier. -/
def State.barLaunch (s : State) (id : Nat) : Option Nat :=
  (s.objs.find? fun e => match e.2.launch with
    | some l => decide (l.phase ≠ .over) && l.lrec.baren && decide (l.lrec.barlo ≤ id ∧ id ≤ l.lrec.barhi)
    | none => false).map (·.1)

/-- The network reads an object. One with an uncorrectable error becomes broken (18 R369). -/
def State.readBar (s : State) (id : Nat) : State :=
  if (s.getBar id).bad then
    let h := s.barLaunch id
    (s.breakBar id).postUeFree h (((h.bind s.launchOf).map (·.quay)).getD 0) 8
  else s

/-- `barinit` (R211). The rule gives its two faults no order: the id comes first (log entry 75). -/
def execBarinit (a b : BitVec 5) (s : State) : Host.Outcome State Fault Refusal :=
  issueIf (s.ctx == 0) (.barinit a b) (gids [a, b]) [] s fun s => do
    let id ← barrierId s a
    let n := (s.rg b).toNat
    trapIf (decide (n < 1 ∨ 65535 < n)) s .range (s.rg b)
    .ok ((s.setBar id { exp := BitVec.ofNat 16 n }).failWaiters id, .seq)

/-- `bararr` and `bardrop` (R212): one arrival is sent, of the sources read then (R196), and the context waits until the
network has performed it. The arrival is a release at package scope. -/
def arrive (i : Instr) (drop : Bool) (d a b : BitVec 5) (s : State) : Host.Outcome State Fault Refusal :=
  issue i (gids [a, b]) [gid d] s fun s => do
    let s ← s.publish
    let x := s.cur
    match x.bar with
    | .done next => .ok ((s.setCur { x with bar := .none }).wg d (bool32 next), .seq)
    | .over id => .error (.trap s .barover (BitVec.ofNat 32 id))
    | .sent .. => .error (.wait s)
    | _ => do
      let id ← barrierId s a
      if s.flagsPending s.core s.ctx || s.accessPending s.core s.ctx .pkg then .error (.wait s)
      else .error (.wait (s.setCur { x with bar := .sent id ((s.rg b).getLsbD 0) drop x.fflags }))

def execBararr (d a b : BitVec 5) (s : State) := arrive (.bararr d a b) false d a b s
def execBardrop (d a b : BitVec 5) (s : State) := arrive (.bardrop d a b) true d a b s

/-- The barrier after an arrival that it takes (R212). -/
def Barrier.take (x : Barrier) (drop : Bool) (flags : BitVec 5) : Barrier :=
  let y : Barrier := { x with acc := x.acc ||| flags, arr := x.arr + 1, drops := x.drops + if drop then 1 else 0 }
  if y.arr = y.exp then
    { y with rfl := y.acc, acc := 0, arr := 0, ph := !y.ph, exp := y.exp - BitVec.ofNat 16 y.drops, drops := 0 }
  else y

/-- The network takes an arrival; a release that it makes reaches the contexts that wait for its phase (R213). -/
def State.takeArrival (s : State) (id : Nat) (drop : Bool) (flags : BitVec 5) : State :=
  let y := s.getBar id
  let z := y.take drop flags
  let s := s.setBar id z
  if z.ph = y.ph then s else s.wakeWaiters id fun ph => if ph = z.ph then .freed z.rfl else .wait id ph

/-- The network performs the arrival that a context has sent (R212). -/
def State.barrierArrive (s : State) (n c : Nat) : State :=
  match (s.getCtx n c).bar with
  | .sent id phase drop flags =>
    let s := s.readBar id
    let y := s.getBar id
    let answer (s : State) (b : BarPhase) : State := s.setCtx n c { s.getCtx n c with bar := b }
    if y.brk ∨ phase ≠ y.ph ∨ y.exp = 0 then answer (s.breakBar id) (.over id)
    else answer (s.takeArrival id drop flags) (.done (!phase))
  | _ => s

/-- BARRIER_ARRIVAL. -/
def execBarrierArrival (n c : Nat) (s : State) : Host.Outcome State Fault Refusal := event (s.barrierArrive n c)

/-- `barwait` (R213). A release that has reached the waiting context ends the wait, whatever comes after it. -/
def execBarwait (d a b : BitVec 5) (s : State) : Host.Outcome State Fault Refusal :=
  issue (.barwait d a b) (gids [a, b]) [gid d] s fun s => do
    let s ← s.publish
    let lands (s : State) (f : BitVec 5) : State := (s.setCur { s.cur with bar := .none }).wg d (f.zeroExtend 32)
    match s.cur.bar with
    | .freed f => .ok (lands s f, .seq)
    | .over id => .error (.trap s .barover (BitVec.ofNat 32 id))
    | _ => do
      let id ← barrierId s a
      let s := s.readBar id
      let y := s.getBar id
      if y.brk then .error (.trap s .barover (BitVec.ofNat 32 id))
      else if y.ph = (s.rg b).getLsbD 0 then .ok (lands s y.rfl, .seq)
      else .error (.wait (s.setCur { s.cur with bar := .wait id ((s.rg b).getLsbD 0) }))

/-- The word of `bartest` (R214). -/
def barWord (y : Barrier) (exp : Bool) : W32 :=
  BitVec.ofNat 32 ((if y.brk then 2 ^ 31 else 0) + (if y.ph then 2 ^ 30 else 0) + y.rfl.toNat * 2 ^ 16
    + (if exp then y.exp else y.arr).toNat)

def execBartest (d a : BitVec 5) (exp : Bool) (s : State) : Host.Outcome State Fault Refusal :=
  issue (.bartest d a exp) (gids [a]) [gid d] s fun s => do
    let id ← barrierId s a
    let s := s.readBar id
    .ok (s.wg d (barWord (s.getBar id) exp), .seq)

end Sys2Proof.Machine
end

