-- ==== Sys2Proof/Machine/Bits.lean ====
section
/-! DEFINITION. Field instructions, the bit buffer and the header instructions (04 R99 to R102). -/

namespace Sys2Proof.Machine

/-- POS and min(WID, 32) of a field spec (R99). -/
def specPos (x : W32) : Nat := x.toNat % 64
def specWid (x : W32) : Nat := min (x.toNat / 256 % 64) 32

/-- u ← (x div 2^pos) mod 2^w (R99). -/
def takeField (x pos w : Nat) : Nat := x / 2 ^ pos % 2 ^ w

/-- Sign-extend a `w`-bit number from bit w − 1 (R99, R101). -/
def signField (u w : Nat) : W32 :=
  if 0 < w ∧ u.testBit (w - 1) then BitVec.ofInt 32 ((u : Int) - 2 ^ w) else BitVec.ofNat 32 u

/-- Replace bits [pos + w − 1 : pos], up to bit `top`, by the low bits of `x` (R99 `ins`, R102 `hpack`). -/
def putField (h x pos w top : Nat) : Nat :=
  let w' := min w (top + 1 - pos)
  if top < pos then h else h / 2 ^ (pos + w') * 2 ^ (pos + w') + (x % 2 ^ w') * 2 ^ pos + h % 2 ^ pos

def extOp (x y : W32) : W32 := signField (takeField x.toNat (specPos y) (specWid y)) (specWid y)
def extuOp (x y : W32) : W32 := BitVec.ofNat 32 (takeField x.toNat (specPos y) (specWid y))
def insOp (d x y : W32) : W32 := BitVec.ofNat 32 (putField d.toNat x.toNat (specPos y) (specWid y) 31)

def execExt (d a b : BitVec 5) (s : State) := opr (.ext d a b) d a b s extOp
def execExtu (d a b : BitVec 5) (s : State) := opr (.extu d a b) d a b s extuOp
def execIns (d a b : BitVec 5) (s : State) :=
  alu (.ins d a b) (gids [d, a, b]) d s fun s => insOp (s.rg d) (s.rg a) (s.rg b)

/-! ## The bit buffer (R100, R101) -/

/-- Bytes that a refill to `n` bits loads. -/
def refillBytes (fill n : Nat) : Nat := (n - fill + 7) / 8

/-- Refill to at least `n` bits with plain reads of local memory (R100), which pops that wait come before (log entry 62). -/
def State.refillBits (s : State) (n : Nat) : Except Stop State := do
  let c := s.cur
  waitIf (decide (c.bbFill < n) && s.popsHold s.core s.ctx) s
  let rec go : Nat → Ctx → Except Stop Ctx
    | 0, x => .ok x
    | k + 1, x =>
      match s.readLocal x.bbOff.toNat 1 (x.bbOff.zeroExtend 32) with
      | .ok bs => go k { x with bbData := BitVec.ofNat 64 (x.bbData.toNat + leNat bs * 2 ^ x.bbFill)
                                bbFill := x.bbFill + 8, bbOff := x.bbOff + 1 }
      | .error e => .error e
  (go (refillBytes c.bbFill n) c).map s.setCur

/-- Consume `k` bits (R101). -/
def Ctx.consumeBits (x : Ctx) (k : Nat) : Ctx := { x with bbData := x.bbData >>> k, bbFill := x.bbFill - k }

/-- n = min(g[a][5:0], 32) (R101). -/
def bitCount (x : W32) : Nat := min (x.toNat % 64) 32

/-- The next `n` bits of the buffer. -/
def Ctx.nextBits (x : Ctx) (n : Nat) : Nat := x.bbData.toNat % 2 ^ n

/-- `bget`, `bgetu` and `bpeek` (R101). -/
def bitRead (i : Instr) (d a : BitVec 5) (s : State) (signed keep : Bool) : Host.Outcome State Fault Refusal :=
  issue i (gids [a] ++ [bbId]) [gid d] s fun s => do
    let n := bitCount (s.rg a)
    let s ← s.refillBits n
    let v := s.cur.nextBits n
    let s := if keep then s else s.setCur (s.cur.consumeBits n)
    .ok (s.wg d (if signed then signField v n else BitVec.ofNat 32 v), .seq)

def execBget (d a : BitVec 5) (s : State) := bitRead (.bget d a) d a s true false
def execBgetu (d a : BitVec 5) (s : State) := bitRead (.bgetu d a) d a s false false
def execBpeek (d a : BitVec 5) (s : State) := bitRead (.bpeek d a) d a s false true

def execBbset (a : BitVec 5) (s : State) : Host.Outcome State Fault Refusal :=
  issue (.bbset a) (gids [a] ++ [bbId]) [] s fun s =>
    .ok (s.setCur { s.cur with bbOff := (s.rg a).truncate 17, bbData := 0, bbFill := 0 }, .seq)

/-- `bskip` (R101): a byte passed over whole is not read. -/
def execBskip (a : BitVec 5) (s : State) : Host.Outcome State Fault Refusal :=
  issue (.bskip a) (gids [a] ++ [bbId]) [] s fun s₀ =>
    let s := s₀
    let n := min ((s.rg a).toNat % 128) 64
    let c := s.cur
    if n ≤ c.bbFill then .ok (s.setCur (c.consumeBits n), .seq)
    else do
      let m := n - c.bbFill
      let s := s.setCur { c with bbOff := c.bbOff + BitVec.ofNat 17 (m / 8), bbData := 0, bbFill := 0 }
      if m % 8 = 0 then .ok (s, .seq)
      else do
        let s ← undo s₀ (s.refillBits 8)
        .ok (s.setCur (s.cur.consumeBits (m % 8)), .seq)

def execBalign (s : State) : Host.Outcome State Fault Refusal :=
  issue .balign [bbId] [] s fun s => .ok (s.setCur (s.cur.consumeBits (s.cur.bbFill % 8)), .seq)

/-! ## Headers (R102) -/

/-- The field spec of field `i` of a descriptor, or 0 (R102). -/
def hlayOp (bs : List Byte) (i : Nat) : W32 :=
  let ws := bs.map BitVec.toNat
  let pos := (ws.take i).sum
  let w := ws.getD i 0
  if 8 ≤ i ∨ ((ws.take (i + 1)).any fun x => decide (x = 0 ∨ 32 < x)) ∨ 64 < pos + w then 0
  else BitVec.ofNat 32 (w * 256 + pos)

/-- `hlay` (R102): its result has the latency of a local read; a park on it is a commit point (05 R118). -/
def execHlay (d a b : BitVec 5) (s : State) : Host.Outcome State Fault Refusal :=
  issue (.hlay d a b) (gids [a, b]) [gid d] s fun s => do
    let off := (s.rg a).toNat
    trapIf (decide (0x1FFF8 < off)) s .range (s.rg a)
    trapIf (off % 8 != 0) s .align (s.rg a)
    let bs ← s.readLocal off 8 (s.rg a)
    .ok (s.later 3 [(gid d, (hlayOp bs (s.rg b).toNat).zeroExtend 128)], .seq)

/-- H of a pair of g registers (R102). -/
def State.header (s : State) (r : BitVec 5) : Nat := (s.rgAt r 1).toNat * 2 ^ 32 + (s.rg r).toNat

/-- `hpack` (R102). With d = 0 the write to g0 is discarded. -/
def execHpack (d a b : BitVec 5) (s : State) : Host.Outcome State Fault Refusal :=
  issue (.hpack d a b) (ggroup d 2 ++ gids [a, b]) (ggroup d 2) s fun s =>
    let h := putField (s.header d) (s.rg a).toNat (specPos (s.rg b)) (specWid (s.rg b)) 63
    .ok ((s.wg d (BitVec.ofNat 32 h)).wg (d + 1) (BitVec.ofNat 32 (h / 2 ^ 32)), .seq)

def execHunpk (d a b : BitVec 5) (s : State) : Host.Outcome State Fault Refusal :=
  alu (.hunpk d a b) (ggroup a 2 ++ gids [b]) d s fun s =>
    BitVec.ofNat 32 (takeField (s.header a) (specPos (s.rg b)) (specWid (s.rg b)))

end Sys2Proof.Machine
end

