-- ==== Sys2Proof/Machine/Control.lean ====
section
/-! DEFINITION. Branches, jumps, calls, the link store and repeats (04 R103 to R111). -/

namespace Sys2Proof.Machine

/-! ## Targets (04 R103, R104) -/

/-- PC + 2·x over unbounded integers. -/
def State.rel (s : State) (x : Int) : Int := s.cur.pc.toNat + 2 * x

/-- A target must lie in 0x0_0000 to 0x1_FFFE (03 R63). -/
def State.checkTarget (s : State) (t : Int) : Except Stop Unit :=
  if t < 0 ∨ 0x1FFFE < t then .error (.trap s .range (BitVec.ofInt 32 t)) else .ok ()

/-- A taken transfer to a PC-relative target. -/
def State.branchTo (s : State) (x : Int) : Except Stop (State × Flow) := do
  s.checkTarget (s.rel x)
  .ok (s, .jump (BitVec.ofInt 17 (s.rel x)))

/-- BR (R103): a branch that is not taken never faults. -/
def branch (i : Instr) (a b : BitVec 5) (imm : BitVec 12) (s : State) (taken : W32 → W32 → Bool) :
    Host.Outcome State Fault Refusal :=
  issue i (gids [a, b]) [] s fun s => if taken (s.rg a) (s.rg b) then s.branchTo imm.toInt else .ok (s, .seq)

/-! ## The link store (04 R105 to R107) -/

/-- Address of a LINK_SPILL or LINK_LIMIT field, whose bits are [16:2]. -/
def linkAddr (f : BitVec 15) : Nat := f.toNat * 4

/-- Push a return address (R106). The spill store is made directly to local memory. -/
def State.pushLink (s : State) (x : Nat) : Except Stop State :=
  let c := s.cur
  if c.links.length < 8 then .ok (s.setCur { c with links := c.links ++ [BitVec.ofNat 18 x] })
  else if s.popsHold s.core s.ctx then .error (.wait s)
  else
    let top := linkAddr c.spillTop
    let v : W32 := BitVec.ofNat 32 top
    if linkAddr c.linkLimit ≤ top then .error (.trap s .linkovf v)
    else
      let ps := (partsOf (localKey s.core top) 4).map fun p => ({ key := p.1, len := p.2 } : Part)
      match s.checkParts .write [] ps with
      | .error (.ue k) => .error (.ue s k top v)
      | .error (.cause e) => .error (.trap s e v)
      | .error _ => .ok s
      | .ok _ =>
        let s := s.writeParts (leBytes 4 (c.links.headD 0).toNat) ps
        .ok (s.setCur { s.cur with links := c.links.drop 1 ++ [BitVec.ofNat 18 x], spillTop := c.spillTop + 1 })

/-- Pop a return address (R107). -/
def State.popLink (s : State) : Except Stop (Nat × State) :=
  let c := s.cur
  match c.links.getLast? with
  | some x =>
    if 0x1FFFE < x.toNat then .error (.trap s .range (x.zeroExtend 32))
    else .ok (x.toNat, s.setCur { c with links := c.links.dropLast })
  | none =>
    if c.spillBase.toNat < c.spillTop.toNat then do
      waitIf (s.popsHold s.core s.ctx) s
      let at_ := linkAddr c.spillTop - 4
      let bs ← s.readLocal at_ 4 (BitVec.ofNat 32 at_)
      let x := leNat bs
      if 0x1FFFE < x ∨ x % 2 = 1 then .error (.trap s .range (BitVec.ofNat 32 x))
      else .ok (x, s.setCur { c with spillTop := c.spillTop - 1 })
    else .error (.trap s .linkunf (BitVec.ofNat 32 (linkAddr c.spillTop)))

/-- Target of `jr` and `callr`, with its checks (R104). -/
def State.regTarget (s : State) (a : BitVec 5) (imm : BitVec 12) : Except Stop Off :=
  let t := s.rg a + imm32 imm
  if 0x1FFFE < t.toNat then .error (.trap s .range t)
  else if t.getLsbD 0 then .error (.trap s .align t) else .ok (t.truncate 17)

/-- `ret`, by its 32-bit or its compact word. -/
def retBody : Body := fun s => do
  let (x, s) ← s.popLink
  .ok (s, .jump (BitVec.ofNat 17 x))

def execBeq (a b : BitVec 5) (imm : BitVec 12) (s : State) := branch (.beq a b imm) a b imm s fun x y => decide (x = y)
def execBne (a b : BitVec 5) (imm : BitVec 12) (s : State) := branch (.bne a b imm) a b imm s fun x y => !decide (x = y)
def execBlt (a b : BitVec 5) (imm : BitVec 12) (s : State) := branch (.blt a b imm) a b imm s fun x y => decide (sgn x < sgn y)
def execBge (a b : BitVec 5) (imm : BitVec 12) (s : State) := branch (.bge a b imm) a b imm s fun x y => !decide (sgn x < sgn y)
def execBltu (a b : BitVec 5) (imm : BitVec 12) (s : State) := branch (.bltu a b imm) a b imm s fun x y => decide (x.toNat < y.toNat)
def execBgeu (a b : BitVec 5) (imm : BitVec 12) (s : State) := branch (.bgeu a b imm) a b imm s fun x y => !decide (x.toNat < y.toNat)

def execJ (imm : BitVec 25) (s : State) : Host.Outcome State Fault Refusal :=
  issue (.j imm) [] [] s fun s => s.branchTo imm.toInt

def execCall (imm : BitVec 25) (s : State) : Host.Outcome State Fault Refusal :=
  issue (.call imm) [linkId] [] s fun s => do
    s.checkTarget (s.rel imm.toInt)
    let t ← s.pushLink (s.cur.pc.toNat + 4)
    .ok (t, .jump (BitVec.ofInt 17 (s.rel imm.toInt)))

def execJr (a : BitVec 5) (imm : BitVec 12) (s : State) : Host.Outcome State Fault Refusal :=
  issue (.jr a imm) (gids [a]) [] s fun s => do
    let t ← s.regTarget a imm
    .ok (s, .jump t)

def execCallr (a : BitVec 5) (imm : BitVec 12) (s : State) : Host.Outcome State Fault Refusal :=
  issue (.callr a imm) (gids [a] ++ [linkId]) [] s fun s => do
    let t ← s.regTarget a imm
    let s ← s.pushLink (s.cur.pc.toNat + 4)
    .ok (s, .jump t)

def execRet (s : State) : Host.Outcome State Fault Refusal := issue .ret [linkId] [] s retBody

/-! ## Repeats (04 R108) -/

/-- The fault that the fetch of a halfword meets (03 R63). -/
def State.fetchFails (s : State) (off : Nat) : Option Stop :=
  (s.fetchStop s.core s.ctx off).map fun c =>
    let key := localKey s.core off
    if c = .ue then .ue s (((s.badGranule key 2).map (· * 8)).getD key) off (s.cur.pc.zeroExtend 32)
    else .trap s c (s.cur.pc.zeroExtend 32)

/-- Length of the instruction whose halfword stands at a PC, or the fetch fault of 03 R63 that reading it meets, whose
TRAP_VAL is the PC of the issuing instruction, also where a repeat reads its end (log entry 51). -/
def State.lengthAt (s : State) (pc : Nat) : Except Stop Nat :=
  match s.fetchFails pc with
  | some e => .error e
  | none =>
    if isCompact (leNat [s.fetchByte s.core s.ctx pc, s.fetchByte s.core s.ctx (pc + 1)]) then .ok 2
    else if pc = 0x1FFFE then .error (.trap s .range (s.cur.pc.zeroExtend 32)) else .ok 4

/-- Start a repeat of `n` passes that ends at `le` (R108). A count of 0 leaves the body out. -/
def startRepeat (n : W32) (le : Nat) : Body := fun s =>
  if 0x1FFFE < le then .error (.trap s .range (BitVec.ofNat 32 le))
  else
    let set (s : State) : State :=
      s.setCur { s.cur with rc := n, ls := BitVec.ofNat 16 ((s.cur.pc.toNat + 4) / 2), le := BitVec.ofNat 16 (le / 2) }
    if n = 0 then do
      let k ← s.lengthAt le
      if le + k = 0x20000 then .error (.trap s .range 0x20000)
      else .ok (set s, .jump (BitVec.ofNat 17 (le + k)))
    else .ok (set s, .seq)

def execRep (a : BitVec 5) (s : State) : Host.Outcome State Fault Refusal :=
  issue (.rep a) (gids [a]) [] s fun s => startRepeat (s.rg a) (s.cur.pc.toNat + 4) s
def execRepi (n : BitVec 12) (s : State) : Host.Outcome State Fault Refusal :=
  issue (.repi n) [] [] s fun s => startRepeat (n.zeroExtend 32) (s.cur.pc.toNat + 4) s
def execLoop (a : BitVec 5) (imm : BitVec 12) (s : State) : Host.Outcome State Fault Refusal :=
  issue (.loop a imm) (gids [a]) [] s fun s => startRepeat (s.rg a) (s.cur.pc.toNat + 2 * imm.toNat) s
def execLoopi (n : BitVec 10) (imm : BitVec 12) (s : State) : Host.Outcome State Fault Refusal :=
  issue (.loopi n imm) [] [] s fun s => startRepeat (n.zeroExtend 32) (s.cur.pc.toNat + 2 * imm.toNat) s

end Sys2Proof.Machine
end

