-- ==== Sys2Proof/Machine/Compact.lean ====
section
/-! DEFINITION. Compact forms, each with the effect of its 32-bit equivalent (03 R66, 04 R112), and words that name no
instruction (03 R78). -/

namespace Sys2Proof.Machine

/-- A compact operation of g[d] and g[b]. -/
def compact2 (i : Instr) (d b : BitVec 5) (s : State) (f : W32 → W32 → W32) : Host.Outcome State Fault Refusal :=
  alu i (gids [d, b]) d s fun s => f (s.rg d) (s.rg b)

/-- A shift of g[d] by an amount of 0 to 31. -/
def compactShift (i : Instr) (d n : BitVec 5) (op : ShiOp) (s : State) : Host.Outcome State Fault Refusal :=
  alu i (gids [d]) d s fun s => shiOp op n (s.rg d)

def execHMv (d b : BitVec 5) (s : State) := alu (.hMv d b) (gids [b]) d s fun s => s.rg b
def execHLi (d imm : BitVec 5) (s : State) := alu (.hLi d imm) [] d s fun _ => imm.signExtend 32
def execHAddi (d imm : BitVec 5) (s : State) := alu (.hAddi d imm) (gids [d]) d s fun s => s.rg d + imm.signExtend 32
def execHAdd (d b : BitVec 5) (s : State) := compact2 (.hAdd d b) d b s fun x y => x + y
def execHSub (d b : BitVec 5) (s : State) := compact2 (.hSub d b) d b s fun x y => x - y
def execHAnd (d b : BitVec 5) (s : State) := compact2 (.hAnd d b) d b s fun x y => x &&& y
def execHOr (d b : BitVec 5) (s : State) := compact2 (.hOr d b) d b s fun x y => x ||| y
def execHXor (d b : BitVec 5) (s : State) := compact2 (.hXor d b) d b s fun x y => x ^^^ y
def execHShl (d n : BitVec 5) (s : State) := compactShift (.hShl d n) d n .sll s
def execHShr (d n : BitVec 5) (s : State) := compactShift (.hShr d n) d n .srl s
def execHAsr (d n : BitVec 5) (s : State) := compactShift (.hAsr d n) d n .sra s
def execHNeg (d b : BitVec 5) (s : State) := alu (.hNeg d b) (gids [b]) d s fun s => 0 - s.rg b

def execHLdw (d b : BitVec 5) (s : State) : Host.Outcome State Fault Refusal :=
  issue (.hLdw d b) (gids [b]) [gid d] s (loadG 4 false d b 0)
def execHStw (d b : BitVec 5) (s : State) : Host.Outcome State Fault Refusal :=
  issue (.hStw d b) (gids [d, b]) [] s (storeG 4 d b 0)

/-- A compact branch: the target is PC + 2 + 2·imm5. -/
def compactBranch (i : Instr) (d imm : BitVec 5) (s : State) (taken : W32 → Bool) : Host.Outcome State Fault Refusal :=
  issue i (gids [d]) [] s fun s => if taken (s.rg d) then s.branchTo (imm.toNat + 1) else .ok (s, .seq)

def execHBz (d imm : BitVec 5) (s : State) := compactBranch (.hBz d imm) d imm s fun x => decide (x = 0)
def execHBnz (d imm : BitVec 5) (s : State) := compactBranch (.hBnz d imm) d imm s fun x => !decide (x = 0)
def execHJ (imm : BitVec 10) (s : State) : Host.Outcome State Fault Refusal :=
  issue (.hJ imm) [] [] s fun s => s.branchTo imm.toInt

def execHRet (s : State) : Host.Outcome State Fault Refusal := issue .hRet [linkId] [] s retBody
def execHDone (s : State) : Host.Outcome State Fault Refusal := issueIf (s.ctx != 0) .hDone [] [] s endBody
def execHCommit (s : State) : Host.Outcome State Fault Refusal := issue .hCommit [] [] s commitBody
def execHNop (s : State) : Host.Outcome State Fault Refusal := issue .hNop [] [] s fun s => .ok (s, .seq)

/-- A word that names no instruction raises ILL (03 R78). -/
def execIllegalInstruction (w : W32) (s : State) : Host.Outcome State Fault Refusal :=
  .next (State.stopped (.illegalInstruction w) (.ill s))

end Sys2Proof.Machine
end

