-- ==== Sys2Proof/Machine/Counted.lean ====
section
/-! DEFINITION. Counted lines: `stc`, `rcopen`, `rcclose`, `rcdec`, `rcpeek` (05 R124 to R128). -/

namespace Sys2Proof.Machine

/-- `stc` (R124). A task checks it at issue and holds it (R117); elsewhere it is performed, or waits for a way. -/
def execStc (scope : Scope) (d : BitVec 4) (a : BitVec 3) (b : BitVec 5) (post : Bool) (s : State) :
    Host.Outcome State Fault Refusal :=
  issue (.stc scope d a b post) (vgroup d ++ ptrIds a post ++ [gid b]) (ptrDst a post) s fun s => do
    let P := s.rp a
    let line := s.groupLine d
    if s.inTask then do
      let (place, s') ← liftFail s a.toNat P (s.resolve s.core P 64 1 .counted .group)
      s'.stcChecks P place (s.rg b)
      match place with
      | .mem ps =>
        match s'.checkStates .counted (s'.decsOf s.core s.cur) ps with
        | some c => .error (.trap s c (ptrLow P))
        | none => do
          let s' ← s'.hold [.stc P line (s.rg b).toNat (some scope)]
          .ok (s'.bump a post, .seq)
      | _ => do
        let s' ← s'.hold [.stc P line (s.rg b).toNat (some scope)]
        .ok (s'.bump a post, .seq)
    else do
      releaseWait s true scope
      let s' ← s.doStc s.core s.ctx a.toNat P line (s.rg b)
      .ok (s'.bump a post, .seq)

/-! ## Regions (R125, R126) -/

/-- A line that a far region registers: LPDDR 6 alone (R125; 09 R245). -/
def State.openFar (s : State) (via : Via) (P : W64) (va : Nat) : Except Stop (Nat × State) :=
  match s.translate via s.me.spaceId.toNat va .open_ with
  | .ok (.mem key _) s' => if countedKey key then .ok (key, s') else .error (.trap s .range (ptrLow P))
  | .ok (.ring _) _ => .error (.trap s .range (ptrLow P))
  | .miss m _ => .error (.miss s m (ptrLow P))
  | .ue key _ => .error (.ue s key (ueAddr P) (ptrLow P))

/-- What a region base may name: own local memory, SCRATCH banks of the own basin, far memory (R125). A far base is
translated here, before the alignment is checked (log entry 49). -/
def State.regionTarget (s : State) (via : Via) (P : W64) : Except Stop Unit :=
  let off := ptrOff P
  let bad : Except Stop Unit := .error (.trap s .range (ptrLow P))
  match ptrKind P with
  | 0 => .ok ()
  | 1 =>
    if ptrUnit P = 8 then
      if ptrBasin P = basinOf s.core ∧ off / 131072 < 12 ∧ s.mode (ptrBasin P) (off / 131072) = 1 then .ok () else bad
    else if ptrBasin P * 8 + ptrUnit P = s.core ∧ ptrUnit P < 8 then .ok () else bad
  | _ => (s.openFar via P off).map fun _ => ()

/-- Parts of a virtual range by 512 KiB page. -/
def pageParts : Nat → Nat → Nat → List (Nat × Nat)
  | 0, _, _ => []
  | fuel + 1, a, n =>
    let k := min n (2 ^ 19 - a % 2 ^ 19)
    if n = 0 then [] else (a, k) :: pageParts fuel (a + k) (n - k)

/-- Line ranges of a far region, page by page (R125). -/
def State.farRanges (s : State) (via : Via) (P : W64) :
    List (Nat × Nat) → List (Nat × Nat) → Except Stop (List (Nat × Nat) × State)
  | [], acc => .ok (acc, s)
  | (va, n) :: t, acc => do
    let (key, s) ← s.openFar via P va
    s.farRanges via P t (acc ++ [(key / 64, key / 64 + n / 64)])

/-- The line ranges of a region that lies wholly in its target (R125). -/
def State.regionRanges (s : State) (via : Via) (P : W64) (len : Nat) : Except Stop (List (Nat × Nat) × State) :=
  let off := ptrOff P
  let one (key : Nat) : List (Nat × Nat) := [(key / 64, key / 64 + len / 64)]
  let bad : Except Stop (List (Nat × Nat) × State) := .error (.trap s .range (ptrLow P))
  match ptrKind P with
  | 0 => if 131072 < off + len then bad else .ok (one (localKey s.core off), s)
  | 1 =>
    if ptrUnit P = 8 then
      let banks := (List.range ((off + len + 131071) / 131072 - off / 131072)).map (off / 131072 + ·)
      if 12 * 131072 < off + len ∨ banks.any fun k => !decide (s.mode (ptrBasin P) k = 1) then bad
      else .ok (one (bankKey (ptrBasin P) 0 off), s)
    else if 131072 < off + len then bad else .ok (one (localKey s.core off), s)
  | _ => if 2 ^ 48 < off + len then bad else s.farRanges via P (pageParts (len / 2 ^ 19 + 2) off len) []

def rangesMeet (x y : List (Nat × Nat)) : Bool := x.any fun a => y.any fun b => decide (a.1 < b.2 ∧ b.1 < a.2)

/-- The choice of a far access; an access elsewhere needs none. -/
def State.viaOf (s : State) (P : W64) : Via × State :=
  if ptrKind P = 2 then s.via (stationOf (basinOf s.core)) else ({ station := 0, keep := false }, s)

/-- `rcopen` (R125), in the order of its checks. Of several open regions that the range meets TRAP_VAL names the lowest
slot (log entry 50). -/
def execRcopen (n : BitVec 3) (a : BitVec 3) (b : BitVec 5) (policy : RcPolicy) (s : State) :
    Host.Outcome State Fault Refusal :=
  issueIf (s.ctx == 0) (.rcopen n a b policy) [pid a, gid b] [] s fun s => do
    let P := s.rp a
    let len := s.rg b
    releaseWait s true .pkg
    match ptrCheck (s.recOf s.core) P with
    | some c => .error (.trap s c (a.zeroExtend 32))
    | none => do
      let (via, sv) := s.viaOf P
      s.regionTarget via P
      trapIf (ptrOff P % 64 != 0) s .align (ptrLow P)
      trapIf (len == 0 || len.toNat % 64 != 0) s .range len
      let (ranges, s') ← undo s (sv.regionRanges via P len.toNat)
      trapIf (mget none s.me.regions n.toNat).isSome s .range (n.zeroExtend 32)
      match s.me.regions.find? fun e => (e.2.map fun r => rangesMeet r.ranges ranges).getD false with
      | some e => .error (.trap s .range (BitVec.ofNat 32 e.1))
      | none =>
        let fp := match policy with
          | .launch => (s.recOf s.core).policyFault
          | .event => false
          | .fault => true
        let r : Region := { base := P, len := len.toNat, faultPolicy := fp, ranges := ranges }
        .ok (s'.setMe { s'.me with regions := mset none s'.me.regions n.toNat (some r) }, .seq)

/-- The lines of the ranges that are counted or dropped, rising. -/
def State.countedLines (s : State) (rs : List (Nat × Nat)) : List Nat :=
  let hit (lk : Nat) : Bool := rs.any fun r => decide (r.1 ≤ lk ∧ lk < r.2)
  (s.lines.filter fun e => hit e.1).map (·.1) ++ (s.far.filter fun e => hit e.1 && e.2.pinned).map (·.1)

/-- Close every line of a region (R126): how many were still counted, and the sum of their counts. -/
def State.closeLines (s : State) (rs : List (Nat × Nat)) : Nat × Nat × State :=
  (s.countedLines rs).foldl (fun a lk =>
    match a.2.2.lineState lk with
    | .counted n => (a.1 + 1, a.2.1 + n, a.2.2.closeLine lk)
    | _ => (a.1, a.2.1, a.2.2.closeLine lk)) (0, 0, s)

/-- Close region `i` of core `n`: lines, and the state with its slot free and the event posted (R126). -/
def State.closeRegion (s : State) (n i : Nat) (r : Region) : Nat × State :=
  let (lines, reads, s) := s.closeLines r.ranges
  let s := s.setCore n { s.getCore n with regions := mset none (s.getCore n).regions i none }
  if lines = 0 then (0, s)
  else (lines, s.postLaunch (s.handleOf n) (mkRecord 0x05 .underread (s.recOf n).lid 0 n false
    (BitVec.ofNat 32 i) (BitVec.ofNat 32 lines) (BitVec.ofNat 32 reads) 0))

/-- `rcclose` (R126), a release (10 R272): with policy fault, UNDERREAD comes after every other effect. -/
def execRcclose (d : BitVec 5) (n : BitVec 3) (s : State) : Host.Outcome State Fault Refusal :=
  issueIf (s.ctx == 0) (.rcclose d n) [] [gid d] s fun s => do
    releaseWait s true .pkg
    match mget none s.me.regions n.toNat with
    | none => .ok (s.wg d (BitVec.allOnes 32), .seq)
    | some r =>
      let (lines, s) := s.closeRegion s.core n.toNat r
      let s := s.wg d (BitVec.ofNat 32 lines)
      if 0 < lines ∧ r.faultPolicy = true then .error (.trap s .underread (BitVec.ofNat 32 lines)) else .ok (s, .seq)

/-- `rcdec` (R127). -/
def execRcdec (rel : Bool) (scope : Scope) (a : BitVec 3) (post : Bool) (s : State) : Host.Outcome State Fault Refusal :=
  issue (.rcdec rel scope a post) (ptrIds a post) (ptrDst a post) s fun s => do
    let P := s.rp a
    if s.inTask then do
      let (place, s') ← liftFail s a.toNat P (s.resolve s.core P 1 1 .dec)
      match place with
      | .mem ps => do
        liftFail s a.toNat P (s'.checkParts .dec (s'.decsOf s.core s.cur) ps)
        let s' ← s'.hold [.decr P (ptrLow P) (if rel then some scope else none)]
        .ok (s'.bump a post, .seq)
      | _ => .error (.trap s .range (ptrLow P))
    else do
      releaseWait s rel scope
      let s' ← s.doDec s.core a.toNat P
      .ok (s'.bump a post, .seq)

/-- The value of R115 for `rcpeek`. -/
def peekValue : LineState → W32
  | .plain => 0
  | .counted n => BitVec.ofNat 32 n
  | .dropped => 0x100

/-- The result of `rcpeek`: a local one lands 3 cycles later, any other at a later step (01 R25). A park on it is a commit
point (05 R118). -/
def State.laterPeek (s : State) (local_ : Bool) (regs : List (Nat × W128)) : State :=
  s.setCur (s.cur.pendReg regs none (if local_ then some (s.me.cyc + 3) else none) false)

/-- `rcpeek` (R128): steps 1, 2 and 4 of R113 alone. -/
def execRcpeek (d : BitVec 5) (a : BitVec 3) (s : State) : Host.Outcome State Fault Refusal :=
  issue (.rcpeek d a) [pid a] [gid d] s fun s => do
    let P := s.rp a
    let (place, s') ← liftFail s a.toNat P (s.resolve s.core P 1 1 .peek)
    match place with
    | .mem ps =>
      let st := s'.seenState (s'.decsOf s.core s.cur) ((ps.head?.map Part.key).getD 0 / 64)
      .ok (s'.laterPeek (ownLocal s.core ps) [(gid d, (peekValue st).zeroExtend 128)], .seq)
    | _ => .error (.trap s .range (ptrLow P))

end Sys2Proof.Machine
end

