-- ==== Sys2Proof/Machine/Flags.lean ====
section
/-! DEFINITION. Numbers and their flags: binary32 and BF16 with exact values and one rounding (02 R47 to R50), E8M4
scales and the Q8B4 quantiser (R41, R45), MX8 (R46), T5 bytes (R39) and the Spate generator (R56). -/

namespace Sys2Proof.Machine

/-! ## Flags (R50) -/

abbrev Flags := BitVec 5
def flagNV : Flags := 0b00001#5
def flagDZ : Flags := 0b00010#5
def flagOF : Flags := 0b00100#5
def flagUF : Flags := 0b01000#5
def flagNX : Flags := 0b10000#5

def orFlags (fs : List Flags) : Flags := fs.foldl (· ||| ·) 0

/-- Rounding modes of FRM.MODE (R50). -/
inductive Rounding where
  | rne | rdn | rup | rtz
deriving DecidableEq, Repr

def roundingOf (frm : BitVec 2) : Rounding :=
  match frm.toNat with
  | 0 => .rne | 1 => .rdn | 2 => .rup | _ => .rtz

/-! ## Integer rounding -/

/-- rdn(n/d). -/
def rdnDiv (n : Int) (d : Nat) : Int := n / (d : Int)

/-- rne(n/d): to nearest, ties to even. -/
def rneDiv (n : Int) (d : Nat) : Int :=
  let q := rdnDiv n d
  let r := 2 * (n - q * d)
  if r < d then q else if (d : Int) < r then q + 1 else if q % 2 = 0 then q else q + 1

/-- n·2^e rounded by `f`, which rounds a quotient. -/
def scaleRound (f : Int → Nat → Int) (n : Int) (e : Int) : Int :=
  if 0 ≤ e then n * 2 ^ e.toNat else f n (2 ^ (-e).toNat)

def clampInt (lo hi x : Int) : Int := if x < lo then lo else if hi < x then hi else x

/-- The low `w` bits of an integer. -/
def wrapNat (w : Nat) (x : Int) : Nat := (x % (2 ^ w : Nat)).toNat

/-- Two's complement reading of `w` bits. -/
def signedNat (w n : Nat) : Int := if n < 2 ^ (w - 1) then n else (n : Int) - (2 ^ w : Nat)

/-! ## Exact binary numbers: n·2^e -/

structure Dyadic where
  n : Int
  e : Int
deriving DecidableEq, Repr

/-- The numerators of two numbers over one exponent. -/
def Dyadic.align (x y : Dyadic) : Int × Int × Int :=
  let e := min x.e y.e
  (x.n * 2 ^ (x.e - e).toNat, y.n * 2 ^ (y.e - e).toNat, e)

def Dyadic.add (x y : Dyadic) : Dyadic := let (a, b, e) := x.align y; { n := a + b, e := e }
def Dyadic.mul (x y : Dyadic) : Dyadic := { n := x.n * y.n, e := x.e + y.e }
def Dyadic.lt (x y : Dyadic) : Bool := let (a, b, _) := x.align y; decide (a < b)
def Dyadic.same (x y : Dyadic) : Bool := let (a, b, _) := x.align y; decide (a = b)
def Dyadic.abs (x : Dyadic) : Dyadic := { x with n := x.n.natAbs }
def Dyadic.neg (x : Dyadic) : Dyadic := { x with n := -x.n }

/-- A number times 2^k, rounded to an integer by `f`. -/
def Dyadic.toInt (f : Int → Nat → Int) (x : Dyadic) (k : Int := 0) : Int := scaleRound f x.n (x.e + k)

/-- x / y as a fraction with a positive denominator, for y > 0. -/
def Dyadic.frac (x y : Dyadic) : Int × Nat :=
  let (a, b, _) := x.align y
  (a, b.toNat)

/-! ## Formats and rounding (R48) -/

/-- A floating format by its precision; BF16 and binary32 share the exponent range. -/
structure FpFormat where
  p : Nat
deriving DecidableEq, Repr

def fp32 : FpFormat := { p := 24 }
def bf16 : FpFormat := { p := 8 }

def FpFormat.qmin (f : FpFormat) : Int := -125 - f.p
def FpFormat.qmax (f : FpFormat) : Int := 128 - f.p
/-- Bits below the sign. -/
def FpFormat.body (f : FpFormat) : Nat := f.p + 7
def FpFormat.signBit (f : FpFormat) (neg : Bool) : Nat := if neg then 2 ^ f.body else 0
def FpFormat.inf (f : FpFormat) (neg : Bool) : Nat := f.signBit neg + 255 * 2 ^ (f.p - 1)
def FpFormat.maxFinite (f : FpFormat) (neg : Bool) : Nat := f.inf neg - 1
/-- The canonical NaN (R48). -/
def FpFormat.nan (f : FpFormat) : Nat := 255 * 2 ^ (f.p - 1) + 2 ^ (f.p - 2)

/-- Bits of a positive number; 0 for 0. -/
def bitLen (n : Nat) : Nat := if n = 0 then 0 else Nat.log2 n + 1

/-- Whether a magnitude whose truncation is `m` rounds up: `rem` of `unit` left over, with more below when `sticky`. -/
def roundsUp (r : Rounding) (neg : Bool) (m rem unit : Nat) (sticky : Bool) : Bool :=
  let inexact := rem != 0 || sticky
  match r with
  | .rne => decide (unit < 2 * rem) || (decide (unit = 2 * rem) && (sticky || decide (m % 2 = 1)))
  | .rdn => neg && inexact
  | .rup => !neg && inexact
  | .rtz => false

/-- A magnitude m·2^e, more below when `sticky`, rounded to a multiple of 2^q: the multiple and whether it is inexact. -/
def roundAt (r : Rounding) (neg : Bool) (m : Nat) (e q : Int) (sticky : Bool) : Nat × Bool :=
  if q ≤ e then (m * 2 ^ (e - q).toNat, sticky)
  else
    let unit := 2 ^ (q - e).toNat
    let t := m / unit
    let rem := m % unit
    (t + (if roundsUp r neg t rem unit sticky then 1 else 0), rem != 0 || sticky)

/-- Overflow (R48). -/
def FpFormat.overflow (f : FpFormat) (r : Rounding) (neg : Bool) : Nat × Flags :=
  (match r with
   | .rne => f.inf neg
   | .rtz => f.maxFinite neg
   | .rdn => if neg then f.inf neg else f.maxFinite neg
   | .rup => if neg then f.maxFinite neg else f.inf neg, flagOF ||| flagNX)

/-- Round the magnitude m·2^e to the format (R48): its bits and flags. With `sticky`, m has more bits than the
precision. Tininess is detected after rounding. -/
def FpFormat.round (f : FpFormat) (r : Rounding) (neg : Bool) (m : Nat) (e : Int) (sticky : Bool := false) : Nat × Flags :=
  if m = 0 ∧ !sticky then (f.signBit neg, 0)
  else
    let q' : Int := bitLen m + e - f.p
    let q := max q' f.qmin
    let (t, inexact) := roundAt r neg m e q sticky
    let (t, q) := if t = 2 ^ f.p then (2 ^ (f.p - 1), q + 1) else (t, q)
    let free := (roundAt r neg m e q' sticky).1
    let tiny := decide (bitLen m + e < -126 ∨ (bitLen m + e = -126 ∧ free < 2 ^ f.p))
    if f.qmax < q then f.overflow r neg
    else
      (f.signBit neg + (q - f.qmin).toNat * 2 ^ (f.p - 1) + t,
       (if inexact then flagNX else 0) ||| (if inexact && tiny then flagUF else 0))

/-! ## Values of binary32 -/

inductive FpVal where
  | nan (signalling : Bool)
  | inf (neg : Bool)
  | fin (neg : Bool) (m : Nat) (e : Int)
deriving DecidableEq, Repr

/-- The value of a binary32 pattern. A BF16 pattern is read as the upper half of one (R48). -/
def fpVal (b : Nat) : FpVal :=
  let neg := b.testBit 31
  let ex : Nat := b / 2 ^ 23 % 256
  let m : Nat := b % 2 ^ 23
  if ex = 255 then (if m = 0 then .inf neg else .nan (!m.testBit 22))
  else if ex = 0 then .fin neg m (-149)
  else .fin neg (m + 2 ^ 23) (ex - 150)

def FpVal.isNan : FpVal → Bool
  | .nan _ => true
  | _ => false
def FpVal.isSnan : FpVal → Bool
  | .nan s => s
  | _ => false
def FpVal.isZero : FpVal → Bool
  | .fin _ 0 _ => true
  | _ => false
def FpVal.isInf : FpVal → Bool
  | .inf _ => true
  | _ => false
def FpVal.neg : FpVal → Bool
  | .nan _ => false
  | .inf n => n
  | .fin n _ _ => n

/-- The exact value of a finite number. -/
def FpVal.dyadic : FpVal → Dyadic
  | .fin neg m e => { n := if neg then -(m : Int) else m, e := e }
  | _ => { n := 0, e := 0 }

def nvIf (b : Bool) : Flags := if b then flagNV else 0
/-- The canonical NaN with NV for a signalling operand or an invalid operation (R48). -/
def nanOf (xs : List FpVal) (invalid : Bool := false) : Nat × Flags := (fp32.nan, nvIf (invalid || xs.any FpVal.isSnan))

/-- Round an exact value to binary32; an exact zero takes the given sign. -/
def roundDyadic (f : FpFormat) (r : Rounding) (x : Dyadic) (zeroNeg : Bool) : Nat × Flags :=
  if x.n = 0 then (f.signBit zeroNeg, 0) else f.round r (decide (x.n < 0)) x.n.natAbs x.e

/-- Sign of an exact zero sum (IEEE 754). -/
def zeroSum (r : Rounding) (a b : Bool) : Bool := if a = b then a else decide (r = .rdn)

/-! ## Arithmetic of binary32 (06 R146) -/

def fAdd (r : Rounding) (x y : Nat) : Nat × Flags :=
  let a := fpVal x; let b := fpVal y
  if a.isNan || b.isNan then nanOf [a, b]
  else match a, b with
    | .inf s, .inf t => if s = t then (fp32.inf s, 0) else nanOf [] true
    | .inf s, _ => (fp32.inf s, 0)
    | _, .inf t => (fp32.inf t, 0)
    | _, _ => roundDyadic fp32 r (a.dyadic.add b.dyadic) (zeroSum r a.neg b.neg)

/-- Change the sign of a pattern. -/
def fNegBits (x : Nat) : Nat := x ^^^ 2 ^ 31

/-- x − y = x + (−y); a NaN stays one. -/
def fSub (r : Rounding) (x y : Nat) : Nat × Flags := fAdd r x (fNegBits y)

def fMul (r : Rounding) (x y : Nat) : Nat × Flags :=
  let a := fpVal x; let b := fpVal y
  let s := a.neg != b.neg
  if a.isNan || b.isNan then nanOf [a, b]
  else if a.isInf || b.isInf then (if a.isZero || b.isZero then nanOf [] true else (fp32.inf s, 0))
  else roundDyadic fp32 r (a.dyadic.mul b.dyadic) s

/-- x·y + z, rounded once. 0·∞ is invalid whatever z holds (06 R146). -/
def fFma (r : Rounding) (x y z : Nat) : Nat × Flags :=
  let a := fpVal x; let b := fpVal y; let c := fpVal z
  let s := a.neg != b.neg
  let bad := (a.isInf && b.isZero) || (a.isZero && b.isInf)
  if a.isNan || b.isNan || c.isNan then nanOf [a, b, c] bad
  else if bad then nanOf [] true
  else if a.isInf || b.isInf then
    (if c.isInf && c.neg != s then nanOf [] true else (fp32.inf s, 0))
  else match c with
    | .inf t => (fp32.inf t, 0)
    | _ => roundDyadic fp32 r ((a.dyadic.mul b.dyadic).add c.dyadic) (zeroSum r s c.neg)

/-- x < y; false with a NaN. −0 equals +0. -/
def FpVal.lt (a b : FpVal) : Bool :=
  match a, b with
  | .nan _, _ => false
  | _, .nan _ => false
  | .inf s, .inf t => s && !t
  | .inf s, _ => s
  | _, .inf t => !t
  | _, _ => a.dyadic.lt b.dyadic
def FpVal.eq (a b : FpVal) : Bool := !a.isNan && !b.isNan && !a.lt b && !b.lt a

def fCeq (x y : Nat) : Bool × Flags :=
  let a := fpVal x; let b := fpVal y
  (a.eq b, nvIf (a.isSnan || b.isSnan))
def fClt (x y : Nat) : Bool × Flags :=
  let a := fpVal x; let b := fpVal y
  (a.lt b, nvIf (a.isNan || b.isNan))
def fCle (x y : Nat) : Bool × Flags :=
  let a := fpVal x; let b := fpVal y
  (a.lt b || a.eq b, nvIf (a.isNan || b.isNan))

/-- `vfmin` and `vfmax` (06 R147), with −0 below +0. -/
def fMinMax (wantMax : Bool) (x y : Nat) : Nat × Flags :=
  let a := fpVal x; let b := fpVal y
  let below := a.lt b || (a.eq b && a.neg && !b.neg)
  let v := if a.isNan && b.isNan then fp32.nan else if a.isNan then y else if b.isNan then x
    else if below = wantMax then y else x
  (v, nvIf (a.isSnan || b.isSnan))

/-- 1/x (06 R149). -/
def fRcp (r : Rounding) (x : Nat) : Nat × Flags :=
  match fpVal x with
  | .nan s => (fp32.nan, nvIf s)
  | .inf s => (fp32.signBit s, 0)
  | .fin s 0 _ => (fp32.inf s, flagDZ)
  | .fin s m e =>
    let k := bitLen m + 30
    fp32.round r s (2 ^ k / m) (-(k : Int) - e) (2 ^ k % m != 0)

/-- ⌊√n⌋ from bit `i` downwards. -/
def isqrtFrom (n : Nat) : Nat → Nat → Nat
  | 0, r => r
  | i + 1, r => isqrtFrom n i (if (r + 2 ^ i) * (r + 2 ^ i) ≤ n then r + 2 ^ i else r)

/-- 1/√x (06 R149). -/
def fRsq (r : Rounding) (x : Nat) : Nat × Flags :=
  match fpVal x with
  | .nan s => (fp32.nan, nvIf s)
  | .inf s => if s then (fp32.nan, flagNV) else (0, 0)
  | .fin s 0 _ => (fp32.inf s, flagDZ)
  | .fin s m e =>
    if s then (fp32.nan, flagNV)
    else
      let (m, e) := if e % 2 = 0 then (m, e) else (2 * m, e - 1)
      let k := bitLen m / 2 + 32
      let t := isqrtFrom (2 ^ (2 * k) / m) 40 0
      fp32.round r false t (-(k : Int) - e / 2) (t * t * m != 2 ^ (2 * k))

/-- FP32 to BF16 (R49, 06 R151). -/
def toBf16 (r : Rounding) (x : Nat) : Nat × Flags :=
  match fpVal x with
  | .nan s => (bf16.nan, nvIf s)
  | .inf s => (bf16.inf s, 0)
  | .fin s m e => bf16.round r s m e

/-- BF16 to FP32 as a conversion: a NaN becomes the canonical one (R48, 06 R151). -/
def ofBf16 (b : Nat) : Nat × Flags :=
  match fpVal (b * 65536) with
  | .nan s => (fp32.nan, nvIf s)
  | _ => (b * 65536, 0)

/-- An integer to FP32. -/
def ofInt32 (r : Rounding) (x : Int) : Nat × Flags := roundDyadic fp32 r { n := x, e := 0 } false

/-- Round a value to an integer by a mode. -/
def FpVal.toInt (r : Rounding) : FpVal → Int × Bool
  | .fin neg m e =>
    let (t, inexact) := roundAt r neg m e 0 false
    (if neg then -(t : Int) else t, inexact)
  | _ => (0, false)

/-- FP32 to INT32 (06 R151 `f2w`). -/
def toInt32 (r : Rounding) (x : Nat) : Nat × Flags :=
  match fpVal x with
  | .nan _ => (0, flagNV)
  | .inf s => (if s then 0x80000000 else 0x7FFFFFFF, flagNV)
  | v =>
    let (i, inexact) := v.toInt r
    if i < -2 ^ 31 then (0x80000000, flagNV)
    else if 2 ^ 31 - 1 < i then (0x7FFFFFFF, flagNV)
    else (wrapNat 32 i, if inexact then flagNX else 0)

/-! ## E8M4 and Q8B4 (R41, R45) -/

/-- A scale code: e in [11:4], m in [3:0]. -/
def scaleE (c : Nat) : Nat := c / 16 % 256
def scaleM (c : Nat) : Nat := c % 16
/-- The value of a normal scale: (16 + m)·2^(e − 131). -/
def scaleVal (c : Nat) : Dyadic := { n := 16 + scaleM c, e := (scaleE c : Int) - 131 }

/-- How many of the codes after 15, in rising order, have 127·s below `amax`; found from bit `i` downwards. -/
def scalesBelow (amax : Dyadic) : Nat → Nat → Nat
  | 0, r => r
  | i + 1, r =>
    let k := r + 2 ^ i
    scalesBelow amax i (if k ≤ 4064 ∧ (({ n := 127, e := 0 } : Dyadic).mul (scaleVal (15 + k))).lt amax then k else r)

/-- What Q8B4 gives: scale code, elements, flags. -/
structure Quantised where
  scale : Nat
  elems : List Int
  flags : Flags
deriving DecidableEq, Repr

/-- The quantiser of R45 on four exact inputs; none stands for a NaN or an infinity. -/
def q8b4 (vs : List (Option Dyadic)) : Quantised :=
  let xs := vs.filterMap id
  if xs.length ≠ vs.length then { scale := 0xFF0, elems := vs.map fun _ => 0, flags := flagNV }
  else
    let amax := xs.foldl (fun a x => if a.lt x.abs then x.abs else a) { n := 0, e := 0 }
    if amax.n = 0 then { scale := 0, elems := vs.map fun _ => 0, flags := 0 }
    else
      let k := scalesBelow amax 12 0
      let large := k = 4064
      let c := if large then 0xFEF else 16 + k
      let elem (x : Dyadic) : Int := let (a, b) := x.frac (scaleVal c); clampInt (-127) 127 (rneDiv a b)
      let es := xs.map elem
      let inexact := (xs.zip es).any fun e => !(({ n := e.2, e := 0 } : Dyadic).mul (scaleVal c)).same e.1
      { scale := c, elems := es, flags := if large then flagOF ||| flagNX else if inexact then flagNX else 0 }

/-! ## MX8 (R46) -/

/-- The I8B4 scale of a block scale X. -/
def mx8Scale (x : Nat) : Nat := if x = 255 then 0xFF0 else if 7 ≤ x then (x - 6) * 16 else 16
/-- The I8B4 element of an MX8 element under X. -/
def mx8Elem (x : Nat) (v : Int) : Int := if x ≤ 6 then rneDiv v (2 ^ (7 - x)) else v

/-! ## T5 bytes (R39) -/

/-- The five trits of a byte; none for an invalid byte. -/
def t5Trits (b : Nat) : Option (List Int) :=
  if 242 < b then none
  else some ((List.range 5).map fun i => ((b / 3 ^ i % 3 : Nat) : Int) - 1)

/-- The byte of five trits. -/
def t5Byte (ts : List Int) : Nat := ((ts.zipIdx.map fun e => (e.1 + 1) * ((3 ^ e.2 : Nat) : Int)).sum : Int).toNat

/-! ## Spate (R56) -/

def spateRounds : Nat → W32 → W32 → W32 × W32
  | 0, a, b => (a, b)
  | n + 1, a, b =>
    let a' := a + b
    let b' := b.rotateLeft 13 ^^^ a'
    spateRounds n (a'.rotateLeft 16) b'

def spate (kh kl ch cl : W32) : W32 :=
  let r := spateRounds 4 (kl ^^^ cl) (kh ^^^ ch)
  r.1 ^^^ r.2

end Sys2Proof.Machine
end

