-- ==== Sys2Proof/Machine/Transfer.lean ====
section
/-! DEFINITION. One-sided transfers: their issue (05 R129 to R131), their chunks, completion and faults
(R130 to R134), and `fwait`. -/

namespace Sys2Proof.Machine

/-! ## Issue -/

/-- Checks of the completion counter of `.ctr` (R130). -/
def counterCheck (s : State) (ctr : Bool) : Except Stop Unit := do
  trapIf (ctr && decide (0x1FFFC < (s.re 6).toNat)) s .range (s.re 6)
  trapIf (ctr && (s.re 6).toNat % 4 != 0) s .align (s.re 6)

/-- Whether an address lies in a FIFO window, whose entries are sent whole (16 R353, R357). -/
def State.fifoWindow (s : State) (n : Nat) (P : W64) : Bool :=
  ptrKind P == 2 && match s.translate (s.via (stationOf (basinOf n))).1 (s.getCore n).spaceId.toNat (ptrOff P) .write with
    | .ok (.ring leaf) _ => ringFifo leaf
    | _ => false

/-- A transfer into a FIFO ring window moves whole entries (16 R353): the window that p[a] names is checked at issue, and any
other that the transfer comes to is checked there (State.moveOut). -/
def fifoWindowCheck (s : State) (P : W64) (bytes : Nat) : Except Stop Unit :=
  trapIf (bytes % 64 != 0 && s.fifoWindow s.core P) s .align (BitVec.ofNat 32 bytes)

/-- The checks of R130, in order; that of the handler word comes last (08 R198). -/
def copyChecks (s : State) (a : BitVec 3) (b : BitVec 5) (ctr cnt hnd put : Bool) : Except Stop Unit := do
  let P := s.rp a
  match ptrCheck (s.recOf s.core) P with
  | some c => .error (.trap s c (a.zeroExtend 32))
  | none => do
    trapIf (decide (131072 < (s.re 0).toNat)) s .range (s.re 0)
    trapIf (decide (131072 < (s.rg b).toNat + (s.re 0).toNat)) s .range (s.rg b)
    counterCheck s ctr
    trapIf (hnd && ptrKind P == 1 && decide (8 ≤ ptrUnit P)) s .range (ptrLow P)
    trapIf (cnt && ptrOff P % 64 != 0) s .align (ptrLow P)
    trapIf (cnt && (s.re 0).toNat % 64 != 0) s .align (s.re 0)
    trapIf (cnt && decide ((s.re 5).toNat = 0 ∨ 255 < (s.re 5).toNat)) s .range (s.re 5)
    if put then fifoWindowCheck s P (s.re 0).toNat
    trapIf (hnd && !handlerOk (s.re 4)) s .range (s.re 4)

/-- The checks of R131; those of the completion counter, whose place the rule does not give, follow (log entry 43). -/
def indexedChecks (s : State) (a : BitVec 3) (b : BitVec 5) (ctr put : Bool) : Except Stop Unit := do
  let n := (s.re 0).toNat
  let z := (s.re 1).toNat
  trapIf (decide (4096 < n)) s .range (s.re 0)
  trapIf (decide (z = 0 ∨ 4096 < z)) s .range (s.re 1)
  trapIf (decide (131072 < (s.rg b).toNat + n * z)) s .range (s.rg b)
  trapIf ((s.re 2).toNat % 4 != 0) s .align (s.re 2)
  counterCheck s ctr
  if put then fifoWindowCheck s (s.rp a) (n * z)

/-- The transfer that the operands describe (R130, R131). -/
def newXfer (s : State) (kind : XferKind) (d : BitVec 5) (a : BitVec 3) (b : BitVec 5) (ctr cnt hnd cons : Bool) : Xfer :=
  let indexed := kind == .getx || kind == .putx
  { id := 0, core := s.core, ctx := s.ctx, att := s.cur.att, handle := s.handleOf s.core, kind := kind
    ptr := s.rp a, loff := (s.rg b).toNat, len := (s.re 0).toNat, esize := if indexed then (s.re 1).toNat else 0
    idx := if indexed then (s.re 2).toNat else 0, stride := if indexed then s.re 3 else 0
    hnd := if hnd then some (s.re 4) else none, cnt := if cnt then some (s.re 5).toNat else none
    cons := cons, ctr := if ctr then some (s.re 6).toNat else none, dst := if ctr then 0 else d.toNat }

/-- e registers that a transfer reads (R130, R131). -/
def xferEs (indexed ctr cnt hnd : Bool) : List Nat :=
  eids ((if indexed then [0, 1, 2, 3] else [0]) ++ (if hnd then [4] else []) ++ (if cnt then [5] else [])
    ++ if ctr then [6] else [])

def execGet (d : BitVec 5) (a : BitVec 3) (b : BitVec 5) (ctr cons : Bool) (s : State) : Host.Outcome State Fault Refusal :=
  issue (.get d a b ctr cons) ([pid a, gid b] ++ xferEs false ctr false false) [gid d] s fun s => do
    let s ← if cons then s.publish else .ok s
    copyChecks s a b ctr false false false
    .ok ((s.startXfer s.core (newXfer s .get d a b ctr false false cons)).emptyRegs [gid d], .seq)

def execPut (d : BitVec 5) (a : BitVec 3) (b : BitVec 5) (ctr cnt hnd : Bool) (s : State) : Host.Outcome State Fault Refusal :=
  issue (.put d a b ctr cnt hnd) ([pid a, gid b] ++ xferEs false ctr cnt hnd) [gid d] s fun s => do
    copyChecks s a b ctr cnt hnd true
    let x := newXfer s .put d a b ctr cnt hnd false
    let s ← if s.inTask then s.hold [.put x] else .ok (s.startXfer s.core x)
    .ok (s.emptyRegs [gid d], .seq)

def execGetx (d : BitVec 5) (a : BitVec 3) (b : BitVec 5) (ctr cons : Bool) (s : State) : Host.Outcome State Fault Refusal :=
  issue (.getx d a b ctr cons) ([pid a, gid b] ++ xferEs true ctr false false) [gid d] s fun s => do
    let s ← if cons then s.publish else .ok s
    indexedChecks s a b ctr false
    .ok ((s.startXfer s.core (newXfer s .getx d a b ctr false false cons)).emptyRegs [gid d], .seq)

def execPutx (d : BitVec 5) (a : BitVec 3) (b : BitVec 5) (ctr : Bool) (s : State) : Host.Outcome State Fault Refusal :=
  issue (.putx d a b ctr) ([pid a, gid b] ++ xferEs true ctr false false) [gid d] s fun s => do
    indexedChecks s a b ctr true
    let x := newXfer s .putx d a b ctr false false false
    let s ← if s.inTask then s.hold [.put x] else .ok (s.startXfer s.core x)
    .ok (s.emptyRegs [gid d], .seq)

/-- `fwait` (R134). -/
def execFwait (s : State) : Host.Outcome State Fault Refusal :=
  issue .fwait [] [] s fun s => do
    waitIf (!(s.xfersOf s.core s.ctx).isEmpty) s
    .ok (s, .seq)

/-! ## Chunks (R130, R131) -/

def State.findXfer (s : State) (n id : Nat) : Option Xfer := (s.getCore n).xfers.find? fun x => x.id == id
def State.setXfer (s : State) (n : Nat) (x : Xfer) : State :=
  let k := s.getCore n
  s.setCore n { k with xfers := k.xfers.map fun y => if y.id = x.id then x else y }
def State.dropXfer (s : State) (n id : Nat) : State :=
  let k := s.getCore n
  s.setCore n { k with xfers := k.xfers.filter fun y => y.id != id }

def Xfer.indexed (x : Xfer) : Bool := x.kind == .getx || x.kind == .putx
def Xfer.reads (x : Xfer) : Bool := x.kind == .get || x.kind == .getx
/-- Bytes of the whole transfer. -/
def Xfer.bytes (x : Xfer) : Nat := if x.indexed then x.len * x.esize else x.len
/-- Every byte has been moved. -/
def Xfer.moved (x : Xfer) : Bool := decide (x.len ≤ x.pos)
/-- VAL of a stop: the byte offset of the chunk, or the element index (R133). -/
def Xfer.val (x : Xfer) (off : Nat) : W32 := BitVec.ofNat 32 (if x.indexed then x.pos else off)

/-- Stop a transfer at a cause; bytes already written stay (R133). -/
def State.stopXfer (s : State) (n : Nat) (x : Xfer) (c : Cause) (off : Nat) : State :=
  s.setXfer n { x with stop := some (c, x.val off), tag := none, verdict := none, pinned := none }

/-- A failed access of a transfer at `off`, to an address: a translation waits for the host, any other cause stops it
(R133). -/
def State.failXfer (s : State) (n : Nat) (x : Xfer) (off addr : Nat) : Fail → State
  | .ptr c => s.stopXfer n x c off
  | .cause c => s.stopXfer n x c off
  | .ue k => (s.meetUe (some x.handle) n x.ctx k addr).stopXfer n x .ue off
  | .miss m =>
    let (s, t) := s.openTag (quayOf (basinOf n)) m (s.getCore n).launchId
    s.setXfer n { x with tag := t, pinned := none }

/-- The address of the bytes at `off` from P, which must not pass the end of what P names. -/
def spanPtr (P : W64) (off z : Nat) : Except Fail W64 :=
  match ptrWidth P with
  | none => .error (.ptr .ptr)
  | some w =>
    if 2 ^ w < ptrOff P + off + z then .error (.cause .range) else .ok (setOff P w ((ptrOff P : Int) + off))

/-- Bytes of the next unit at an address: up to the end of its aligned 16 bytes (10 R259), or a line or entry of 64 where
lines or entries are written whole. -/
def unitLen (whole : Bool) (addr left : Nat) : Nat := min (if whole then 64 else 16 - addr % 16) left

/-- The lines of a read that have given their last byte to the transfer or element (R130, R131). -/
def finishedLines (ps : List Part) (last : Bool) : List Nat :=
  match ps with
  | [] => []
  | [p] => if last || (p.key + p.len) % 64 == 0 then [p.key / 64] else []
  | p :: t => p.key / 64 :: finishedLines t last

/-- What a transfer copies: the address, the local offset and the length of the whole, or of one element. -/
structure Span where
  ptr : W64
  loff : Nat
  len : Nat
deriving DecidableEq, Repr

/-- Where byte `off` of a span is read from, and its address for a UE record. -/
def Span.source (p : Span) (reads : Bool) (off : Nat) : Nat := if reads then ptrOff p.ptr + off else p.loff + off

/-- Read `z` bytes at `off`: a get from the address, consuming lines that have given their last byte; a put from local
memory. -/
def State.readSource (s : State) (n : Nat) (x : Xfer) (p : Span) (off z : Nat) : Except Fail (List Byte × State) :=
  if x.reads then do
    let P ← spanPtr p.ptr off z
    let acc : Acc := if x.cons then .consume else .read
    let (place, s) ← s.resolve n P z 1 acc
    match place with
    | .mem ps => do
      s.checkParts acc [] ps
      let bs := s.readParts ps
      .ok (bs, if x.cons then (finishedLines ps (decide (off + z = p.len))).foldl State.decLine s else s)
    | _ => .error (.cause .range)
  else do
    let ps := localParts n (p.loff + off) z
    s.checkParts .read [] ps
    .ok (s.readParts ps, s)

/-- Read aligned chunks of a span from `off` on, until `need` bytes beyond `at_` are there or one fails. -/
def State.gather (n : Nat) (x : Xfer) (p : Span) (at_ need : Nat) : Nat → List Byte → State → List Byte × State × Option Fail
  | 0, buf, s => (buf, s, none)
  | fuel + 1, buf, s =>
    if need ≤ buf.length then (buf, s, none)
    else
      let off := at_ + buf.length
      match s.readSource n x p off (unitLen false (p.source x.reads off) (p.len - off)) with
      | .ok (bs, s) => State.gather n x p at_ need fuel (buf ++ bs) s
      | .error f => (buf, s, some f)

/-- Deliver one counted line (R130): the checks of `stc`, then the way of R247. `none` means that it waits. -/
def State.deliverCounted (s : State) (place : Place) (P : W64) (d : Line) (count : Nat) :
    Except Fail (Option State) :=
  let count : W32 := BitVec.ofNat 32 count
  match s.stcChecks P place count with
  | .error (.trap _ c _) => .error (.cause c)
  | .error _ => .error (.cause .range)
  | .ok _ => do
    match place with
    | .mem (p :: t) => do
      s.checkParts .counted [] (p :: t)
      if !isFarKey p.key then .ok (some (s.fillCounted (p.key / 64) count.toNat d))
      else match s.pinRoom (p.key / 64) with
        | none => .error (.cause .pressure)
        | some true => .ok (some (s.fillCounted (p.key / 64) count.toNat d))
        | some false => .ok none
    | _ => .ok (some s)

/-- What became of the write of a unit: performed, with so many ring writes sent and their leaf; or it waits for a way. -/
inductive Sent where
  | done (s : State) (k : Nat) (leaf : Option W64)
  | waits

/-- Write bytes at the address (a put). A FIFO window that it comes to takes whole entries of a transfer whose length is a
multiple of 64, and anything else ends with RANGE (16 R353; log entry 55). -/
def State.moveOut (s : State) (n : Nat) (x : Xfer) (P : W64) (bs : List Byte) (val : W32) : Except Fail Sent := do
  let acc : Acc := if x.cnt.isSome then .counted else .write
  let (place, s) ← s.resolve n P bs.length 1 acc
  match place with
  | .mem ps =>
    if x.hnd.isSome && ptrKind P == 2 then .error (.cause .range)
    else match x.cnt with
      | some c => do
        let r ← s.deliverCounted place P (bytesLine bs) c
        .ok (match r with
          | some s => .done s 0 none
          | none => .waits)
      | none => do
        s.checkParts .write [] ps
        .ok (.done (s.writeParts bs ps) 0 none)
  | .ring rs =>
    if rs.any fun p => !s.ring.reaches p.leaf || (ringFifo p.leaf && (x.bytes % 64 != 0 || bs.length != 64)) then
      .error (.cause .range)
    else
      let owner : RingOwner := .xfer n x.id
      let outs := match x.cnt, rs with
        | some c, p :: _ => [ringOutOf (basinOf n) p.leaf (.counted (ringOff p.leaf p.va) (bytesLine bs) c) owner val]
        | _, _ => ringStoreItems (basinOf n) owner val (rs.any fun p => ringFifo p.leaf) bs rs
      if x.cnt.isSome && rs.any (fun p => ringFifo p.leaf) then .error (.cause .range)
      else .ok (.done (s.ringSend outs) outs.length (rs.head?.map (·.leaf)))
  | _ => .error (.cause .range)

/-- Write bytes at `off` of a span: a get to local memory, a put to the address. A FIFO window ignores the offset
(16 R352). -/
def State.writeDest (s : State) (n : Nat) (x : Xfer) (p : Span) (off : Nat) (bs : List Byte) : Except Fail Sent :=
  if x.reads then do
    let ps := localParts n (p.loff + off) bs.length
    s.checkParts .write [] ps
    .ok (.done (s.writeParts bs ps) 0 none)
  else do
    let P ← spanPtr p.ptr off bs.length
    s.moveOut n x (if s.fifoWindow n P then setOff P 48 (ptrOff P / 64 * 64 : Nat) else P) bs (x.val off)

/-- The wait of a counted put for a way has lasted CNT_LIMIT cycles (09 R247). -/
def State.xferExpired (s : State) (n : Nat) (x : Xfer) : Bool :=
  match x.pinned with
  | some t => decide ((s.getCore n).cntLimit.toNat ≤ (s.getCore n).cyc - t)
  | none => false

/-- The wait of a counted put for a way: PSTALL rises when it begins (09 R247). -/
def State.pinXfer (s : State) (n : Nat) (x : Xfer) : State :=
  if x.pinned.isSome then s else (s.stall n).setXfer n { x with pinned := some (s.getCore n).cyc }

/-- One unit of a span: read what it needs, and write it at `off`. `next_` is the transfer after `z` bytes. -/
def State.moveUnit (s : State) (n : Nat) (x : Xfer) (p : Span) (off z : Nat) (next_ : Xfer → Xfer) : State :=
  let (buf, s, fail) := State.gather n x p off z 6 x.buf s
  let x : Xfer := { x with buf := buf }
  let s := s.setXfer n x
  match fail with
  | some f => s.failXfer n x (off + buf.length) (p.source x.reads (off + buf.length)) f
  | none =>
    match s.writeDest n x p off (buf.take z) with
    | .ok (.done s k leaf) =>
      s.setXfer n (next_ { x with buf := buf.drop z, pinned := none, ringOut := x.ringOut + k
                                  win := if x.pos = 0 ∧ x.sub = 0 then leaf else x.win })
    | .ok .waits => s.pinXfer n x
    | .error f => s.failXfer n x off (p.source (!x.reads) off) f

/-- Whether the byte at `off` of a span lies in a FIFO window: the window of each address decides (16 R352, R356). -/
def State.entersFifo (s : State) (n : Nat) (p : Span) (off : Nat) : Bool :=
  match spanPtr p.ptr off 1 with
  | .ok P => s.fifoWindow n P
  | .error _ => false

/-- The next unit of `get` and `put`. -/
def State.copyChunk (s : State) (n : Nat) (x : Xfer) : State :=
  if s.xferExpired n x then s.stopXfer n x .pressure x.pos
  else
    let p : Span := { ptr := x.ptr, loff := x.loff, len := x.len }
    let whole := x.cnt.isSome || (x.kind == .put && s.entersFifo n p x.pos)
    let z := unitLen whole (p.source (!x.reads) x.pos) (x.len - x.pos)
    s.moveUnit n x p x.pos z fun x => { x with pos := x.pos + z }

/-- The transfer after `z` bytes of its present element, or of its elements taken together. -/
def Xfer.elemNext (z : Nat) (x : Xfer) : Xfer :=
  let at_ := x.sub + z
  { x with pos := x.pos + at_ / x.esize, sub := at_ % x.esize, curIdx := if at_ < x.esize then x.curIdx else none }

/-- The next unit of `getx` and `putx` (R131). The index of an element is read once, as a plain read; an index word past
the end of local memory stops the transfer with RANGE (log entry 54). Into a FIFO window the entries of 64 bytes are
those of the source in ascending order, whatever the element size (16 R357); an entry goes to the window of the element
that holds its first byte (log entry 55). -/
def State.elemChunk (s : State) (n : Nat) (x : Xfer) : State :=
  match x.curIdx with
  | none =>
    let off := x.idx + 4 * x.pos
    if 0x1FFFC < off then s.stopXfer n x .range 0
    else
      let ps := localParts n off 4
      match s.checkParts .read [] ps with
      | .error f => s.failXfer n x 0 off f
      | .ok _ => s.setXfer n { x with curIdx := some (bytes32 (s.readParts ps)) }
  | some i =>
    match ptrAdd x.ptr ((i.toNat : Int) * sgn x.stride) with
    | none => s.stopXfer n x .ptr 0
    | some Q =>
      let p : Span := { ptr := Q, loff := x.loff + x.pos * x.esize, len := x.esize }
      if x.kind == .putx && s.entersFifo n p x.sub then
        let left := (x.len - x.pos) * x.esize - x.sub
        let z := min 64 left
        s.moveUnit n x { p with len := (x.len - x.pos) * x.esize } x.sub z (Xfer.elemNext z)
      else
        let z := unitLen false (p.source (!x.reads) x.sub) (x.esize - x.sub)
        s.moveUnit n x p x.sub z (Xfer.elemNext z)

/-- A transfer whose next chunk can be performed. -/
def Xfer.canMove (x : Xfer) : Bool := !x.moved && x.stop.isNone && x.tag.isNone

/-- Offset of the chunk whose translation waits: a get reads ahead of what it has written. -/
def Xfer.missOff (x : Xfer) : Nat := if x.reads then x.pos + x.buf.length else x.pos

/-- The next chunk of a transfer. A refusal of the host stops it there (15 R339). -/
def State.moveXfer (s : State) (n : Nat) (x : Xfer) : State :=
  match x.verdict with
  | some c => s.stopXfer n x c x.missOff
  | none => if x.indexed then s.elemChunk n x else s.copyChunk n x

/-- TRANSFER_CHUNK: after the accesses that precede the transfer (10 R265). -/
def execTransferChunk (n id : Nat) (s : State) : Host.Outcome State Fault Refusal :=
  event (match s.findXfer n id with
    | some x =>
      if !x.canMove || s.priorPending n x.ctx x.after then s
      else s.moveXfer n x
    | none => s)

/-! ## Completion (R132, R133) -/

/-- A deferred fault of a transfer, kept in issue order (R133). -/
def insertDeferred (d : Deferred) : List Deferred → List Deferred
  | [] => [d]
  | e :: t =>
    match d.xfer, e.xfer with
    | some i, some j => if i < j then d :: e :: t else e :: insertDeferred d t
    | _, _ => e :: insertDeferred d t

/-- Raise a transfer's fault in the attempt that issued it; an ended attempt takes none (R133, 11 R288). -/
def State.deferXfer (s : State) (n : Nat) (x : Xfer) (c : Cause) (v : W32) (fill : Option Nat := none) : State :=
  let y := s.getCtx n x.ctx
  if y.att = x.att ∧ y.status ≠ .idle then
    s.setCtx n x.ctx { y with deferred := insertDeferred { cause := c, val := v, xfer := some x.id, fill := fill } y.deferred }
  else s

/-- Causes that fill a status and raise nothing (R133). -/
def statusOnly : Cause → Bool
  | .none | .cap | .order | .queue => true
  | _ => false

/-- Add 1 to the completion counter, or raise what the word meets (R132). -/
def State.bumpCounter (s : State) (n off : Nat) (x : Xfer) : State :=
  let ps := localParts n off 4
  match s.checkParts .atomic [] ps with
  | .ok _ => s.writeParts (leBytes 4 (leNat (s.readParts ps) + 1)) ps
  | .error (.cause c) => s.deferXfer n x c (BitVec.ofNat 32 off)
  | .error (.ue k) => (s.meetUe (some x.handle) n x.ctx k off).deferXfer n x .ue (BitVec.ofNat 32 off)
  | .error _ => s

/-- Offer the handler task of a `put.hnd` whose bytes are all written: QUEUE when the queue refuses (R130). The task of a
cancelled launch is discarded (14 R321). -/
def State.handTask (s : State) (n : Nat) (x : Xfer) (w : W32) : State × Option Cause :=
  if !s.liveLaunch x.handle then (s, none)
  else
  let (id, s) := s.nextId n
  let m : Message := { pc := handlerPc w, level := handlerLevel w, arg0 := BitVec.ofNat 32 (ptrOff x.ptr)
                       arg1 := BitVec.ofNat 32 x.len, id := id }
  if ptrKind x.ptr = 2 then
    match x.win with
    | some leaf =>
      if s.ring.reaches leaf then
        let arg0 := BitVec.ofNat 32 (if ringFifo leaf then ringBank leaf * 131072 else ringOff leaf (ptrOff x.ptr))
        (s.ringSend [ringOutOf (basinOf n) leaf (.handler (ringSlot leaf) w arg0 m.arg1 n (id.toNat % 2 ^ 18)) (.xfer n x.id) (x.val x.pos)], none)
      else (s, some .range)
    | none => (s, some .range)
  else
    let tgt := if ptrKind x.ptr = 0 then n else ptrBasin x.ptr * 8 + ptrUnit x.ptr
    match s.enqueue tgt m with
    | (true, s) => (s, none)
    | (false, s) => (s, some .queue)

/-- The completion of a transfer: its status, counter and faults (R132, R133). -/
def State.completeXfer (s : State) (n : Nat) (x : Xfer) : State :=
  let (q, s) := (s.dropXfer n x.id).nextSeq
  let cause := (x.stop.map (·.1)).getD .none
  let s := match x.stop with
    | some (c, v) => if statusOnly c then s else s.deferXfer n x c v (some q)
    | none => s
  match x.ctr with
  | some off => s.bumpCounter n off x
  | none =>
    if x.dst = 0 then s
    else s.deliverFill x.handle { core := n, ctx := x.ctx, reg := x.dst } (BitVec.ofNat 32 (causeCode cause)) (.status q)

/-- TRANSFER_COMPLETION: once every byte is written and every ring write answered, the handler task is offered, and
then the transfer completes. A transfer of no bytes completes at once, and enqueues no handler task (log entry 64). -/
def execTransferCompletion (n id : Nat) (s : State) : Host.Outcome State Fault Refusal :=
  event (State.finishInvs (match s.findXfer n id with
    | some x =>
      if x.ringOut ≠ 0 ∨ (!x.moved && x.stop.isNone) then s
      else match x.hnd, x.stop, x.handed || x.len == 0 with
        | some w, none, false =>
          let (s', r) := s.handTask n x w
          let x' : Xfer := { x with handed := true, stop := r.map fun c => (c, x.val x.pos)
                                    ringOut := if ptrKind x.ptr = 2 ∧ r.isNone then 1 else 0 }
          if x'.ringOut = 0 then s'.completeXfer n x' else s'.setXfer n x'
        | _, _, _ => s.completeXfer n x
    | none => s))

end Sys2Proof.Machine
end

