-- ==== Sys2Proof/Machine/Engines.lean ====
section
/-! DEFINITION. The tug and the keeper (12 R293 to R311) and the ENG instructions (08 R215 to R218). -/

namespace Sys2Proof.Machine

/-! ## ENG instructions (08 R215 to R218) -/

/-- `kick` (R216): a store-release at basin scope, which waits while the tug is full. With d = 0 a task holds it (R209);
else it is a commit point, which publishes before anything else. -/
def execKick (d a : BitVec 5) (s : State) : Host.Outcome State Fault Refusal :=
  issue (.kick d a) (gids [a]) [gid d] s fun s => do
    let v := s.rg a
    let b := basinOf s.core
    if s.inTask && decide (d = 0) then do
      blockCheck s v.toNat v
      let s ← s.hold [.kick v b]
      .ok (s, .seq)
    else do
      let s ← s.publish
      blockCheck s v.toNat v
      releaseWait s true .basin
      waitIf (s.tugFull b || s.kicksOut s.core s.ctx b) s
      let (t, s) := s.acceptKick b s.core s.ctx s.cur.att v.toNat (s.handleOf s.core) s.seq
      if d = 0 then .ok (s, .seq)
      else .ok ((s.emptyRegs [gid d]).sendFill (s.handleOf s.core) { core := s.core, ctx := s.ctx, reg := d.toNat }
        (BitVec.ofNat 32 t), .seq)

/-! ## Blocks (R295, R297, R301, R307) -/

/-- 32-bit and 64-bit fields of a block, by byte offset. -/
def blkWord (blk : Line) (off : Nat) : W32 := blk.extractLsb' (8 * off) 32
def blkPtr (blk : Line) (off : Nat) : W64 := blk.extractLsb' (8 * off) 64
def blkBits (blk : Line) (off lo n : Nat) : Nat := (blkWord blk off).toNat / 2 ^ lo % 2 ^ n

def blkOp (blk : Line) : Nat := blkBits blk 0 0 8
def blkSer (blk : Line) : Bool := (blkWord blk 0).getLsbD 28
def blkCons (blk : Line) : Bool := (blkWord blk 0).getLsbD 8
def blkHnd (blk : Line) : Bool := (blkWord blk 0).getLsbD 9
/-- CKIND[23], the fill, and CKIND[24], the completion word. -/
def blkFill (blk : Line) : Bool := (blkWord blk 0).getLsbD 23
def blkCword (blk : Line) : Bool := (blkWord blk 0).getLsbD 24

/-- A rule over a field: its offset, and whether the field keeps it. -/
abbrev FieldRule := Nat × Bool

/-- The offset of the first field that breaks its rule. -/
def firstBad (rs : List FieldRule) : Option Nat := (rs.find? fun r => !r.2).map (·.1)

def zeroFrom (blk : Line) (offs : List Nat) : List FieldRule := offs.map fun o => (o, decide (blkWord blk o = 0))

/-- Rules of bytes 0x00 to 0x0F (R295, R297): `opt` and `hnd` say whether FLAGS[8] and FLAGS[9] may be set. -/
def headRules (r : LaunchRec) (blk : Line) (keeper opt hnd : Bool) : List FieldRule :=
  let w := blkWord blk 0
  let f := blkWord blk 4
  let c := blkPtr blk 8
  let core := f.toNat / 2 ^ 9 % 2 ^ 14
  [(0, blkBits blk 0 29 3 == 0 && !(keeper && blkSer blk) && decide (blkBits blk 0 25 3 ≤ 4) && blkBits blk 0 16 7 == 0
      && blkBits blk 0 10 6 == 0 && (opt || !w.getLsbD 8) && (hnd || !w.getLsbD 9)
      && decide (1 ≤ blkOp blk ∧ blkOp blk ≤ 5)),
   (4, !blkFill blk || (f.getLsbD 31 && blkBits blk 4 23 8 == 0 && r.hasCore core && decide (f.toNat / 2 ^ 5 % 16 ≤ 10))),
   (8, !blkCword blk || ((ptrCheck r c).isNone && c.toNat % 8 == 0))]

def within (blk : Line) (off lo hi : Nat) : FieldRule := (off, decide (lo ≤ (blkWord blk off).toNat ∧ (blkWord blk off).toNat ≤ hi))
def aligned (blk : Line) (off n : Nat) : FieldRule := (off, (blkPtr blk off).toNat % n == 0)

def maxLen : Nat := 16777216

/-- Rules of a tug command's operands (R301). -/
def tugRules (blk : Line) : List FieldRule :=
  match blkOp blk with
  | 2 => [((0x28 : Nat), (blkWord blk 0x28).toNat % 8 == 0), within blk 0x2C 1 4096, within blk 0x34 0 255]
      ++ zeroFrom blk [0x38, 0x3C]
  | 3 => [aligned blk 0x18 64, (0x20, decide ((blkWord blk 0x20).toNat ≤ maxLen) && (blkWord blk 0x20).toNat % 64 == 0),
          within blk 0x24 1 255, (0x28, if blkHnd blk then handlerOk (blkWord blk 0x28) else decide (blkWord blk 0x28 = 0))]
      ++ zeroFrom blk [0x2C, 0x30, 0x34, 0x38, 0x3C]
  | 5 => [aligned blk 0x10 2, aligned blk 0x20 2, within blk 0x28 1 32768,
          (0x2C, decide (blkBits blk 0x2C 23 8 ≠ 255) && (!(blkWord blk 0x2C).getLsbD 31 || blkBits blk 0x2C 0 31 == 0))]
      ++ zeroFrom blk [0x30, 0x34, 0x38, 0x3C]
  | _ => [within blk 0x20 0 maxLen] ++ zeroFrom blk [0x24, 0x28, 0x2C, 0x30, 0x34, 0x38, 0x3C]

def tugBad (r : LaunchRec) (blk : Line) : Option Nat :=
  firstBad (headRules r blk false true (decide (blkOp blk = 3)) ++ tugRules blk)

/-- Thresholds of BIN, up to the first 0 (R307). -/
def thresholds (blk : Line) : List Nat :=
  ((List.range 6).map fun k => (blk.extractLsb' (8 * 0x2C + 16 * k) 16).toNat).takeWhile (· ≠ 0)

def ascending : List Nat → Bool
  | a :: b :: t => decide (a < b) && ascending (b :: t)
  | _ => true

/-- A local offset other than 0xFFFF_FFFF is 4-aligned (R307). -/
def offOk (blk : Line) (off : Nat) : FieldRule :=
  (off, (blkWord blk off).toNat % 4 == 0 || decide (blkWord blk off = BitVec.allOnes 32))

/-- Rules of a keeper request's operands (R307). -/
def keeperRules (blk : Line) : List FieldRule :=
  let n := 2 ^ 24
  match blkOp blk with
  | 1 => [aligned blk 0x10 4, aligned blk 0x18 4, aligned blk 0x20 4, within blk 0x28 1 n,
          (0x2C, (thresholds blk).all (2 ≤ ·) && ascending (thresholds blk))]
  | 2 => [aligned blk 0x10 4, aligned blk 0x18 4, aligned blk 0x20 4, within blk 0x28 0 n, within blk 0x2C 0 n, offOk blk 0x38]
  | 3 => [aligned blk 0x10 4, aligned blk 0x18 4, aligned blk 0x20 4, within blk 0x28 0 n, within blk 0x2C 0 n,
          offOk blk 0x30, offOk blk 0x34, offOk blk 0x38]
  | 4 => [aligned blk 0x10 4, aligned blk 0x18 4, within blk 0x28 1 n, within blk 0x2C 1 4096]
  | _ => [aligned blk 0x10 4, aligned blk 0x18 4, within blk 0x28 0 n]

def keeperBad (r : LaunchRec) (blk : Line) : Option Nat :=
  firstBad (headRules r blk true (decide (blkOp blk = 5)) false ++ keeperRules blk)

/-- A block as an engine reads it from the local memory of core `n`: its bytes, or the cause and the offset of the first
granule that cannot be read, with its key (R297). -/
def State.readBlock (s : State) (n off : Nat) : Line × Option (Cause × Nat × Nat) :=
  let key := localKey n off
  let bad : Option (Cause × Nat × Nat) :=
    if s.lineState (key / 64) = .dropped then some (.overread, 0, key)
    else (((List.range 8).find? fun i => (s.badGranule (key + 8 * i) 8).isSome).map fun i => (Cause.ue, 8 * i, key + 8 * i))
  match bad with
  | some (.overread, o, k) => (0, some (.overread, o, k))
  | b => (bytesLine (s.bytesAt key 64), b)

/-! ## Accesses of an engine (R298, R307) -/

/-- A failed access with its address[31:0] and, for a UE record, its address. -/
structure EngFail where
  fail : Fail
  val : W32
  addr : Nat := 0
  ptr : W64 := 0

/-- The failed access at a pointer. -/
def engFail (f : Fail) (Q : W64) : EngFail := { fail := f, val := ptrLow Q, addr := ueAddr Q, ptr := Q }

/-- A stop at a cause with a VAL. -/
def engStop (c : Cause) (v : W32) : EngFail := { fail := .cause c, val := v }

/-- The pointer at `off` from P for `z` bytes. -/
def engPtr (P : W64) (off z : Nat) : Except EngFail W64 :=
  match spanPtr P off z with
  | .ok Q => .ok Q
  | .error f => .error { fail := f, val := ptrLow P + BitVec.ofNat 32 off }

def engLift {α : Type} (Q : W64) : Except Fail α → Except EngFail α
  | .ok a => .ok a
  | .error f => .error (engFail f Q)

/-- The basin of an engine, through whose station its accesses go (15 R335), or of a context or transfer. -/
def ownerBasin : RingOwner → Nat
  | .stc n _ => basinOf n
  | .xfer n _ => basinOf n
  | .tug b _ => b
  | .keeper b _ => b

/-- A read for core `n` by an engine of basin `bb`. -/
def State.engRead (s : State) (n bb : Nat) (P : W64) (off z : Nat) (acc : Acc) (who : Who) : Except EngFail (List Byte × State) := do
  let Q ← engPtr P off z
  let (place, s) ← engLift Q (s.resolve n Q z 1 acc .any who bb)
  match place with
  | .mem ps => do
    engLift Q (s.checkParts acc [] ps)
    .ok (s.readParts ps, s)
  | _ => .error (engStop .range (ptrLow Q))

/-- A write; the number of ring items that it sends. -/
def State.engWrite (s : State) (n : Nat) (owner : RingOwner) (P : W64) (off : Nat) (bs : List Byte) (who : Who) :
    Except EngFail (State × Nat) := do
  let Q ← engPtr P off bs.length
  let (place, s) ← engLift Q (s.resolve n Q bs.length 1 .write .any who (ownerBasin owner))
  match place with
  | .mem ps => do
    engLift Q (s.checkParts .write [] ps)
    .ok (s.writeParts bs ps, 0)
  | .ring rs =>
    if rs.any fun p => ringFifo p.leaf || !s.ring.reaches p.leaf then .error (engStop .range (ptrLow Q))
    else
      let outs := ringStoreItems (ownerBasin owner) owner (ptrLow Q) false bs rs
      .ok (s.ringSend outs, outs.length)
  | _ => .error (engStop .range (ptrLow Q))

/-- Pieces of a range of `n` bytes, each within an aligned 16-byte chunk of the address `a` (R298): offset and length. -/
def chunkPieces (a : Nat) : Nat → Nat → Nat → List (Nat × Nat)
  | 0, _, _ => []
  | fuel + 1, rel, n =>
    let k := min n (16 - (a + rel) % 16)
    if n = 0 then [] else (rel, k) :: chunkPieces a fuel (rel + k) (n - k)

def piecesOf (P : W64) (off n : Nat) : List (Nat × Nat) := chunkPieces ((ptrOff P + off) % 16) (n / 16 + 2) 0 n

/-- Read a range, piece by piece. -/
def State.engReadAll (s : State) (n bb : Nat) (P : W64) (off : Nat) (acc : Acc) (who : Who) :
    List (Nat × Nat) → List Byte → Except EngFail (List Byte × State)
  | [], bs => .ok (bs, s)
  | (o, k) :: t, bs => do
    let (b, s) ← s.engRead n bb P (off + o) k acc who
    s.engReadAll n bb P off acc who t (bs ++ b)

/-- Write a range, piece by piece. -/
def State.engWriteAll (s : State) (n : Nat) (owner : RingOwner) (P : W64) (off : Nat) (bs : List Byte) (who : Who) (k : Nat) :
    List (Nat × Nat) → Except EngFail (State × Nat)
  | [] => .ok (s, k)
  | (o, z) :: t => do
    let (s, m) ← s.engWrite n owner P (off + o) ((bs.drop o).take z) who
    s.engWriteAll n owner P off bs who (k + m) t

/-! ## Tug commands -/

def State.findTug (s : State) (b t : Nat) : Option TugCmd := (s.getBasin b).tug.cmds.find? fun c => c.token == t
def State.setTug (s : State) (b : Nat) (c : TugCmd) : State :=
  let x := s.getBasin b
  s.setBasin b { x with tug := { x.tug with cmds := x.tug.cmds.map fun y => if y.token = c.token then c else y } }

def TugCmd.src (c : TugCmd) : W64 := blkPtr c.block 0x10
def TugCmd.dst (c : TugCmd) : W64 := blkPtr c.block 0x18
def TugCmd.len (c : TugCmd) : Nat := (blkWord c.block 0x20).toNat
def TugCmd.acc (c : TugCmd) : Acc := if blkCons c.block then .consume else .read
def TugCmd.isDone (c : TugCmd) (i : Nat) : Bool := mget false c.boxes i
def TugCmd.owner (c : TugCmd) (b : Nat) : RingOwner := .tug b c.token

/-- Number of boxes (R299). -/
def boxCount (blk : Line) : Nat :=
  match blkOp blk with
  | 2 => (blkWord blk 0x2C).toNat
  | 5 => ((blkWord blk 0x28).toNat + 7) / 8
  | _ => ((blkWord blk 0x20).toNat + 4095) / 4096

/-- Whether a command may start (R294). -/
def Tug.mayStart (x : Tug) (c : TugCmd) (ser : Bool) : Bool :=
  let earlier := x.cmds.takeWhile fun y => y.token != c.token
  !c.started && earlier.all (fun y => y.started && !blkSer y.block) && (!ser || earlier.isEmpty)
    && decide ((x.cmds.filter fun y => y.started).length < 4)

/-- The destination of a `CDEL` with HND: the core whose local memory it is (R303). -/
def handCore (c : TugCmd) : Option Nat :=
  match ptrKind c.dst with
  | 0 => some c.core
  | 1 => if ptrUnit c.dst < 8 then some (ptrBasin c.dst * 8 + ptrUnit c.dst) else none
  | _ => none

/-- Every box of a command has completed, or it has stopped. -/
def TugCmd.worked (c : TugCmd) : Bool := c.stop.isSome || (c.started && (List.range c.nboxes).all c.isDone)

/-- The tug reads its instruction memory. An uncorrectable error stops every command with work left, with a VAL that the
spec does not state, and is recorded each time it is met (18 R366, R369). A command that has not started stops at its start,
when its block has been read. -/
def State.readImem (s : State) (b : Nat) (c : TugCmd) : State :=
  let x := s.getBasin b
  if !x.tug.imemBad then s
  else
    let v := Config.freeWord s.free
    let s : State := { s with free := s.free + 1 }
    let s := s.setBasin b { x with tug := { x.tug with cmds := x.tug.cmds.map fun y =>
      if y.worked then y
      else if !y.started then { y with imem := true }
      else { y with stop := some (.ue, v), imem := true, tag := none, verdict := none, pinned := none } } }
    s.postUeFree (some c.handle) (quayOf b) 6

/-- The block of a command, as it was read at a save or as it is read now (R297, R300). -/
def State.tugBlock (s : State) (c : TugCmd) : Line × Option (Cause × Nat × Nat) :=
  if c.blockRead then (c.block, none) else s.readBlock c.core c.off

/-- Start a command whose OP is `op`, or end one whose block fails (R294, R297). It follows the accesses that precede it
(10 R265). -/
def State.startTug (s : State) (b t op : Nat) : State :=
  match s.findTug b t with
  | none => s
  | some c =>
    let (blk, bad) := s.tugBlock c
    let usable := bad.isNone
    let ser := usable && blkSer blk
    let okOp := usable && decide (1 ≤ blkOp blk ∧ blkOp blk ≤ 5)
    if !(s.getBasin b).tug.mayStart c ser || (okOp && blkOp blk != op) || s.priorPending c.core c.ctx c.after then s
    else
      let c : TugCmd := { c with started := true, block := blk }
      let stop (s : State) (cause : Cause) (v : Nat) : State :=
        s.setTug b { c with stop := some (cause, BitVec.ofNat 32 v), noCompletion := decide (v < 0x10) }
      if (s.getBasin b).tug.imemBad || c.imem then
        let dead := (bad.any fun e => decide (e.2.1 < 0x10)) || (usable && (tugBad (s.recOf c.core) blk).any (· < 0x10))
        let c' : TugCmd := { c with noCompletion := dead }
        if c.imem then ({ s with free := s.free + 1 } : State).setTug b { c' with stop := some (.ue, Config.freeWord s.free) }
        else (s.setTug b c').readImem b c
      else match bad with
        | some (cause, off, key) =>
          stop (if cause = .ue then s.meetUe (some c.handle) c.core c.ctx key (c.off + off) else s) cause off
        | none =>
          match tugBad (s.recOf c.core) blk with
          | some off => stop s .ill off
          | none =>
            if blkOp blk = 3 ∧ blkHnd blk = true ∧ (handCore c).isNone then
              s.setTug b { c with stop := some (.range, ptrLow c.dst) }
            else s.setTug b { c with nboxes := boxCount blk }

def execLin (b t : Nat) (s : State) : Host.Outcome State Fault Refusal := event (s.startTug b t 1)
def execPatch (b t : Nat) (s : State) : Host.Outcome State Fault Refusal := event (s.startTug b t 2)
def execCdel (b t : Nat) (s : State) : Host.Outcome State Fault Refusal := event (s.startTug b t 3)
def execHost (b t : Nat) (s : State) : Host.Outcome State Fault Refusal := event (s.startTug b t 4)
def execTern (b t : Nat) (s : State) : Host.Outcome State Fault Refusal := event (s.startTug b t 5)

/-- The store to the KICK register arrives, after the earlier ones of its context, and the tug accepts the command while it
has room (R293). -/
def execKickRegisterStore (n c b : Nat) (v : W32) (s : State) : Host.Outcome State Fault Refusal :=
  let hit (f : Flight) : Bool := match f with
    | .kick _ n' c' _ b' _ _ => n' == n && c' == c && b' == b
    | _ => false
  event (match s.net.findIdx? hit with
    | some k =>
      match s.net[k]? with
      | some (.kick h _ _ att _ v' after) =>
        if v' != v || s.tugFull b || s.savedAway h then s else ((s.dropFlight k).acceptKick b n c att (v.toNat % 131072) h after).2
      | _ => s
    | none => s)

/-! ## Boxes (R298 to R305) -/

/-- The end of a box: done, with ring items sent and INVG; paused at a line or entry that has to wait; or failed at
an access, with what has been performed so far. -/
inductive BoxOut where
  | done (s : State) (ring : Nat) (invg : Bool)
  | pause (s : State) (at_ ring : Nat) (pinned : Bool)
  | fail (s : State) (at_ ring : Nat) (f : EngFail)

/-- A box that is performed whole: a failed access leaves nothing of it (R300). -/
def wholeBox (s : State) (r : Except EngFail (State × Nat × Bool)) : BoxOut :=
  match r with
  | .ok (s, k, g) => .done s k g
  | .error f => .fail s 0 0 f

/-- Where the entries of a command go (R298). -/
inductive FifoDest where
  | none | bank (b k : Nat) | window (leaf : W64) | miss (m : Miss)

def State.fifoDest (s : State) (n bb : Nat) (P : W64) : FifoDest :=
  if (ptrCheck (s.recOf n) P).isSome then .none
  else match ptrKind P with
  | 1 => if ptrUnit P = 8 ∧ ptrOff P / 131072 < 12 ∧ s.mode (ptrBasin P) (ptrOff P / 131072) = 2 then
      .bank (ptrBasin P) (ptrOff P / 131072) else .none
  | 2 => match s.translate (s.via (stationOf bb)).1 (s.getCore n).spaceId.toNat (ptrOff P) .write .tug with
    | .ok (.ring leaf) _ => if ringFifo leaf then .window leaf else .none
    | .miss m _ => .miss m
    | _ => .none
  | _ => .none

/-- Whether a far address names host memory (R304). -/
def State.isHostMem (s : State) (n bb : Nat) (P : W64) (off : Nat) (a : Acc) : Bool :=
  ptrKind P == 2 && match s.translate (s.via (stationOf bb)).1 (s.getCore n).spaceId.toNat (ptrOff P + off) a .tug with
    | .ok (.mem key _) _ => decide (2 ^ 49 ≤ key)
    | _ => false

/-- One piece of a linear copy; for HOST, exactly one side is host memory (R304). -/
def State.copyPiece (s : State) (b : Nat) (c : TugCmd) (off z : Nat) : Except EngFail (State × Nat) := do
  let (bs, s) ← s.engReadAll c.core c.basin c.src off c.acc .tug (piecesOf c.src off z) []
  let r ← s.engWrite c.core (c.owner b) c.dst off bs .tug
  if blkOp c.block = 4 ∧ s.isHostMem c.core c.basin c.src off c.acc = s.isHostMem c.core c.basin c.dst off .write then .error (engStop .perm 0)
  else .ok r

/-- The pieces of a box in ascending order, each read and then written. The rule names no order of the accesses of a box, which
decides what stops a command that would meet several faults (log entry 79). -/
def State.copyPieces (s : State) (b : Nat) (c : TugCmd) (off k : Nat) : List (Nat × Nat) → Except EngFail (State × Nat)
  | [] => .ok (s, k)
  | (o, z) :: t => do
    let (s, m) ← s.copyPiece b c (off + o) z
    s.copyPieces b c off (k + m) t

/-- Push entry `j` of a box; false while it waits (R239, R298). -/
def State.pushEntry (s : State) (b : Nat) (c : TugCmd) (dest : FifoDest) (off : Nat) : Except EngFail (State × Nat × Bool) := do
  let (bs, s) ← s.engReadAll c.core c.basin c.src off c.acc .tug (piecesOf c.src off 64) []
  if blkOp c.block = 4 ∧ s.isHostMem c.core c.basin c.src off c.acc = false then .error (engStop .perm 0)
  else match dest with
    | .bank fb fk =>
      let src : PushSrc := .tug b c.token
      let f := (s.fifo fb fk).push src (bytesLine bs)
      .ok (s.setFifo fb fk f, 0, !f.pushes.any fun p => p.src == src)
    | .window leaf =>
      if !s.ring.reaches leaf then .error (engStop .range (ptrLow c.dst))
      else .ok (s.ringSend [ringOutOf c.basin leaf (.entry (ringBank leaf) (bytesLine bs)) (.tug b c.token) (ptrLow c.dst)], 1, true)
    | _ => .error (engStop .range (ptrLow c.dst))

def State.pushEntries (s : State) (b : Nat) (c : TugCmd) (dest : FifoDest) (base n : Nat) : Nat → Nat → Nat → BoxOut
  | 0, _, k => .done s k false
  | fuel + 1, j, k =>
    if n ≤ j then .done s k false
    else match s.pushEntry b c dest (base + 64 * j) with
      | .error f => .fail s j k f
      | .ok (s, m, true) => s.pushEntries b c dest base n fuel (j + 1) (k + m)
      | .ok (s, m, false) => .pause s (j + 1) (k + m) false

/-- Box `i` of LIN and HOST. -/
def State.linBox (s : State) (b : Nat) (c : TugCmd) (i : Nat) : BoxOut :=
  let n := min 4096 (c.len - 4096 * i)
  match s.fifoDest c.core c.basin c.dst with
  | .miss m => .fail s 0 0 (engFail (.miss m) c.dst)
  | .none =>
    wholeBox s ((s.copyPieces b c (4096 * i) 0 (piecesOf c.dst (4096 * i) n)).map fun r => (r.1, r.2, false))
  | dest =>
    if c.len % 64 ≠ 0 then .fail s 0 0 (engStop .range (ptrLow c.dst))
    else
      let waits : Bool := match dest with
        | .bank fb fk => (s.fifo fb fk).pushes.any fun p => p.src == .tug b c.token
        | _ => false
      if waits then .pause s c.resume 0 false
      else s.pushEntries b c dest (4096 * i) (n / 64) 65 c.resume 0

/-- Deliver line `j` of a CDEL (R303, 05 R124); `none` while it waits for a way. -/
def State.deliverLine (s : State) (b : Nat) (c : TugCmd) (off : Nat) : Except EngFail (Option (State × Nat)) := do
  let (bs, s) ← s.engReadAll c.core c.basin c.src off c.acc .tug (piecesOf c.src off 64) []
  let Q ← engPtr c.dst off 64
  let (place, s) ← engLift Q (s.resolve c.core Q 64 1 .counted .group .tug c.basin)
  let count := blkBits c.block 0x24 0 8
  let r ← engLift Q (s.deliverCounted place Q (bytesLine bs) count)
  match place, r with
  | .ring (p :: _), some s =>
    if !s.ring.reaches p.leaf then .error (engStop .range (ptrLow Q))
    else .ok (some (s.ringSend [ringOutOf c.basin p.leaf (.counted (ringOff p.leaf p.va) (bytesLine bs) count) (.tug b c.token)
      (ptrLow Q)], 1))
  | _, some s => .ok (some (s, 0))
  | _, none => .ok none

/-- The wait of a CDEL for a way has lasted CNT_LIMIT cycles (09 R247). -/
def State.tugExpired (s : State) (c : TugCmd) : Bool :=
  match c.pinned with
  | some t => decide ((s.getCore c.core).cntLimit.toNat ≤ (s.getCore c.core).cyc - t)
  | none => false

def State.deliverLines (s : State) (b : Nat) (c : TugCmd) (base n : Nat) : Nat → Nat → Nat → BoxOut
  | 0, _, k => .done s k false
  | fuel + 1, j, k =>
    if n ≤ j then .done s k false
    else if decide (j = c.resume) && s.tugExpired c then
      .fail s j k (engStop .pressure (ptrLow c.dst + BitVec.ofNat 32 (base + 64 * j)))
    else match s.deliverLine b c (base + 64 * j) with
      | .error f => .fail s j k f
      | .ok (some (s, m)) => s.deliverLines b c base n fuel (j + 1) (k + m)
      | .ok none => .pause s j k true

/-! ### PATCH (R302) -/

def low16 (x : W32) : Int := (x.extractLsb' 0 16 : BitVec 16).toInt
def high16 (x : W32) : Int := (x.extractLsb' 16 16 : BitVec 16).toInt

/-- A patch: x, y, w, h. -/
abbrev PatchEntry := Int × Int × Nat × Nat

def State.patchEntry (s : State) (c : TugCmd) (i : Nat) : Except EngFail (PatchEntry × State) := do
  let (bs, s) ← s.engRead c.core c.basin (localPtr 0) ((blkWord c.block 0x28).toNat + 8 * i) 8 .read .tug
  let a := bytes32 bs
  let d := bytes32 (bs.drop 4)
  .ok ((low16 a, high16 a, d.toNat % 65536, d.toNat / 65536), s)

/-- The columns of row `r` of a patch that lie in the image: source offset and range of columns. -/
def patchSpan (blk : Line) (e : PatchEntry) (r : Nat) : Option (Nat × Nat × Nat) :=
  let (x, y, w, _) := e
  let wide := blkBits blk 0x24 0 16
  let rows := blkBits blk 0x24 16 16
  let Y := y + r
  if Y < 0 ∨ (rows : Int) ≤ Y then none
  else
    let lo := (max 0 (-x)).toNat
    let hi := min (w : Int) ((wide : Int) - x)
    if hi ≤ lo then none
    else some (Y.toNat * (blkWord blk 0x20).toNat + (x + lo).toNat, lo, hi.toNat - lo)

/-- The bytes of row `r`. -/
def State.patchRow (s : State) (c : TugCmd) (e : PatchEntry) (r : Nat) : Except EngFail (List Byte × State) :=
  let pad := List.replicate e.2.2.1 (BitVec.ofNat 8 (blkBits c.block 0x34 0 8))
  match patchSpan c.block e r with
  | none => .ok (pad, s)
  | some (off, lo, n) => do
    let (bs, s) ← s.engReadAll c.core c.basin c.src off c.acc .tug (piecesOf c.src off n) []
    .ok (pad.take lo ++ bs ++ pad.drop (lo + n), s)

def State.patchRows (s : State) (c : TugCmd) (e : PatchEntry) : List Nat → List Byte → Except EngFail (List Byte × State)
  | [], bs => .ok (bs, s)
  | r :: t, bs => do
    let (row, s) ← s.patchRow c e r
    s.patchRows c e t (bs ++ row)

def State.patchBox (s : State) (b : Nat) (c : TugCmd) (i : Nat) : Except EngFail (State × Nat × Bool) := do
  let (e, s) ← s.patchEntry c i
  let (w, h) := e.2.2
  if w = 0 ∨ h = 0 ∨ 4096 < w * h then .error (engStop .range (BitVec.ofNat 32 i))
  else do
    let (bs, s) ← s.patchRows c e (List.range h) []
    let off := i * (blkWord c.block 0x30).toNat
    let (s, k) ← s.engWriteAll c.core (c.owner b) c.dst off bs .tug 0 (piecesOf c.dst off bs.length)
    .ok (s, k, false)

/-! ### TERN (R305) -/

/-- x / 160 in FP32 with RNE. -/
def fDiv160 (x : Nat) : Nat :=
  match fpVal x with
  | .fin neg m e =>
    if m = 0 then x else (fp32.round .rne neg (m * 2 ^ 40 / 160) (e - 40) (m * 2 ^ 40 % 160 != 0)).1
  | _ => x

/-- The scale container of a group's mean s (R305). -/
def boxScale (x : Nat) : Nat :=
  let e := x / 2 ^ 23 % 256
  let m := rneDiv ((x % 2 ^ 23 : Nat) : Int) (2 ^ 19)
  if e = 0 then 0
  else if e = 255 then 254 * 16 + 15
  else
    let e' := if m = 16 then e + 1 else e
    let m' := if m = 16 then 0 else m.toNat
    if 254 < e' then 254 * 16 + 15 else e' * 16 + m'

/-- One weight group: its 32 bytes, its scale container and INVG (R305). -/
def ternGroup (theta : Nat) (bs : List Byte) : List Byte × Nat × Bool :=
  let w := (List.range 160).map fun k => leNat ((bs.drop (2 * k)).take 2) * 65536
  let pack (ts : List Int) : List Byte := (List.range 32).map fun i => BitVec.ofNat 8 (t5Byte ((ts.drop (5 * i)).take 5))
  if w.any fun x => x / 2 ^ 23 % 256 == 255 then (pack (List.replicate 160 0), 0xFF0, true)
  else
    let a := w.foldl (fun a x => (fAdd .rne a (x % 2 ^ 31)).1) 0
    let s := fDiv160 a
    let d := (fMul .rne theta s).1
    let trit (x : Nat) : Int := if (fClt d x).1 then 1 else if (fClt x (fNegBits d)).1 then -1 else 0
    (pack (w.map trit), boxScale s, false)

def State.ternGroupAt (s : State) (b : Nat) (c : TugCmd) (g : Nat) : Except EngFail (State × Nat × Bool) := do
  let (bs, s) ← s.engReadAll c.core c.basin c.src (320 * g) c.acc .tug (piecesOf c.src (320 * g) 320) []
  let (out, sc, inv) := ternGroup (blkWord c.block 0x2C).toNat bs
  let scl := blkPtr c.block 0x20
  let (s, k) ← s.engWriteAll c.core (c.owner b) c.dst (32 * g) out .tug 0 (piecesOf c.dst (32 * g) 32)
  let (s, m) ← s.engWriteAll c.core (c.owner b) scl (2 * g) (leBytes 2 sc) .tug k (piecesOf scl (2 * g) 2)
  .ok (s, m, inv)

def State.ternGroups (s : State) (b : Nat) (c : TugCmd) : List Nat → Nat → Bool → Except EngFail (State × Nat × Bool)
  | [], k, inv => .ok (s, k, inv)
  | g :: t, k, inv => do
    let (s, m, v) ← s.ternGroupAt b c g
    s.ternGroups b c t (k + m) (inv || v)

/-- A PATCH or TERN whose destination reaches a FIFO stops there (R298). -/
def State.noFifo (s : State) (n bb : Nat) (P : W64) : Except EngFail Unit :=
  match s.fifoDest n bb P with
  | .none => .ok ()
  | .miss m => .error (engFail (.miss m) P)
  | _ => .error (engStop .range (ptrLow P))

/-- Box `i` of a command. -/
def State.runBox (s : State) (b : Nat) (c : TugCmd) (i : Nat) : BoxOut :=
  match blkOp c.block with
  | 2 => wholeBox s (do s.noFifo c.core c.basin c.dst; s.patchBox b c i)
  | 3 => s.deliverLines b c (4096 * i) (min 4096 (c.len - 4096 * i) / 64) 65 c.resume 0
  | 5 =>
    let n := (blkWord c.block 0x28).toNat
    wholeBox s (do
      s.noFifo c.core c.basin c.dst
      s.noFifo c.core c.basin (blkPtr c.block 0x20)
      s.ternGroups b c ((List.range (min 8 (n - 8 * i))).map (8 * i + ·)) 0 false)
  | _ => s.linBox b c i

/-! ### Decrements (R249, R298) -/

/-- Lines of SRC that box `i` reads, as offsets from address 0 in units of 64 bytes. -/
def State.boxLines (s : State) (c : TugCmd) (i : Nat) : List Nat :=
  let span (off n : Nat) : List Nat :=
    if n = 0 then [] else
      let lo := (ptrOff c.src + off) / 64
      (List.range ((ptrOff c.src + off + n - 1) / 64 + 1 - lo)).map (lo + ·)
  match blkOp c.block with
  | 2 => match s.patchEntry c i with
    | .ok (e, _) => ((List.range e.2.2.2).flatMap fun r => match patchSpan c.block e r with
        | some (off, _, n) => span off n
        | none => []).eraseDups
    | .error _ => []
  | 5 => span (2560 * i) (320 * min 8 ((blkWord c.block 0x28).toNat - 8 * i))
  | _ => span (4096 * i) (min 4096 (c.len - 4096 * i))

/-- Boxes that may share a line with box `i`. -/
def TugCmd.neighbours (c : TugCmd) (i : Nat) : List Nat :=
  if blkOp c.block = 2 then (List.range c.nboxes).filter (· ≠ i)
  else (if i = 0 then [] else [i - 1]) ++ if i + 1 < c.nboxes then [i + 1] else []

/-- How the decrements of a box end: made; at a line found dropped (10 R271); or at an access that fails, with the lines that
are left. -/
inductive DecEnd where
  | done
  | dropped (v : W32)
  | fail (rest : List Nat) (f : EngFail)

/-- Decrement lines of SRC in ascending order. -/
def State.decSource (s : State) (c : TugCmd) : List Nat → State × DecEnd
  | [] => (s, .done)
  | l :: t =>
    let P := setOff c.src ((ptrWidth c.src).getD 0) ((64 * l : Nat) : Int)
    match engLift P (s.resolve c.core P 1 1 .dec .any .tug c.basin) with
    | .ok (.mem ps, s) =>
      if ps.any fun p => decide (s.lineState (p.key / 64) = .dropped) then (s, .dropped (ptrLow P))
      else (ps.foldl (fun s p => s.decLine (p.key / 64)) s).decSource c t
    | .ok _ => (s, .fail (l :: t) (engStop .range (ptrLow P)))
    | .error f => (s, .fail (l :: t) f)

/-- A failed access of a command: a translation waits for the host, any other cause stops it (R298, R300). -/
def State.failTug (s : State) (b : Nat) (c : TugCmd) (f : EngFail) : State :=
  let stop (s : State) (cause : Cause) : State := s.setTug b { c with stop := some (cause, f.val), pinned := none }
  match f.fail with
  | .ptr cause => stop s cause
  | .cause cause => stop s cause
  | .ue k => stop (s.meetUe (some c.handle) c.core c.ctx k f.addr) .ue
  | .miss m =>
    let (s, t) := s.openTag (quayOf c.basin) m (s.getCore c.core).launchId
    s.setTug b { c with tag := t, missVal := f.val }

/-- The decrements that box `i`, which completes with them, has to make. A line that another consumer has dropped since the box
read it stops the command (10 R271); one whose translation fails is waited for, as an access of the box is (R300). -/
def State.makeDecs (s : State) (b : Nat) (c : TugCmd) (i : Nat) (ls : List Nat) : State :=
  let open_ : TugCmd := { c with boxes := mset false c.boxes i false }
  match s.decSource c ls with
  | (s, .done) => s
  | (s, .dropped v) => s.setTug b { open_ with stop := some (.overread, v) }
  | (s, .fail rest f) => s.failTug b { open_ with boxed := true, resumeBox := i, decs := some rest } f

/-- Decrement each source line whose last reader is box `i`. -/
def State.boxDecs (s : State) (b : Nat) (c : TugCmd) (i : Nat) : State :=
  if !blkCons c.block then s
  else
    let others := ((c.neighbours i).filter fun j => !c.isDone j).flatMap (s.boxLines c)
    s.makeDecs b c i ((s.boxLines c i).filter fun l => !others.contains l)

/-- The wait of a CDEL for a way: PSTALL rises when it begins (09 R247). -/
def State.pinTug (s : State) (b : Nat) (c : TugCmd) : State :=
  match c.pinned with
  | none => (s.stall c.core).setTug b { c with pinned := some (s.getCore c.core).cyc }
  | some _ => s.setTug b c

/-- The launch is being switched off its basins (15 R340). -/
def State.preempting (s : State) (h : Nat) : Bool :=
  match s.launchOf h with
  | some l => decide (l.phase = .preempting)
  | none => false

/-- A box of the command that meets a miss goes on where it was (R300): of CDEL, or one that writes to a FIFO bank or window. -/
def State.goesOn (s : State) (c : TugCmd) : Bool :=
  blkOp c.block == 3 || match s.fifoDest c.core c.basin c.dst with
    | .bank .. => true
    | .window _ => true
    | _ => false

/-- Whether box `i` may go on or start now (R298, R299, R300). -/
def State.boxReady (s : State) (c : TugCmd) (i : Nat) : Bool :=
  let begun := c.boxed || c.pinned.isSome
  let inOrder := match s.fifoDest c.core c.basin c.dst with
    | .bank .. => true
    | .window _ => true
    | _ => false
  c.started && c.stop.isNone && c.tag.isNone && !s.priorPending c.core c.ctx c.after && decide (i < c.nboxes) && !c.isDone i
    && (if begun then i == c.resumeBox else !s.preempting c.handle)
    && (!inOrder || (List.range i).all c.isDone)

/-- TUG_BOX. -/
def execTugBox (b t i : Nat) (s : State) : Host.Outcome State Fault Refusal :=
  event (match s.findTug b t with
    | none => s
    | some c =>
      if !s.boxReady c i then s
      else if (s.getBasin b).tug.imemBad then s.readImem b c
      else match c.decs with
      | some ls =>
        let c' : TugCmd := { c with boxes := mset false c.boxes i true, resumeBox := 0, boxed := false, decs := none }
        (s.setTug b c').makeDecs b c' i ls
      | none => match s.runBox b c i with
        | .done s' k inv =>
          let c' : TugCmd := { c with boxes := mset false c.boxes i true, ringOut := c.ringOut + k, invg := c.invg || inv
                                      resume := 0, resumeBox := 0, boxed := false, pinned := none }
          (s'.setTug b c').boxDecs b c' i
        | .pause s' at_ k pin =>
          let c' : TugCmd := { c with resume := at_, resumeBox := i, boxed := true, ringOut := c.ringOut + k
                                      pinned := if at_ = c.resume then c.pinned else none }
          if pin then s'.pinTug b c' else s'.setTug b c'
        | .fail s' at_ k f =>
          s'.failTug b { c with resume := at_, resumeBox := i, boxed := s.goesOn c, ringOut := c.ringOut + k, pinned := none } f)

/-! ## Completion (R296) -/

/-- What an engine's command ends with. -/
structure EngEnd where
  keeper : Bool
  token : Nat
  core : Nat
  ctx : Nat
  handle : Nat
  off : Nat
  block : Line
  cause : Cause
  val : W32
  invg : Bool := false
  noCompletion : Bool := false
  /-- Its end is reported whatever CKIND says (18 R369). -/
  always : Bool := false

def EngEnd.status (e : EngEnd) : W32 := BitVec.ofNat 32 (e.token * 65536 + (if e.invg then 256 else 0) + causeCode e.cause)

/-- An ENGINE record (18 R374). -/
def State.postEngine (s : State) (e : EngEnd) (c : Cause) : State :=
  match s.launchOf e.handle with
  | none => s
  | some l => s.postLaunch e.handle (mkRecord 0x07 c l.lrec.lid e.ctx e.core false
      (BitVec.ofNat 32 ((if e.keeper then 2 ^ 31 else 0) + blkOp e.block * 65536 + e.token)) e.status e.val (BitVec.ofNat 32 e.off))

/-- The write of {VAL, status} to the completion word: the cause it met, and the ring items it sent; or the translation it
waits for. A target that 05 R114 does not permit leaves the word unwritten, and its cause is posted: R296 does not list it (log
entry 78). -/
def State.writeCword (s : State) (e : EngEnd) (owner : RingOwner) : Except Miss (State × Option Cause × Nat) :=
  if e.noCompletion ∨ !blkCword e.block then .ok (s, none, 0)
  else
    match s.engWrite e.core owner (blkPtr e.block 8) 0 (leBytes 4 e.status.toNat ++ leBytes 4 e.val.toNat) (if e.keeper then .ctx else .tug) with
    | .ok (s, k) => .ok (s, none, k)
    | .error f => match f.fail with
      | .miss m => .error m
      | .ue k => .ok (s.meetUe (some e.handle) e.core e.ctx k f.addr, some .ue, 0)
      | .cause c => .ok (s, some c, 0)
      | .ptr c => .ok (s, some c, 0)

/-- The steps of R296 after the completion word, whose write met `w`: the fill, and the records. -/
def State.completeEngine (s : State) (e : EngEnd) (w : Option Cause) : State :=
  let s := if !e.noCompletion && blkFill e.block then
      match targetOf (blkWord e.block 4) with
      | some t => s.sendFill e.handle t e.status
      | none => s
    else s
  let s := match w with
    | some c => s.postEngine e c
    | none => s
  let silent := !blkFill e.block && !blkCword e.block
  if e.noCompletion || e.always || (silent && !decide (e.cause = .none)) then s.postEngine e e.cause else s

/-- Keep the ended commands that `ktest` may report: those among the last 256 issued (08 R218). -/
def remember (xs : List (Nat × Cause)) (t : Nat) (c : Cause) : List (Nat × Cause) := ((t, c) :: xs).take 272

/-- The handler task of a CDEL, once every line is written (R303); QUEUE when it is refused. -/
def State.cdelHand (s : State) (c : TugCmd) : State × Bool :=
  match handCore c with
  | some tgt =>
    if !s.liveLaunch c.handle then (s, true) else
    let w := blkWord c.block 0x28
    let (id, s) := s.nextId c.core
    let m : Message := { pc := handlerPc w, level := handlerLevel w, arg0 := BitVec.ofNat 32 (ptrOff c.dst), arg1 := BitVec.ofNat 32 c.len, id := id }
    let (ok, s) := s.enqueue tgt m
    (s, ok)
  | none => (s, true)

/-- What a tug command ends with. -/
def TugCmd.ending (c : TugCmd) : EngEnd :=
  { keeper := false, token := c.token, core := c.core, ctx := c.ctx, handle := c.handle, off := c.off, block := c.block
    cause := (c.stop.map (·.1)).getD .none, val := (c.stop.map (·.2)).getD (BitVec.ofNat 32 c.nboxes), invg := c.invg
    noCompletion := c.noCompletion, always := c.imem }

/-- A tug command leaves, with its last steps (R296). -/
def State.endTug (s : State) (b : Nat) (c : TugCmd) (w : Option Cause) : State :=
  let s := s.completeEngine c.ending w
  let x := s.getBasin b
  s.setBasin b { x with tug := { x.tug with cmds := x.tug.cmds.filter (fun y => y.token != c.token)
                                            ended := remember x.tug.ended c.token c.ending.cause } }

/-- The completion word of a tug command, after which the command leaves, once a write through a ring window has been
answered (R296, 16 R358). A translation that the host refuses leaves the word unwritten. -/
def State.wordTug (s : State) (b : Nat) (c : TugCmd) : State :=
  match c.verdict with
  | some cause => s.endTug b c (some cause)
  | none => match s.writeCword c.ending (c.owner b) with
    | .error m =>
      let (s, tag) := s.openTag (quayOf c.basin) m (s.getCore c.core).launchId
      s.setTug b { c with tag := tag }
    | .ok (s, w, 0) => s.endTug b c w
    | .ok (s, w, k) => s.setTug b { c with ringOut := k, cword := some w }

/-- TUG_COMPLETION: the handler task of a CDEL (none where LEN is 0: log entry 64), then the completion word, then the rest of R296. -/
def execTugCompletion (b t : Nat) (s : State) : Host.Outcome State Fault Refusal :=
  event (match s.findTug b t with
    | none => s
    | some c =>
      if !c.worked || c.tag.isSome || c.ringOut ≠ 0 then s
      else match c.cword with
        | some w => s.endTug b c w
        | none =>
          if c.stop.isNone && blkOp c.block == 3 && blkHnd c.block && !c.handed && c.len != 0 then
            let (s, ok) := s.cdelHand c
            s.wordTug b { c with handed := true, stop := if ok then none else some (.queue, BitVec.ofNat 32 c.nboxes) }
          else s.wordTug b c)

/-! ## The keeper (R306 to R311) -/

/-- `keep` (08 R217): busy, malformed, or accepted with its block copied, after the earlier accesses of its context
(10 R265). A block that cannot be read is accepted and stops (R307). -/
def execKeep (d a : BitVec 5) (s : State) : Host.Outcome State Fault Refusal :=
  issue (.keep d a) (gids [a]) [gid d] s fun s => do
    let v := s.rg a
    let s ← s.publish
    blockCheck s v.toNat v
    waitIf (s.priorPending s.core s.ctx s.seq) s
    let b := basinOf s.core
    let h := s.handleOf s.core
    let answer (s : State) (w : W32) : Except Stop (State × Flow) :=
      .ok (if d = 0 then s else (s.emptyRegs [gid d]).sendFill h { core := s.core, ctx := s.ctx, reg := d.toNat } w, .seq)
    let x := s.getBasin b
    let (blk, bad) := s.readBlock s.core v.toNat
    if 4 ≤ x.keeper.reqs.length then answer s 1
    else if bad.isNone && (keeperBad (s.recOf s.core) blk).isSome then answer s 2
    else
      let t := x.keeper.next.toNat
      let r : KeepReq := { token := t, core := s.core, ctx := s.ctx, att := s.cur.att, handle := h, off := v.toNat, block := blk
                           result := bad.map fun e => (e.1, BitVec.ofNat 32 (v.toNat + e.2.1))
                           noCompletion := bad.any fun e => decide (e.2.1 < 0x10), after := s.seq }
      let s := s.setBasin b { x with keeper := { x.keeper with next := x.keeper.next + 1, reqs := x.keeper.reqs ++ [r] } }
      let s := match bad with
        | some (.ue, off, key) => s.meetUe (some h) s.core s.ctx key (v.toNat + off)
        | _ => s
      answer s (BitVec.ofNat 32 (t * 65536))

/-- A command or a request of a launch that has been saved: it is pending throughout (R300). -/
def State.savedCmd (s : State) (b t : Nat) (kp : Bool) : Bool :=
  s.objs.any fun o => ((o.2.launch.bind (·.save)).map fun v => v.basins.any fun e => e.1 == b &&
    if kp then e.2.keeper.reqs.any fun r => r.token == t else e.2.tug.cmds.any fun c => c.token == t).getD false

/-- `ktest` (08 R218). -/
def execKtest (d a : BitVec 5) (kp : Bool) (s : State) : Host.Outcome State Fault Refusal :=
  issue (.ktest d a kp) (gids [a]) [gid d] s fun s =>
    let t := (s.rg a).toNat % 65536
    let x := s.getBasin (basinOf s.core)
    let pending := (if kp then x.keeper.reqs.any (fun r => r.token == t) else x.tug.cmds.any (fun c => c.token == t))
      || s.savedCmd (basinOf s.core) t kp
    let ended := if kp then x.keeper.ended else x.tug.ended
    let next := if kp then x.keeper.next else x.tug.next
    let age := (next - BitVec.ofNat 16 t).toNat
    let w : Nat :=
      if pending then 0
      else if age = 0 ∨ 256 < age then 3
      else match ended.find? fun e => e.1 == t with
        | some (_, .none) => 1
        | some (_, c) => causeCode c * 256 + 2
        | none => 3
    .ok (s.wg d (BitVec.ofNat 32 w), .seq)

/-- A request that stops: the state with what has been written, the cause and VAL, and the elements written (RES). -/
structure KeepStop where
  st : State
  fail : EngFail
  elems : Nat

abbrev KeepM (α : Type) := Except KeepStop α

/-- An access of a request at byte `off` of an array: one whose translation the host refused stops it (15 R339). -/
def KeepReq.access (r : KeepReq) (P : W64) (off : Nat) (run : Except EngFail α) : Except EngFail α :=
  match r.verdict, engPtr P off 4 with
  | some c, .ok Q => if Q = r.missPtr then .error (engFail (.cause c) Q) else run
  | _, _ => run

/-- A word of an array, by plain read. -/
def State.keepRead (s : State) (r : KeepReq) (elems : Nat) (P : W64) (i : Nat) : KeepM (Nat × State) :=
  match r.access P (4 * i) (s.engRead r.core (basinOf r.core) P (4 * i) 4 .read .ctx) with
  | .ok (bs, s) => .ok (leNat bs, s)
  | .error f => .error ⟨s, f, elems⟩

/-- A word is written at byte `off` from P. -/
def State.keepStore (s : State) (r : KeepReq) (elems : Nat) (P : W64) (off v : Nat) : KeepM State :=
  match r.access P off (s.engWrite r.core (.keeper (basinOf r.core) r.token) P off (leBytes 4 v) .ctx) with
  | .ok (s, _) => .ok s
  | .error f => .error ⟨s, f, elems⟩

def State.keepWrite (s : State) (r : KeepReq) (elems : Nat) (P : W64) (i v : Nat) : KeepM State :=
  s.keepStore r elems P (4 * i) v

/-- ORDER at a value. -/
def orderStop (s : State) (v elems : Nat) : KeepStop := ⟨s, engStop .order (BitVec.ofNat 32 v), elems⟩

/-- Words 0 to N of PTR, checked for rising order (R308, R310). -/
def State.keepPtrs (s : State) (r : KeepReq) (P : W64) : List Nat → List Nat → KeepM (List Nat × State)
  | [], acc => .ok (acc.reverse, s)
  | i :: t, acc => do
    let (x, s) ← s.keepRead r 0 P i
    match acc with
    | y :: _ => if x < y then .error (orderStop s (i - 1) 0) else s.keepPtrs r P t (x :: acc)
    | [] => s.keepPtrs r P t [x]

def State.keepWriteAll (s : State) (r : KeepReq) (elems : Nat) (P : W64) : List (Nat × Nat) → KeepM State
  | [] => .ok s
  | (i, v) :: t => do
    let s ← s.keepWrite r elems P i v
    s.keepWriteAll r elems P t

def pairDiffs : List Nat → List Nat
  | a :: b :: t => (b - a) :: pairDiffs (b :: t)
  | _ => []

/-- Class of a row of length ℓ (R308). -/
def binClass (ts : List Nat) (len : Nat) : Nat := if len = 0 then 0 else 1 + (ts.filter (· ≤ len)).length

/-- BIN (R308); the answer is the number of elements written. -/
def State.keepBin (s : State) (r : KeepReq) : KeepM (Nat × State) := do
  let blk := r.block
  let n := (blkWord blk 0x28).toNat
  let ts := thresholds blk
  let (ptrs, s) ← s.keepPtrs r (blkPtr blk 0x10) (List.range (n + 1)) []
  let cls := (pairDiffs ptrs).map (binClass ts)
  let rows := (List.range (ts.length + 2)).flatMap fun k => (cls.zipIdx.filter fun e => e.1 == k).map (·.2)
  let s ← s.keepWriteAll r 0 (blkPtr blk 0x20) ((List.range (ts.length + 2)).map fun k => (k, cls.count k))
  let s ← s.keepWriteAll r 0 (blkPtr blk 0x18) (rows.zipIdx.map fun e => (e.2, e.1))
  .ok (n, s)

/-- The element of a stream after its element n − 1, `old`, checked (R309); 0 at its end. Each element is read once (R307). -/
def State.keepNext (s : State) (r : KeepReq) (k : Nat) (P : W64) (stream n nx old : Nat) : KeepM (Nat × State) :=
  if n < nx then do
    let (x, s) ← s.keepRead r k P n
    if x ≤ old then .error (orderStop s (stream * 2 ^ 31 + n) k) else .ok (x, s)
  else .ok (0, s)

/-- The walk of MERGE and ISECT (R309) at A[i] = x and B[j] = y. -/
def State.keepWalk (s : State) (r : KeepReq) (isect : Bool) : Nat → Nat → Nat → Nat → Nat → Nat → KeepM (Nat × State)
  | 0, _, _, _, _, k => .ok (k, s)
  | fuel + 1, i, j, x, y, k => do
    let blk := r.block
    let A := blkPtr blk 0x10
    let B := blkPtr blk 0x18
    let out := blkPtr blk 0x20
    let na := (blkWord blk 0x28).toNat
    let nb := (blkWord blk 0x2C).toNat
    if i < na ∧ (j = nb ∨ x < y) then do
      let s ← if isect then .ok s else s.keepWrite r k out k x
      let k := if isect then k else k + 1
      let (x, s) ← s.keepNext r k A 0 (i + 1) na x
      s.keepWalk r isect fuel (i + 1) j x y k
    else if j < nb ∧ (i = na ∨ y < x) then do
      let s ← if isect then .ok s else s.keepWrite r k out k y
      let k := if isect then k else k + 1
      let (y, s) ← s.keepNext r k B 1 (j + 1) nb y
      s.keepWalk r isect fuel i (j + 1) x y k
    else if i < na ∧ j < nb then do
      let index (s : State) (off v : Nat) : KeepM State :=
        if !isect || decide (blkWord blk off = BitVec.allOnes 32) then .ok s
        else s.keepWrite r k (localPtr 0) ((blkWord blk off).toNat / 4 + k) v
      let s ← s.keepWrite r k out k x
      let s ← index s 0x30 i
      let s ← index s 0x34 j
      let (x, s) ← s.keepNext r (k + 1) A 0 (i + 1) na x
      let (y, s) ← s.keepNext r (k + 1) B 1 (j + 1) nb y
      s.keepWalk r isect fuel (i + 1) (j + 1) x y (k + 1)
    else s.keepWalk r isect fuel i j x y k

def State.keepMerge (s : State) (r : KeepReq) (isect : Bool) : KeepM (Nat × State) := do
  let na := (blkWord r.block 0x28).toNat
  let nb := (blkWord r.block 0x2C).toNat
  let (x, s) ← if 0 < na then s.keepRead r 0 (blkPtr r.block 0x10) 0 else .ok (0, s)
  let (y, s) ← if 0 < nb then s.keepRead r 0 (blkPtr r.block 0x18) 0 else .ok (0, s)
  s.keepWalk r isect (na + nb) 0 0 x y 0

/-- The index of the first element that is at least x. -/
def lowerIndex (xs : List Nat) (x : Nat) : Nat := (xs.takeWhile (· < x)).length

/-- PART (R310). -/
def State.keepPart (s : State) (r : KeepReq) : KeepM (Nat × State) := do
  let blk := r.block
  let n := (blkWord blk 0x28).toNat
  let k := (blkWord blk 0x2C).toNat
  let (ptrs, s) ← s.keepPtrs r (blkPtr blk 0x10) (List.range (n + 1)) []
  let p0 := ptrs.headD 0
  let nnz := ptrs.getD n 0 - p0
  let cut (j : Nat) : Nat := if j = 0 then 0 else if j = k then n else lowerIndex ptrs (p0 + j * nnz / k)
  let s ← s.keepWriteAll r 0 (blkPtr blk 0x18) ((List.range (k + 1)).map fun j => (j, cut j))
  .ok (k + 1, s)

/-- SCAN (R311). -/
def State.keepScan (s : State) (r : KeepReq) : List Nat → Nat → KeepM (Nat × State)
  | [], _ => .ok ((blkWord r.block 0x28).toNat, s)
  | i :: t, acc => do
    let (x, s) ← s.keepRead r i (blkPtr r.block 0x10) i
    let sum := (acc + x) % 2 ^ 32
    let s ← s.keepWrite r i (blkPtr r.block 0x18) i (if blkCons r.block then acc else sum)
    s.keepScan r t sum

/-- Run a request. -/
def State.keepRun (s : State) (r : KeepReq) : KeepM (Nat × State) :=
  match blkOp r.block with
  | 1 => s.keepBin r
  | 2 => s.keepMerge r false
  | 3 => s.keepMerge r true
  | 4 => s.keepPart r
  | _ => s.keepScan r (List.range (blkWord r.block 0x28).toNat) (blkWord r.block 0x2C).toNat

/-- Write RES (R307, R309). At 0xFFFF_FFFF, which R307 does not call malformed, the write ends with RANGE. -/
def State.keepRes (s : State) (r : KeepReq) (k : Nat) : KeepM State :=
  if blkOp r.block = 2 ∨ blkOp r.block = 3 then s.keepStore r k (localPtr 0) (blkWord r.block 0x38).toNat k else .ok s

def State.setKeep (s : State) (b : Nat) (r : KeepReq) : State :=
  let x := s.getBasin b
  s.setBasin b { x with keeper := { x.keeper with reqs := x.keeper.reqs.map fun y => if y.token = r.token then r else y } }

/-- Ring writes of the keeper's requests of a basin that have not been answered. -/
def State.keeperRing (s : State) (b t : Nat) : Nat := (s.ring.out.filter fun o => o.owner == .keeper b t).length

/-- The end of a run: its result, or its wait for a translation, before which nothing of it has been performed. -/
def State.keepEnd (s : State) (b : Nat) (r : KeepReq) (out : KeepM (Nat × State)) : State :=
  let ended (s : State) (c : Cause) (v : W32) : State :=
    s.setKeep b { r with result := some (c, v), verdict := none, ringOut := s.keeperRing b r.token }
  let fromStop (e : KeepStop) (res : State → State) : State :=
    match e.fail.fail with
    | .miss m =>
      let (s, t) := s.openTag (quayOf (basinOf r.core)) m (s.getCore r.core).launchId
      s.setKeep b { r with tag := t, missPtr := e.fail.ptr }
    | .ue k => ended (res (e.st.meetUe (some r.handle) r.core r.ctx k e.fail.addr)) .ue e.fail.val
    | .cause c => ended (res e.st) c e.fail.val
    | .ptr c => ended (res e.st) c e.fail.val
  match out with
  | .ok (k, s') => match s'.keepRes r k with
    | .ok s' => ended s' .none (BitVec.ofNat 32 k)
    | .error e => fromStop e id
  | .error e => fromStop e fun s' => match s'.keepRes r e.elems with
    | .ok s' => s'
    | .error e => e.st

/-- The request at the head runs, when its OP is `op`, after the accesses that precede it (10 R265). -/
def State.keepStep (s : State) (b op : Nat) : State :=
  match (s.getBasin b).keeper.reqs with
  | r :: _ =>
    if r.result.isSome || r.tag.isSome || blkOp r.block != op || s.priorPending r.core r.ctx r.after then s
    else s.keepEnd b r (s.keepRun r)
  | [] => s

def execBin (b : Nat) (s : State) : Host.Outcome State Fault Refusal := event (s.keepStep b 1)
def execMerge (b : Nat) (s : State) : Host.Outcome State Fault Refusal := event (s.keepStep b 2)
def execIsect (b : Nat) (s : State) : Host.Outcome State Fault Refusal := event (s.keepStep b 3)
def execPart (b : Nat) (s : State) : Host.Outcome State Fault Refusal := event (s.keepStep b 4)
def execScan (b : Nat) (s : State) : Host.Outcome State Fault Refusal := event (s.keepStep b 5)

/-- What a request ends with. -/
def KeepReq.ending (r : KeepReq) (cause : Cause) (v : W32) : EngEnd :=
  { keeper := true, token := r.token, core := r.core, ctx := r.ctx, handle := r.handle, off := r.off, block := r.block
    cause := cause, val := v, noCompletion := r.noCompletion }

/-- The request at the head leaves, with its last steps (R296). -/
def State.endKeep (s : State) (b : Nat) (r : KeepReq) (cause : Cause) (v : W32) (w : Option Cause) : State :=
  let s := s.completeEngine (r.ending cause v) w
  let x := s.getBasin b
  s.setBasin b { x with keeper := { x.keeper with reqs := x.keeper.reqs.tail, ended := remember x.keeper.ended r.token cause } }

/-- KEEPER_COMPLETION: the request at the head has run (R296, R306), and its writes through ring windows are answered. -/
def execKeeperCompletion (b : Nat) (s : State) : Host.Outcome State Fault Refusal :=
  event (match (s.getBasin b).keeper.reqs with
    | r :: _ =>
      match r.result with
      | some (cause, v) =>
        if r.tag.isSome || r.ringOut ≠ 0 then s
        else match r.cword, r.verdict with
          | some w, _ => s.endKeep b r cause v w
          | none, some c => s.endKeep b r cause v (some c)
          | none, none => match s.writeCword (r.ending cause v) (.keeper b r.token) with
            | .error m =>
              let (s, tag) := s.openTag (quayOf (basinOf r.core)) m (s.getCore r.core).launchId
              s.setKeep b { r with tag := tag }
            | .ok (s, w, 0) => s.endKeep b r cause v w
            | .ok (s, w, k) => s.setKeep b { r with ringOut := k, cword := some w }
      | none => s
    | [] => s)

end Sys2Proof.Machine
end

