-- ==== Sys2Proof/Machine/Events.lean ====
section
/-! DEFINITION. Steps of the cores that no instruction makes: reset, results and fills that land, FIFO banks, and waits
for pinned ways (01 R25, R28, R31; 09 R238, R247). -/

namespace Sys2Proof.Machine

/-! ## Reset (01 R28, 19 R375) -/

/-- The machine after a reset: far memory, the fuses and the firmware banks stay; the moves to come stay too. -/
def State.afterReset (s : State) : State :=
  { State.reset with
    sched := s.sched, free := s.free, mem := s.mem.filter fun e => isFarKey e.1
    svc := { fw := s.svc.fw, retired := s.svc.retired } }

def execReset (s : State) : Host.Outcome State Fault Refusal := event s.afterReset

/-! ## Landing -/

/-- RESULT_LAND (01 R25): result `k` lands, once its cycle has come. -/
def execResultLand (n c k : Nat) (s : State) : Host.Outcome State Fault Refusal :=
  let x := s.getCtx n c
  event (match x.pend[k]? with
    | some l =>
      let due := match l.due with
        | some d => decide (d ≤ (s.getCore n).cyc)
        | none => true
      let ids := l.regs.map (·.1)
      if due then ((s.setCtx n c (({ x with pend := x.pend.eraseIdx k } : Ctx).land l)).clearRegsOf n c ids).touchRegs n c ids
      else s
    | none => s)

/-- REMOTE_FILL (01 R31, R32): it is held while its register is absent, and a second fill, or one that comes with a
landing, is applied in a later cycle. -/
def execRemoteFill (k : Nat) (s : State) : Host.Outcome State Fault Refusal :=
  event (match s.net[k]? with
    | some (.fill _ n c reg v _) => if s.fillWaits n c reg then s else (s.dropFlight k).applyFill n c reg v
    | _ => s)

/-! ## FIFO banks (09 R238, R239) -/

/-- A pop takes an entry: its registers are full, and its context wakes. -/
def State.servePop (s : State) (p : PopWait) (e : Line) : State :=
  let vals := groupVals (BitVec.ofNat 4 p.vreg) (lineBytes e)
  let ids := vals.map (·.1)
  let x := vals.foldl (fun x r => x.write r.1 r.2) (s.getCtx p.core p.ctx)
  ((s.setCtx p.core p.ctx x.wake).clearRegsOf p.core p.ctx ids).touchRegs p.core p.ctx ids

/-- The oldest pop that may be served takes the oldest entry. An entry that cannot be read stays, and the pop ends in a
deferred UE (18 R364, R366; log entry 52). -/
def execFifoPopServed (b k : Nat) (s : State) : Host.Outcome State Fault Refusal :=
  let f := s.fifo b k
  event (match f.entries, f.nextPop with
    | e :: _, some (p, ps) =>
      if f.headBad then
        ((s.setFifo b k { f with pops := ps }).meetUe (s.getCore p.core).launch p.core p.ctx (f.headKey b k) p.val.toNat).defer
          p.core p.ctx .ue p.val
      else (s.setFifo b k { f.drop with pops := ps }).servePop p e
    | _, _ => s)

/-- An arrived entry has been appended. -/
def State.leaveBank (s : State) (b k p : Nat) : State :=
  let mine (x : RingPkt) : Bool := x.port == p && x.basin == b && match x.item with
    | .entry bank _ => bank == k
    | _ => false
  match s.ring.atBank.findIdx? mine with
  | some i => { s with ring := { s.ring with atBank := s.ring.atBank.eraseIdx i } }
  | none => s

/-- The oldest push that waits at the bank is appended. -/
def execFifoPushAppended (b k : Nat) (s : State) : Host.Outcome State Fault Refusal :=
  let f := s.fifo b k
  event (match f.nextPush with
    | some (p, ps) =>
      if f.entries.length < Fifo.cap then
        let s := s.setFifo b k { f with entries := f.entries ++ [p.data], pushes := ps }
        match p.src with
        | .port i => s.leaveBank b k i
        | _ => s
      else s
    | none => s)

/-! ## Waits for a pinned way (09 R247) -/

/-- The cycle in which a wait began, with the core whose cycles and CNT_LIMIT bound it. -/
def State.pinSince (s : State) : PinWaiter → Option (Nat × Nat)
  | .stc n c => (s.getCtx n c).pinStart.map fun t => (n, t)
  | .xfer n id => ((s.findXfer n id).bind (·.pinned)).map fun t => (n, t)
  | .tug b t => (s.findTug b t).bind fun c => c.pinned.map fun u => (c.core, u)

/-- CNT_LIMIT cycles of the core have passed since the wait began. -/
def State.pinExpired (s : State) (w : PinWaiter) : Bool :=
  match s.pinSince w with
  | some (n, t) => decide ((s.getCore n).cntLimit.toNat ≤ (s.getCore n).cyc - t)
  | none => false

/-- The held `stc` that a context publishes is tried again. A failure is the trap of a cycle. -/
def State.tryHeldStc (s : State) (n c : Nat) : State :=
  let ended (t : State) : Bool := (t.getCtx n c).pinStart.isNone
  match ({ s with core := n, ctx := c } : State).publish with
  | .ok t => t
  | .error (.wait t) => if ended t then t else s
  | .error (.trap t cause v) =>
    if !s.reached n c then s
    else
      let t := State.stopped (.illegalInstruction 0) (.trap t cause v)
      if ended t then t.takeBoundary n c else s
  | .error _ => s

/-- The waiting `stc` of a context is tried again, in a cycle whose search comes to it. -/
def State.tryStc (s : State) (n c : Nat) : State :=
  let s0 : State := { s.landDue n with core := n, ctx := c }
  let x := s0.getCtx n c
  if x.publishing then s.tryHeldStc n c
  else if !s0.reached n c || s0.trapDue n c then s
  else match s.instrAt n c x.pc with
    | some (.stc scope d a b post) =>
      match execStc scope d a b post s0 with
      | .next t => if (t.getCtx n c).pinStart.isSome then s else t.takeBoundary n c
      | _ => s
    | _ => s

/-- Whoever waits for a way tries again. -/
def State.tryPin (s : State) : PinWaiter → State
  | .stc n c => s.tryStc n c
  | .xfer n id => match s.findXfer n id with
    | some x => if x.canMove then s.moveXfer n x else s
    | none => s
  | .tug b t => match s.findTug b t with
    | some c => match execTugBox b t c.resumeBox s with
      | .next s' => s'
      | _ => s
    | none => s

/-- COUNTED_FILL_PIN: the wait ends, and the fill is performed. -/
def execCountedFillPin (w : PinWaiter) (s : State) : Host.Outcome State Fault Refusal :=
  event (if (s.pinSince w).isSome && !s.pinExpired w then s.tryPin w else s)

/-- CNT_LIMIT_EXPIRY: the wait has lasted CNT_LIMIT cycles, and ends with PRESSURE. -/
def execCntLimitExpiry (w : PinWaiter) (s : State) : Host.Outcome State Fault Refusal :=
  event (if s.pinExpired w then s.tryPin w else s)

end Sys2Proof.Machine
end

