-- ==== Sys2Proof/Machine/Host.lean ====
section
/-! DEFINITION. Launches, work objects, host queues and host accesses (14 R315 to R329; 10 R273, R274; 18 R371, R372). -/

namespace Sys2Proof.Machine

/-! ## Launch records (R315) -/

def entryWord (bs : List Byte) (off : Nat) : W32 := bytes32 ((bs.drop off).take 4)
def entryBits (bs : List Byte) (off lo n : Nat) : Nat := (entryWord bs off).toNat / 2 ^ lo % 2 ^ n
def entryPtr (bs : List Byte) (off : Nat) : Nat := leNat ((bs.drop off).take 8)
def zeroWords (bs : List Byte) (offs : List Nat) : Bool := offs.all fun o => decide (entryWord bs o = 0)

/-- A launch record; none where it is invalid. -/
def launchRecord (bs : List Byte) : Option LaunchRec :=
  let f := entryBits bs
  let r : LaunchRec :=
    { lid := BitVec.ofNat 16 (f 0 16 16), space := BitVec.ofNat 12 (f 0 4 12)
      d1 := f 4 30 2, d0 := f 4 28 2, r1 := f 4 24 4, r0 := f 4 20 4, c1 := f 4 15 5, c0 := f 4 10 5
      entry := BitVec.ofNat 17 (f 8 0 17), arg0 := entryWord bs 0x0C, arg1 := entryWord bs 0x10, budget := entryWord bs 0x14
      barlo := f 0x18 24 8, barhi := f 0x18 16 8, baren := f 0x18 15 1 == 1, retry := BitVec.ofNat 3 (f 0x18 12 3)
      prio := f 0x18 9 3, fmt := BitVec.ofNat 2 (f 0x18 7 2), policyFault := f 0x18 6 1 == 1, spill := f 0x1C 0 17
      srkeyLo := entryWord bs 0x20, srkeyHi := entryWord bs 0x24, srseq := entryWord bs 0x28 }
  let zero := f 0 0 4 == 0 && f 4 0 10 == 0 && f 8 17 15 == 0 && f 8 0 1 == 0 && f 0x18 0 6 == 0 && f 0x1C 17 15 == 0
    && zeroWords bs [0x2C, 0x30, 0x34, 0x38, 0x3C]
  let ok := decide (r.d0 ≤ r.d1 ∧ r.r0 ≤ r.r1 ∧ r.c0 ≤ r.c1 ∧ f 0x18 7 2 ≠ 3 ∧ r.spill ≤ 65536) && (!r.baren || decide (r.barlo ≤ r.barhi))
  if zero && ok then some r else none

/-- Basins and cores of a record's set. -/
def LaunchRec.basins (r : LaunchRec) : List Nat := (List.range 2048).filter r.hasBasin
def LaunchRec.cores (r : LaunchRec) : List Nat := r.basins.flatMap fun b => (List.range 8).map (b * 8 + ·)

/-- Two sets share a core. -/
def LaunchRec.meets (a b : LaunchRec) : Bool :=
  decide (a.d0 ≤ b.d1 ∧ b.d0 ≤ a.d1 ∧ a.r0 ≤ b.r1 ∧ b.r0 ≤ a.r1 ∧ a.c0 ≤ b.c1 ∧ b.c0 ≤ a.c1)

/-! ## Images (R317) -/

structure Image where
  text : List Byte
  dataOff : Nat
  data : List Byte
  locOff : Nat
  locLen : Nat
  farVa : Nat
  far : List Byte
  handlers : List W32 := []
  record : List Byte := []

/-- A read of a quay core that did not succeed: a translation that failed, an uncorrectable error, or another cause. -/
inductive ReadFail where
  | miss (m : Miss) (s : State)
  | ue (key va : Nat) (s : State)
  | bad (s : State)

/-- A read by quay core `q`. -/
def readFar (s : State) (q space va n : Nat) : Except ReadFail (List Byte × State) :=
  if 2 ^ 48 < va + n then .error (.bad s)
  else match s.farRead q space va n with
    | .ok bs s => .ok (bs, s)
    | .miss m s => .error (.miss m s)
    | .ue key va s => .error (.ue key va s)
    | .bad _ _ s => .error (.bad s)

def up64 (n : Nat) : Nat := (n + 63) / 64 * 64

/-- Read an image: its sections and, with the index of a launch record, that record and the handler table. A bad MAGIC or
index is a bad read (reason 4 of R325). -/
def readImage (s : State) (q space va : Nat) (rec? : Option Nat) : Except ReadFail (Image × State) := do
  let (h, s) ← readFar s q space va 64
  if entryWord h 0 ≠ 0x4D494259 ∨ rec?.any (fun idx => decide (entryBits h 4 16 16 ≤ idx)) = true then .error (.bad s)
  else do
    let textLen := entryBits h 8 0 32
    let dataLen := entryBits h 0x10 0 32
    let dataAt := up64 (0x40 + textLen)
    let (text, s) ← readFar s q space (va + 0x40) textLen
    let (data, s) ← readFar s q space (va + dataAt) dataLen
    let (far, s) ← readFar s q space (va + up64 (dataAt + dataLen)) (entryBits h 0x1C 0 32)
    let m : Image :=
      { text := text, dataOff := entryBits h 0x0C 0 32, data := data, locOff := entryBits h 0x14 0 32, locLen := entryBits h 0x18 0 32
        farVa := entryPtr h 0x20, far := far }
    match rec? with
    | none => .ok (m, s)
    | some idx => do
      let nh := entryBits h 4 0 16
      let (ht, s) ← readFar s q space (va + entryBits h 0x28 0 32) (4 * nh)
      let (bs, s) ← readFar s q space (va + entryBits h 0x2C 0 32 + 64 * idx) 64
      .ok ({ m with handlers := (List.range nh).map fun i => entryWord ht (4 * i), record := bs }, s)

/-- Reason 6 of R325. -/
def Image.misfits (m : Image) (r : LaunchRec) : Bool :=
  decide (131072 - r.spillBytes < max m.text.length (max (m.dataOff + m.data.length) (m.locOff + m.locLen)) ∨ m.text.length ≤ r.entry.toNat)

/-! ## Queues (R323, R324) -/

def State.queue (s : State) (q n : Nat) : HQueue := mget {} (s.getQuay q).queues n
def State.setQueue (s : State) (q n : Nat) (k : HQueue) : State :=
  s.setQuay q { s.getQuay q with queues := mset {} (s.getQuay q).queues n k }

/-- What an entry comes to: performed, refused with a reason, waiting for a translation, or without a place in the
waiting list (R328), or in hand until what a FREE has left behind is gone (log entry 22). -/
inductive Served where
  | done (s : State)
  | refuse (reason : Nat) (s : State)
  | wait (m : Miss) (s : State)
  | stall (s : State)
  | later (s : State)

/-- A REFUSED record (R325, 18 R374); `lid` names the launch that applies (R373). -/
def State.postRefused (s : State) (q queue reason : Nat) (idx : W32) (handle : Nat) (lid : BitVec 16) : State :=
  s.postHost q (mkRecord 0x0B .none lid 15 q false (BitVec.ofNat 32 (reason * 2 ^ 24 + queue)) idx (BitVec.ofNat 32 handle) 0)

/-- The entry in hand has been consumed. -/
def HQueue.advance (k : HQueue) : HQueue :=
  { k with rdptr := k.rdptr + 1, state := if k.state = 3 then 3 else if k.en then 1 else 0, tag := none, verdict := none, onRing := false }

/-- A ring read that is refused clears QCTL.EN (15 R339). -/
def HQueue.disable (k : HQueue) : HQueue := { k with en := false, state := 0, tag := none, verdict := none, onRing := false }

/-! ## Entries (R318, R325) -/

def entryHandle (bs : List Byte) : Nat := entryBits bs 0 16 16
def entryNotify (bs : List Byte) : Bool := entryBits bs 0 8 1 == 1

/-- The LID that the refusal of an entry names: that of the launch which HANDLE names, where the entry acts on an object that
exists (18 R373; log entry 73). -/
def State.refusedLid (s : State) (q ty h : Nat) : BitVec 16 :=
  match if 3 ≤ ty ∧ ty ≤ 6 ∧ h < 2 ^ 14 ∧ h / 1024 = q then s.launchOf h else none with
  | some l => l.lrec.lid
  | none => 0

/-- A handle that names a slot of quay core `q`. -/
def handleOn (q h : Nat) : Bool := decide (h < 2 ^ 14) && h / 1024 == q

/-- PARENT of an object of a level: its handle, none, or refused. -/
def State.parentOk (s : State) (level : Nat) (w : W32) : Bool :=
  !w.getLsbD 31 || (let h := w.toNat % 65536
    decide (h < 2 ^ 14) && decide ((s.getObj h).state = .open_) && (s.getObj h).level == level + 1)
def parentOf (w : W32) : Option Nat := if w.getLsbD 31 then some (w.toNat % 65536) else none

/-- A child more, or less, of a parent (R318). -/
def State.addChild (s : State) : Option Nat → State
  | none => s
  | some p => s.setObj p { s.getObj p with live := (s.getObj p).live + 1 }
def State.dropChild (s : State) : Option Nat → State
  | none => s
  | some p => s.setObj p { s.getObj p with live := (s.getObj p).live - 1 }

/-- The slot is FREE (R318). -/
def WorkObj.isFree (o : WorkObj) : Bool := decide (o.state = .free) || o.freed

/-- A launch object that is neither ENDED nor CANCELLED. -/
def WorkObj.liveRec (o : WorkObj) : Option LaunchRec :=
  match o.state, o.launch with
  | .sealed_, some l => some l.lrec
  | _, _ => none

def State.liveRecs (s : State) : List LaunchRec := s.objs.filterMap fun e => e.2.liveRec

/-- The launch waits for its cores (R328). -/
def WorkObj.isWaiting (o : WorkObj) : Bool :=
  match o.state, o.launch with
  | .sealed_, some l => decide (l.phase = .waiting ∨ l.phase = .saved)
  | _, _ => false

def State.waitingOf (s : State) (q : Nat) : Nat :=
  (s.objs.filter fun e => e.2.isWaiting && e.1 / 1024 == q).length

/-- The first reason that holds. -/
def firstReason (rs : List (Nat × Bool)) : Option Nat := (rs.find? (·.2)).map (·.1)

def zeroTail (bs : List Byte) (from_ : Nat) : Bool := zeroWords bs ((List.range 16).map (4 * ·) |>.filter (from_ ≤ ·))

/-- Must-be-0 bits that every entry has. -/
def headZero (bs : List Byte) : Bool := entryBits bs 0 9 7 == 0 && decide (entryWord bs 4 = 0)

/-- LAUNCH (R325, R326): its checks, and its place in the waiting list. -/
def launchEntry (q n : Nat) (k : HQueue) (bs : List Byte) (s : State) : Served :=
  let h := entryHandle bs
  let w := entryWord bs 0x14
  let space := k.space.toNat
  let r1 := !headZero bs || entryBits bs 8 0 6 != 0 || entryBits bs 0x10 16 16 != 0 || entryBits bs 0x14 16 15 != 0 || !zeroTail bs 0x20
  let r2 := !handleOn q h || !(s.getObj h).isFree
  match firstReason [(1, r1), (2, r2), (3, !s.parentOk 1 w)] with
  | some r => .refuse r s
  | none =>
    if (s.getObj h).freed then .later s
    else if k.verdict.isSome then .refuse 4 s
    else
    let lsq := entryPtr bs 0x18
    let reads : Except ReadFail (Image × State) := do
      let (m, s) ← readImage s q space (entryPtr bs 8) (some (entryBits bs 0x10 0 16))
      let (_, s) ← if lsq = 0 then .ok ([], s) else readFar s q space lsq 64
      .ok (m, s)
    match reads with
    | .error (.bad s) => .refuse 4 s
    | .error (.ue key _ s) => .refuse 4 (s.retireLine key).1
    | .error (.miss m s) => .wait m s
    | .ok (m, s) =>
      match launchRecord m.record with
      | none => .refuse 5 s
      | some r =>
        let clash := r.baren && s.liveRecs.any fun x => x.baren && decide (x.barlo ≤ r.barhi ∧ r.barlo ≤ x.barhi)
        match firstReason [(6, m.misfits r), (7, s.liveRecs.any fun x => x.lid == r.lid), (10, clash)] with
        | some x => .refuse x s
        | none =>
          if 64 ≤ s.waitingOf q then .stall s
          else
            let l : Launch :=
              { lrec := r, image := entryPtr bs 8, qspace := space, lsq := lsq, quay := q, notify := entryNotify bs, queue := n, qidx := k.rdptr
                handlers := m.handlers, age := s.nextAge }
            let o : WorkObj := { level := 1, parent := parentOf w, state := .sealed_, notify := entryNotify bs, launch := some l }
            .done (({ s with nextAge := s.nextAge + 1 }.setObj h o).addChild (parentOf w))

/-- OPEN (R318). -/
def openEntry (q : Nat) (bs : List Byte) (s : State) : Served :=
  let h := entryHandle bs
  let level := entryBits bs 8 0 3
  let w := entryWord bs 0x0C
  let r1 := !headZero bs || entryBits bs 8 3 29 != 0 || entryBits bs 0x0C 16 15 != 0 || !zeroTail bs 0x10
  let r2 := !handleOn q h || !(s.getObj h).isFree || decide (level < 2 ∨ 4 < level)
  match firstReason [(1, r1), (2, r2), (3, !s.parentOk level w)] with
  | some r => .refuse r s
  | none => if (s.getObj h).freed then .later s
    else .done ((s.setObj h { level := level, parent := parentOf w, state := .open_, notify := entryNotify bs }).addChild (parentOf w))

/-- SEAL (R318). -/
def sealEntry (q : Nat) (bs : List Byte) (s : State) : Served :=
  let h := entryHandle bs
  let o := s.getObj h
  match firstReason [(1, !headZero bs || !zeroTail bs 8), (2, !handleOn q h || !decide (o.state = .open_))] with
  | some r => .refuse r s
  | none => .done (s.setObj h { o with state := .sealed_ })

/-! ## Cancel (R321) -/

/-- The object, or one above it within `fuel` levels, is `h`. -/
def State.isUnder (s : State) (h : Nat) : Nat → Nat → Bool
  | 0, o => o == h
  | fuel + 1, o => o == h || match (s.getObj o).parent with
    | some p => s.isUnder h fuel p
    | none => false

/-- A context of a cancelled launch becomes IDLE at its instruction boundary, with no trap and no record. -/
def Ctx.cancel (x : Ctx) : Ctx :=
  if x.status = .idle then x
  else { x.stop with deferred := [], ending := none, xtag := none, verdict := none, pinStart := none, bar := .none
                     judged := none, blockedOn := [], publishing := false }

/-- A core of a cancelled launch: its messages are removed and its contexts stop. No halt keeps its matrix commands from
running to completion, and those that `msave.q` moved out are gone with the software that would bring them back. -/
def Core.cancel (k : Core) : Core :=
  { k with levels := [], stv := 0, port := [], pages := [], ctxs := k.ctxs.map fun e => (e.1, e.2.cancel)
           noDispatch := false, mat := { k.mat with fmt := none, preHalt := false, halt := false, moved := [] } }

/-- Pops and pushes of the contexts of the launch's cores that wait at FIFO banks are removed. -/
def Fifo.withdraw (f : Fifo) (r : LaunchRec) : Fifo :=
  { f with pops := f.pops.filter (fun p => !r.hasCore p.core)
           pushes := f.pushes.filter fun p => match p.src with
             | .ctx n _ => !r.hasCore n
             | _ => true }

def State.mapFifos (s : State) (f : Fifo → Fifo) : State :=
  { s with basins := s.basins.map fun e => (e.1, { e.2 with fifos := e.2.fifos.map fun g => (g.1, f g.2) }) }

/-- Cores that a launch holds. -/
def Core.heldBy (k : Core) (h : Nat) : Bool := k.launch == some h

def State.mapCores (s : State) (h : Nat) (f : Core → Core) : State :=
  { s with cores := s.cores.map fun e => if e.2.heldBy h then (e.1, f e.2) else e }

/-- A `bararr` or `bardrop` whose arrival has been sent ends before its context's next instruction boundary (08 R212). -/
def State.landArrivals (s : State) (h : Nat) : State :=
  s.cores.foldl (fun s e => if e.2.heldBy h then e.2.ctxs.foldl (fun s f => s.barrierArrive e.1 f.1) s else s) s

/-- The waits of `waitf` on a launch's cores end. -/
def State.dropWatches (s : State) (h : Nat) : State :=
  { s with watches := s.watches.filter fun w => !(s.getCore w.core).heldBy h }

def Flight.handle : Flight → Nat
  | .fill h .. => h
  | .msg h .. => h
  | .retry h .. => h
  | .mcmd h .. => h
  | .kick h .. => h

/-- What the save of a launch withdrew, and what stayed on its way, goes with its save area (R321). -/
def State.dropSaved (s : State) (h : Nat) (l : Launch) : State :=
  ((l.save.map Saved.withdrawn).getD []).foldl (fun s (w : Withdrawn) => match w.push.map PushWait.src with
    | some (.port p) => s.leaveBank w.basin w.bank p
    | _ => s) { s with net := s.net.filter fun f => f.handle != h }

/-- A discarded save area holds no messages any more (R321): they are cancelled, whatever the host answers later. -/
def Saved.cancel (v : Saved) : Saved :=
  { v with cores := v.cores.map fun e => (e.1, { e.2 with levels := [], port := [], pages := [] }) }

/-- Bring a cancelled launch to its end. A saved launch keeps the regions of its save area until R320 closes them, and a
launch that is being loaded keeps its cores until R320 releases them (R327). -/
def State.cancelLaunch (s : State) (h : Nat) (l : Launch) : State :=
  match l.phase with
  | .running | .preempting =>
    (((s.landArrivals h).dropWatches h).mapCores h Core.cancel |>.mapFifos (·.withdraw l.lrec)).setLaunch h
      { l with phase := .running, area := none }
  | _ => (s.dropSaved h l).setLaunch h
      { l with phase := .over, area := none, tag := none, verdict := none, save := l.save.map Saved.cancel }

/-- Mark an object and everything under it CANCELLED; each is counted as ended by its parent (R318, R321). -/
def State.cancelTree (s : State) (h : Nat) : State :=
  let hit := (s.objs.filter fun e => decide (e.2.state = .open_ ∨ e.2.state = .sealed_) && s.isUnder h 4 e.1).map (·.1)
  if decide ((s.getObj h).state = .open_ ∨ (s.getObj h).state = .sealed_) then
    hit.foldl (fun s o =>
      let s := (s.setObj o { s.getObj o with state := .cancelled }).dropChild (s.getObj o).parent
      match s.launchOf o with
      | some l => s.cancelLaunch o l
      | none => s) s
  else s

/-- The quay core reads an object. One with an uncorrectable error is cancelled; the record goes to the object's launch, or
to the launches under it (18 R369; log entry 57). -/
def State.meetObj (s : State) (h : Nat) : State :=
  let o := s.getObj h
  if !o.bad then s
  else
    let s := s.setObj h { o with bad := false }
    if o.state = .open_ ∨ o.state = .sealed_ then
      let hit := (s.objs.filter fun e => e.2.launch.isSome && decide (e.2.state = .sealed_) && s.isUnder h 4 e.1).map (·.1)
      hit.foldl (fun s o => s.postUeFree (some o) (h / 1024) 7) (s.cancelTree h)
    else s

/-- The parent that a LAUNCH or OPEN entry names is read too. -/
def State.meetParent (s : State) (ty : Nat) (bs : List Byte) : State :=
  let w := entryWord bs (if ty = 1 then 0x14 else 0x0C)
  if ty ≤ 2 ∧ w.getLsbD 31 = true then s.meetObj (w.toNat % 65536) else s

def cancelEntry (q : Nat) (bs : List Byte) (s : State) : Served :=
  let h := entryHandle bs
  match firstReason [(1, !headZero bs || !zeroTail bs 8), (2, !handleOn q h)] with
  | some r => .refuse r s
  | none => .done (s.cancelTree h)

/-- FREE (R318): of an ENDED or CANCELLED object. What is left of a cancelled launch still comes to its end (R321). -/
def freeEntry (q : Nat) (bs : List Byte) (s : State) : Served :=
  let h := entryHandle bs
  let o := s.getObj h
  let gone := decide (o.state = .ended ∨ o.state = .cancelled) && !o.freed
  match firstReason [(1, !headZero bs || !zeroTail bs 8), (2, !handleOn q h || !gone)] with
  | some r => .refuse r s
  | none => .done (s.setObj h (if o.closed then {} else { o with freed := true }))

/-- MSG (R329). -/
def msgEntry (q : Nat) (bs : List Byte) (s : State) : Served :=
  let h := entryHandle bs
  let hidx := entryBits bs 8 31 1 == 1
  let index := entryBits bs 8 16 8
  let tgt := entryBits bs 8 0 14
  let w := entryWord bs 0x0C
  let o := s.getObj h
  let r1 := !headZero bs || entryBits bs 8 24 7 != 0 || entryBits bs 8 14 2 != 0 || !zeroTail bs 0x18
    || (if hidx then !decide (w = 0) else !handlerOk w)
  match firstReason [(1, r1), (2, !handleOn q h || o.isFree || o.level != 1)] with
  | some r => .refuse r s
  | none =>
    match o.launch with
    | none => .refuse 8 s
    | some l =>
      let running := decide (l.phase = .running ∨ l.phase = .preempting) && decide (o.state = .sealed_)
      if !running || !l.lrec.hasCore tgt || (hidx && decide (l.handlers.length ≤ index)) then .refuse 8 s
      else
        let x := s.getQuay q
        let hw := if hidx then l.handlers.getD index 0 else w
        let m : Message :=
          { pc := handlerPc hw, level := if hidx then 0 else handlerLevel hw, arg0 := entryWord bs 0x10, arg1 := entryWord bs 0x14
            id := BitVec.ofNat 32 (q * 2 ^ 18 + x.msgSeq.toNat), host := true }
        match s.enqueue tgt m with
        | (true, s) => .done (s.setQuay q { s.getQuay q with msgSeq := x.msgSeq + 1 })
        | (false, s) => .refuse 9 s

/-! ## Taking entries (R324) -/

/-- A queue that the quay core may take an entry of: one that runs, or a stalled one whose LAUNCH finds a place (R324, R328). -/
def State.runnable (s : State) (q n : Nat) : Bool :=
  let k := s.queue q n
  (decide (k.state = 1) || (decide (k.state = 2) && decide (s.waitingOf q < 64))) && k.rdptr != k.wptr

/-- The quay core takes queue `n`: its entry is in hand, or none is and the queue comes next in the round (R324). -/
def State.takes (s : State) (q n : Nat) : Bool :=
  let y := s.getQuay q
  match y.inHand with
    | some h => h.queue == n
    | none => s.runnable q n && (((List.range 64).map fun i => (y.served + 1 + i) % 64).find? (s.runnable q)) == some n

def State.setHand (s : State) (q : Nat) (h : Option Hand) : State := s.setQuay q { s.getQuay q with inHand := h }

/-- Queue `n` has given its entry. -/
def State.consumed (s : State) (q n : Nat) (k : HQueue) : State :=
  (s.setQuay q { s.getQuay q with inHand := none, served := n }).setQueue q n k

/-- The quay core takes the entry at the head of a queue, when its TYPE is `ty` or names none (R324, R325). A stalled queue
whose LAUNCH has it wait again runs, with its entry in hand: a queue in STATE 2 has none. What the host writes to the queue
meanwhile does not change the entry. -/
def State.serve (s : State) (q n ty : Nat) (f : HQueue → List Byte → State → Served) : State :=
  let k := s.queue q n
  if !s.takes q n || k.tag.isSome then s
  else if k.onRing && k.verdict.isSome then s.consumed q n k.disable
  else
    let hand : Hand := ((s.getQuay q).inHand).getD
      { queue := n, space := k.space, va := k.base.toNat + 64 * (k.rdptr.toNat % 2 ^ k.log2.toNat) }
    let keep (hand : Hand) (k : HQueue) (s : State) : State := (s.setQueue q n { k with state := 1 }).setHand q (some hand)
    let waitFor (hand : Hand) (m : Miss) (ring : Bool) (s : State) : State :=
      let (s, t) := s.openTag q m 0
      keep hand { k with tag := t, onRing := ring } s
    let unread (s : State) : State := s.consumed q n k.disable
    match hand.entry.elim (readFar s q hand.space.toNat hand.va 64) fun bs => .ok (bs, s) with
    | .error (.miss m s') => waitFor hand m true s'
    | .error (.ue key _ s') => unread (s'.retireLine key).1
    | .error (.bad s') => unread s'
    | .ok (bs, s') =>
      let t := entryBits bs 0 0 8
      let known := decide (1 ≤ t ∧ t ≤ 6)
      if known && t != ty then s
      else match if known then f { k with space := hand.space } bs ((s'.meetObj (entryHandle bs)).meetParent t bs) else .refuse 1 s' with
        | .done s => s.consumed q n k.advance
        | .refuse r s => (s.postRefused q n r k.rdptr (entryHandle bs) (s.refusedLid q t (entryHandle bs))).consumed q n k.advance
        | .wait m s => waitFor { hand with entry := some bs } m false s
        | .stall s => s.consumed q n { k with state := if k.en then 2 else 0, tag := none, verdict := none }
        | .later s => keep { hand with entry := some bs } k s

def execLaunch (q n : Nat) (s : State) : Host.Outcome State Fault Refusal := event (s.serve q n 1 (launchEntry q n))
def execOpen_ (q n : Nat) (s : State) : Host.Outcome State Fault Refusal := event (s.serve q n 2 fun _ => openEntry q)
def execSeal (q n : Nat) (s : State) : Host.Outcome State Fault Refusal := event (s.serve q n 3 fun _ => sealEntry q)
def execCancel (q n : Nat) (s : State) : Host.Outcome State Fault Refusal := event (s.serve q n 4 fun _ => cancelEntry q)
def execMsg (q n : Nat) (s : State) : Host.Outcome State Fault Refusal := event (s.serve q n 5 fun _ => msgEntry q)
def execFree (q n : Nat) (s : State) : Host.Outcome State Fault Refusal := event (s.serve q n 6 fun _ => freeEntry q)

/-! ## Starting (R326 to R328) -/

/-- `a` ranks above `b` (R327). -/
def Launch.above (a b : Launch) : Bool :=
  decide (b.lrec.prio < a.lrec.prio) || (a.lrec.prio == b.lrec.prio &&
    (decide (a.age < b.age) || (a.age == b.age && decide (a.quay < b.quay))))

def State.waitingLaunches (s : State) : List (Nat × Launch) :=
  s.objs.filterMap fun e => if e.2.isWaiting then e.2.launch.map fun l => (e.1, l) else none

/-- Every core of the set is free, and none is claimed by a waiting launch of higher rank (R328). -/
def State.mayStart (s : State) (h : Nat) (l : Launch) : Bool :=
  (s.cores.all fun e => !l.lrec.hasCore e.1 || e.2.launch.isNone || e.2.heldBy h)
    && !s.waitingLaunches.any fun e => e.1 != h && e.2.above l && e.2.lrec.meets l.lrec

/-- Per-context registers that a load clears (R326). The mark of a started helper stays (log entry 71). -/
def Ctx.forLaunch (x : Ctx) : Ctx :=
  { x with inh := false, code := 0, trapPc := 0, trapVal := 0, trapVec := 0, spillBase := 0, spillTop := 0, linkLimit := 0 }

/-- The core registers that a load sets (R326 step 2; 07 R162). -/
def Core.forLaunch (k : Core) (r : LaunchRec) (h : Nat) : Core :=
  { k with netfmt := r.fmt, launchId := r.lid, spaceId := r.space, launch := some h, levels := [], stv := 0, port := [], pages := []
           noDispatch := false, dropTotal := 0, cntLimit := 65536, pstall := 0, regions := []
           mat := { tiles := k.mat.tiles.map fun e => (e.1, { e.2 with absent := false }) }
           ctxs := k.ctxs.map fun e => (e.1, e.2.forLaunch) }

/-- Write a section of an image; one that covers a failing granule in part is not written (18 R367), and names its key. -/
def State.loadSection (s : State) (k : Nat) (bs : List Byte) : Except (State × Nat) State :=
  match s.badPartial k bs.length with
  | some g => .error (s, g * 8)
  | none => .ok (s.putBytes k bs)

/-- The local sections of an image in core `n` (R326 step 1, 09 R233); its contexts fetch what is written (10 R275). -/
def State.loadLocal (m : Image) (s : State) (n : Nat) : Except (State × Nat) State := do
  let s : State := { s with lines := mclear s.lines (localKey n 0 / 64) 2048 }
  let s ← s.loadSection (localKey n 0) m.text
  let s ← s.loadSection (localKey n m.dataOff) m.data
  let s ← s.loadSection (localKey n m.locOff) (List.replicate m.locLen 0)
  .ok (s.freshFetch n)

/-- c0 starts at ENTRY (R326 step 3). -/
def State.startC0 (s : State) (r : LaunchRec) (n : Nat) : State :=
  (s.clearCtx n 0).setCtx n 0 (((startCtx r (s.getCtx n 0) r.entry).wg 1 r.arg0).wg 2 r.arg1)

/-- Every granted barrier is set (11 R291). -/
def State.grantBars (s : State) (r : LaunchRec) : State :=
  if r.baren then ((List.range (r.barhi + 1 - r.barlo)).map (r.barlo + ·)).foldl (fun s i => s.setBar i {}) s else s

/-- The host refuses a translation of the load, or the image can no longer be loaded: the launch ends without starting
(R326). -/
def State.refuseLoad (s : State) (h : Nat) (l : Launch) : State :=
  let s := (s.setObj h { s.getObj h with state := .cancelled, launch := some { l with phase := .running, tag := none, verdict := none } }).dropChild
    (s.getObj h).parent
  s.postRefused l.quay l.queue 4 l.qidx h l.lrec.lid

/-- Load and start a launch, or wait for a translation with its cores held. The sections, which the load reads again, must still
fit (R326). -/
def State.load (s : State) (h : Nat) (l : Launch) : State :=
  let r := l.lrec
  let s := r.cores.foldl (fun s n => s.setCore n { s.getCore n with launch := some h }) s
  let waits (m : Miss) (s : State) : State :=
    let (s, t) := s.openTag l.quay m r.lid
    s.setLaunch h { l with phase := .loading, tag := t }
  match readImage s l.quay l.qspace l.image none with
  | .error (.miss m s) => waits m s
  | .error (.ue key va s) => (s.meetUe (some h) l.quay 15 key va).refuseLoad h l
  | .error (.bad s) => s.refuseLoad h l
  | .ok (m, s) =>
    if m.misfits r then s.refuseLoad h l
    else
      match r.cores.foldlM (State.loadLocal m) s with
      | .error (s, key) => (s.meetUe (some h) l.quay 15 key (nearAddr key)).refuseLoad h l
      | .ok s => match s.farWrite l.quay r.space.toNat m.farVa m.far with
      | .miss e s => waits e s
      | .ue key va s => (s.meetUe (some h) l.quay 15 key va).refuseLoad h l
      | .bad _ _ s => s.refuseLoad h l
      | .ok _ s =>
        let s := r.cores.foldl (fun s n => s.setCore n ((s.getCore n).forLaunch r h)) s
        let s := (s.grantBars r).setLaunch h { l with phase := .running, tag := none, verdict := none }
        r.cores.foldl (fun s n => s.startC0 r n) s

/-- The load of a launch that is granted its cores, or that holds them already. -/
def execLaunchLoad (h : Nat) (s : State) : Host.Outcome State Fault Refusal :=
  let s := s.meetObj h
  event (match s.launchOf h with
    | some l =>
      let due := decide (l.phase = .loading) || (decide (l.phase = .waiting) && s.mayStart h l)
      if !decide ((s.getObj h).state = .sealed_) || !due || l.tag.isSome then s
      else if l.verdict.isSome then s.refuseLoad h l else s.load h l
    | none => s)

/-! ## The end of an object (R319, R320) -/

/-- Activities of a launch on its cores. -/
def Core.busy (k : Core) : Bool :=
  (k.ctxs.any fun e => !decide (e.2.status = .idle)) || (k.levels.any fun e => !e.2.hw.isEmpty || !e.2.spill.isEmpty || e.2.retry.isSome)
    || !k.port.isEmpty || !k.pages.isEmpty

/-- A write through a ring window made by a launch. -/
def State.ownsRing (s : State) (h : Nat) (o : RingOut) : Bool :=
  match o.owner with
  | .stc n _ => (s.getCore n).heldBy h
  | .xfer n _ => (s.getCore n).heldBy h
  | .tug b _ => (List.range 8).any fun i => (s.getCore (b * 8 + i)).heldBy h
  | .keeper b _ => (List.range 8).any fun i => (s.getCore (b * 8 + i)).heldBy h

def Fifo.owns (f : Fifo) (r : LaunchRec) : Bool :=
  (f.pops.any fun p => r.hasCore p.core) || f.pushes.any fun p => match p.src with
    | .ctx n _ => r.hasCore n
    | _ => false

/-- LIVE of a launch is not 0 (R319). -/
def State.launchBusy (s : State) (h : Nat) (r : LaunchRec) : Bool :=
  (s.cores.any fun e => e.2.heldBy h && e.2.busy)
    || (s.cores.any fun e => (e.2.xfers.any fun x => x.handle == h) || (e.2.mat.queue ++ e.2.mat.port ++ e.2.mat.moved).any fun m => m.handle == h)
    || (s.basins.any fun e => (e.2.tug.cmds.any fun c => c.handle == h) || (e.2.keeper.reqs.any fun q => q.handle == h)
          || e.2.fifos.any fun f => f.2.owns r)
    || (s.net.any fun f => f.handle == h) || s.ring.out.any (s.ownsRing h)

/-- An ENDED record (18 R374). -/
def endedRecord (lid : BitVec 16) (q h : Nat) (cancelled : Bool) : List W32 :=
  mkRecord 0x0A .none lid 15 q false (BitVec.ofNat 32 ((if cancelled then 65536 else 0) + h)) 0 0 0

/-- Close every region of the launch's cores, posting events only. -/
def State.closeAll (s : State) (h : Nat) : State :=
  ((s.cores.filter fun e => e.2.heldBy h).map (·.1)).foldl (fun s n =>
    (List.range 8).foldl (fun s i => match mget none (s.getCore n).regions i with
      | some r => (s.closeRegion n i r).2
      | none => s) s) s

/-- Lines of a range that nobody else has registered since, each a range of its own. -/
def State.unclaimed (s : State) (g : Nat × Nat) : List (Nat × Nat) :=
  ((List.range (g.2 - g.1)).map (g.1 + ·)).filterMap fun lk => if s.inRegion lk then none else some (lk, lk + 1)

/-- What a saved region still counted in local memory, whose lines the save area holds: lines, and the sum of their counts. -/
def Saved.counted (v : Saved) (rs : List (Nat × Nat)) : Nat × Nat :=
  v.lines.foldl (fun a e => match e.2 with
    | .counted n => if e.1 * 64 < 2 ^ 32 && rs.any fun g => decide (g.1 ≤ e.1 ∧ e.1 < g.2) then (a.1 + 1, a.2 + n) else a
    | _ => a) (0, 0)

/-- Close the regions of a saved launch whose save area has been discarded (R321). Far lines and SCRATCH lines, which stay
where they are (15 R342), become plain; those of local memory are gone with the save area, and are only reported. A line
that another region has taken since is that region's (log entry 22). -/
def State.closeSaved (s : State) (h : Nat) (l : Launch) (v : Saved) : State :=
  v.cores.foldl (fun s e => (List.range 8).foldl (fun s i => match mget none e.2.regions i with
    | some r =>
      let (lines, reads, s) := s.closeLines ((r.ranges.filter fun g => decide (2 ^ 32 ≤ g.1 * 64)).flatMap s.unclaimed)
      let old := v.counted r.ranges
      if lines + old.1 = 0 then s else s.postLaunch h (mkRecord 0x05 .underread l.lrec.lid 0 e.1 false
        (BitVec.ofNat 32 i) (BitVec.ofNat 32 (lines + old.1)) (BitVec.ofNat 32 (reads + old.2)) 0)
    | none => s) s) s

/-- The object after the steps of R320: a CANCELLED one stays so, unless it has been freed. -/
def WorkObj.done (o : WorkObj) : WorkObj :=
  if o.freed then {} else { o with state := if o.state = .cancelled then .cancelled else .ended, closed := true }

/-- The steps of R320 for a launch whose LIVE is 0. -/
def State.endLaunch (s : State) (h : Nat) (o : WorkObj) (l : Launch) : State :=
  let cancelled := decide (o.state = .cancelled)
  let rec_ := endedRecord l.lrec.lid l.quay h cancelled
  let s := match l.save with
    | some v => s.closeSaved h l v
    | none => s.closeAll h
  let s := s.postLaunch h rec_
  let s := if l.notify then s.postHost l.quay rec_ else s
  let s := s.mapCores h fun k => { k with launch := none }
  let s := s.setObj h ({ s.getObj h with launch := some { l with phase := .over, area := none, save := none } } : WorkObj).done
  if cancelled then s else s.dropChild o.parent

/-- The steps of R320 for another object. -/
def State.endObj (s : State) (h : Nat) (o : WorkObj) : State :=
  let cancelled := decide (o.state = .cancelled)
  let s := if o.notify then s.postHost (h / 1024) (endedRecord 0 (h / 1024) h cancelled) else s
  let s := s.setObj h (s.getObj h).done
  if cancelled then s else s.dropChild o.parent

/-- ENDED: LIVE has reached 0. -/
def execEnded (h : Nat) (s : State) : Host.Outcome State Fault Refusal :=
  let s := s.meetObj h
  let o := s.getObj h
  event (if o.closed || !decide (o.state = .sealed_ ∨ o.state = .cancelled) then s
    else match o.launch with
      | some l =>
        let loaded := decide (l.phase = .running ∨ l.phase = .preempting)
        let removed := decide (l.phase = .over) && decide (o.state = .cancelled)
        if (loaded && !s.launchBusy h l.lrec) || removed then s.endLaunch h o l else s
      | none => if o.live = 0 then s.endObj h o else s)

/-! ## Registers of the quay windows (R323, R324; 15 R337; 18 R371; 19 R377) -/

/-- A write of QCTL (R324); `hand` says that the queue's entry is in hand. -/
def HQueue.writeCtl (k : HQueue) (minimal hand : Bool) (x : W32) : HQueue :=
  let f (lo n : Nat) : Nat := x.toNat / 2 ^ lo % 2 ^ n
  if 16 < f 0 5 then k
  else
    let k' : HQueue := if k.en then k else { k with space := BitVec.ofNat 12 (f 12 12), log2 := BitVec.ofNat 5 (f 0 5) }
    let k' := if minimal then k' else { k' with en := x.getLsbD 31 }
    if x.getLsbD 30 then { k' with wptr := k.rdptr, state := if k'.en then 1 else 0, tag := none, verdict := none, onRing := false }
    else if k'.en then (if !k.en && decide (k.state = 0) then { k' with state := 1 } else k')
    else if decide (k.state = 3) || (hand && decide (k.state = 1)) then k'
    else { k' with state := 0 }

/-- Queue `n` has no entry in hand any more. -/
def State.dropHand (s : State) (q n : Nat) : State := if (s.getQuay q).inHand.any (·.queue == n) then s.setHand q none else s

/-- A host write of WPTR (R324). A queue that overruns leaves every entry unconsumed. Quay cores 1 to 15 do not run in
minimal mode, and only the value is written (19 R376). -/
def State.doorbell (s : State) (q n : Nat) (x : W32) : State :=
  let k := s.queue q n
  let off := decide (s.bootMode = 2 ∧ q ≠ 0)
  if !off && decide (k.state ≠ 3) && decide (2 ^ k.log2.toNat < (x - k.rdptr).toNat) then
    ((s.setQueue q n { k with wptr := x, state := 3, tag := none, verdict := none, onRing := false }).dropHand q n).postHost q
      (mkRecord 0x0C .overrun 0 15 q false (BitVec.ofNat 32 n) x k.rdptr 0)
  else s.setQueue q n { k with wptr := x }

/-- A write of a queue register. -/
def State.writeQueue (s : State) (q n reg : Nat) (x : W32) : State :=
  let k := s.queue q n
  let base (lo hi : Nat) : BitVec 48 := BitVec.ofNat 48 (hi * 2 ^ 32 + lo)
  match reg with
  | 0x00 => if k.en then s else s.setQueue q n { k with base := base (x.toNat / 64 * 64) (k.base.toNat / 2 ^ 32) }
  | 0x04 => if k.en then s else s.setQueue q n { k with base := base (k.base.toNat % 2 ^ 32) (x.toNat % 65536) }
  | 0x08 =>
    let s' := s.setQueue q n (k.writeCtl (decide (s.bootMode = 2)) ((s.getQuay q).inHand.any (·.queue == n)) x)
    if x.getLsbD 30 && decide (x.toNat % 32 ≤ 16) then s'.dropHand q n else s'
  | 0x0C => s.doorbell q n x
  | _ => s

/-- A write of a status queue register (18 R371). -/
def SQueue.writeReg (k : SQueue) (reg : Nat) (x : W32) : SQueue :=
  let base (lo hi : Nat) : BitVec 48 := BitVec.ofNat 48 (hi * 2 ^ 32 + lo)
  match reg with
  | 0x00 => if k.en then k else { k with base := base (x.toNat / 32 * 32) (k.base.toNat / 2 ^ 32) }
  | 0x04 => if k.en then k else { k with base := base (k.base.toNat % 2 ^ 32) (x.toNat % 65536) }
  | 0x08 =>
    let k' : SQueue := if k.en then k
      else { k with space := BitVec.ofNat 12 (x.toNat / 4096 % 4096), log2 := BitVec.ofNat 5 (x.toNat % 32) }
    { k' with en := x.getLsbD 31 }
  | 0x10 => { k with rdptr := x }
  | 0x14 => { k with lost := k.lost &&& ~~~x }
  | _ => k

/-- A write of a register of the host status queue or of the fault queue; held records are tried again (18 R372). -/
def State.writeSQueue (s : State) (q : Nat) (fq : Bool) (reg : Nat) (x : W32) : State :=
  let y := s.getQuay q
  if fq then (s.setQuay q { y with fq := y.fq.writeReg reg x }).drainHeld q 65
  else s.setQuay q { y with hsq := y.hsq.writeReg reg x }

/-- A write of a mailbox register (19 R377), ignored while GO reads 1. -/
def Mailbox.writeReg (m : Mailbox) (off : Nat) (x : W32) : Mailbox :=
  if m.go then m
  else match off with
    | 0x1F40 => { m with go := x.getLsbD 31, op := BitVec.ofNat 8 x.toNat }
    | 0x1F44 => { m with arg0 := x }
    | 0x1F48 => { m with arg1 := x }
    | 0x1F4C => { m with arg2 := x }
    | 0x1F50 => { m with arg3 := x }
    | 0x1F54 => { m with bufVa := BitVec.ofNat 48 (m.bufVa.toNat / 2 ^ 32 * 2 ^ 32 + x.toNat / 64 * 64) }
    | 0x1F58 => { m with bufVa := BitVec.ofNat 48 (x.toNat % 65536 * 2 ^ 32 + m.bufVa.toNat % 2 ^ 32)
                         bufSpace := BitVec.ofNat 12 (x.toNat / 65536) }
    | _ => m

/-- A host write of a register of window `q` (R323). The registers of 15 R337 that start or answer something are written
through `inv` and `fix`. -/
def State.barWrite (s : State) (q off : Nat) (x : W32) (inv : State → State) (fix : State → State) : State :=
  if 16 ≤ q ∨ off % 4 ≠ 0 then s
  else
    let y := s.getQuay q
    if off < 0x1000 then s.writeQueue q (off / 64) (off % 64) x
    else if off < 0x1018 then s.writeSQueue q false (off - 0x1000) x
    else if 0x1040 ≤ off ∧ off < 0x1058 then s.writeSQueue q true (off - 0x1040) x
    else match off with
      | 0x1F00 => s.setQuay q { y with xinvVa := BitVec.ofNat 48 (y.xinvVa.toNat / 2 ^ 32 * 2 ^ 32 + x.toNat / 2 ^ 19 * 2 ^ 19) }
      | 0x1F04 => s.setQuay q { y with xinvVa := BitVec.ofNat 48 (x.toNat % 65536 * 2 ^ 32 + y.xinvVa.toNat % 2 ^ 32) }
      | 0x1F08 => inv s
      | 0x1F10 => fix s
      | 0x1F20 => { s with sptbase := BitVec.ofNat 48 (s.sptbase.toNat / 2 ^ 32 * 2 ^ 32 + x.toNat / 4096 * 4096) }
      | 0x1F24 => { s with sptbase := BitVec.ofNat 48 (x.toNat % 65536 * 2 ^ 32 + s.sptbase.toNat % 2 ^ 32) }
      | 0x1F28 => s.setQuay q { y with svpool := BitVec.ofNat 48 (y.svpool.toNat / 2 ^ 32 * 2 ^ 32 + x.toNat / 2 ^ 22 * 2 ^ 22) }
      | 0x1F2C => s.setQuay q { y with svpool := BitVec.ofNat 48 (x.toNat % 65536 * 2 ^ 32 + y.svpool.toNat % 2 ^ 32)
                                       svblocks := BitVec.ofNat 16 (x.toNat / 65536) }
      | _ => { s with svc := { s.svc with mb := s.svc.mb.writeReg off x } }

def execDoorbell (q n : Nat) (x : W32) (s : State) : Host.Outcome State Fault Refusal :=
  event (if q < 16 ∧ n < 64 then s.doorbell q n x else s)

/-- QUEUE_RESET: a write of QCTL with RST = 1. -/
def execQueueReset (q n : Nat) (x : W32) (s : State) : Host.Outcome State Fault Refusal :=
  event (if q < 16 ∧ n < 64 ∧ x.getLsbD 30 = true then s.writeQueue q n 8 x else s)

/-- QUEUE_ENABLE: a write of QCTL with RST = 0. -/
def execQueueEnable (q n : Nat) (x : W32) (s : State) : Host.Outcome State Fault Refusal :=
  event (if q < 16 ∧ n < 64 ∧ x.getLsbD 30 = false then s.writeQueue q n 8 x else s)

/-- HSQ_RDPTR: a write of the read index of the host status queue, or of the fault queue. -/
def execHsqRdptr (q : Nat) (fq : Bool) (x : W32) (s : State) : Host.Outcome State Fault Refusal :=
  event (if q < 16 then s.writeSQueue q fq 0x10 x else s)

/-! ## Reads of the windows -/

/-- RINGPOS (16 R350). -/
def Ring.posWord (r : Ring) : W32 :=
  BitVec.ofNat 32 (r.pos.toNat * 2 ^ 24 + r.last.toNat * 2 ^ 16 + (if r.reconf then 256 else 0) + r.fo.toNat * 16 + r.up.toNat)

/-- BOOT_STATUS (08 R221). -/
def State.bootWord (s : State) : W32 := BitVec.ofNat 32 (s.bootReason.toNat * 2 ^ 24 + s.bootMode.toNat)

def HQueue.readReg (k : HQueue) : Nat → W32
  | 0x00 => k.base.truncate 32
  | 0x04 => BitVec.ofNat 32 (k.base.toNat / 2 ^ 32)
  | 0x08 => BitVec.ofNat 32 ((if k.en then 2 ^ 31 else 0) + k.state.toNat * 2 ^ 28 + k.space.toNat * 4096 + k.log2.toNat)
  | 0x0C => k.wptr
  | 0x10 => k.rdptr
  | _ => 0

def SQueue.readReg (k : SQueue) : Nat → W32
  | 0x00 => k.base.truncate 32
  | 0x04 => BitVec.ofNat 32 (k.base.toNat / 2 ^ 32)
  | 0x08 => BitVec.ofNat 32 ((if k.en then 2 ^ 31 else 0) + k.space.toNat * 4096 + k.log2.toNat)
  | 0x0C => k.wptr
  | 0x10 => k.rdptr
  | 0x14 => k.lost
  | _ => 0

/-- What a host read of offset `off` of window `q` returns. Reads change nothing. -/
def State.barRead (s : State) (q off : Nat) : W32 :=
  let y := s.getQuay q
  let mb := s.svc.mb
  let hi (a : BitVec 48) : W32 := BitVec.ofNat 32 (a.toNat / 2 ^ 32)
  if off < 0x1000 then (s.queue q (off / 64)).readReg (off % 64)
  else if off < 0x1018 then y.hsq.readReg (off - 0x1000)
  else if 0x1040 ≤ off ∧ off < 0x1058 then y.fq.readReg (off - 0x1040)
  else match off with
    | 0x1F00 => y.xinvVa.truncate 32
    | 0x1F04 => hi y.xinvVa
    | 0x1F08 => if y.inv.isSome then y.xinvCtl ||| 0x80000000 else y.xinvCtl
    | 0x1F20 => s.sptbase.truncate 32
    | 0x1F24 => hi s.sptbase
    | 0x1F28 => y.svpool.truncate 32
    | 0x1F2C => BitVec.ofNat 32 (y.svblocks.toNat * 65536 + y.svpool.toNat / 2 ^ 32)
    | 0x1F30 => s.ring.posWord
    | 0x1F38 => s.bootWord
    | 0x1F40 => BitVec.ofNat 32 ((if mb.go then 2 ^ 31 else 0) + mb.status.toNat * 65536 + mb.op.toNat)
    | 0x1F44 => mb.arg0
    | 0x1F48 => mb.arg1
    | 0x1F4C => mb.arg2
    | 0x1F50 => mb.arg3
    | 0x1F54 => mb.bufVa.truncate 32
    | 0x1F58 => BitVec.ofNat 32 (mb.bufSpace.toNat * 65536 + mb.bufVa.toNat / 2 ^ 32)
    | 0x1F5C => mb.res
    | _ => 0

/-- A host read of a register of a BAR of the device's one function, which has no virtual functions: BAR 2 alone is
implemented (R322). -/
def State.pciRead (s : State) (bar off : Nat) : W32 :=
  if bar = 2 ∧ off < 2 ^ 20 then s.barRead (off / 65536) (off % 65536) else 0

/-! ## Host reads and writes of memory (10 R273, R274) -/

/-- Host memory, which the device has no part in. -/
def isHostTarget : HostTarget → Bool
  | .host _ => true
  | _ => false

/-- The parts of memory that a request names: local memory or a SCRATCH bank of a basin of the quay core's quadrant,
LPDDR 6, or host memory. In minimal mode the dies do not run (19 R376). -/
def State.hostParts (s : State) (q : Nat) (t : HostTarget) (n : Nat) : Option (List Part) :=
  let parts (key : Nat) : List Part := (partsOf key n).map fun p => { key := p.1, len := p.2 }
  if s.bootMode = 2 ∧ !isHostTarget t then none
  else match t with
  | .near P =>
    let b := ptrBasin P
    let off := ptrOff P
    if ptrKind P ≠ 1 ∨ quayOf b ≠ q then none
    else if ptrUnit P < 8 then (if off + n ≤ 131072 then some (parts (localKey (b * 8 + ptrUnit P) off)) else none)
    else if ptrUnit P = 8 ∧ off / 131072 < 12 ∧ s.mode b (off / 131072) = 1 ∧ off % 131072 + n ≤ 131072 then
      some (parts (bankKey b (off / 131072) (off % 131072)))
    else none
  | .lpddr pa => if pa + n ≤ lpddrBytes s.svc.retired then some (parts (lpddrKey pa)) else none
  | .host pa => if pa + n ≤ 2 ^ 48 then some (parts (hostKey pa)) else none

/-- A host access that meets an uncorrectable error retires the line (18 R367). -/
def State.hostMeets (s : State) : Fail → State
  | .ue k => (s.retireLine k).1
  | _ => s

/-- A host write: performed where the lines are plain. -/
def execHostWrite (q : Nat) (t : HostTarget) (data : List Byte) (s : State) : Host.Outcome State Fault Refusal :=
  event (match s.hostParts q t data.length with
    | some ps => match s.checkParts .write [] ps with
      | .ok _ => s.writeParts data ps
      | .error e => s.hostMeets e
    | none => s)

/-- A host read: what it returns is kept in `hostRead`; nothing where the bytes cannot be read. -/
def execHostRead (q : Nat) (t : HostTarget) (size : Nat) (s : State) : Host.Outcome State Fault Refusal :=
  event (match s.hostParts q t size with
    | some ps => match s.checkParts .read [] ps with
      | .ok _ => { s with hostRead := s.readParts ps }
      | .error e => { s.hostMeets e with hostRead := [] }
    | none => { s with hostRead := [] })

/-- A snoop of the host for a line of host memory held at its home (14 R322, 10 R274). -/
def execCxlCacheSnoop (pa : Nat) (kind : SnoopKind) (s : State) : Host.Outcome State Fault Refusal :=
  let lk := hostKey pa / 64
  event (match kind with
    | .share => s.writeBack lk
    | .invalidate => s.evict lk)

end Sys2Proof.Machine
end

