-- ==== Sys2Proof/Machine/Matrix.lean ====
section
/-! DEFINITION. MAT instructions at issue (07 R174 to R192). -/

namespace Sys2Proof.Machine

/-! ## What a queued MAT instruction reads and checks at issue (R174, R175) -/

/-- A MAT instruction that enters the queue: its operation, sources, named pointers, checks of its e fields, and the g
register that `macz` reads. -/
structure MatForm where
  op : MatOp
  srcs : List Nat := []
  pa : Option (BitVec 3) := none
  pb : Option (BitVec 3) := none
  check : State → Except Stop Unit := fun _ => .ok ()
  anchor : Option (BitVec 5) := none

def field (x : W32) (lo n : Nat) : Nat := x.toNat / 2 ^ lo % 2 ^ n

/-- ROW0 and M (R180, R187). -/
def e0Row0 (x : W32) : Nat := field x 8 6
def e0Rows (x : W32) : Nat := field x 0 7

/-- e0 of `mwld` (R179). -/
def mwldE0 (mode : LoadMode) (x : W32) : Bool := field x 6 26 == 0 && (decide (mode = .t5) || field x 0 4 == 0)

/-- e0 of `mrun` (R180). -/
def mrunE0 (gth : Bool) (x : W32) : Bool :=
  let m := e0Rows x
  field x 20 12 == 0 && field x 14 2 == 0 && field x 7 1 == 0
    && (if gth then field x 16 4 % 4 == 0 else field x 16 4 == 0)
    && m % 2 == 0 && decide (2 ≤ m ∧ m ≤ 64 ∧ e0Row0 x + m ≤ 64)

/-- e0 of `mdrain` (R187). -/
def mdrainE0 (x : W32) : Bool :=
  let m := e0Rows x
  field x 26 6 == 0 && field x 14 2 == 0 && field x 7 1 == 0 && decide (1 ≤ m ∧ m ≤ 64 ∧ e0Row0 x + m ≤ 64)

/-- The checks of R180, in their order. -/
def mrunCheck (gth : Bool) (a : BitVec 3) (s : State) : Except Stop Unit := do
  let P := s.rp a
  trapIf (decide (1 < ptrKind P)) s .range (a.zeroExtend 32)
  trapIf (!mrunE0 gth (s.re 0)) s .range (s.re 0)
  trapIf (!decide (s.me.netfmt = 0) && decide (2 ^ (ptrWidth P).getD 0 ≤ (s.re 1).toNat)) s .range (s.re 1)
  trapIf (gth && field (s.re 2) 16 16 != 0) s .range (s.re 2)

/-- The gather group that e0 names. -/
def gatherGroup (s : State) : BitVec 4 := BitVec.ofNat 4 (field (s.re 0) 16 4)

/-- Sources of `mrun` (R174, R180). NETFMT of the issuing core decides whether e1 is one, for a carried `mrun` too (log
entry 70). -/
def mrunSrcs (s : State) (gth : Bool) (a : BitVec 3) : List Nat :=
  [pid a, wid a, eid 0] ++ (if s.me.netfmt = 0 then [] else [eid 1])
    ++ if gth then eid 2 :: (if s.cur.regState (eid 0) = .full ∧ (gatherGroup s).toNat % 4 = 0 then vgroup (gatherGroup s) else []) else []

/-- The form of a MAT instruction that enters the queue. -/
def matForm (s : State) (i : Instr) : Option MatForm :=
  match i with
  | .mwld mode n _ a b => some
    { op := .mwld mode n.toNat, srcs := [pid a, pid b, eid 0], pa := some a, pb := some b
      check := fun s => trapIf (!mwldE0 mode (s.re 0)) s .range (s.re 0) }
  | .mrun r o c g n _ a b => some
    { op := .mrun r o c g n.toNat b.toNat, srcs := mrunSrcs s g a, pa := some a, check := mrunCheck g a }
  | .macz b a => some { op := .macz b.toNat, srcs := [gid a], anchor := some a }
  | .mdrain t _ a b => some
    { op := .mdrain t b.toNat, srcs := [pid a, wid a, eid 0] ++ (if t = .i8b4 then [eid 1] else []), pa := some a
      check := fun s => trapIf (!mdrainE0 (s.re 0)) s .range (s.re 0) }
  | .macc r b a => some { op := .macc r b.toNat a.toNat }
  | .mstat _ n => some { op := .mstat n.toNat }
  | .msave w _ a b => some { op := .msave w b.toNat, srcs := [pid a], pa := some a }
  | .mrest w _ a b => some { op := .mrest w b.toNat, srcs := [pid a], pa := some a }
  | _ => none

/-- The checks of R36 on one named pointer (step 2 of R175). -/
def matPtr (s : State) (a : Option (BitVec 3)) : Except Stop Unit :=
  match a with
  | none => .ok ()
  | some a => match ptrCheck (s.recOf s.core) (s.rp a) with
    | some c => .error (.trap s c (a.zeroExtend 32))
    | none => .ok ()

/-- Steps 2 to 4 of R175: the command with the operands that it names, and the state after its captures. -/
def MatForm.capture (f : MatForm) (s : State) (word : W32) (d : BitVec 5) : Except Stop (MatCmd × State) := do
  matPtr s f.pa
  matPtr s f.pb
  f.check s
  let x := s.cur
  let ptr (a : Option (BitVec 3)) : W64 := (a.map s.rp).getD 0
  let gth := match f.op with
    | .mrun _ _ _ g .. => g
    | _ => false
  let sr := match f.op with
    | .mrun .sr .. => true
    | _ => false
  let e (k : Nat) : W32 := if f.srcs.contains (eid k) then s.re k else 0
  let named (a : BitVec 3) : Bool := f.srcs.contains (wid a)
  let c : MatCmd :=
    { op := f.op, word := word, e0 := e 0, e1 := e 1, e2 := e 2, anchor := (f.anchor.map s.rg).getD 0
      pa := ptr f.pa, pb := ptr f.pb, wa := ((f.pa.filter named).map s.rw).getD 0, pregA := (f.pa.map BitVec.toNat).getD 0
      seq := if sr then x.srseq else 0, keyLo := if sr then x.srkeyLo else 0, keyHi := if sr then x.srkeyHi else 0
      gather := if gth then s.groupLine (gatherGroup s) else 0
      target := if d = 0 then none else some { core := s.core, ctx := s.ctx, reg := d.toNat }
      core := s.core, ctx := s.ctx, att := x.att, handle := s.handleOf s.core, after := s.seq }
  .ok (c, if sr then s.setCur { x with srseq := x.srseq + 1 } else s)

/-- Issue of a MAT instruction that enters the unit's queue, or the buffer of a task (R175, R178). -/
def matBody (f : MatForm) (i : Instr) (d : BitVec 5) : Body := fun s => do
  waitIf (!s.inTask && s.me.mat.full f.op) s
  let (c, s') ← f.capture s (wordOf i) d
  let s' ← if s.inTask then undo s (s'.hold [.mat c]) else s'.acceptMat s.core c
  .ok (s'.emptyRegs [gid d], .seq)

def matIssue (legal : Bool) (i : Instr) (d : BitVec 5) (s : State) : Host.Outcome State Fault Refusal :=
  match matForm s i with
  | some f => issueIf legal i f.srcs [gid d] s (matBody f i d)
  | none => .next s

def execMwld (mode : LoadMode) (n : BitVec 1) (d : BitVec 5) (a b : BitVec 3) (s : State) :=
  matIssue true (.mwld mode n d a b) d s
def execMrun (r : MatRound) (o c g : Bool) (n : BitVec 1) (d : BitVec 5) (a b : BitVec 3) (s : State) :=
  matIssue true (.mrun r o c g n d a b) d s
def execMacz (b : BitVec 3) (a : BitVec 5) (s : State) := matIssue true (.macz b a) 0 s
def execMdrain (t : DrainType) (d : BitVec 5) (a b : BitVec 3) (s : State) := matIssue true (.mdrain t d a b) d s
def execMacc (r : Bool) (b a : BitVec 3) (s : State) := matIssue true (.macc r b a) 0 s
def execMstat (d : BitVec 5) (n : BitVec 1) (s : State) := matIssue true (.mstat d n) d s
def execMsave (w : SaveWhat) (d : BitVec 5) (a b : BitVec 3) (s : State) := matIssue (s.ctx == 0) (.msave w d a b) d s
def execMrest (w : SaveWhat) (d : BitVec 5) (a b : BitVec 3) (s : State) := matIssue (s.ctx == 0) (.mrest w d a b) d s

/-! ## The format, the capability table and remote commands (R189 to R191) -/

def State.setMat (s : State) (n : Nat) (m : MatUnit) : State := s.setCore n { s.getCore n with mat := m }

/-- `mfmt` (R189): it waits until the unit has changed the format. The commands that waited for it go on: those of contexts
in the cycle, those at the port at its end (R163). -/
def execMfmt (a : BitVec 5) (s : State) : Host.Outcome State Fault Refusal :=
  issueIf (s.ctx == 0) (.mfmt a) (gids [a]) [] s fun s => do
    trapIf (decide (2 < (s.rg a).toNat)) s .range (s.rg a)
    let m := s.me.mat
    match m.fmt with
    | some (_, true) => .ok (s.setMat s.core { m with fmt := none }, .seq)
    | some (_, false) => .error (.wait s)
    | none => .error (.wait (s.setMat s.core { m with fmt := some ((s.rg a).truncate 2, false) }))

def execMcap (n : BitVec 3) (a : BitVec 5) (s : State) : Host.Outcome State Fault Refusal :=
  issueIf (s.ctx == 0) (.mcap n a) (gids [a]) [] s fun s =>
    let m := s.me.mat
    .ok (s.setMat s.core { m with caps := mset 0 m.caps n.toNat ((s.rg a).truncate 16) }, .seq)

/-- Operations that `mcmd` carries (R191). -/
def MatOp.carried : MatOp → Bool
  | .msave .. | .mrest .. => false
  | _ => true

/-- The carried command that a word names; none where `mcmd` faults ILL. -/
def carriedForm (s : State) (w : W32) : Option MatForm :=
  match decode w.toNat with
  | .ok i => match matForm s i with
    | some f => if f.op.carried then some f else none
    | none => none
  | .error _ => none

/-- `mcmd` (R191). -/
def execMcmd (d : BitVec 5) (a : BitVec 3) (b : BitVec 5) (s : State) : Host.Outcome State Fault Refusal :=
  let carried := if s.cur.regState (eid 3) = .full then ((carriedForm s (s.re 3)).map MatForm.srcs).getD [] else []
  issue (.mcmd d a b) ([pid a, gid b, eid 3] ++ carried) [gid d] s fun s => do
    let P := s.rp a
    matPtr s (some a)
    trapIf (!(ptrKind P == 1 && decide (ptrUnit P < 8))) s .range (a.zeroExtend 32)
    match carriedForm s (s.re 3) with
    | none => .error (.trap s .ill (s.re 3))
    | some f => do
      let (c, s') ← f.capture s (s.re 3) d
      let tgt := ptrBasin P * 8 + ptrUnit P
      let cap : BitVec 16 := (s.rg b).truncate 16
      let s' ← if s.inTask then undo s (s'.hold [.mcmd tgt cap c])
        else .ok { s' with net := s'.net ++ [.mcmd (s.handleOf s.core) tgt cap c] }
      .ok (s'.emptyRegs [gid d], .seq)

end Sys2Proof.Machine
end

