-- ==== Sys2Proof/Machine/MatrixMath.lean ====
section
/-! DEFINITION. Weight tiles and group arithmetic: images and decomposition (07 R167 to R173), the group step and its
rounding (02 R52, R54), tile addition (07 R186), drain conversions (02 R61). -/

namespace Sys2Proof.Machine

/-! ## Images (R167 to R169) -/

/-- Weight groups of KQ. -/
def groupsOf (kq : Nat) : Nat := kq + 1

/-- Bytes of one column of one group, by load mode. -/
def columnBytes : LoadMode → Nat
  | .t5 => 32
  | .p24 => 40
  | .p14 => 20

def imageBytes (mode : LoadMode) (kq : Nat) : Nat := groupsOf kq * 16 * columnBytes mode

/-- VAL of R168; none for 0b10. -/
def valTrit : Nat → Option Int
  | 0 => some 0
  | 1 => some 1
  | 3 => some (-1)
  | _ => none

/-- The four trits of a P24 byte; none for an illegal one (R168). -/
def p24Quad (b : Nat) : Option (List Int) :=
  let i0 := b % 4
  let i1 := b / 4 % 4
  match valTrit (b / 16 % 4), valTrit (b / 64 % 4) with
  | some v0, some v1 =>
    if v0 = 0 ∧ b ≠ 0 then none
    else if v1 = 0 ∧ i1 ≠ 0 then none
    else if v1 ≠ 0 ∧ i1 ≤ i0 then none
    else some ((List.range 4).map fun k => if v1 ≠ 0 ∧ k = i1 then v1 else if v0 ≠ 0 ∧ k = i0 then v0 else 0)
  | _, _ => none

/-- The four trits of a P14 nibble; none for an illegal one (R169). -/
def p14Quad (b : Nat) : Option (List Int) :=
  match valTrit (b / 4 % 4) with
  | some v => if v = 0 ∧ b % 4 ≠ 0 then none else some ((List.range 4).map fun k => if k = b % 4 then v else 0)
  | none => none

/-- The trits of an image byte; none where the load stops at it. -/
def byteTrits (mode : LoadMode) (b : Nat) : Option (List Int) :=
  match mode with
  | .t5 => t5Trits b
  | .p24 => p24Quad b
  | .p14 => do
    let lo ← p14Quad (b % 16)
    let hi ← p14Quad (b / 16)
    some (lo ++ hi)

/-- The cause of a stop at an illegal byte (R179). -/
def byteCause (mode : LoadMode) : Cause := if mode = .t5 then .trit else .meta_

/-- Trits of column `j`, K ascending, from the image's bytes as trits. -/
def columnTrits (mode : LoadMode) (kq : Nat) (bytes : List (List Int)) (j : Nat) : List Int :=
  (List.range (groupsOf kq)).flatMap fun g =>
    ((bytes.drop ((16 * g + j) * columnBytes mode)).take (columnBytes mode)).flatten

/-! ## Decomposition (R170, R172, R173) -/

/-- Positions of the nonzero trits of a quad that starts at `k`. -/
def quadNonzeros (col : List Int) (k : Nat) : List Nat :=
  ((List.range 4).map (k + ·)).filter fun i => !decide (col.getD i 0 = 0)

/-- Nonzero positions of a column beyond the second of each quad: its leftovers, K ascending. -/
def leftovers (col : List Int) : List Nat :=
  (List.range (col.length / 4)).flatMap fun q => (quadNonzeros col (4 * q)).drop 2

def fullQuad (col : List Int) : Bool :=
  (List.range (col.length / 4)).any fun q => decide (1 < (quadNonzeros col (4 * q)).length)

/-- The tile after the drop of budget `d`, and its statistics (T5 images). -/
def decompose (kq d : Nat) (cols : List (List Int)) : List (List Int) × SlotStats :=
  let lists := cols.map leftovers
  let l := (lists.map List.length).sum
  if !cols.any fullQuad then (cols, { mode := 1, terms := 1 })
  else if l = 0 then (cols, { mode := 2, terms := 1 })
  else if 64 < l then (cols, { mode := 3, terms := 2, left := l })
  else
    let dropped := lists.map (List.take d)
    let kept := lists.map (List.drop d)
    ((cols.zip dropped).map fun e => e.2.foldl (fun c k => c.set k 0) e.1,
     { mode := 2, terms := 1, left := l, res := (kept.map List.length).sum, dropped := (dropped.map List.length).sum
       perGroup := (List.range (groupsOf kq)).map fun g =>
         (kept.map fun ks => (ks.filter fun k => decide (k / 160 = g)).length).sum })

/-- A VALID slot from an image's bytes and its scales (R179); none where a byte is illegal. -/
def loadSlot (mode : LoadMode) (kq d : Nat) (image : List Byte) (scales : List (BitVec 16)) : Option Slot := do
  let bytes ← image.mapM fun b => byteTrits mode b.toNat
  let cols := (List.range 16).map (columnTrits mode kq bytes)
  let (trits, stats) := match mode with
    | .t5 => decompose kq d cols
    | .p24 => (cols, { mode := 4, terms := 1 })
    | .p14 => (cols, { mode := 5, terms := 1 })
  some { state := .valid, mode := mode, kq := kq, drop := d, image := image, scales := scales, trits := trits, stats := stats }

/-- The word of `mstat` (R188). -/
def statWord (x : Slot) : W32 :=
  if x.state = .valid then
    BitVec.ofNat 32 (x.stats.dropped * 2 ^ 25 + x.stats.res * 2 ^ 18 + x.stats.left * 2 ^ 5 + x.stats.terms * 2 ^ 3 + x.stats.mode)
  else 0

/-! ## The group step (02 R52, R54) -/

/-- p[b]: the exact sum of quad `b` over the applied positions. -/
def quadSum (w x : List Int) (b : Nat) : Int :=
  ((List.range 4).map fun k => w.getD (4 * b + k) 0 * x.getD (4 * b + k) 0).sum

/-- Whether quad `b` has an applied position. -/
def quadApplied (w : List Int) (b : Nat) : Bool := (List.range 4).any fun k => !decide (w.getD (4 * b + k) 0 = 0)

/-- H and Ebase of one element and group; none where the group makes the element invalid. `sc` holds the block
scales, which the I8 format does not use. -/
def groupValue (fmt : BitVec 2) (w x : List Int) (sc : List Nat) (c : Nat) : Option (Int × Int) :=
  let ew : Int := scaleE c
  if ew = 255 then none
  else if ew = 0 then some (0, 0)
  else
    let p := (List.range 40).map (quadSum w x)
    let m : Int := 16 + scaleM c
    if fmt = 0 then some (p.sum * m, ew - 131)
    else
      let ea (b : Nat) : Nat := scaleE (sc.getD b 0)
      let counts (b : Nat) : Bool := !decide (p.getD b 0 = 0) && decide (0 < ea b ∧ ea b < 255)
      if (List.range 40).any fun b => quadApplied w b && ea b == 255 then none
      else
        let emax := (List.range 40).foldl (fun a b => if counts b then max a (ea b) else a) 0
        let part (b : Nat) : Int :=
          if counts b then scaleRound rdnDiv (p.getD b 0 * (16 + scaleM (sc.getD b 0) : Nat)) ((ea b : Int) - emax + 40) else 0
        some (((List.range 40).map part).sum * m, emax + ew - 302)

/-- ROUND(H·2^k) by mode; `draw` is spate(key, counter)[31:16] (R54). -/
def roundDelta (mode : MatRound) (draw : Nat) (h k : Int) : Int :=
  match mode with
  | .rne => scaleRound rneDiv h k
  | .rdn => scaleRound rdnDiv h k
  | .sr =>
    if 0 ≤ k then h * 2 ^ k.toNat
    else
      let d : Nat := 2 ^ (-k).toNat
      let f16 : Nat := (h % (d : Int)).toNat * 2 ^ 16 / d
      rdnDiv h d + if draw < f16 then 1 else 0

/-- sat36 (R52). -/
def sat36 (x : Int) : Int := clampInt (-2 ^ 35) (2 ^ 35 - 1) x

/-- Key of element (i, j). -/
def elemKey (i j : Nat) : Nat := 16 * i + j

def Tile.get (t : Tile) (k : Nat) : Int := (mget (0 : BitVec 36) t.acc k).toInt
def Tile.isInv (t : Tile) (k : Nat) : Bool := mget false t.inv k
def Tile.setInv (t : Tile) (k : Nat) : Tile := { t with inv := mset false t.inv k true }

/-- Add a delta to an element, saturating (R52). -/
def Tile.addDelta (t : Tile) (k : Nat) (delta : Int) : Tile :=
  let n := t.get k + delta
  let v := sat36 n
  { t with acc := mset 0 t.acc k (BitVec.ofInt 36 v), sat := t.sat || decide (n ≠ v) }

/-- Elements become 0 and valid, row by row (07 R182 `.ovw`). -/
def Tile.clearRows (t : Tile) (row0 m : Nat) : Tile :=
  { t with acc := mclear t.acc (16 * row0) (16 * m), inv := mclear t.inv (16 * row0) (16 * m) }

/-- The counter of an element's draw (02 R57). -/
def srCounter (g i j : Nat) : W32 := BitVec.ofNat 32 (g % 256 * 2 ^ 24 + i * 2 ^ 8 + j)

/-- What one element takes from one group: the columns' trits and scales come from the slot, `x` and `sc` are the
row's activations and block scales of the group. -/
def groupElem (fmt : BitVec 2) (mode : MatRound) (key : W32 × W32) (seq : W32) (sl : Slot) (g i j : Nat) (x : List Int)
    (sc : List Nat) (t : Tile) : Tile :=
  let w := ((sl.trits.getD j []).drop (160 * g)).take 160
  match groupValue fmt w x sc ((sl.scales.getD (16 * g + j) 0).toNat % 4096) with
  | none => t.setInv (elemKey i j)
  | some (h, ebase) =>
    let draw := (spate key.1 key.2 seq (srCounter g i j)).toNat / 65536
    t.addDelta (elemKey i j) (roundDelta mode draw h (ebase - t.anchor.toInt))

/-- Every element of a tile row. -/
def groupRow (fmt : BitVec 2) (mode : MatRound) (key : W32 × W32) (seq : W32) (sl : Slot) (g i : Nat) (x : List Int)
    (sc : List Nat) (t : Tile) : Tile :=
  (List.range 16).foldl (fun t j => groupElem fmt mode key seq sl g i j x sc t) t

/-! ## Tile addition (07 R186) -/

def addElem (rdn : Bool) (a : Tile) (b : Tile) (k : Nat) : Tile :=
  if a.isInv k then b.setInv k
  else b.addDelta k (scaleRound (if rdn then rdnDiv else rneDiv) (a.get k) (a.anchor.toInt - b.anchor.toInt))

/-- Tile b after tile a has been added into it. -/
def addTile (rdn : Bool) (a b : Tile) : Tile := (List.range 1024).foldl (addElem rdn a) b

/-! ## Drain (02 R61) -/

/-- V = acc · 2^A · 2^−D. -/
def Tile.drainVal (t : Tile) (dsh : Int) (k : Nat) : Dyadic := { n := t.get k, e := t.anchor.toInt - dsh }

/-- The bytes of one element, and its flags, for the types without blocks. -/
def drainElem (type : DrainType) (t : Tile) (dsh : Int) (k : Nat) : List Byte × Flags :=
  let v := t.drainVal dsh k
  let inv := t.isInv k
  match type with
  | .i8 | .i8b4 => if inv then (leBytes 1 0, flagNV) else (leBytes 1 (wrapNat 8 (clampInt (-128) 127 (v.toInt rneDiv))), 0)
  | .bf16 => if inv then (leBytes 2 bf16.nan, flagNV)
    else let r := roundDyadic Machine.bf16 .rne v false; (leBytes 2 r.1, r.2)
  | .fp32 => if inv then (leBytes 4 fp32.nan, flagNV)
    else let r := roundDyadic Machine.fp32 .rne v false; (leBytes 4 r.1, r.2)
  | .raw => (leBytes 8 (wrapNat 64 (t.get k)), if inv then flagNV else 0)

/-- The elements of a drained row: bytes, scale containers (`.i8b4`), flags. -/
def drainRow (type : DrainType) (t : Tile) (dsh : Int) (i : Nat) : List Byte × List Byte × Flags :=
  match type with
  | .i8b4 =>
    let qs := (List.range 4).map fun j => q8b4 ((List.range 4).map fun c =>
      let k := elemKey i (4 * j + c)
      if t.isInv k then none else some (t.drainVal dsh k))
    (qs.flatMap fun q => q.elems.flatMap fun e => leBytes 1 (wrapNat 8 e), qs.flatMap fun q => leBytes 2 q.scale,
     orFlags (qs.map (·.flags)))
  | _ =>
    let es := (List.range 16).map fun j => drainElem type t dsh (elemKey i j)
    (es.flatMap (·.1), [], orFlags (es.map (·.2)))

/-- Alignment of a drained row (07 R187). -/
def drainAlign : DrainType → Nat
  | .raw => 8
  | _ => 4

end Sys2Proof.Machine
end

