-- ==== Sys2Proof/Machine/MatrixUnit.lean ====
section
/-! DEFINITION. The steps of the matrix unit (07 R163 to R195): loads, runs, tiles, drains, statistics, the format,
saving and restoring, and the arrival of carried commands. -/

namespace Sys2Proof.Machine

/-! ## The unit -/

def MatUnit.slot (m : MatUnit) (n : Nat) : Slot := if n = 0 then m.slot0 else m.slot1
def MatUnit.setSlot (m : MatUnit) (n : Nat) (x : Slot) : MatUnit := if n = 0 then { m with slot0 := x } else { m with slot1 := x }
def MatUnit.tile (m : MatUnit) (t : Nat) : Tile := mget {} m.tiles t
def MatUnit.setTile (m : MatUnit) (t : Nat) (x : Tile) : MatUnit := { m with tiles := mset {} m.tiles t x }

/-- The `mwld` at the head has started (R179). -/
def MatUnit.loading (m : MatUnit) : Bool :=
  match m.queue with
  | c :: _ => match c.op with
    | .mwld _ n => decide ((m.slot n).state = .loading)
    | _ => false
  | [] => false

/-- No command is running (R165). A stopped `mrun` is not running; a command that waits for a page is. -/
def MatUnit.quiet (m : MatUnit) : Bool :=
  !(m.running && !m.halted) && !m.loading && !m.queue.any fun c => c.tag.isSome

/-- The command that the unit performs next, with its place in the queue (R163). A halted unit starts none but saves and
restores, after the load that runs has finished (R164). The overlap that R163 allows, of a load with a command of the other
slot ahead of it, does not happen: one command at a time (log entry 66). -/
def MatUnit.next (m : MatUnit) : Option (Nat × MatCmd) :=
  if m.halted && !m.loading then
    if m.quiet then (m.queue.zipIdx.find? fun e => e.1.op.isSave).map fun e => (e.2, e.1) else none
  else match m.queue with
    | c :: _ => if c.tag.isSome then none else some (0, c)
    | [] => none

def slotCode : SlotState → Nat
  | .empty => 0
  | .loading => 1
  | .valid => 2

/-- MSTAT (R165). -/
def mstatWord (m : MatUnit) : W32 :=
  BitVec.ofNat 32 (min 8 m.queue.length * 2 ^ 20 + slotCode m.slot1.state * 2 ^ 18 + slotCode m.slot0.state * 2 ^ 16
    + (if m.quiet then 2 else 0) + if m.halt then 1 else 0)

def State.mat (s : State) (n : Nat) : MatUnit := (s.getCore n).mat

/-- The command that the unit of a core may perform now: the accesses of its issuer that precede it are performed (R176). -/
def State.nextMat (s : State) (n : Nat) : Option (Nat × MatCmd) :=
  (s.mat n).next.filter fun e => !s.priorPending e.2.core e.2.ctx e.2.after

/-- Raise a fault in the context that issued a command (R177), after its status; an ended attempt takes none. -/
def State.deferMat (s : State) (c : MatCmd) (cause : Cause) (v : W32) (status : Nat) : State :=
  let x := s.getCtx c.core c.ctx
  if x.att = c.att ∧ x.status ≠ .idle then s.defer c.core c.ctx cause v (some status) else s

/-- The entry at place `k` retires: its place is freed, and its result fills the target (R177). -/
def State.leave (s : State) (n k : Nat) (c : MatCmd) (result : W32) (src : FillSrc := .none) : State :=
  let m := s.mat n
  let s := s.setMat n { m with queue := m.queue.eraseIdx k, running := false }
  match c.target with
  | some t => s.deliverFill c.handle t result src
  | none => s

/-- A command retires with success. -/
def State.retire (s : State) (n k : Nat) (c : MatCmd) : State := s.leave n k c 0

/-- A command stops: its status holds the cause and, for `mrun`, the groups completed (R177). -/
def State.stopMat (s : State) (n k : Nat) (c : MatCmd) (cause : Cause) (v : W32) (groups : Nat := 0) : State :=
  let (q, s) := s.nextSeq
  (s.leave n k c (BitVec.ofNat 32 (groups * 256 + causeCode cause)) (.status q)).deferMat c cause v q

/-! ## Accesses (R176) -/

/-- Why an access of a command does not go ahead. -/
inductive MatFail where
  | stop (c : Cause) (v : W32)
  | ue (key addr : Nat) (v : W32)
  | miss (m : Miss) (v : W32)

/-- A chunk to access, or what stops the command there. -/
abbrev MatChunk := Except MatFail (W64 × Nat)

/-- The aligned chunks of 16 bytes of a range from P: address and length (10 R259). Where the range passes the end of what P
names, the command stops after the chunks before it. -/
def chunkPtrs (P : W64) : Nat → Nat → Nat → List MatChunk
  | 0, _, _ => []
  | fuel + 1, off, left =>
    if left = 0 then []
    else
      match spanPtr P off 1 with
      | .error _ => [.error (.stop .range (ptrLow P + BitVec.ofNat 32 off))]
      | .ok Q =>
        let z := min left (16 - ptrOff Q % 16)
        .ok (Q, z) :: chunkPtrs P fuel (off + z) (left - z)

def chunksOf (P : W64) (off len : Nat) : List MatChunk := chunkPtrs P (len / 16 + 2) off len

/-- One chunk of a command on core `n`: its parts. Only `msave` and `mrest` reach far memory (R176, R192). -/
def State.matChunk (s : State) (n : Nat) (Q : W64) (z : Nat) (acc : Acc) (far : Bool) : Except MatFail (List Part × State) :=
  let v := ptrLow Q
  if ptrKind Q = 2 ∧ far = false then .error (.stop .range v)
  else
    let lift {α : Type} : Except Fail α → Except MatFail α
      | .ok a => .ok a
      | .error (.ptr c) => .error (.stop c v)
      | .error (.cause c) => .error (.stop c v)
      | .error (.ue k) => .error (.ue k (ueAddr Q) v)
      | .error (.miss m) => .error (.miss m v)
    do
      let (place, s') ← lift (s.resolve n Q z 1 acc)
      match place with
      | .mem ps => do
        lift (s'.checkParts acc [] ps)
        .ok (ps, s')
      | _ => .error (.stop .range v)

/-- Read chunks in ascending order. -/
def State.matRead (s : State) (n : Nat) (far : Bool) : List MatChunk → Except MatFail (List Byte × State)
  | [] => .ok ([], s)
  | .error e :: _ => .error e
  | .ok (Q, z) :: t => do
    let (ps, s) ← s.matChunk n Q z .read far
    let bs := s.readParts ps
    let (rest, s) ← s.matRead n far t
    .ok (bs ++ rest, s)

/-- Write chunks in ascending order; the bytes before a failure stay written. -/
def State.matWrite (s : State) (n : Nat) (far : Bool) : List MatChunk → List Byte → State × Option MatFail
  | [], _ => (s, none)
  | .error e :: _, _ => (s, some e)
  | .ok (Q, z) :: t, bs =>
    match s.matChunk n Q z .write far with
    | .error e => (s, some e)
    | .ok (ps, s) => (s.writeParts (bs.take z) ps).matWrite n far t (bs.drop z)

def State.matReadAt (s : State) (n : Nat) (far : Bool) (P : W64) (off len : Nat) : Except MatFail (List Byte × State) :=
  s.matRead n far (chunksOf P off len)

def State.matWriteAt (s : State) (n : Nat) (far : Bool) (P : W64) (off : Nat) (bs : List Byte) : State × Option MatFail :=
  s.matWrite n far (chunksOf P off bs.length) bs

/-- Write the rest of an image: on a failure, how much of the image has been written. -/
def State.writeImage (s : State) (n : Nat) : List MatChunk → Nat → List Byte → State × Option (Nat × MatFail)
  | [], _, _ => (s, none)
  | .error e :: _, pos, _ => (s, some (pos, e))
  | .ok (Q, z) :: t, pos, bs =>
    match s.matChunk n Q z .write true with
    | .error e => (s, some (pos, e))
    | .ok (ps, s) => (s.writeParts (bs.take z) ps).writeImage n t (pos + z) (bs.drop z)

/-- Read on in an image, of which `bs` has been read: what has been read then, and what failed. -/
def State.readOn (s : State) (n : Nat) : List MatChunk → List Byte → List Byte × State × Option MatFail
  | [], bs => (bs, s, none)
  | .error e :: _, bs => (bs, s, some e)
  | .ok (Q, z) :: t, bs =>
    match s.matChunk n Q z .read true with
    | .error e => (bs, s, some e)
    | .ok (ps, s) => s.readOn n t (bs ++ s.readParts ps)

/-- A failed access stops the command; a missing page is waited for (15 R339). -/
def State.failMat (s : State) (n k : Nat) (c : MatCmd) (groups : Nat) : MatFail → State
  | .stop cause v => s.stopMat n k c cause v groups
  | .ue key addr v => (s.meetUe (some c.handle) c.core c.ctx key addr).stopMat n k c .ue v groups
  | .miss m v =>
    let (s, tag) := s.openTag (quayOf (basinOf n)) m (s.getCore n).launchId
    let u := s.mat n
    s.setMat n { u with queue := u.queue.set k { c with tag := tag, missVal := v } }

/-- The first element of a tile that holds an error, among rows [row0, row0 + m) (18 R366). -/
def State.badElem (s : State) (n t row0 m : Nat) : Option Nat :=
  let base := (n * 8 + t) * 1024
  (s.errs.acc.find? fun e => e.2 && decide (base + 16 * row0 ≤ e.1 ∧ e.1 < base + 16 * (row0 + m))).map (·.1 - base)

/-- Elements that are written whole hold new values (18 R367). -/
def State.freshElems (s : State) (n t row0 m : Nat) : State :=
  { s with errs := { s.errs with acc := mclear s.errs.acc ((n * 8 + t) * 1024 + 16 * row0) (16 * m) } }

/-- VAL of an element's error (18 R366): element `e` is row e div 16, column e mod 16. -/
def elemVal (t e : Nat) : W32 := BitVec.ofNat 32 (0xFFFE * 2 ^ 16 + t * 2 ^ 10 + e)

/-- Stop at an error in an element, with its record (18 R366). -/
def State.stopUe (s : State) (n k : Nat) (c : MatCmd) (v : W32) (groups : Nat := 0) : State :=
  (s.postUe (some c.handle) c.core c.ctx 3 v.toNat false).stopMat n k c .ue v groups

/-- Stop at an error in a slot or in a queue entry, which R366 gives no TRAP_VAL: a free value (log entries 5 and 56). -/
def State.stopLatch (s : State) (n k : Nat) (c : MatCmd) (groups : Nat := 0) : State :=
  let v := Config.freeWord s.free
  ({ s with free := s.free + 1 }.postUe (some c.handle) c.core c.ctx 10 v.toNat false).stopMat n k c .ue v groups

/-- Stop at an error in slot `n`, which becomes EMPTY (18 R369). -/
def State.stopSlot (s : State) (n slot k : Nat) (c : MatCmd) (groups : Nat := 0) : State :=
  (s.setMat n ((s.mat n).setSlot slot {})).stopLatch n k c groups

/-- Stop an `mrun`: its tile's PROG becomes 0. -/
def State.stopRun (s : State) (n t : Nat) (f : State → State) : State :=
  let m := s.mat n
  f (s.setMat n (m.setTile t { m.tile t with prog := 0 }))

/-- A stopped `mwld` leaves its slot EMPTY (R179). -/
def State.emptyLoad (s : State) (n : Nat) (op : MatOp) : State :=
  match op with
  | .mwld _ slot => s.setMat n ((s.mat n).setSlot slot {})
  | _ => s

/-- A command whose queue entry cannot be read (18 R364). -/
def State.stopBad (s : State) (n k : Nat) (c : MatCmd) : State :=
  match c.op with
  | .mrun _ _ _ _ _ t => s.stopRun n t fun u => u.stopLatch n k c ((s.mat n).tile t).prog
  | op => (s.emptyLoad n op).stopLatch n k c

/-- A step of the unit on the command that it performs now, where the command is one of the step's. An access that the host
refused stops its command (15 R339). -/
def matEvent (n : Nat) (s : State) (run : MatOp → Option (Nat → MatCmd → State)) : Host.Outcome State Fault Refusal :=
  event (match s.nextMat n with
    | some (k, c) => match run c.op with
      | some f =>
        if c.bad then s.stopBad n k c
        else match c.verdict with
          | some cause => (s.emptyLoad n c.op).stopMat n k c cause c.missVal
          | none => f k c
      | none => s
    | none => s)

/-! ## Loads (R179) -/

/-- Check image bytes one by one from image offset `off` (R179). -/
def checkImage (mode : LoadMode) (off : Nat) : List Byte → Option Nat
  | [] => none
  | b :: t => if (byteTrits mode b.toNat).isNone then some off else checkImage mode (off + 1) t

/-- Read and check an image, chunk by chunk: the first fault in address order stops the load. -/
def State.readImage (s : State) (n : Nat) (mode : LoadMode) : List MatChunk → Nat → Except MatFail (List Byte)
  | [], _ => .ok []
  | .error e :: _, _ => .error e
  | .ok (Q, z) :: t, off => do
    let (ps, s') ← s.matChunk n Q z .read false
    let bs := s'.readParts ps
    match checkImage mode off bs with
    | some o => .error (.stop (byteCause mode) (BitVec.ofNat 32 o))
    | none => do
      let rest ← s'.readImage n mode t (off + z)
      .ok (bs ++ rest)

/-- 16-bit containers from bytes. -/
def containers : List Byte → List (BitVec 16)
  | a :: b :: t => (b ++ a) :: containers t
  | _ => []

/-- The slot that an `mwld` loads, or what stops it (R179). -/
def State.loadTile (s : State) (n : Nat) (mode : LoadMode) (c : MatCmd) : Except MatFail Slot := do
  if ptrOff c.pa % 32 ≠ 0 then throw (.stop .align (ptrLow c.pa))
  if ptrOff c.pb % 2 ≠ 0 then throw (.stop .align (ptrLow c.pb))
  let kq := field c.e0 4 2
  let image ← s.readImage n mode (chunksOf c.pa 0 (imageBytes mode kq)) 0
  let (sc, _) ← s.matReadAt n false c.pb 0 (32 * groupsOf kq)
  match loadSlot mode kq (field c.e0 0 4) image (containers sc) with
  | some x => .ok x
  | none => .error (.stop (byteCause mode) 0)

/-- min(x + k, 2^32 − 1). -/
def addSat (x : W32) (k : Nat) : W32 := BitVec.ofNat 32 (min (x.toNat + k) (2 ^ 32 - 1))

/-- OPERAND_LATCH_LOAD: the load starts, and its slot reads as LOADING; at a later step it retires. -/
def execOperandLatchLoad (n : Nat) (s : State) : Host.Outcome State Fault Refusal :=
  matEvent n s fun op => match op with
    | .mwld mode slot => some fun k c =>
      if ((s.mat n).slot slot).state ≠ .loading then s.setMat n ((s.mat n).setSlot slot { state := .loading })
      else match s.loadTile n mode c with
        | .ok x =>
          let core := s.getCore n
          (s.setCore n { core with mat := core.mat.setSlot slot x, dropTotal := addSat core.dropTotal x.stats.dropped }).retire n k c
        | .error e => (s.setMat n ((s.mat n).setSlot slot {})).failMat n k c 0 e
    | _ => none

/-! ## Runs (R181 to R183) -/

/-- The pointer `r` post-increments after P (R181); none for KIND 0b11. -/
def walkTimes (P : W64) (W : W32) : Nat → Option W64
  | 0 => some P
  | r + 1 => (walkPtr P W).bind fun Q => walkTimes Q W r

/-- The source row of tile row ROW0 + i (R181). -/
def sourceRow (gth : Bool) (c : MatCmd) (i : Nat) : Nat :=
  if gth then field c.e2 0 16 + c.gather.toNat / 2 ^ (8 * i) % 256 else i

/-- The part of p[a]'s target at an offset (R181). One past the end of what the offset field names stops the command with
the bare offset as TRAP_VAL (log entry 68). -/
def atOffset (P : W64) (off : Nat) : Except MatFail W64 :=
  if 2 ^ (ptrWidth P).getD 0 ≤ off then .error (.stop .range (BitVec.ofNat 32 off)) else .ok (setOff P ((ptrWidth P).getD 0) off)

/-- The chunks of group `g` of a source row: its elements, then its scales (R181). -/
def groupChunks (fmt : BitVec 2) (kq : Nat) (c : MatCmd) (r g : Nat) : List MatChunk × List MatChunk :=
  match walkTimes c.pa c.wa r with
  | none => ([.error (.stop .ptr (ptrLow c.pa))], [])
  | some P =>
    if ptrOff P % 4 ≠ 0 then ([.error (.stop .align (ptrLow P))], [])
    else
      let row := 160 * groupsOf kq
      let (off, len) := if fmt = 1 then (c.e1.toNat + r * (row / 2) + 80 * g, 80) else (c.e1.toNat + r * (row / 32) + 5 * g, 5)
      (chunksOf P (160 * g) 160,
        if fmt = 0 then []
        else match atOffset c.pa off with
          | .ok Q => chunksOf Q 0 len
          | .error e => [.error e])

/-- The activations of a row's group and its block scales, with MX8 ingested by 02 R46. -/
def ingest (fmt : BitVec 2) (xs sc : List Byte) : List Int × List Nat :=
  let es := xs.map fun b => b.toInt
  match fmt.toNat with
  | 0 => (es, [])
  | 1 => (es, (containers sc).map fun c => c.toNat % 4096)
  | _ =>
    let x (k : Nat) : Nat := (sc.getD k 0).toNat
    ((es.zipIdx).map fun e => mx8Elem (x (e.2 / 32)) e.1, (List.range 40).map fun b => mx8Scale (x (b / 8)))

/-- The operands of every row for group `g`. They are read row by row, elements before scales, which decides what stops a run
that meets several faults (log entry 67). -/
def State.groupRows (s : State) (n : Nat) (fmt : BitVec 2) (kq : Nat) (gth : Bool) (c : MatCmd) (g : Nat) :
    List Nat → Except MatFail (List (Nat × List Int × List Nat))
  | [] => .ok []
  | i :: t => do
    let (xs, sc) := groupChunks fmt kq c (sourceRow gth c i) g
    let (xb, _) ← s.matRead n false xs
    let (sb, _) ← s.matRead n false sc
    let rest ← s.groupRows n fmt kq gth c g t
    let (x, k) := ingest fmt xb sb
    .ok ((i, x, k) :: rest)

/-- The lines that an `mrun` has read, by key, each with its address (R183). -/
def State.linesRead (s : State) (n : Nat) (fmt : BitVec 2) (kq : Nat) (gth : Bool) (c : MatCmd) : SMap W32 :=
  ((List.range (e0Rows c.e0)).flatMap fun i => (List.range (groupsOf kq)).flatMap fun g =>
    let (xs, sc) := groupChunks fmt kq c (sourceRow gth c i) g
    xs ++ sc).foldl (fun m e => match e with
      | .ok (Q, z) => match s.resolve n Q z 1 .read with
        | .ok (.mem ps, _) => ps.foldl (fun m p => mput m (p.key / 64) (BitVec.ofNat 32 ((ptrLow Q).toNat / 64 * 64))) m
        | _ => m
      | .error _ => m) []

/-- Decrement lines in ascending order, until one is found dropped (R183). -/
def State.consumeLines (s : State) : SMap W32 → State × Option W32
  | [] => (s, none)
  | (lk, v) :: t => if s.lineState lk = .dropped then (s, some v) else (s.decLine lk).consumeLines t

/-- The run goes on at group `g`, whose operands have been read. -/
def runGroup (fmt : BitVec 2) (round : MatRound) (c : MatCmd) (sl : Slot) (g : Nat) (rows : List (Nat × List Int × List Nat))
    (t : Tile) : Tile :=
  rows.foldl (fun t e => groupRow fmt round (c.keyHi, c.keyLo) c.seq sl g (e0Row0 c.e0 + e.1) e.2.1 e.2.2 t) t

/-- An `mrun` retires: PROG becomes 0, and `.c` consumes (R182, R183). -/
def State.finishRun (s : State) (n k t : Nat) (fmt : BitVec 2) (cons gth : Bool) (c : MatCmd) (kq : Nat) : State :=
  s.stopRun n t fun s =>
    if cons then
      match s.consumeLines (s.linesRead n fmt kq gth c) with
      | (s, some v) => s.stopMat n k c .overread v (groupsOf kq)
      | (s, none) => s.retire n k c
    else s.retire n k c

/-- One step of an `mrun`: the checks of its start, then its next group (R182). -/
def State.runStep (s : State) (n k : Nat) (c : MatCmd) (round : MatRound) (ovw cons gth : Bool) (slot ti : Nat) : State :=
  let core := s.getCore n
  let m := core.mat
  let fmt := core.netfmt
  let sl := m.slot slot
  let t := m.tile ti
  let row0 := e0Row0 c.e0
  let rows := e0Rows c.e0
  if t.absent then s
  else if sl.bad then
    s.stopRun n ti fun s => s.stopSlot n slot k c t.prog
  else if sl.state ≠ .valid then s.stopRun n ti fun s => s.stopMat n k c .meta_ 0xFFFFFFFF t.prog
  else if t.tag ≠ fmt then s.stopRun n ti fun s => s.stopMat n k c .fmt (BitVec.ofNat 32 ti) t.prog
  else
    let clear := ovw && t.prog == 0
    let t := if clear then t.clearRows row0 rows else t
    let s := (s.setMat n (m.setTile ti t))
    let s := if clear then s.freshElems n ti row0 rows else s
    let g := t.prog
    if groupsOf sl.kq ≤ g then s.finishRun n k ti fmt cons gth c sl.kq
    else match s.groupRows n fmt sl.kq gth c g (List.range rows) with
      | .error e => s.stopRun n ti fun s => s.failMat n k c g e
      | .ok ops =>
        match s.badElem n ti row0 rows with
        | some e => s.stopRun n ti fun s => s.stopUe n k c (elemVal ti e) g
        | none =>
          let t := { runGroup fmt round c sl g ops t with prog := g + 1 }
          let s := s.setMat n { (s.mat n).setTile ti t with running := true }
          if g + 1 = groupsOf sl.kq then s.finishRun n k ti fmt cons gth c sl.kq else s

/-- ARRAY_RUN: one weight group of the `mrun` at the head. -/
def execArrayRun (n : Nat) (s : State) : Host.Outcome State Fault Refusal :=
  matEvent n s fun op => match op with
    | .mrun r o cons g slot t => some fun k c => s.runStep n k c r o cons g slot t
    | _ => none

/-! ## Tiles (R185 to R188) -/

/-- TILE_ZERO (R185). -/
def execTileZero (n : Nat) (s : State) : Host.Outcome State Fault Refusal :=
  matEvent n s fun op => match op with
    | .macz t => some fun k c =>
      let core := s.getCore n
      if (core.mat.tile t).absent then s
      else ((s.setMat n (core.mat.setTile t { anchor := c.anchor.truncate 10, tag := core.netfmt })).freshElems n t 0 64).retire n k c
    | _ => none

/-- TILE_ADD (R186). -/
def execTileAdd (n : Nat) (s : State) : Host.Outcome State Fault Refusal :=
  matEvent n s fun op => match op with
    | .macc rdn b a => some fun k c =>
      let core := s.getCore n
      let ta := core.mat.tile a
      let tb := core.mat.tile b
      if ta.absent || tb.absent then s
      else if tb.tag ≠ core.netfmt then s.stopMat n k c .fmt (BitVec.ofNat 32 b)
      else if ta.tag ≠ core.netfmt then s.stopMat n k c .fmt (BitVec.ofNat 32 a)
      else match s.badElem n a 0 64, s.badElem n b 0 64 with
        | some e, _ => s.stopUe n k c (elemVal a e)
        | none, some e => s.stopUe n k c (elemVal b e)
        | none, none => (s.setMat n (core.mat.setTile b (addTile rdn ta tb))).retire n k c
    | _ => none

/-- Drained flags reach the issuer's FFLAGS when the command retires (R187). -/
def State.orIssuer (s : State) (c : MatCmd) (f : Flags) : State :=
  let x := s.getCtx c.core c.ctx
  if x.att = c.att then s.setCtx c.core c.ctx { x with fflags := x.fflags ||| f } else s

/-- Write one drained row: its elements, then its scale containers (R187), even where those lie lower (log entry 67). -/
def State.drainWrite (s : State) (n : Nat) (type : DrainType) (c : MatCmd) (i : Nat) (d : List Byte × List Byte × Flags) :
    State × Option MatFail :=
  match walkTimes c.pa c.wa i with
  | none => (s, some (.stop .ptr (ptrLow c.pa)))
  | some P =>
    if ptrOff P % drainAlign type ≠ 0 then (s, some (.stop .align (ptrLow P)))
    else match s.matWriteAt n false P 0 d.1 with
      | (s, some e) => (s, some e)
      | (s, none) =>
        if d.2.1.isEmpty then (s, none)
        else match atOffset c.pa (c.e1.toNat + 8 * i) with
          | .error e => (s, some e)
          | .ok Q => if ptrOff Q % 2 ≠ 0 then (s, some (.stop .align (ptrLow Q))) else s.matWriteAt n false Q 0 d.2.1

/-- Drain rows in ascending order until one stops; the flags of the rows written whole. -/
def State.drainRows (s : State) (n : Nat) (type : DrainType) (t : Tile) (dsh : Int) (ti : Nat) (c : MatCmd) :
    List Nat → Flags → State × Flags × Option (MatFail ⊕ W32)
  | [], f => (s, f, none)
  | i :: is, f =>
    match s.badElem n ti (e0Row0 c.e0 + i) 1 with
    | some e => (s, f, some (.inr (elemVal ti e)))
    | none =>
      let d := drainRow type t dsh (e0Row0 c.e0 + i)
      match s.drainWrite n type c i d with
      | (s, some e) => (s, f, some (.inl e))
      | (s, none) => s.drainRows n type t dsh ti c is (f ||| d.2.2)

/-- TILE_DRAIN (R187). -/
def execTileDrain (n : Nat) (s : State) : Host.Outcome State Fault Refusal :=
  matEvent n s fun op => match op with
    | .mdrain type ti => some fun k c =>
      let t := (s.mat n).tile ti
      if t.absent then s
      else
        let dsh : Int := ((c.e0.extractLsb' 16 10 : BitVec 10)).toInt
        match s.drainRows n type t dsh ti c (List.range (e0Rows c.e0)) 0 with
        | (s, f, none) => (s.orIssuer c f).retire n k c
        | (s, f, some (.inl e)) => (s.orIssuer c f).failMat n k c 0 e
        | (s, f, some (.inr v)) => (s.orIssuer c f).stopUe n k c v
    | _ => none

/-- SLOT_STATISTICS (R188). -/
def execSlotStatistics (n : Nat) (s : State) : Host.Outcome State Fault Refusal :=
  matEvent n s fun op => match op with
    | .mstat slot => some fun k c =>
      if ((s.mat n).slot slot).bad then s.stopSlot n slot k c
      else s.leave n k c (statWord ((s.mat n).slot slot))
    | _ => none

/-- FORMAT_CHANGE (R189): once the queue is empty and nothing runs. -/
def execFormatChange (n : Nat) (s : State) : Host.Outcome State Fault Refusal :=
  let k := s.getCore n
  event (match k.mat.fmt with
    | some (v, false) =>
      if k.mat.queue.isEmpty then s.setCore n { k with netfmt := v, mat := { k.mat with fmt := some (v, true) } } else s
    | _ => s)

/-! ## Saving (R192 to R195) -/

def zeros (k : Nat) : List Byte := List.replicate k 0

/-- A tile image (R193). -/
def tileImage (t : Tile) : List Byte :=
  leBytes 4 (t.prog * 2 ^ 16 + (if t.sat then 2 ^ 12 else 0) + t.tag.toNat * 2 ^ 10 + t.anchor.toNat) ++ zeros 60
    ++ (List.range 1024).flatMap fun k =>
      leBytes 8 ((if t.isInv k then 2 ^ 63 else 0) + (mget (0 : BitVec 36) t.acc k).toNat)

def loadModeNum : LoadMode → Nat
  | .t5 => 0
  | .p24 => 1
  | .p14 => 2

/-- A slot image (R194); containers are written with [15:12] zero (02 R42). -/
def slotImage (x : Slot) : List Byte :=
  if x.state = .valid then
    leBytes 4 (2 ^ 16 + x.drop * 2 ^ 8 + x.kq * 2 ^ 4 + loadModeNum x.mode) ++ zeros 60
      ++ (x.image ++ zeros (2560 - x.image.length))
      ++ let sc := x.scales.flatMap fun c => leBytes 2 (c.toNat % 4096)
         sc ++ zeros (128 - sc.length)
  else zeros 2752

/-- A queue record (R195). The field of pointer a holds g[a] for `macz`, and the status target names the issuer also
when no register is filled (log entry 10). -/
def queueRecord (c : MatCmd) : List Byte :=
  let w (x : W32) : List Byte := leBytes 4 x.toNat
  let tgt : W32 := match c.target with
    | some t => targetWord t
    | none => BitVec.ofNat 32 (c.core * 2 ^ 9 + c.ctx * 2 ^ 5)
  w c.word ++ w c.e0 ++ w c.e1 ++ w c.e2
    ++ leBytes 8 (match c.op with
      | .macz _ => c.anchor.toNat
      | _ => c.pa.toNat) ++ leBytes 8 c.pb.toNat
    ++ w c.wa ++ w c.seq ++ w c.keyLo ++ w c.keyHi ++ w tgt ++ zeros 12 ++ lineBytes c.gather

/-- The queue image (R195). -/
def queueImage (cs : List MatCmd) : List Byte := leBytes 4 cs.length ++ zeros 60 ++ cs.flatMap queueRecord

/-- Commands that `msave.q` moves: all but saves and restores. -/
def MatUnit.saveable (m : MatUnit) : List MatCmd := m.queue.filter fun c => !c.op.isSave

/-- A queue without the first `k` of the commands that `msave.q` moves. -/
def takeOut : Nat → List MatCmd → List MatCmd
  | 0, q => q
  | _, [] => []
  | k + 1, c :: t => if c.op.isSave then c :: takeOut (k + 1) t else takeOut k t

/-- A command whose entry `msave.q` cannot read, with its place in the queue (18 R364). -/
def MatUnit.badQueued (m : MatUnit) : Option (Nat × MatCmd) :=
  (m.queue.zipIdx.find? fun e => e.1.bad && !e.1.op.isSave).map fun e => (e.2, e.1)

/-- MATRIX_SAVE: the `msave` that the unit performs next (R192). After a translation that the host has mended it goes on with
its image where it was (15 R339). A command whose entry `msave.q` cannot read stops, and is not moved (18 R369; log
entry 56). -/
def execMatrixSave (n : Nat) (s : State) : Host.Outcome State Fault Refusal :=
  matEvent n s fun op => match op with
    | .msave what b => some fun k c =>
      let m := s.mat n
      if ptrOff c.pa % 64 ≠ 0 then s.stopMat n k c .align (ptrLow c.pa)
      else
        let write (image : List Byte) (after : State → List Byte → State) : State :=
          let image := if c.image.isEmpty then image else c.image
          match s.writeImage n (chunksOf c.pa c.pos (image.length - c.pos)) c.pos (image.drop c.pos) with
          | (s, none) => after s image
          | (s, some (pos, e)) => s.failMat n k { c with image := image, pos := pos } 0 e
        match what with
        | .tile =>
          if (m.tile b).absent then s
          else match s.badElem n b 0 64 with
            | some e => s.stopUe n k c (elemVal b e)
            | none => write (tileImage (m.tile b)) fun s _ => s.retire n k c
        | .slot =>
          if (m.slot b).bad then s.stopSlot n b k c else write (slotImage (m.slot b)) fun s _ => s.retire n k c
        | .queue =>
          if !m.halt then s.stopMat n k c .range 0
          else match if c.image.isEmpty then m.badQueued else none with
          | some (j, bad) => s.stopBad n j bad
          | none => write (queueImage m.saveable) fun s image =>
            let s := s.retire n k c
            let m := s.mat n
            let k := leNat (image.take 4)
            s.setMat n { m with queue := takeOut k m.queue, moved := m.moved ++ m.saveable.take k }
    | _ => none

/-- Word `i` of an image. -/
def wordAt (bs : List Byte) (off : Nat) : Nat := leNat ((bs.drop off).take 4)

/-- The tile of an image, or the offset of its first bad word (R193). -/
def parseTile (bs : List Byte) : Except Nat Tile :=
  let w0 := wordAt bs 0
  if w0 / 2 ^ 19 ≠ 0 ∨ w0 / 2 ^ 13 % 8 ≠ 0 ∨ w0 / 2 ^ 10 % 4 = 3 ∨ 3 < w0 / 2 ^ 16 % 8 then .error 0
  else match (List.range 15).find? fun i => wordAt bs (4 * (i + 1)) != 0 with
    | some i => .error (4 * (i + 1))
    | none =>
      match (List.range 1024).find? fun k => wordAt bs (0x44 + 8 * k) % 2 ^ 31 / 2 ^ 4 != 0 with
      | some k => .error (0x44 + 8 * k)
      | none =>
        let es := (List.range 1024).map fun k => leNat ((bs.drop (0x40 + 8 * k)).take 8)
        .ok { acc := es.zipIdx.foldl (fun m e => mset 0 m e.2 (BitVec.ofNat 36 e.1)) []
              inv := es.zipIdx.foldl (fun m e => mset false m e.2 (decide (2 ^ 63 ≤ e.1))) []
              anchor := BitVec.ofNat 10 w0, tag := BitVec.ofNat 2 (w0 / 2 ^ 10), sat := w0.testBit 12, prog := w0 / 2 ^ 16 % 8 }

def loadModeOfNum : Nat → Option LoadMode
  | 0 => some .t5
  | 1 => some .p24
  | 2 => some .p14
  | _ => none

/-- The first word that is not zero in [lo, hi) of an image. -/
def nonZeroWord (bs : List Byte) (lo hi : Nat) : Option Nat :=
  ((List.range ((hi - lo) / 4)).map (lo + 4 * ·)).find? fun o => wordAt bs o != 0

/-- The slot of an image: the loader runs over it (R194). Everything reserved is zero; reserved bits, a mode or a drop budget
that are not allowed stop it with RANGE and the word's offset (log entry 69). -/
def parseSlot (bs : List Byte) : Except (Cause × Nat) Slot :=
  let w0 := wordAt bs 0
  let kq := w0 / 2 ^ 4 % 4
  if w0 / 2 ^ 17 ≠ 0 ∨ w0 / 2 ^ 12 % 16 ≠ 0 ∨ w0 / 2 ^ 6 % 4 ≠ 0 ∨ w0 / 2 ^ 2 % 4 ≠ 0 then .error (.range, 0)
  else match nonZeroWord bs 4 0x40 with
    | some o => .error (.range, o)
    | none =>
      if !w0.testBit 16 then .ok {}
      else match loadModeOfNum (w0 % 4) with
        | none => .error (.range, 0)
        | some mode =>
          let d := w0 / 2 ^ 8 % 16
          if mode ≠ .t5 ∧ d ≠ 0 then .error (.range, 0)
          else match nonZeroWord bs (0x40 + imageBytes mode kq) 0xA40, nonZeroWord bs (0xA40 + 32 * groupsOf kq) 0xAC0 with
            | some o, _ => .error (.range, o)
            | none, some o => .error (.range, o)
            | none, none =>
              let image := (bs.drop 0x40).take (imageBytes mode kq)
              match checkImage mode 0 image with
              | some o => .error (byteCause mode, o)
              | none => match loadSlot mode kq d image (containers ((bs.drop 0xA40).take (32 * groupsOf kq))) with
                | some x => .ok x
                | none => .error (byteCause mode, 0)

/-- Steps 2 and 3 of R175 for the operands of a queue record. -/
def recordOk (s : State) (n : Nat) (f : MatForm) (c : MatCmd) : Bool :=
  let ptr (m : SMap W64) (a : Option (BitVec 3)) (P : W64) : SMap W64 := match a with
    | some a => mset 0 m a.toNat P
    | none => m
  let x : Ctx := { p := ptr (ptr [] f.pa c.pa) f.pb c.pb, e := mset 0 (mset 0 (mset 0 [] 0 c.e0) 1 c.e1) 2 c.e2 }
  let t : State := { s with core := n, ctx := 0 }.setCtx n 0 x
  match (do matPtr t f.pa; matPtr t f.pb; f.check t : Except Stop Unit) with
  | .ok _ => true
  | .error _ => false

/-- The command of a queue record (R195); none where its word is no MAT command of the queue, where an operand breaks a
check of R175, or where a reserved bit is set. The attempt and the launch are those of the command that was moved out. -/
def parseRecord (s : State) (n : Nat) (bs : List Byte) : Option MatCmd :=
  let w (off : Nat) : W32 := BitVec.ofNat 32 (wordAt bs off)
  let d (off : Nat) : W64 := BitVec.ofNat 64 (leNat ((bs.drop off).take 8))
  match decode (w 0).toNat with
  | .error _ => none
  | .ok i => match matForm s i with
    | none => none
    | some f =>
      let core := (w 0x30).toNat / 2 ^ 9 % 2 ^ 14
      let ctx := (w 0x30).toNat / 2 ^ 5 % 16
      let c : MatCmd :=
        { op := f.op, word := w 0, e0 := w 4, e1 := w 8, e2 := w 12, pa := d 0x10, pb := d 0x18
          anchor := if f.anchor.isSome then w 0x10 else 0, wa := w 0x20, pregA := (f.pa.map BitVec.toNat).getD 0
          seq := w 0x24, keyLo := w 0x28, keyHi := w 0x2C, target := targetOf (w 0x30)
          gather := bytesLine ((bs.drop 0x40).take 64), core := core, ctx := ctx
          att := (s.getCtx core ctx).att, handle := s.handleOf n }
      if f.op.isSave || (w 0x30).toNat / 2 ^ 23 % 2 ^ 8 != 0 || decide (10 < ctx) || (nonZeroWord bs 0x34 0x40).isSome
          || !recordOk s n f c then none
      else some c

/-- The commands of a queue image's records, or the offset of the first bad one (R195). -/
def parseQueue (s : State) (n : Nat) (bs : List Byte) : Nat → Nat → Except Nat (List MatCmd)
  | 0, _ => .ok []
  | k + 1, i =>
    match parseRecord s n ((bs.drop (128 * i)).take 128) with
    | none => .error (64 + 128 * i)
    | some c => do
      let t ← parseQueue s n bs k (i + 1)
      .ok (c :: t)

/-- A command comes back: it takes the place of the oldest moved out by its context, whose attempt and launch it has, and
it follows the same accesses of its issuer (R176). -/
def State.comeBack (s : State) (n : Nat) (c : MatCmd) : State :=
  let mine (m : MatCmd) : Bool := m.core == c.core && m.ctx == c.ctx
  let old := (s.cores.flatMap fun e => e.2.mat.moved).find? mine
  let c : MatCmd := match old with
    | some m => { c with att := m.att, handle := m.handle, after := m.after }
    | none => c
  let s : State := match s.cores.find? fun e => e.2.mat.moved.any mine with
    | some e => s.setMat e.1 { s.mat e.1 with moved := (s.mat e.1).moved.eraseP mine }
    | none => s
  s.setMat n { s.mat n with queue := (s.mat n).queue ++ [c] }

/-- `mrest.q`: the records are put back in the same order, before what was queued since (R195). -/
def State.restoreQueue (s : State) (n : Nat) (cs : List MatCmd) : State :=
  let later := (s.mat n).queue
  let s := cs.foldl (fun s c => s.comeBack n c) (s.setMat n { s.mat n with queue := [] })
  s.setMat n { s.mat n with queue := (s.mat n).queue ++ later }

/-- MATRIX_RESTORE: the `mrest` that the unit performs next (R192); a failed one changes nothing. After a translation that the
host has mended it reads on where it was (15 R339). -/
def execMatrixRestore (n : Nat) (s : State) : Host.Outcome State Fault Refusal :=
  matEvent n s fun op => match op with
    | .mrest what b => some fun k c =>
      let m := s.mat n
      let stop (s : State) (o : Nat) : State := s.stopMat n k c .range (BitVec.ofNat 32 o)
      if ptrOff c.pa % 64 ≠ 0 then s.stopMat n k c .align (ptrLow c.pa)
      else
        let read (s : State) (got : List Byte) (upTo : Nat) (f : List Byte → State → State) : State :=
          match s.readOn n (chunksOf c.pa got.length (upTo - got.length)) got with
          | (bs, s, none) => f bs s
          | (bs, s, some e) => s.failMat n k { c with image := bs } 0 e
        match what with
        | .tile =>
          if (m.tile b).absent then s
          else read s c.image 8256 fun bs s => match parseTile bs with
            | .ok t => ((s.setMat n ((s.mat n).setTile b t)).freshElems n b 0 64).retire n k c
            | .error o => stop s o
        | .slot => read s c.image 2752 fun bs s => match parseSlot bs with
            | .ok x => (s.setMat n ((s.mat n).setSlot b x)).retire n k c
            | .error (e, o) => s.stopMat n k c e (BitVec.ofNat 32 o)
        | .queue =>
          if !m.halt then stop s 0
          else if !m.saveable.isEmpty then stop s (mstatWord m).toNat
          else read s c.image 64 fun hd s =>
            match nonZeroWord (hd.take 64) 4 64 with
            | some o => stop s o
            | none =>
              if 8 < wordAt hd 0 then stop s 0
              else read s hd (64 + 128 * wordAt hd 0) fun bs s => match parseQueue s n (bs.drop 64) (wordAt hd 0) 0 with
                | .error o => stop s o
                | .ok cs => (s.retire n k c).restoreQueue n cs
    | _ => none

/-! ## Carried commands (R191) -/

/-- MCMD_ARRIVAL: the carried command in flight `k` reaches its target. Its capability is checked now, though the command may
wait at a full queue: the rules name no moment (log entry 81). -/
def execMcmdArrival (k : Nat) (s : State) : Host.Outcome State Fault Refusal :=
  event (match s.net[k]? with
    | some (.mcmd _ tgt cap c) =>
      let s : State := { s with net := s.net.eraseIdx k }
      let m := s.mat tgt
      if cap = 0 ∨ !m.caps.any (fun e => e.2 == cap) then
        match c.target with
        | some t => s.deliverFill c.handle t 0x11
        | none => s
      else if m.port.isEmpty && !m.full c.op then s.setMat tgt { m with queue := m.queue ++ [c] }
      else s.setMat tgt { m with port := m.port ++ [c] }
    | _ => s)

end Sys2Proof.Machine
end

