-- ==== Sys2Proof/Machine/Memory.lean ====
section
/-! DEFINITION. Loads and stores (05 R119 to R121), `lcopy` and `lfill` (R122, R123). -/

namespace Sys2Proof.Machine

/-! ## g-base -/

def ldg (i : Instr) (z : Nat) (sg : Bool) (d a : BitVec 5) (imm : BitVec 12) (s : State) : Host.Outcome State Fault Refusal :=
  issue i (gids [a]) [gid d] s (loadG z sg d a imm)
def stg (i : Instr) (z : Nat) (b a : BitVec 5) (imm : BitVec 12) (s : State) : Host.Outcome State Fault Refusal :=
  issue i (gids [b, a]) [] s (storeG z b a imm)

def execLdb (d a : BitVec 5) (imm : BitVec 12) (s : State) := ldg (.ldb d a imm) 1 true d a imm s
def execLdbu (d a : BitVec 5) (imm : BitVec 12) (s : State) := ldg (.ldbu d a imm) 1 false d a imm s
def execLdh (d a : BitVec 5) (imm : BitVec 12) (s : State) := ldg (.ldh d a imm) 2 true d a imm s
def execLdhu (d a : BitVec 5) (imm : BitVec 12) (s : State) := ldg (.ldhu d a imm) 2 false d a imm s
def execLdw (d a : BitVec 5) (imm : BitVec 12) (s : State) := ldg (.ldw d a imm) 4 false d a imm s
def execStb (b a : BitVec 5) (imm : BitVec 12) (s : State) := stg (.stb b a imm) 1 b a imm s
def execSth (b a : BitVec 5) (imm : BitVec 12) (s : State) := stg (.sth b a imm) 2 b a imm s
def execStw (b a : BitVec 5) (imm : BitVec 12) (s : State) := stg (.stw b a imm) 4 b a imm s

/-! ## Pointer forms -/

def ldp (i : Instr) (z : Nat) (sg : Bool) (d : BitVec 5) (a : BitVec 3) (o : MemOrd) (sc : BitVec 2) (cons post : Bool)
    (s : State) : Host.Outcome State Fault Refusal :=
  issue i (ptrIds a post ++ memIds o sc) (gid d :: ptrDst a post) s (loadP z sg d a cons post)
def stp (i : Instr) (z : Nat) (d : BitVec 5) (a : BitVec 3) (o : MemOrd) (sc : BitVec 2) (post : Bool) (s : State) :
    Host.Outcome State Fault Refusal :=
  issue i (gid d :: ptrIds a post ++ memIds o sc) (ptrDst a post) s (storeP z d a o sc post)

def execLdbPtr (d : BitVec 5) (a : BitVec 3) (o : MemOrd) (sc : BitVec 2) (c p : Bool) (s : State) :=
  ldp (.ldbPtr d a o sc c p) 1 true d a o sc c p s
def execLdbuPtr (d : BitVec 5) (a : BitVec 3) (o : MemOrd) (sc : BitVec 2) (c p : Bool) (s : State) :=
  ldp (.ldbuPtr d a o sc c p) 1 false d a o sc c p s
def execLdhPtr (d : BitVec 5) (a : BitVec 3) (o : MemOrd) (sc : BitVec 2) (c p : Bool) (s : State) :=
  ldp (.ldhPtr d a o sc c p) 2 true d a o sc c p s
def execLdhuPtr (d : BitVec 5) (a : BitVec 3) (o : MemOrd) (sc : BitVec 2) (c p : Bool) (s : State) :=
  ldp (.ldhuPtr d a o sc c p) 2 false d a o sc c p s
def execLdwPtr (d : BitVec 5) (a : BitVec 3) (o : MemOrd) (sc : BitVec 2) (c p : Bool) (s : State) :=
  ldp (.ldwPtr d a o sc c p) 4 false d a o sc c p s
def execStbPtr (d : BitVec 5) (a : BitVec 3) (o : MemOrd) (sc : BitVec 2) (p : Bool) (s : State) :=
  stp (.stbPtr d a o sc p) 1 d a o sc p s
def execSthPtr (d : BitVec 5) (a : BitVec 3) (o : MemOrd) (sc : BitVec 2) (p : Bool) (s : State) :=
  stp (.sthPtr d a o sc p) 2 d a o sc p s
def execStwPtr (d : BitVec 5) (a : BitVec 3) (o : MemOrd) (sc : BitVec 2) (p : Bool) (s : State) :=
  stp (.stwPtr d a o sc p) 4 d a o sc p s

def execVld (d : BitVec 4) (a : BitVec 3) (o : MemOrd) (sc : BitVec 2) (cons post : Bool) (s : State) :
    Host.Outcome State Fault Refusal :=
  issue (.vld d a o sc cons post) (ptrIds a post ++ memIds o sc) (vid d :: ptrDst a post) s fun s => do
    let (bs, own, s) ← s.loadAt a 16 16 cons .any
    .ok ((s.bump a post).laterMem own [(vid d, bytes128 bs)], .seq)

def execVst (d : BitVec 4) (a : BitVec 3) (o : MemOrd) (sc : BitVec 2) (post : Bool) (s : State) :
    Host.Outcome State Fault Refusal :=
  issue (.vst d a o sc post) (vid d :: ptrIds a post ++ memIds o sc) (ptrDst a post) s fun s => do
    releaseWait s (!decide (o = .relaxed) && !s.inTask) (s.memScope sc)
    let s ← s.storeAt a (leBytes 16 (s.rv d).toNat) 16 .any (s.storeRel o sc)
    .ok (s.bump a post, .seq)

/-- A pop of a FIFO bank (09 R238 to R240): the oldest entry, or a wait at the bank with the group empty, where the bank
is empty, other pops wait, or an earlier push of the context waits there. -/
def State.popFifo (s : State) (b k : Nat) (d : BitVec 4) (P : W64) : Except Stop State :=
  let f := s.fifo b k
  let p : PopWait := { core := s.core, ctx := s.ctx, vreg := d.toNat, val := ptrLow P, seq := s.seq }
  match f.entries with
  | e :: _ =>
    if !f.pops.isEmpty || f.held p then .ok (queued f p)
    else if f.headBad then .error (.ue s (f.headKey b k) (ueAddr P) (ptrLow P))
    else .ok ((s.setFifo b k f.drop).laterMem false (groupVals d (lineBytes e)))
  | [] => .ok (queued f p)
where
  queued (f : Fifo) (p : PopWait) : State :=
    let s := s.nextSeq.2.setFifo b k { f with pops := f.pops ++ [p] }
    s.setCur ((vgroup d).foldl (fun x id => x.setRegState id .empty) s.cur)

def execVldg (d : BitVec 4) (a : BitVec 3) (cons post : Bool) (s : State) : Host.Outcome State Fault Refusal :=
  issue (.vldg d a cons post) (ptrIds a post) (vgroup d ++ ptrDst a post) s fun s =>
    let P := s.rp a
    match s.resolve s.core P 64 16 .read .group with
    | .ok (.fifo b k, _) => do
      waitIf (s.popsHold s.core s.ctx (some (b, k))) s
      let s ← s.publish
      let s ← s.popFifo b k d P
      .ok (s.bump a post, .seq)
    | _ => do
      waitIf (s.popsHold s.core s.ctx) s
      let (bs, own, s) ← s.loadAt a 64 16 cons .group
      .ok ((s.bump a post).laterMem own (groupVals d bs), .seq)

def execVstg (d : BitVec 4) (a : BitVec 3) (post : Bool) (s : State) : Host.Outcome State Fault Refusal :=
  issue (.vstg d a post) (vgroup d ++ ptrIds a post) (ptrDst a post) s fun s => do
    waitIf (s.popsHold s.core s.ctx (s.bankOf s.core (s.rp a) .write)) s
    let s ← s.storeAt a (lineBytes (s.groupLine d)) 16 .group none
    .ok (s.bump a post, .seq)

/-! ## Block copy and fill (R122, R123) -/

/-- The pattern bytes of `lfill` for `k` bytes from offset `o` of the destination (R122). -/
def fillBytes (pat : W32) (o k : Nat) : List Byte :=
  (List.range k).map fun x => pat.extractLsb' (8 * ((o + x) % 4)) 8

/-- One pass over a range of `n` bytes (R122): `read` gives the bytes of the pass. -/
def blockPass (dst n : W32) (down : Bool) (read : State → Nat → Nat → Except Stop (List Byte)) : Body := fun s => do
  let prog := s.cur.prog.toNat
  let n := n.toNat
  let k := min 16 (n - prog)
  let o := if down then n - prog - k else prog
  let bs ← read s o k
  let at_ := dst.toNat + o
  let s ← if s.inTask then
      match s.rangeStop s.core at_ k .write (s.decsOf s.core s.cur) with
      | some (.ue ..) => s.hold [.lmem at_ bs]
      | some e => .error e
      | none => s.hold [.lmem at_ bs]
    else s.doLmem s.core at_ bs
  if prog + k = n then .ok (s.setCur { s.cur with prog := 0 }, .seq)
  else .ok (s.setCur { s.cur with prog := BitVec.ofNat 32 (prog + k) }, .stay)

/-- A pass of `lcopy` or `lfill`, or its end (R122). -/
def blockOp (i : Instr) (d a b : BitVec 5) (copy : Bool) (s : State) : Host.Outcome State Fault Refusal :=
  issue i (gids [d, a, b]) [] s fun s => do
    let n := s.rg b
    if n.toNat ≤ s.cur.prog.toNat then .ok (s.setCur { s.cur with prog := 0 }, .seq)
    else do
      trapIf (decide (0x20000 < (s.rg d).toNat + n.toNat)) s .range (s.rg d)
      trapIf (copy && decide (0x20000 < (s.rg a).toNat + n.toNat)) s .range (s.rg a)
      if copy then
        blockPass (s.rg d) n (decide ((s.rg a).toNat < (s.rg d).toNat)) (fun s o k =>
          let off := (s.rg a).toNat + o
          match s.rangeStop s.core off k .read (s.decsOf s.core s.cur) with
          | some e => .error e
          | none => .ok (s.readSeen s.core s.cur (localParts s.core off k))) s
      else blockPass (s.rg d) n false (fun s o k => .ok (fillBytes (s.rg a) o k)) s

def execLcopy (d a b : BitVec 5) (s : State) := blockOp (.lcopy d a b) d a b true s
def execLfill (d a b : BitVec 5) (s : State) := blockOp (.lfill d a b) d a b false s

end Sys2Proof.Machine
end

