-- ==== Sys2Proof/Machine/Pointer.lean ====
section
/-! DEFINITION. Pointer-forming instructions and walk registers (04 R97, R98). -/

namespace Sys2Proof.Machine

/-- An instruction of latency 1 that writes one p register. -/
def ptrOp (i : Instr) (srcs : List Nat) (d : BitVec 3) (s : State) (f : State → Except Stop W64) :
    Host.Outcome State Fault Refusal :=
  issue i srcs [pid d] s fun s => do
    let v ← f s
    .ok (s.wp d v, .seq)

/-- A near pointer from its basin, unit and offset (R98). -/
def nearPtr (bas : BitVec 11) (unit : BitVec 4) (off : BitVec 21) : W64 := 0b01#2 ++ 0#26 ++ bas ++ unit ++ off

/-- The pointer of `pnear` (R98). -/
def pnearOf (u : Bool) (x y : W32) : W64 :=
  if u then nearPtr (x.extractLsb' 4 11) (x.extractLsb' 0 4) (y.extractLsb' 0 21)
  else nearPtr (x.extractLsb' 3 11) (0#1 ++ (x.extractLsb' 0 3 : BitVec 3)) (y.extractLsb' 0 21)

def execPset (d : BitVec 3) (a b : BitVec 5) (s : State) :=
  ptrOp (.pset d a b) (gids [a, b]) d s fun s => .ok (s.rg b ++ s.rg a)
def execPnear (d : BitVec 3) (a b : BitVec 5) (u : Bool) (s : State) :=
  ptrOp (.pnear d a b u) (gids [a, b]) d s fun s => .ok (pnearOf u (s.rg a) (s.rg b))
def execPfar (d : BitVec 3) (a b : BitVec 5) (s : State) :=
  ptrOp (.pfar d a b) (gids [a, b]) d s fun s => .ok (0b10#2 ++ 0#14 ++ ((s.rg b).extractLsb' 0 16 : BitVec 16) ++ s.rg a)

/-- A pointer moved within its width; KIND 0b11 faults PTR with the register number (R98). -/
def movePtr (s : State) (a : BitVec 3) (r : Option W64) : Except Stop W64 :=
  match r with
  | some P => .ok P
  | none => .error (.trap s .ptr (a.zeroExtend 32))

def execPadd (d a : BitVec 3) (b : BitVec 5) (s : State) :=
  ptrOp (.padd d a b) [pid a, gid b] d s fun s => movePtr s a (ptrAdd (s.rp a) (sgn (s.rg b)))
def execPwalk (d a : BitVec 3) (s : State) :=
  ptrOp (.pwalk d a) [pid a, wid a] d s fun s => movePtr s a (walkPtr (s.rp a) (s.rw a))
def execPget (d : BitVec 5) (a : BitVec 3) (hi : Bool) (s : State) :=
  alu (.pget d a hi) [pid a] d s fun s => (s.rp a).extractLsb' (if hi then 32 else 0) 32
def execWset (d : BitVec 3) (a : BitVec 5) (e : Bool) (s : State) : Host.Outcome State Fault Refusal :=
  let id := if e then eid d.toNat else wid d
  issue (.wset d a e) (gids [a]) [id] s fun s => .ok (s.setCur (s.cur.write id ((s.rg a).zeroExtend 128)), .seq)

end Sys2Proof.Machine
end

