-- ==== Sys2Proof/Machine/System.lean ====
section
/-! DEFINITION. System registers, traps, basin and cache control, time and keys: SYS (08 R219 to R229, 01 R33, R34). -/

namespace Sys2Proof.Machine

/-! ## System registers (R220 to R222) -/

/-- FOVREG class code of a group selector, and the ids of its eight registers (01 R34). -/
def selIds (sel : BitVec 5) : Option (List Nat) :=
  let cls := sel.toNat / 4
  let idx := sel.toNat % 4
  if cls ≤ 4 ∧ (cls = 0 ∨ (cls = 1 ∧ idx < 2) ∨ (2 ≤ cls ∧ idx = 0)) then
    some ((List.range 8).map fun j => cls * 32 + idx * 8 + j) else none

def stateCode : RegState → Nat
  | .empty => 0
  | .full => 1
  | .absent => 2

/-- STATE of REGSTATE for a selector (01 R34). -/
def Ctx.stateBits (x : Ctx) (sel : BitVec 5) : Nat :=
  match selIds sel with
  | none => 0xFFFF
  | some ids => (ids.zipIdx.map fun e => stateCode (x.regState e.1) * 4 ^ e.2).sum

/-- A write of STATE (01 R34): 0b00 empties a register, 0b01 makes it full. -/
def Ctx.putStates (x : Ctx) (sel : BitVec 5) (bits : Nat) : Ctx :=
  match selIds sel with
  | none => x
  | some ids => ids.zipIdx.foldl (fun x e =>
      match bits / 4 ^ e.2 % 4 with
      | 0 => x.setRegState e.1 .empty
      | 1 => x.setRegState e.1 .full
      | _ => x) x

/-- Bit n of CNT_STAT.OPEN: region n is open (R221). -/
def Core.openBits (k : Core) : Nat := ((List.range 8).map fun i => if (mget none k.regions i).isSome then 2 ^ i else 0).sum

/-- The value of a system register (R220, R221). -/
def State.sysReg (s : State) (r : Nat) : W32 :=
  let x := s.cur
  let k := s.me
  let rec_ := s.recOf s.core
  match r with
  | 0 => BitVec.ofNat 32 s.core
  | 1 => BitVec.ofNat 32 ((if x.task.isSome then 256 else 0) + s.ctx)
  | 2 => k.launchId.zeroExtend 32
  | 3 => k.spaceId.zeroExtend 32
  | 4 => (x.task.map fun t => t.msg.id).getD 0
  | 5 => BitVec.ofNat 32 ((if x.inh then 2 ^ 31 else 0) + x.code.toNat)
  | 6 => BitVec.ofNat 32 (x.trapPc.toNat * 2)
  | 7 => x.trapVal
  | 8 => BitVec.ofNat 32 (x.trapVec.toNat * 2)
  | 9 => x.rc
  | 10 => BitVec.ofNat 32 (x.ls.toNat * 2)
  | 11 => BitVec.ofNat 32 (x.le.toNat * 2)
  | 12 => x.prog
  | 13 => BitVec.ofNat 32 (x.spillBase.toNat * 2 ^ 17 + x.spillTop.toNat * 4)
  | 14 => BitVec.ofNat 32 (x.linkLimit.toNat * 4)
  | 15 => x.fflags.zeroExtend 32
  | 16 => x.frm.zeroExtend 32
  | 17 => k.netfmt.zeroExtend 32
  | 18 => x.srkeyLo
  | 19 => x.srkeyHi
  | 20 => x.srseq
  | 21 => x.budget
  | 22 => BitVec.ofNat 32 ((x.task.map fun t => t.msg.attempt).getD 0 % 8 * 16 + rec_.retry.toNat)
  | 23 => k.cntLimit
  | 24 => BitVec.ofNat 32 (k.openBits * 2 ^ 24 + k.pstall.toNat)
  | 25 => mstatWord k.mat
  | 26 => k.dropTotal
  | 27 => BitVec.ofNat 32 (s.bootReason.toNat * 2 ^ 24 + s.bootMode.toNat)
  | _ => BitVec.ofNat 32 ((if x.fov then 2 ^ 31 else 0) + x.fovreg.toNat * 2 ^ 23 + x.sel.toNat * 2 ^ 16 + x.stateBits x.sel)

/-- A write of a system register: RO and reserved fields ignore it, and so do fields marked c0 in a helper (R222). -/
def State.setSysReg (s : State) (r : Nat) (v : W32) : State :=
  let x := s.cur
  let k := s.me
  let c0 := decide (s.ctx = 0)
  match r with
  | 5 => s.setCur { x with inh := v.getLsbD 31, code := v.truncate 8 }
  | 6 => s.setCur { x with trapPc := v.extractLsb' 1 16 }
  | 7 => s.setCur { x with trapVal := v }
  | 8 => s.setCur { x with trapVec := v.extractLsb' 1 16 }
  | 9 => s.setCur { x with rc := v }
  | 10 => s.setCur { x with ls := v.extractLsb' 1 16 }
  | 11 => s.setCur { x with le := v.extractLsb' 1 16 }
  | 12 => s.setCur { x with prog := v }
  | 13 => s.setCur { x with spillBase := v.extractLsb' 17 15, spillTop := v.extractLsb' 2 15 }
  | 14 => s.setCur { x with linkLimit := v.extractLsb' 2 15 }
  | 15 => s.setCur { x with fflags := v.truncate 5 }
  | 16 => s.setCur { x with frm := v.truncate 2 }
  | 18 => s.setCur { x with srkeyLo := v }
  | 19 => s.setCur { x with srkeyHi := v }
  | 20 => s.setCur { x with srseq := v }
  | 23 => if c0 then s.setMe { k with cntLimit := v } else s
  | 24 => s.setMe { k with pstall := v.truncate 16 }
  | 25 => if c0 then s.setMe { k with mat := { k.mat with halt := v.getLsbD 0 } } else s
  | 26 => s.setMe { k with dropTotal := v }
  | 28 =>
    let sel : BitVec 5 := v.extractLsb' 16 5
    s.setCur (({ x with sel := sel, fov := x.fov && !v.getLsbD 31 } : Ctx).putStates sel (v.toNat % 65536))
  | _ => s

/-- The registers whose states a read or a write of REGSTATE reaches, with their granules restored first (01 R34). -/
def stateIds (sel : BitVec 5) : List Nat := (selIds sel).getD []

/-- `mfs` (R222), after the flags still to land (06 R143) and the absent granules of the group (01 R34). -/
def execMfs (d : BitVec 5) (r : BitVec 6) (s : State) : Host.Outcome State Fault Refusal :=
  issueIf (decide (r.toNat ≤ 28)) (.mfs d r) [] [gid d] s fun s => do
    waitIf (r == 15 && s.flagsPending s.core s.ctx) s
    waitAbsent (if r = 28 then stateIds s.cur.sel else []) s
    .ok (s.wg d (s.sysReg r.toNat), .seq)

/-- `mts` (R222). A write of REGSTATE waits for an absent granule that it changes. -/
def execMts (r : BitVec 6) (a : BitVec 5) (s : State) : Host.Outcome State Fault Refusal :=
  issueIf (decide (r.toNat ≤ 28)) (.mts r a) (gids [a]) [] s fun s => do
    let v := s.rg a
    waitIf (r == 15 && s.flagsPending s.core s.ctx) s
    waitAbsent (if r = 28 ∧ v.toNat % 65536 ≠ 0xFFFF then stateIds (v.extractLsb' 16 5) else []) s
    .ok (s.setSysReg r.toNat v, .seq)

def classNum : RegClass → Nat
  | .g => 0
  | .v => 1
  | .p => 2
  | .w => 3
  | .e => 4

/-- `clr` (R222, 01 R33): the register becomes empty. -/
def execClr (cls : RegClass) (a : BitVec 5) (s : State) : Host.Outcome State Fault Refusal :=
  issue (.clr cls a) [] [] s fun s => do
    let id := classNum cls * 32 + a.toNat
    waitAbsent [id] s
    .ok (s.setCur (s.cur.setRegState id .empty), .seq)

/-! ## Traps (R223, R225, R226) -/

/-- A trap instruction: every earlier result lands first, then the trap stands at the next instruction (R223, R224). -/
def trapBody (f : State → Except Stop (Cause × W32)) : Body := fun s => do
  let (c, v) ← f s
  .ok (s, .trapNext c v)

def execTrap (a b : BitVec 5) (s : State) : Host.Outcome State Fault Refusal :=
  issue (.trap a b) (gids [a, b]) [] s (trapBody fun s =>
    match trapCauseOf (s.rg a).toNat with
    | some c => .ok (c, s.rg b)
    | none => .error (.trap s .ill (s.rg a)))

def execSvc (a : BitVec 5) (s : State) : Host.Outcome State Fault Refusal :=
  issue (.svc a) (gids [a]) [] s (trapBody fun s => .ok (.svc, s.rg a))

def execBrk (n : BitVec 6) (s : State) : Host.Outcome State Fault Refusal :=
  issue (.brk n) [] [] s (trapBody fun _ => .ok (.brk, n.zeroExtend 32))

def execTret (s : State) : Host.Outcome State Fault Refusal :=
  issueIf (!s.inTask) .tret [] [] s fun s =>
    let x := s.cur.returnTrap
    .ok (s.setCur { x with pc := s.cur.pc }, .jump x.pc)

def execIdle (s : State) : Host.Outcome State Fault Refusal := issueIf (!s.inTask) .idle [] [] s endBody

/-- `isync` (R226): a commit point (R209), which waits for the context's stores, and for its pops, whose pushes come before
it (10 R239), and then discards what has been fetched ahead, so that the context fetches every store performed until now. -/
def execIsync (s : State) : Host.Outcome State Fault Refusal :=
  issue .isync [] [] s fun s => do
    let s ← s.publish
    waitIf (s.priorPending s.core s.ctx s.seq) s
    .ok (s.refetch s.core s.ctx, .seq)

/-! ## Bank modes (R227, 09 R235 to R237, R241) -/

/-- Far lines of bank `k` of basin `b`. -/
def State.bankLines (s : State) (b k : Nat) : List (Nat × FarLine) :=
  s.far.filter fun e => e.2.bank == k && s.home (farPa (e.1 * 64)) == some b

/-- Far lines whose home lies in a die. -/
def State.dieLines (s : State) (die : Nat) : List (Nat × FarLine) :=
  s.far.filter fun e => farPa (e.1 * 64) / 2 ^ 21 % 4 == die

def isCounted : LineState → Bool
  | .counted _ => true
  | _ => false

/-- Whether the switch adds the basin to its die's cache pool or removes it (09 R237). -/
def poolMoves (x : Basin) (k : Nat) (m : BitVec 2) : Bool := x.ways.isEmpty != (x.setMode k m).ways.isEmpty

/-- The key of a granule for whose error a dirty line among some cannot be written back (18 R367). -/
def State.badDirty (s : State) (lks : List Nat) : Option Nat :=
  lks.findSome? fun lk => match s.farLine lk with
    | some l => if l.dirty && !l.pinned then (s.badGranule (lk * 64) 64).map (· * 8) else none
    | none => none

/-- A switch or a write-back that needs a bad granule faults UE with that address (18 R367). -/
def needsGranule (s : State) (bad : Option Nat) : Except Stop Unit :=
  match bad with
  | some key => .error (.ue s key (farPa key) (BitVec.ofNat 32 (farPa key)))
  | none => .ok ()

/-- Waiting pops of a bank that leaves FIFO mode fault RANGE in their contexts (09 R241). -/
def State.failPops (s : State) (ps : List PopWait) : State := ps.foldl (fun s p => s.defer p.core p.ctx .range p.val) s

/-- The bank starts empty in its new mode (09 R236). -/
def State.switchBank (s : State) (b k : Nat) (m : BitVec 2) : State :=
  let x := s.getBasin b
  let gone := if poolMoves x k m then s.dieLines (dieOf b) else if x.mode k = 0 then s.bankLines b k else []
  let s := gone.foldl (fun s e => s.evict e.1) s
  let base := bankKey b k 0
  let s : State := { s with
    mem := mclear s.mem base 131072
    lines := mclear s.lines (base / 64) 2048
    errs := { s.errs with mem := mclear s.errs.mem (base / 8) 16384 } }
  let x := s.getBasin b
  let f := x.fifo k
  (s.setBasin b ((x.setMode k m).setFifo k {})).failPops f.pops

/-- Whether a push or a pop of a context waits at a bank. -/
def Fifo.holds (f : Fifo) (n c : Nat) : Bool :=
  (f.pushes.any fun p => p.src == .ctx n c) || f.pops.any fun p => p.core == n && p.ctx == c

/-- `bmode` (R227), in the order of its faults. It follows the issuer's own pushes and pops that wait at the bank (09 R235);
a bank at which another push waits is not empty (log entry 53). -/
def execBmode (a b : BitVec 5) (s : State) : Host.Outcome State Fault Refusal :=
  issueIf (s.ctx == 0) (.bmode a b) (gids [a, b]) [] s fun s => do
    let k := (s.rg a).toNat
    trapIf (decide (11 < k)) s .range (s.rg a)
    trapIf (decide (2 < (s.rg b).toNat)) s .range (s.rg b)
    let bn := basinOf s.core
    let x := s.getBasin bn
    let m : BitVec 2 := (s.rg b).truncate 2
    if x.mode k = m then .ok (s, .seq)
    else do
      waitIf ((x.fifo k).holds s.core s.ctx) s
      let moves := poolMoves x k m
      let lines := if moves then s.dieLines (dieOf bn) else if x.mode k = 0 then s.bankLines bn k else []
      trapIf (lines.any fun e => isCounted e.2.st) s .pressure (s.rg a)
      trapIf (decide (x.mode k = 2) && !((x.fifo k).entries.isEmpty && (x.fifo k).pushes.isEmpty)) s .range (s.rg a)
      needsGranule s (s.badDirty (lines.map (·.1)))
      .ok (s.switchBank bn k m, .seq)

/-! ## Far line control (R228) -/

/-- What is done to a cached, uncounted line. -/
inductive LineAct where
  | writeBack | writeInv | discard
deriving DecidableEq, Repr

/-- The cached line without its errors, which the discard removes (18 R367); memory keeps its own. -/
def State.clearErrs (s : State) (lk : Nat) : State := { s with errs := { s.errs with mem := mclear s.errs.mem (lk * 8) 8 } }

def State.actLine (s : State) (act : LineAct) (lk : Nat) : State :=
  match act with
  | .writeBack => s.writeBack lk
  | .writeInv => s.evict lk
  | .discard => (s.dropFar lk).clearErrs lk

/-- The cached, uncounted lines of the parts of a range, each with the access it needs; a page without a translation
holds no line of the range. -/
def State.rangeLines (s : State) (via : Via) (P : W64) (acc : Acc) : List (Nat × Nat) → Except Stop (List Nat × State)
  | [] => .ok ([], s)
  | (va, n) :: t =>
    match s.walk via s.me.spaceId.toNat va with
    | (.leaf e l, s') =>
      match leafTarget e l va with
      | .mem key _ =>
        let ls := ((s'.far.filter fun f => decide (key / 64 ≤ f.1 ∧ f.1 < key / 64 + n / 64)).filter fun f => !f.2.pinned).map (·.1)
        if ls.isEmpty || permits acc e then do
          let (rest, s') ← s'.rangeLines via P acc t
          .ok (ls ++ rest, s')
        else .error (.miss s { space := s.me.spaceId.toNat, va := va, kind := acc.code .ctx, reason := 2 } (ptrLow P))
      | .ring _ => s'.rangeLines via P acc t
    | (.ue key, _) => .error (.ue s key va (ptrLow P))
    | (_, s') => s'.rangeLines via P acc t

/-- 512 KiB parts of a virtual range. -/
def vaParts : Nat → Nat → Nat → List (Nat × Nat)
  | 0, _, _ => []
  | fuel + 1, a, n =>
    let k := min n (2 ^ 19 - a % 2 ^ 19)
    if n = 0 then [] else (a, k) :: vaParts fuel (a + k) (n - k)

/-- `l2wb` and `l2inv` (R228). The rule gives the ALIGN fault of an address no TRAP_VAL: here it is P[31:0] (log entry 76). -/
def farControl (i : Instr) (a : BitVec 3) (b : BitVec 5) (acc : Acc) (act : LineAct) (s : State) : Host.Outcome State Fault Refusal :=
  issueIf (s.ctx == 0) i [pid a, gid b] [] s fun s => do
    let P := s.rp a
    matPtr s (some a)
    trapIf (ptrKind P != 2) s .range (a.zeroExtend 32)
    trapIf (ptrOff P % 64 != 0) s .align (ptrLow P)
    let n := (s.rg b).toNat
    trapIf (n % 64 != 0) s .align (s.rg b)
    trapIf (decide (2 ^ 48 < ptrOff P + n)) s .range (ptrLow P)
    let (via, s) := s.via (stationOf (basinOf s.core))
    let (lks, s') ← s.rangeLines via P acc (vaParts (n / 2 ^ 19 + 2) (ptrOff P) n)
    needsGranule s (if act = .discard then none else s'.badDirty lks)
    .ok (lks.foldl (fun s lk => s.actLine act lk) s', .seq)

def execL2wb (a : BitVec 3) (b : BitVec 5) (s : State) := farControl (.l2wb a b) a b .inv .writeBack s
def execL2inv (a : BitVec 3) (b : BitVec 5) (dis : Bool) (s : State) :=
  farControl (.l2inv a b dis) a b (if dis then .invDis else .inv) (if dis then .discard else .writeInv) s

/-! ## Time and keys (R229) -/

/-- `rdtime`: the second register is d + 1; with d = 0 only g1 is written. -/
def execRdtime (d : BitVec 5) (s : State) : Host.Outcome State Fault Refusal :=
  issue (.rdtime d) [] (ggroup d 2) s fun s =>
    .ok ((s.wg d (s.time.truncate 32)).wg (d + 1) (s.time.extractLsb' 32 32), .seq)

/-- `skey`: both halves come from the old key. -/
def execSkey (a : BitVec 5) (s : State) : Host.Outcome State Fault Refusal :=
  issue (.skey a) (gids [a]) [] s fun s =>
    let x := s.cur
    .ok (s.setCur { x with srkeyLo := spate x.srkeyHi x.srkeyLo 0xFFFFFFFF (s.rg a)
                           srkeyHi := spate x.srkeyHi x.srkeyLo 0xFFFFFFFE (s.rg a) }, .seq)

end Sys2Proof.Machine
end

