-- ==== Sys2Proof/Machine/Translation.lean ====
section
/-! DEFINITION. What the host does to translation: invalidations, and answers to faults (15 R336 to R339). -/

namespace Sys2Proof.Machine

/-! ## Invalidation (R336, R337) -/

/-- A host write of XINV_CTL: GO starts an invalidation of the range written, and is ignored while one runs (R337). -/
def State.writeInv (s : State) (q : Nat) (ctl : W32) : State :=
  let y := s.getQuay q
  s.setQuay q { y with xinvCtl := ctl &&& 0x70000FFF
                       inv := if ctl.getLsbD 31 && y.inv.isNone then some (y.xinvVa.toNat, ctl &&& 0x70000FFF) else y.inv }

/-- INVALIDATION: the host's write, and the end of the invalidation where R336 holds at once (`State.finishInvs` sees to the
rest). Quay cores 1 to 15 do not run in minimal mode (19 R376). -/
def State.invalidate (s : State) (q : Nat) (ctl : W32) : State :=
  if s.bootMode = 2 ∧ q ≠ 0 then s else (s.writeInv q ctl).finishInv q

def execInvalidation (q : Nat) (ctl : W32) (s : State) : Host.Outcome State Fault Refusal :=
  event (if q < 16 then s.invalidate q ctl else s)

/-! ## Answers (R338, R339) -/

/-- The answer that a waiter of a tag receives. -/
structure Answer where
  ref : TagRef
  refuse : Option Cause

def Answer.hits (a : Answer) (t : Option TagRef) : Bool := t == some a.ref

def Ctx.answer (x : Ctx) (a : Answer) : Ctx := if a.hits x.xtag then { x with xtag := none, verdict := a.refuse } else x
def Xfer.answer (x : Xfer) (a : Answer) : Xfer := if a.hits x.tag then { x with tag := none, verdict := a.refuse } else x
def MatCmd.answer (x : MatCmd) (a : Answer) : MatCmd := if a.hits x.tag then { x with tag := none, verdict := a.refuse } else x
/-- A refusal stops a tug command that still works at the access that missed, and leaves the completion word of another
unwritten (12 R296, R300). -/
def TugCmd.answer (x : TugCmd) (a : Answer) : TugCmd :=
  if !a.hits x.tag then x
  else match a.refuse with
    | some c => if x.worked then { x with tag := none, verdict := some c } else { x with tag := none, stop := some (c, x.missVal), pinned := none }
    | none => { x with tag := none }
def KeepReq.answer (x : KeepReq) (a : Answer) : KeepReq := if a.hits x.tag then { x with tag := none, verdict := a.refuse } else x
def HQueue.answer (x : HQueue) (a : Answer) : HQueue := if a.hits x.tag then { x with tag := none, verdict := a.refuse } else x
def Launch.answer (x : Launch) (a : Answer) : Launch := if a.hits x.tag then { x with tag := none, verdict := a.refuse } else x

/-- An attempt that ends for a page is answered before its message is on the waiting-for-page list (R339). -/
def Ending.answer (e : Ending) (a : Answer) : Ending :=
  { e with page := e.page.map fun w => if a.hits w.tag then { w with tag := none, answer := some a.refuse } else w }

/-- Contexts, transfers and matrix commands of a core. -/
def Core.answer (k : Core) (a : Answer) : Core :=
  { k with ctxs := k.ctxs.map fun e => (e.1, { e.2.answer a with ending := e.2.ending.map (·.answer a) })
           xfers := k.xfers.map (·.answer a)
           mat := { k.mat with queue := k.mat.queue.map (·.answer a) } }

def Basin.answer (b : Basin) (a : Answer) : Basin :=
  { b with tug := { b.tug with cmds := b.tug.cmds.map (·.answer a) }
           keeper := { b.keeper with reqs := b.keeper.reqs.map (·.answer a) } }

/-- Messages of a core that wait for the page of a tag. -/
def Core.pagesHit (k : Core) (a : Answer) : List Message := (k.pages.filter fun w => a.hits w.tag).map (·.msg)

/-- The messages of a core that wait for the page are answered (R339). -/
def State.answerPages (s : State) (n : Nat) (a : Answer) : State :=
  let k := s.getCore n
  (k.pagesHit a).foldl (fun s m => s.answerPage n m a.refuse) (s.setCore n { k with pages := k.pages.filter fun w => !a.hits w.tag })

/-- A core of a saved launch: what waits in its save area is answered too; the messages of a refused page have left it. -/
def Core.answerSaved (k : Core) (a : Answer) : Core :=
  let y := k.answer a
  { y with pages := k.pages.filter fun w => !a.hits w.tag
           port := if a.refuse.isNone then k.port ++ k.pagesHit a else k.port }

/-- What a save area holds is answered: its cores and its basins. -/
def Saved.answer (v : Saved) (a : Answer) : Saved :=
  { v with cores := v.cores.map fun e => (e.1, e.2.answerSaved a), basins := v.basins.map fun e => (e.1, e.2.answer a) }

/-- A saved launch is answered; its messages that the host refused a page end as exhausted. -/
def State.answerLaunch (s : State) (h : Nat) (a : Answer) : State :=
  match s.launchOf h with
  | none => s
  | some l =>
    let gone : List Message := match l.save, a.refuse with
      | some v, some _ => v.cores.flatMap fun (e : Nat × Core) => e.2.pagesHit a
      | _, _ => []
    gone.foldl (fun s m => s.postExhausted h none (a.refuse.getD .xlate) m)
      (s.setLaunch h { l.answer a with save := l.save.map fun (v : Saved) => v.answer a })

/-- A message that waits for a page, or whose attempt still ends for one, opens its tag, if it has none (R338). -/
def State.tagWait (s : State) (q : Nat) (lid : BitVec 16) (w : PageWait) : PageWait × State :=
  if w.tag.isSome || w.answer.isSome then (w, s)
  else
    let (s, tag) := s.openTag q w.miss lid
    ({ w with tag := tag }, s)

/-- Messages that wait for a page without a tag open theirs (R338). -/
def State.tagList (s : State) (q : Nat) (lid : BitVec 16) : List PageWait → List PageWait × State
  | [] => ([], s)
  | w :: t =>
    let (w, s) := s.tagWait q lid w
    let (rest, s) := s.tagList q lid t
    (w :: rest, s)

/-- An attempt of context `c` of core `n` that ends for a page opens its tag. -/
def State.tagEnding (s : State) (q n c : Nat) : State :=
  let x := s.getCtx n c
  match x.ending.bind (·.page) with
  | none => s
  | some w =>
    let (w, s) := s.tagWait q (s.getCore n).launchId w
    s.setCtx n c { x with ending := x.ending.map fun e => { e with page := some w } }

/-- A tag has closed: messages whose miss could open none open one now (R338), on the cores and in save areas, those of
attempts that still end first. -/
def State.tagPages (s : State) (q : Nat) : State :=
  let mine (e : Nat × Core) : Bool := quayOf (basinOf e.1) == q && e.2.pages.any fun w => w.tag.isNone
  let ends (e : Nat × Core) : Bool := quayOf (basinOf e.1) == q && e.2.ctxs.any fun x => x.2.ending.isSome
  let s := (s.cores.filter ends).foldl (fun s e => e.2.ctxs.foldl (fun s x => s.tagEnding q e.1 x.1) s) s
  let s := (s.cores.filter mine).foldl (fun s e =>
    let (ps, s) := s.tagList q e.2.launchId e.2.pages
    s.setCore e.1 { s.getCore e.1 with pages := ps }) s
  s.objs.foldl (fun s o => match s.launchOf o.1 with
    | none => s
    | some l => match l.save with
      | none => s
      | some v => (v.cores.filter mine).foldl (fun s e =>
          let (ps, s) := s.tagList q l.lrec.lid e.2.pages
          match s.launchOf o.1 with
          | some l => s.setLaunch o.1 { l with save := l.save.map fun v => { v with cores := mput v.cores e.1 { e.2 with pages := ps } } }
          | none => s) s) s

/-- A record that waits to be written belongs to an open tag (18 R372): it goes with it. -/
def Quay.closeTag (y : Quay) (t : Nat) : Quay :=
  { y with tags := mdel y.tags t, heldRecs := y.heldRecs.filter fun r => (r.getD 2 0).toNat % 65536 != t }

/-- Close a tag and answer its waiters. -/
def State.answerTag (s : State) (a : Answer) : State :=
  let s := s.setQuay a.ref.quay ((s.getQuay a.ref.quay).closeTag a.ref.tag)
  let s : State := { s with
    cores := s.cores.map fun e => (e.1, e.2.answer a)
    basins := s.basins.map fun e => (e.1, e.2.answer a)
    quays := s.quays.map fun e => (e.1, { e.2 with queues := e.2.queues.map fun k => (k.1, k.2.answer a) }) }
  let s := s.objs.foldl (fun s e => s.answerLaunch e.1 a) s
  let s := (s.cores.map (·.1)).foldl (fun s n => s.answerPages n a) s
  s.tagPages a.ref.quay

/-- A host write of FIX (R337); ACT 3 and a tag that is not open are ignored. -/
def State.fixTag (s : State) (q : Nat) (x : W32) : State :=
  let t := x.toNat % 65536
  let act := x.toNat / 2 ^ 30
  if act = 3 ∨ (mget none (s.getQuay q).tags t).isNone then s
  else s.answerTag { ref := { quay := q, tag := t }, refuse := if act = 0 then none else if act = 1 then some .xlate else some .perm }

/-- FIX. -/
def execFix (q : Nat) (x : W32) (s : State) : Host.Outcome State Fault Refusal := event (if q < 16 then s.fixTag q x else s)

/-- BAR_REGISTER_WRITE: a host write of any register of window `q` (14 R323). -/
def execBarRegisterWrite (q off : Nat) (x : W32) (s : State) : Host.Outcome State Fault Refusal :=
  event (s.barWrite q off x (fun s => s.invalidate q x) (fun s => s.fixTag q x))

end Sys2Proof.Machine
end

