-- ==== Sys2Proof/Machine/Preemption.lean ====
section
/-! DEFINITION. Pre-emption: its request, the save, the restore, and lazy restore (15 R340 to R348). -/

namespace Sys2Proof.Machine

/-! ## Save areas (R345, R347) -/

def blockBytes : Nat := 2 ^ 22

/-- Some granule or tile is still absent (R344). -/
def Ctx.hasAbsent (x : Ctx) : Bool := x.rst.any fun e => decide (e.2 = .absent)
def Core.hasAbsent (k : Core) : Bool := (k.ctxs.any fun e => e.2.hasAbsent) || k.mat.tiles.any fun e => e.2.absent
def State.absentLeft (s : State) (h : Nat) : Bool := s.cores.any fun e => e.2.heldBy h && e.2.hasAbsent

/-- Blocks of a launch's area. -/
def LaunchRec.areaBlocks (r : LaunchRec) : Nat := r.basins.length + 1

/-- Areas in use in the pool of quay core `q`: first address and blocks. -/
def State.areasOf (s : State) (q : Nat) : List (Nat × Nat) :=
  s.objs.filterMap fun e => match e.2.launch with
    | some l => match l.area with
      | some a =>
        let used := decide (l.phase = .preempting ∨ l.phase = .saved) || (decide (l.phase = .running) && s.absentLeft e.1)
        if l.quay == q && used then some (a, l.lrec.areaBlocks) else none
      | none => none
    | none => none

/-- A save area by first fit in block order. -/
def State.allocArea (s : State) (q need : Nat) : Option Nat :=
  let y := s.getQuay q
  let pool := y.svpool.toNat
  let used := s.areasOf q
  let free (i : Nat) : Bool :=
    let a := pool + i * blockBytes
    decide (i + need ≤ y.svblocks.toNat) && !used.any fun u => decide (u.1 < a + need * blockBytes ∧ a < u.1 + u.2 * blockBytes)
  ((List.range y.svblocks.toNat).find? free).map fun i => pool + i * blockBytes

/-- The area of a launch that is to be saved: the one it still has, or a new one. -/
def State.areaFor (s : State) (h : Nat) (l : Launch) : Option Nat :=
  match l.area with
  | some a => if s.absentLeft h then some a else s.allocArea l.quay l.lrec.areaBlocks
  | none => s.allocArea l.quay l.lrec.areaBlocks

/-! ## The request (R340; 14 R328) -/

def WorkObj.isRunning (o : WorkObj) : Bool :=
  match o.state, o.launch with
  | .sealed_, some l => decide (l.phase = .loading ∨ l.phase = .running ∨ l.phase = .preempting)
  | _, _ => false

/-- Launches that hold cores of a record's set. -/
def State.runningIn (s : State) (r : LaunchRec) : List (Nat × Launch) :=
  s.objs.filterMap fun e => if e.2.isRunning then e.2.launch.bind fun l => if l.lrec.meets r then some (e.1, l) else none else none

/-- A running launch that a waiting launch of PRIO `p` may pre-empt: one without a save area counts as of that PRIO. -/
def State.yields (s : State) (p : Nat) (e : Nat × Launch) : Bool :=
  decide (e.2.lrec.prio < p) && (decide (e.2.phase = .preempting) || (s.areaFor e.1 e.2).isSome)

/-- PREEMPTION: pre-emption of a running launch is requested for some waiting launch. Dispatch stops on its cores. -/
def execPreemption (h : Nat) (s : State) : Host.Outcome State Fault Refusal :=
  event (match s.launchOf h with
    | some l =>
      let wanted := s.waitingLaunches.any fun w => w.2.lrec.meets l.lrec && (s.runningIn w.2.lrec).all (s.yields w.2.lrec.prio)
      if !decide (l.phase = .running) || !decide ((s.getObj h).state = .sealed_) || !wanted then s
      else match s.areaFor h l with
        | some a => (s.mapCores h fun k => { k with noDispatch := true }).setLaunch h { l with phase := .preempting, area := some a }
        | none => s
    | none => s)

/-! ## Steps 1 to 4 have ended (R340, R341) -/

/-- A context that still has to run before the save: a task, or an arrival that is to be answered. -/
def Ctx.mustRun (x : Ctx) : Bool := x.task.isSome || x.ending.isSome || x.inArrival

/-- A command that the save has to wait for: a box that runs to its end, be it after a fix, or a command that has ended
(R300). -/
def TugCmd.mustRun (c : TugCmd) : Bool :=
  c.boxed || c.pinned.isSome || c.stop.isSome || decide (c.ringOut ≠ 0) || (c.started && (List.range c.nboxes).all c.isDone)

/-- Steps 1 to 3 have ended on every core of the set. -/
def State.tasksEnded (s : State) (h : Nat) : Bool := s.cores.all fun e => !e.2.heldBy h || e.2.ctxs.all fun x => !x.2.mustRun

/-- The matrix units of the set halt (R340 step 4; 07 R164). -/
def State.haltSet (s : State) (h : Nat) : State := s.mapCores h fun k => { k with mat := { k.mat with preHalt := true } }

/-- A message, or a kick, that cannot be accepted before the save: it follows an access that waits at a bank, or finds the
tug full. It stays on its way until the launch resumes (log entry 58). -/
def State.staysOut (s : State) (k : Nat) : Flight → Bool
  | .msg .. => !s.mayAccept k
  | .kick _ _ _ _ b _ _ => s.tugFull b
  | _ => false

/-- Step 4 has ended. -/
def State.readyToSave (s : State) (h : Nat) : Bool :=
  s.tasksEnded h && (s.cores.all fun e => !e.2.heldBy h || (e.2.mat.preHalt && e.2.mat.quiet && e.2.xfers.isEmpty))
    && (s.basins.all fun e => (e.2.tug.cmds.all fun c => c.handle != h || !c.mustRun) && e.2.keeper.reqs.all fun q => q.handle != h)
    && (s.net.zipIdx.all fun f => f.1.handle != h || s.staysOut f.2 f.1) && !s.ring.out.any (s.ownsRing h)

/-! ## What is saved (R341, R342) -/

/-- Every result that a context of the launch has issued lands, as at a trap (R341). -/
def State.landSet (s : State) (h : Nat) : State :=
  s.cores.foldl (fun s e => if e.2.heldBy h then e.2.ctxs.foldl (fun s x => s.landAll e.1 x.1) s else s) s

/-- A context at the boundary where it stops, when its results have landed: what it waits for is abandoned. A fault that the
host's refusal has made due stays due (R339). -/
def Ctx.atBoundary (x : Ctx) : Ctx :=
  { x with status := if x.status = .idle then .idle else .ready, xtag := none, pinStart := none
           bar := .none, judged := none, blockedOn := [] }

/-- A core as the save holds it. -/
def Core.toSave (k : Core) : Core :=
  { k with ctxs := k.ctxs.map fun e => (e.1, e.2.atBoundary), mat := { k.mat with fmt := none, preHalt := false } }

/-- A tug command as the save holds it: its block, read now if it has not started, and no box in hand (12 R300). -/
def State.tugToSave (s : State) (c : TugCmd) : TugCmd :=
  let r := s.tugBlock c
  let c : TugCmd := { c with tag := none }
  if c.started || r.2.isSome then c else { c with block := r.1, blockRead := true }

def State.basinToSave (s : State) (b : Basin) (h : Nat) : Basin :=
  { b with tug := { b.tug with cmds := (b.tug.cmds.filter fun c => c.handle == h).map s.tugToSave }
           fifos := b.fifos.map fun e => (e.1, { e.2 with pops := [], pushes := [] }) }

/-- Keys of the local memories and slices of a set. -/
def LaunchRec.holdsKey (r : LaunchRec) (key : Nat) : Bool :=
  if key < 2 ^ 32 then r.hasCore (key / 131072)
  else decide (key < 2 ^ 48) && r.hasBasin ((key - 2 ^ 32) / 131072 / 16)

/-- A push that the save withdraws: of the launch's contexts, or of a towpath port at a bank of its set (R340 step 5). -/
def LaunchRec.takesPush (r : LaunchRec) (b : Nat) (p : PushWait) : Bool :=
  match p.src with
  | .ctx n _ => r.hasCore n
  | .port _ => r.hasBasin b
  | .tug .. => false

/-- The pops and pushes that wait at FIFO banks and that the save withdraws and records. -/
def State.withdrawn (s : State) (r : LaunchRec) : List Withdrawn :=
  s.basins.flatMap fun b => b.2.fifos.flatMap fun f =>
    ((f.2.pops.filter fun p => r.hasCore p.core).map fun p => { basin := b.1, bank := f.1, pop := some p })
      ++ (f.2.pushes.filter (r.takesPush b.1)).map fun p => { basin := b.1, bank := f.1, push := some p }

/-- The banks without them. -/
def State.withdraw (s : State) (r : LaunchRec) : State :=
  { s with basins := s.basins.map fun b => (b.1, { b.2 with fifos := b.2.fifos.map fun f =>
      (f.1, { f.2 with pops := f.2.pops.filter fun p => !r.hasCore p.core
                       pushes := f.2.pushes.filter fun p => !r.takesPush b.1 p }) }) }

/-- The uncorrectable errors in what the save reads: granules of local memories and slices, registers and elements of
accumulators (18 R364; log entry 72). -/
def State.badOf (s : State) (r : LaunchRec) : Errs :=
  { mem := s.errs.mem.filter fun e => r.holdsKey (e.1 * 8)
    regs := s.errs.regs.filter fun e => r.hasCore (e.1 / 4096)
    acc := s.errs.acc.filter fun e => r.hasCore (e.1 / 8192) }

def State.toSave (s : State) (h : Nat) (r : LaunchRec) : Saved :=
  { cores := (s.cores.filter fun e => e.2.heldBy h).map fun e => (e.1, e.2.toSave)
    basins := (s.basins.filter fun e => r.hasBasin e.1).map fun e => (e.1, s.basinToSave e.2 h)
    mem := s.mem.filter fun e => r.holdsKey e.1
    lines := s.lines.filter fun e => r.holdsKey (e.1 * 64)
    bars := if r.baren then s.bars.filter fun e => decide (r.barlo ≤ e.1 ∧ e.1 ≤ r.barhi) else []
    withdrawn := s.withdrawn r
    fetched := s.fetched.filter fun e => r.holdsKey e.1
    bad := s.badOf r }

/-! ## The save area's bytes (R345, R346, R348) -/

/-- Bytes at an offset of a record. -/
abbrev Seg := Nat × List Byte

def words (ws : List Nat) : List Byte := ws.flatMap (leBytes 4)
def shiftSegs (off : Nat) (xs : List Seg) : List Seg := xs.map fun e => (off + e.1, e.2)

/-- A line state halfword (R346). -/
def lineHalf (st : LineState) : List Byte :=
  leBytes 2 (match st with
    | .plain => 0
    | .counted n => 0x4000 + n
    | .dropped => 0x8000)

/-- The granules of a context (01 R27). -/
def ctxGranules : List Granule :=
  [.g 0, .g 1, .g 2, .g 3, .v 0, .v 1, .v 2, .v 3, .pw, .e, .bb, .link]

/-- Offsets and lengths of a granule in its context record, or of a tile in its core record: the registers, their states,
and the system registers that go with g0-7 (R346, R348; 01 R27). -/
def granuleSpans : Granule → List (Nat × Nat)
  | .tile t => [(0x26800 + 0x2040 * t, 0x2040)]
  | .g k => [(32 * k, 32), (0x200 + 2 * k, 2)] ++ if k = 0 then [(0x274, 16), (0x28C, 8), (0x298, 12), (0x2AC, 4)] else []
  | .v k => [(0x080 + 64 * k, 64), (0x208 + k, 1)]
  | .pw => [(0x180, 96), (0x20C, 4)]
  | .e => [(0x1E0, 32), (0x210, 2)]
  | .bb => [(0x220, 12)]
  | .link => [(0x230, 36)]

/-- The context record of context `c` of core `n` (R348). -/
def ctxSegs (s : State) (n c : Nat) : List Seg :=
  let x := s.getCtx n c
  let ids (lo k : Nat) : List Nat := (List.range k).map (lo + ·)
  let regs (lo k z : Nat) : List Byte := (ids lo k).flatMap fun id => leBytes z (x.value id).toNat
  let states (lo k : Nat) : Nat := ((ids lo k).zipIdx.map fun e => stateCode (x.regState e.1) * 4 ^ e.2).sum
  let own : State := { s with core := n, ctx := c }
  let defs := x.deferred.take 16
  [(0x000, regs 0 32 4), (0x080, regs 32 16 16), (0x180, regs 64 8 8), (0x1C0, regs 96 8 4), (0x1E0, regs 128 8 4),
   (0x200, [states 0 8, states 8 8, states 16 8, states 24 8, states 32 8, states 40 8, states 64 8, states 96 8, states 128 8].flatMap (leBytes 2)),
   (0x220, leBytes 8 x.bbData.toNat ++ words [x.bbFill * 2 ^ 17 + x.bbOff.toNat]),
   (0x230, words (x.links.length :: x.links.map (·.toNat))),
   (0x260, words [(if x.started then 2 ^ 31 else 0) + (if x.status = .idle then 0 else 2 ^ 30) + x.pc.toNat]),
   (0x264, words ((ids 5 18).map fun r => (own.sysReg r).toNat)), (0x2AC, words [(own.sysReg 28).toNat]),
   (0x2B0, words (defs.length :: defs.flatMap fun d => [causeCode d.cause, d.val.toNat]))]

/-- A granule of a context is absent (R344). -/
def Ctx.isAbsent (x : Ctx) (gr : Granule) : Bool := (granuleIds gr).any fun id => decide (x.regState id = .absent)

/-- Where the core record of core `n` keeps its earlier copy: the granules and the tiles that are still absent (R344). -/
def Core.keptSpans (k : Core) : List (Nat × Nat) :=
  ((List.range 11).flatMap fun c => ((ctxGranules.filter (k.getCtx c).isAbsent).flatMap granuleSpans).map fun e => (0x21000 + 0x800 * c + e.1, e.2))
    ++ ((List.range 8).filter fun t => (mget {} k.mat.tiles t : Tile).absent).flatMap fun t => granuleSpans (.tile t)

/-- A region record (R346). -/
def regionRecord (r : Option Region) : List Byte :=
  match r with
  | some r => leBytes 8 r.base.toNat ++ words [r.len, 2 + if r.faultPolicy then 1 else 0]
  | none => zeros 16

def padTo (n : Nat) (bs : List Byte) : List Byte := bs ++ zeros (n - bs.length)

/-- The core record (R346). -/
def coreSegs (s : State) (n : Nat) : List Seg :=
  let k := s.getCore n
  let line (i : Nat) : LineState := s.lineState (localKey n 0 / 64 + i)
  let q (l : Nat) : QLevel := k.level l
  let level (l : Nat) : Seg := (0x38800 + 0x200 * l, (q l).hw.flatMap Message.image)
  let retry (l : Nat) : Seg := (0x39000 + 32 * l, padTo 32 (((q l).retry.map Message.image).getD []))
  let page (w : PageWait) : List Byte :=
    padTo 48 (padTo 32 w.msg.image ++ words [(w.tag.map (·.tag)).getD 0, (w.tag.map (·.quay)).getD 0])
  let ends := (List.range 4).flatMap fun l => [(q l).head, (q l).head + (q l).spillUsed]
  [(0, (List.range 131072).map fun i => if line (i / 64) = .dropped then 0 else s.byteAt (localKey n i)),
   (0x20000, (List.range 2048).flatMap fun i => lineHalf (line i))]
    ++ ((List.range 11).flatMap fun c => shiftSegs (0x21000 + 0x800 * c) (ctxSegs s n c))
    ++ ((List.range 8).map fun t => (0x26800 + 0x2040 * t, tileImage (mget {} k.mat.tiles t)))
    ++ [(0x36A00, slotImage k.mat.slot0), (0x374C0, slotImage k.mat.slot1), (0x38000, queueImage k.mat.queue)]
    ++ (List.range 4).map level ++ (List.range 4).map retry ++ [(0x39080, words (k.stv :: ends)), (0x39100, k.pages.flatMap page)]
    ++ [(0x3A000, words [k.netfmt.toNat, k.dropTotal.toNat, k.cntLimit.toNat, k.openBits * 2 ^ 24 + k.pstall.toNat, if k.mat.halt then 1 else 0]
          ++ ((List.range 8).flatMap fun i => leBytes 2 (mget (0 : BitVec 16) k.mat.caps i).toNat)
          ++ (List.range 8).flatMap fun i => regionRecord (mget none k.regions i))]

/-- The completed-box bitmap (R299). -/
def bitmap (boxes : SMap Bool) : List Byte :=
  (List.range 512).map fun i => BitVec.ofNat 8 ((List.range 8).map fun b => if mget false boxes (8 * i + b) then 2 ^ b else 0).sum

def tugSegs (i : Nat) (c : TugCmd) : List Seg :=
  [(0x391000 + 0x400 * i, lineBytes c.block ++ words [c.ctx * 2 ^ 16 + c.token, c.core]), (0x391000 + 0x400 * i + 0x200, bitmap c.boxes)]

/-- A withdrawn FIFO operation in 128 bytes: bank pointer, data, destination register (R342). -/
def withdrawnImage (w : Withdrawn) : List Byte :=
  let ptr := 2 ^ 62 + w.basin * 2 ^ 25 + 8 * 2 ^ 21 + w.bank * 2 ^ 17
  let data := (w.push.map fun p => lineBytes p.data).getD (zeros 64)
  padTo 128 (leBytes 8 ptr ++ data ++ words [((w.pop.map (·.vreg)).getD 0)])

/-- The basin record (R345). -/
def basinSegs (s : State) (b : Nat) (v : Saved) : List Seg :=
  let x := s.getBasin b
  let bank (k : Nat) : List Seg :=
    let data : List Byte := match (x.mode k).toNat with
      | 1 => s.bytesAt (bankKey b k 0) 131072
      | 2 => (x.fifo k).entries.flatMap lineBytes
      | _ => []
    [(0x200000 + 0x21000 * k, data),
     (0x200000 + 0x21000 * k + 0x20000, (List.range 2048).flatMap fun i => lineHalf (s.lineState (bankKey b k 0 / 64 + i)))]
  ((List.range 8).flatMap fun c => shiftSegs (0x40000 * c) (coreSegs s (b * 8 + c))) ++ (List.range 12).flatMap bank
    ++ [(0x390000, leBytes 4 ((List.range 12).map fun k => (x.mode k).toNat * 4 ^ k).sum
          ++ (List.range 12).flatMap fun k => leBytes 2 (x.fifo k).entries.length)]
    ++ ((mget {} v.basins b : Basin).tug.cmds.zipIdx.flatMap fun e => tugSegs e.2 e.1)
    ++ [(0x395000, (v.withdrawn.filter fun w => w.basin == b).flatMap withdrawnImage)]

/-- The segments of the whole area; block 0 is the device's own (R345; log entry 8). -/
def areaSegs (s : State) (r : LaunchRec) (v : Saved) : List Seg :=
  (0, (List.range blockBytes).map Config.saveHeader)
    :: r.basins.zipIdx.flatMap fun e => shiftSegs ((e.2 + 1) * blockBytes) (basinSegs s e.1 v)

def State.writeSegs (s : State) (base : Nat) (xs : List Seg) : State :=
  xs.foldl (fun s e => s.putBytes (lpddrKey (base + e.1)) e.2) s

/-- Offset of the core record of core `n` in the area of a launch. -/
def LaunchRec.coreOff (r : LaunchRec) (n : Nat) : Nat :=
  ((r.basins.takeWhile (· ≠ basinOf n)).length + 1) * blockBytes + 0x40000 * (n % 8)

/-- Where the area keeps the earlier copy of the granules and tiles that are still absent (R344). -/
def State.keptSpans (s : State) (h : Nat) (r : LaunchRec) : List (Nat × Nat) :=
  (s.cores.filter fun e => e.2.heldBy h).flatMap fun e => e.2.keptSpans.map fun p => (r.coreOff e.1 + p.1, p.2)

/-- A segment without the bytes of a span. -/
def cutSeg (p : Nat × Nat) (e : Seg) : List Seg :=
  if p.1 + p.2 ≤ e.1 ∨ e.1 + e.2.length ≤ p.1 then [e]
  else [(e.1, e.2.take (p.1 - e.1)), (p.1 + p.2, e.2.drop (p.1 + p.2 - e.1))]

/-- Segments without the bytes of some spans, which are not written again (R344). -/
def cutSegs (ps : List (Nat × Nat)) (xs : List Seg) : List Seg := ps.foldl (fun xs p => xs.flatMap (cutSeg p)) xs

/-! ## Errors that a save or a restore meets (18 R366; log entry 72) -/

/-- A reader that is no context meets an error in memory. -/
def State.quayMeets (s : State) (h q key addr : Nat) : State := s.meetUe (some h) q 15 key addr

/-- Registers that the save does not read: their granules are absent. -/
def State.regAbsent (s : State) (key : Nat) : Bool :=
  decide ((s.getCtx (key / 4096) (key / 256 % 16)).regState (key % 256) = .absent)

/-- STRUCT of every slot, entry of the matrix queue, task queue entry and retry slot of a core that cannot be read (18 R374). -/
def Core.badEntries (k : Core) : List Nat :=
  let lost (ms : List Message) : List Nat := (ms.filter (·.bad)).map fun _ => 5
  ([k.mat.slot0, k.mat.slot1].filter (·.bad)).map (fun _ => 10) ++ (k.mat.queue.filter (·.bad)).map (fun _ => 10)
    ++ k.levels.flatMap fun e => lost (e.2.hw ++ e.2.retry.toList)

/-- The save reads everything that it writes to the area: it reports every error that it meets, and goes on. -/
def State.meetSaved (s : State) (h : Nat) (l : Launch) (v : Saved) : State :=
  let q := l.quay
  let s := (v.bad.mem.filter (·.2)).foldl (fun s e => s.quayMeets h q (e.1 * 8) (nearAddr (e.1 * 8))) s
  let s := v.basins.foldl (fun s b => b.2.fifos.foldl (fun s f => f.2.bad.foldl (fun s j =>
    let key := bankKey b.1 f.1 ((f.2.head + j) % 2048 * 64)
    s.quayMeets h q key (nearAddr key)) s) s) s
  let s := (v.bad.acc.filter fun e => e.2 && !((s.mat (e.1 / 8192)).tile (e.1 / 1024 % 8)).absent).foldl
    (fun s e => s.postUe (some h) q 15 3 (elemVal (e.1 / 1024 % 8) (e.1 % 1024)).toNat false) s
  let s := v.cores.foldl (fun s e => e.2.badEntries.foldl (fun s struct => s.postUeFree (some h) q struct) s) s
  (v.bad.regs.filter fun e => e.2 && !s.regAbsent e.1).foldl (fun s e => s.postUe (some h) q 15 4 (regWord (e.1 % 256)).toNat false) s

/-- Keys in the area where an LPDDR 6 line, or a granule of a cached one, cannot be read. -/
def State.badArea (s : State) (a n : Nat) : List Nat :=
  let at_ (k : Nat) : Bool := decide (lpddrKey a ≤ k ∧ k < lpddrKey (a + n))
  ((s.errs.dram.filter fun e => e.2 && at_ (e.1 * 64)).map (·.1 * 64)) ++ ((s.errs.mem.filter fun e => e.2 && at_ (e.1 * 8)).map (·.1 * 8))

/-- What stands at an offset of the area of a launch: the key of a byte of local memory or of a bank, or nothing that the
restore gives an address. -/
def LaunchRec.areaKey (r : LaunchRec) (off : Nat) : Option Nat :=
  match if off < blockBytes then none else r.basins[off / blockBytes - 1]? with
  | none => none
  | some b =>
    let o := off % blockBytes
    if o < 0x200000 then (if o % 0x40000 < 0x20000 then some (localKey (b * 8 + o / 0x40000) (o % 0x40000)) else none)
    else
      let k := (o - 0x200000) / 0x21000
      let x := (o - 0x200000) % 0x21000
      if k < 12 ∧ x < 0x20000 then some (bankKey b k x) else none

/-- A granule or tile of the area that is filled on first use, and read then (R344). -/
def LaunchRec.lazyOff (r : LaunchRec) (off : Nat) : Bool :=
  let o := off % blockBytes % 0x40000
  blockBytes ≤ off && decide (off % blockBytes < 0x200000) && (r.areaKey off).isNone
    && (decide (0x21000 ≤ o ∧ o < 0x21000 + 11 * 0x800) || decide (0x26800 ≤ o ∧ o < 0x26800 + 8 * 0x2040))

/-- The restore reads the area: it reports every error that it meets, and what it could not read of local memory and of the
banks stays unreadable. Granules and tiles are read at their first use. -/
def State.meetArea (s : State) (h : Nat) (l : Launch) (a : Nat) : State :=
  let ks := (s.badArea a (l.lrec.areaBlocks * blockBytes)).filter fun k => !l.lrec.lazyOff (farPa k - a)
  ks.foldl (fun s k =>
    let z := if s.inBank k then 1 else 8
    let s := s.quayMeets h l.quay k (farPa k)
    match l.lrec.areaKey (farPa k - a) with
    | some key => { s with errs := { s.errs with
        mem := ((List.range z).map (key / 8 + ·)).foldl (fun m g => mset false m g true) s.errs.mem } }
    | none => s) s

/-! ## The save (R340 steps 4 to 6) -/

/-- A core that a saved launch has left. Its regions register nothing any more, in far memory and in banks too: an `stc` or a
counted delivery of another launch to their lines faults RANGE (log entry 65). -/
def Core.leave (k : Core) : Core :=
  { k with launch := none, noDispatch := false, regions := [], pages := [], port := []
           levels := [], mat := { k.mat with queue := [], port := [], moved := [], running := false, fmt := none, preHalt := false }
           ctxs := k.ctxs.map fun e => (e.1, { e.2.atBoundary with status := .idle, started := false, deferred := [], verdict := none }) }

/-- The basins without the commands of a launch. -/
def State.dropTugs (s : State) (h : Nat) : State :=
  { s with basins := s.basins.map fun e => (e.1, { e.2 with tug := { e.2.tug with cmds := e.2.tug.cmds.filter fun c => c.handle != h } }) }

/-- Step 5 and step 6 of R340: the state of R342 is written to the save area `a`, and the cores are released. -/
def State.saveLaunch (s : State) (h : Nat) (l : Launch) (a : Nat) : State :=
  let s := ((s.dropWatches h).landSet h).mapCores h fun k => { k with ctxs := k.ctxs.map fun e => (e.1, e.2.atBoundary) }
  let saved := s.toSave h l.lrec
  let s := (s.meetSaved h l saved).writeSegs a (cutSegs (s.keptSpans h l.lrec) (areaSegs s l.lrec saved))
  (((s.withdraw l.lrec).dropTugs h).mapCores h Core.leave).setLaunch h { l with phase := .saved, save := some saved }

/-- PREEMPTION_SAVE: once steps 1 to 3 have ended the matrix units halt; once step 4 has ended the launch is saved. -/
def execPreemptionSave (h : Nat) (s : State) : Host.Outcome State Fault Refusal :=
  event (match s.launchOf h with
    | some l =>
      match l.area with
      | some a =>
        if !decide (l.phase = .preempting) then s
        else if s.readyToSave h then s.saveLaunch h l a
        else if s.tasksEnded h then s.haltSet h else s
      | none => s
    | none => s)

/-! ## The restore (R343, R344) -/

/-- Every granule of a context is absent; one that was so before keeps its earlier copy. -/
def Ctx.makeAbsent (x : Ctx) : Ctx :=
  (ctxGranules.flatMap granuleIds).foldl (fun x id =>
    if x.regState id = .absent then x
    else { x with saved := mset .full x.saved id (x.regState id) }.setRegState id .absent) x

/-- A core as the restore leaves it: cycles, issue and the numbers of its messages and transfers go on from where the core
is (08 R199). -/
def Core.fromSave (k now : Core) (h : Nat) : Core :=
  { k with launch := some h, noDispatch := false, cyc := now.cyc, ilast := now.ilast, nextXfer := now.nextXfer, msgSeq := now.msgSeq, touched := now.touched
           ctxs := (List.range 11).map fun c => (c, (k.getCtx c).makeAbsent)
           mat := { k.mat with tiles := (List.range 8).map fun t => (t, { mget {} k.mat.tiles t with absent := true }) } }

/-- Banks of a basin whose mode differs from the saved one. -/
def bankSwitches (now then_ : Basin) : List (Nat × BitVec 2) :=
  (List.range 12).filterMap fun k => if now.mode k = then_.mode k then none else some (k, then_.mode k)

/-- A switch of a restore would fault PRESSURE (09 R236, R237). -/
def State.switchBlocked (s : State) (b k : Nat) (m : BitVec 2) : Bool :=
  let x := s.getBasin b
  let lines := if poolMoves x k m then s.dieLines (dieOf b) else if x.mode k = 0 then s.bankLines b k else []
  lines.any fun e => isCounted e.2.st

/-- Arrived entries that wait at a bank are gone with it. -/
def Ring.dropAtBank (r : Ring) (b k : Nat) : Ring :=
  { r with atBank := r.atBank.filter fun x => !(x.basin == b && match x.item with
      | .entry bank _ => bank == k
      | _ => false) }

/-- Set the banks of a basin back to their saved modes; none while a switch has to wait. -/
def State.switchBanks (s : State) (b : Nat) : List (Nat × BitVec 2) → Option State
  | [] => some s
  | (k, m) :: t =>
    if s.switchBlocked b k m then none
    else ({ s.switchBank b k m with ring := s.ring.dropAtBank b k } : State).switchBanks b t

def State.switchAll (s : State) : List (Nat × Basin) → Option State
  | [] => some s
  | (b, x) :: t => (s.switchBanks b (bankSwitches (s.getBasin b) x)).bind fun s => s.switchAll t

/-- Send the withdrawn FIFO operations again, as new arrivals (R342). -/
def State.sendAgain (s : State) (w : Withdrawn) : State :=
  let f := s.fifo w.basin w.bank
  let f := match w.pop with
    | some p => { f with pops := f.pops ++ [p] }
    | none => f
  s.setFifo w.basin w.bank (match w.push with
    | some p => { f with pushes := f.pushes ++ [p] }
    | none => f)

/-- The entries of a bank as they were saved, with the pushes of towpath ports that wait there now. -/
def Fifo.back (saved now : Fifo) : Fifo :=
  { saved with pushes := now.pushes.filter fun p => match p.src with
      | .port _ => true
      | _ => false }

/-- A basin as the restore leaves it. -/
def Basin.back (saved now : Basin) : Basin :=
  { now with fifos := (List.range 12).foldl (fun m k => mset {} m k ((saved.fifo k).back (now.fifo k))) []
             tug := { now.tug with cmds := saved.tug.cmds } }

/-- Errors as they were at the save; what the set's storage held since is gone. -/
def Errs.back (now then_ : Errs) (r : LaunchRec) : Errs :=
  let put (m keep : SMap Bool) : SMap Bool := m.foldl (fun k e => mset false k e.1 e.2) keep
  { now with mem := put then_.mem (now.mem.filter fun e => !r.holdsKey (e.1 * 8))
             regs := put then_.regs (now.regs.filter fun e => !r.hasCore (e.1 / 4096))
             acc := put then_.acc (now.acc.filter fun e => !r.hasCore (e.1 / 8192)) }

/-- Write back what the save area holds. -/
def State.restore (s : State) (h : Nat) (r : LaunchRec) (v : Saved) : State :=
  let keep := s.mem.filter fun e => !r.holdsKey e.1
  let keepLines := s.lines.filter fun e => !r.holdsKey (e.1 * 64)
  let keepFetched := s.fetched.filter fun e => !r.holdsKey e.1
  let s : State := { s with
    mem := v.mem.foldl (fun m e => mset 0 m e.1 e.2) keep
    lines := v.lines.foldl (fun m e => mset .plain m e.1 e.2) keepLines
    fetched := v.fetched.foldl (fun m e => mput m e.1 e.2) keepFetched
    errs := s.errs.back v.bad r
    bars := v.bars.foldl (fun m e => mput m e.1 e.2) s.bars }
  let s := r.basins.foldl (fun s b => s.setBasin b ((mget {} v.basins b).back (s.getBasin b))) s
  let s := r.cores.foldl (fun s n => s.setCore n ((mget {} v.cores n).fromSave (s.getCore n) h)) s
  v.withdrawn.foldl State.sendAgain s

/-- PREEMPTION_RESTORE: a saved launch that is granted its cores resumes (R343). -/
def execPreemptionRestore (h : Nat) (s : State) : Host.Outcome State Fault Refusal :=
  event (match s.launchOf h with
    | some l =>
      match l.save with
      | some v =>
        if !decide (l.phase = .saved) || !s.mayStart h l then s
        else match s.switchAll v.basins with
          | some s => ((s.restore h l.lrec v).meetArea h l (l.area.getD 0)).setLaunch h { l with phase := .running, save := none }
          | none => s
      | none => s
    | none => s)

/-! ## Lazy restore (R344) -/

/-- Physical addresses and lengths of a granule in the save area of the launch on core `n`. -/
def State.granulePas (s : State) (n c : Nat) (gr : Granule) : List (Nat × Nat) :=
  match (s.getCore n).launch.bind s.launchOf with
  | some l => match l.area with
    | some a =>
      let base := a + l.lrec.coreOff n + match gr with
        | .tile _ => 0
        | _ => 0x21000 + 0x800 * c
      (granuleSpans gr).map fun e => (base + e.1, e.2)
    | none => []
  | none => []

/-- The save-area address of the granule where an uncorrectable error stops its fill. -/
def State.granuleUe (s : State) (n c : Nat) (gr : Granule) : Option Nat :=
  (s.granulePas n c gr).findSome? fun e => (s.badGranule (lpddrKey e.1) e.2).map fun g => max e.1 (farPa (g * 8))

/-- The tiles that a command of the queue reaches. -/
def MatOp.tiles : MatOp → List Nat
  | .mrun _ _ _ _ _ t => [t]
  | .macz t => [t]
  | .mdrain _ t => [t]
  | .macc _ a b => [a, b]
  | .msave .tile b => [b]
  | .mrest .tile b => [b]
  | _ => []

/-- The command that waits at an absent tile, with its place in the queue. -/
def State.waitsTile (s : State) (n t : Nat) : Option (Nat × MatCmd) := (s.nextMat n).filter fun e => e.2.op.tiles.contains t

/-- A context that waits to use an absent granule (R344). -/
def Ctx.waitsGranule (x : Ctx) (gr : Granule) : Bool :=
  decide (x.status = .waiting) && x.blockedOn.any fun id => (granuleIds gr).contains id && decide (x.regState id = .absent)

/-- An uncorrectable error at `pa` leaves a tile absent, and stops the command that waits at it. -/
def State.tileUe (s : State) (n t pa : Nat) : State :=
  match s.waitsTile n t with
  | some (i, cmd) =>
    let stop (groups : Nat) (s : State) : State := s.stopMat n i cmd .ue (BitVec.ofNat 32 pa) groups
    let s := s.meetUe (some cmd.handle) cmd.core cmd.ctx (lpddrKey pa) pa
    match cmd.op with
    | .mrun .. => s.stopRun n t (stop ((s.mat n).tile t).prog)
    | _ => stop 0 s
  | none => s

/-- A tile is filled. -/
def State.fillTile (s : State) (n t : Nat) : State :=
  let m := s.mat n
  s.setMat n { m with tiles := mput m.tiles t { m.tile t with absent := false } }

/-- LAZY_RESTORE: an absent granule or tile is filled from the save area. An error leaves it absent and stops its user. -/
def execLazyRestore (n c : Nat) (gr : Granule) (s : State) : Host.Outcome State Fault Refusal :=
  let k := s.getCore n
  let x := s.getCtx n c
  event (match gr with
    | .tile t =>
      if !(k.mat.tile t).absent then s
      else match s.granuleUe n c gr with
        | none => s.fillTile n t
        | some pa => s.tileUe n t pa
    | _ =>
      if !x.isAbsent gr then s
      else match s.granuleUe n c gr with
        | none => s.setCtx n c (x.restoreGranule gr)
        | some pa =>
          if x.waitsGranule gr then
            (s.meetUe k.launch n c (lpddrKey pa) pa).trapEntry n c .ue x.pc (BitVec.ofNat 32 pa)
          else s)

end Sys2Proof.Machine
end

