-- ==== Sys2Proof/Machine/Ring.lean ====
section
/-! DEFINITION. The towpath ring at this package: flits received, arrivals, failures, reconfiguration and time
(16 R349 to R361; 18 R374). -/

namespace Sys2Proof.Machine

/-! ## LINK records (18 R374) -/

/-- Post a LINK record to quay core 0. -/
def State.postLink (s : State) (ev port : Nat) : State :=
  s.postHost 0 (mkRecord 0x0E .none 0 15 0 false (BitVec.ofNat 32 (ev * 2 ^ 24 + port)) s.ring.posWord 0 0)

/-! ## Answers to writes that left (R354, R358) -/

/-- The causes with which an arrival may end at the destination package (R354, R355). -/
def answerCauses : RingItem → List Cause
  | .chunk .. => [.none, .range, .overread, .cntwrite]
  | .counted .. => [.none, .range, .cntwrite]
  | .entry .. => [.none, .range]
  | .handler .. => [.none, .queue]

/-- The first cause met by a completion word stands. -/
def wordCause (w : Option Cause) (c : Cause) : Option Cause := if c = .none ∨ w.isSome then w else some c

/-- The answer to a write of a tug command: of its completion word, or of its work (12 R296, R298). -/
def TugCmd.ringAnswer (k : TugCmd) (c : Cause) (v : W32) : TugCmd :=
  let k : TugCmd := { k with ringOut := k.ringOut - 1 }
  match k.cword with
  | some w => { k with cword := some (wordCause w c) }
  | none => if c = .none ∨ k.stop.isSome then k else { k with stop := some (c, v) }

/-- The answer to a write of a keeper request: of its completion word, or of its results (12 R307; log entry 59). -/
def KeepReq.ringAnswer (k : KeepReq) (c : Cause) (v : W32) : KeepReq :=
  let k : KeepReq := { k with ringOut := k.ringOut - 1 }
  match k.cword, k.result with
  | some w, _ => { k with cword := some (wordCause w c) }
  | none, some (.none, _) => if c = .none then k else { k with result := some (c, v) }
  | none, _ => k

/-- A write has been performed at its destination, or has failed there with a cause (R354): of one store, the first cause. -/
def State.ringAnswer (s : State) (o : RingOut) (c : Cause) : State :=
  match o.owner with
  | .stc n x =>
    if c = .none ∨ o.told then s
    else
      let mark (q : RingOut) : RingOut := if q.owner == o.owner && q.seq == o.seq then { q with told := true } else q
      ({ s with ring := { s.ring with out := s.ring.out.map mark } } : State).defer n x c o.val
  | .xfer n id => match s.findXfer n id with
    | some x => s.setXfer n { x with ringOut := x.ringOut - 1
                                     stop := if c = .none ∨ x.stop.isSome then x.stop else some (c, o.val) }
    | none => s
  | .tug b t => match s.findTug b t with
    | some k => s.setTug b (k.ringAnswer c o.val)
    | none => s
  | .keeper b t => match (s.getBasin b).keeper.reqs.find? fun r => r.token == t with
    | some r => s.setKeep b (r.ringAnswer c o.val)
    | none => s

/-- Two writes that the ring orders (R357). -/
def RingOut.ordered (a b : RingOut) : Bool := a.srcBasin == b.srcBasin && a.destBasin == b.destBasin && a.hop == b.hop

/-- Places of the writes that may be answered next: they are beyond their link, after those ordered before them. -/
def Ring.answerable (r : Ring) : List Nat :=
  (List.range r.out.length).filter fun k => match r.out[k]? with
    | some o => o.linked && !(r.out.take k).any (RingOut.ordered o)
    | none => false

/-- What happens at the destination package is outside this model: an acknowledgement from the ring tells of one write, and
free values choose the write and its outcome among those of the rules (log entry 11). -/
def State.freeAnswer (s : State) : State :=
  let ks := s.ring.answerable
  let (a, s) := s.freeBit Config.ringAnswer
  match ks[a % ks.length]? with
  | none => s
  | some k =>
    match s.ring.out[k]? with
    | none => s
    | some o =>
      let (r, s) := s.freeBit Config.ringAnswer
      let cs := answerCauses o.item
      (({ s with ring := { s.ring with out := s.ring.out.eraseIdx k } } : State).ringAnswer o (cs.getD (r % cs.length) .none)).finishInvs

/-! ## Links (R349, R351) -/

/-- An acknowledgement covers a flit: sequence numbers are 12 bits (R351). -/
def flitAcked (sent : Option (Nat × BitVec 12)) (p : Nat) (ackd : BitVec 12) : Bool :=
  match sent with
  | some (p', q) => p' == p && decide ((ackd - q).toNat < 2048)
  | none => false

/-- The far end of a link has what it acknowledges, and what waits behind it leaves. -/
def Ring.acknowledge (r : Ring) (p : Nat) (ackd : BitVec 12) : Ring :=
  ({ r with out := r.out.map fun o => if flitAcked o.sent p ackd then { o with linked := true } else o
            transit := r.transit.filter fun t => !flitAcked t.sent p ackd } : Ring).flush

/-- The packages that an item has passed since its source. -/
def pktTravelled (k : RingPkt) : Int :=
  let n : Int := k.hop.toInt.natAbs - (k.left - 1 : Nat)
  if k.hop.msb then -n else n

/-- Positions of the source and of the destination of an item that is here. -/
def Ring.sourceOf (r : Ring) (k : RingPkt) : Nat := r.posAt (-pktTravelled k)
def Ring.destOf (r : Ring) (k : RingPkt) : Nat := r.posAt (k.hop.toInt - pktTravelled k)

/-- The item is discarded, with the package that sent it, or ends with the package it was bound for (R360 step 1). -/
def Ring.lost (r : Ring) (k : RingPkt) : Bool :=
  r.reconf && (r.failed == some (r.sourceOf k) || r.failed == some (r.destOf k))

/-- An item arrives: for this package, or to pass through it (R349). -/
def Ring.take (r : Ring) (k : RingPkt) : Ring :=
  if r.lost k then r
  else if k.left ≤ 1 then { r with inbox := r.inbox ++ [k] }
  else { r with transit := r.transit ++ [{ pkt := { k with left := k.left - 1 } }] }

/-! ## Flits and arrivals (R351, R354, R355) -/

/-- The package's time follows its upstream neighbour and never falls (R361). Position 0 is the master. -/
def State.followTime (s : State) (t : W64) : State :=
  if s.ring.pos = 0 then s else { s with time := if s.time.toNat ≤ t.toNat then t else s.time }

/-- FLIT_RECEIVE: a flit that fails its CRC or arrives out of sequence is not acknowledged. Ports 2 and 3 face the
neighbour whose time is followed (R349, R361). -/
def execFlitReceive (p : Nat) (f : Flit) (s : State) : Host.Outcome State Fault Refusal :=
  event (if !f.crcOk || !s.ring.up.getLsbD p then s
    else
      let r := s.ring.acknowledge p f.ackd
      let x : Port := mget {} r.ports p
      if f.seq ≠ x.rxSeq then { s with ring := r }
      else
        let r : Ring := { r with ports := mset {} r.ports p { x with rxSeq := x.rxSeq + 1 } }
        let r := ((f.pkts.map fun k => { k with port := p }).foldl Ring.take r).flush
        let s : State := { s with ring := r }
        match f.kind with
        | .ack => s.freeAnswer
        | .time => if 2 ≤ p then s.followTime f.time else s
        | _ => s)

/-- A handler task that ends a transfer of another package (R355). It is lost where no launch runs, or one that was
cancelled (14 R321), or where the queue is full. -/
def State.ringHandler (s : State) (core : Nat) (w a0 a1 : W32) (src seq : Nat) : State :=
  if (s.getCore core).launch.isNone || !s.liveLaunch (s.handleOf core) then s
  else (s.enqueue core { pc := handlerPc w, level := handlerLevel w, arg0 := a0, arg1 := a1
                         id := BitVec.ofNat 32 (src * 2 ^ 18 + seq) }).2

/-- The launch on the cores of a basin. -/
def State.basinLaunch (s : State) (b : Nat) : Option Nat := (List.range 8).findSome? fun i => (s.getCore (b * 8 + i)).launch

/-- Perform an arrival; one that fails a check writes nothing (R354). An error that it meets is recorded for the launch of the
destination (18 R366; log entry 84). An entry that finds its bank full waits there, and what
the ring orders after it waits with it. -/
def State.arrive (s : State) (p : RingPkt) : State :=
  let stopped (e : Fail) : State := match e with
    | .ue key => s.meetUe (s.basinLaunch p.basin) (quayOf p.basin) 15 key (nearAddr key)
    | _ => s
  let scratch (off : Nat) : Bool := decide (s.mode p.basin (off / 131072) = 1)
  let parts (off n : Nat) : List Part :=
    (partsOf (bankKey p.basin (off / 131072) (off % 131072)) n).map fun q => { key := q.1, len := q.2 }
  match p.item with
  | .chunk off data =>
    if !scratch off then s
    else match s.checkParts .write [] (parts off data.length) with
    | .ok _ => s.writeParts data (parts off data.length)
    | .error e => stopped e
  | .counted off d count =>
    let lk := bankKey p.basin (off / 131072) (off % 131072) / 64
    if !(scratch off && off % 64 == 0 && s.inRegion lk && decide (1 ≤ count ∧ count ≤ 255)) then s
    else match s.checkParts .counted [] (parts off 64) with
    | .ok _ => s.fillCounted lk count d
    | .error e => stopped e
  | .entry bank d =>
    if s.mode p.basin bank = 2 then
      let f := (s.fifo p.basin bank).push (.port p.port) d
      let waits := decide (f.entries.length = (s.fifo p.basin bank).entries.length)
      let s := s.setFifo p.basin bank f
      if waits then { s with ring := { s.ring with atBank := s.ring.atBank ++ [p] } } else s
    else s
  | .handler slot w a0 a1 src seq => s.ringHandler (p.basin * 8 + slot) w a0 a1 src seq

/-- Two arrivals that the ring orders: of one source basin of one package, with hops of one sign (R357). -/
def Ring.ordered (r : Ring) (a b : RingPkt) : Bool :=
  r.sourceOf a == r.sourceOf b && a.srcBasin == b.srcBasin && a.basin == b.basin && a.hop.msb == b.hop.msb

/-- RING_ARRIVAL: an arrival that has been received is performed, after those ordered before it. -/
def execRingArrival (p : RingPkt) (s : State) : Host.Outcome State Fault Refusal :=
  event (match s.ring.inbox.findIdx? fun x => x == p with
    | some k =>
      if s.ring.reconf || (s.ring.atBank ++ s.ring.inbox.take k).any (s.ring.ordered p) then s
      else ({ s with ring := { s.ring with inbox := s.ring.inbox.eraseIdx k } } : State).arrive p
    | none => s)

/-! ## Failures (R359, R360) -/

def setBit4 (x : BitVec 4) (i : Nat) (b : Bool) : BitVec 4 :=
  if b then x ||| BitVec.ofNat 4 (2 ^ i) else x &&& ~~~BitVec.ofNat 4 (2 ^ i)

def twinOf (p : Nat) : Nat := p + 1 - 2 * (p % 2)

/-- Flits on a port that its far end has not acknowledged are sent again (R359, R360). -/
def Ring.resend (r : Ring) (hit : Nat → Bool) : Ring :=
  let again (sent : Option (Nat × BitVec 12)) : Option (Nat × BitVec 12) := sent.filter fun e => !hit e.1
  { r with out := r.out.map fun o => if o.linked then o else { o with sent := again o.sent }
           transit := r.transit.map fun t => { t with sent := again t.sent } }

/-- Ports that face the package at a position. -/
def Ring.faces (r : Ring) (pos p : Nat) : Bool := r.posAt (if p < 2 then 1 else -1) == pos

/-- A package has failed: writes bound for it end with RANGE, and what it sent is discarded (R360 step 1). -/
def State.failPackage (s : State) (pos : Nat) : State :=
  let r : Ring := { s.ring with reconf := true, failed := some pos }
  let dead := r.out.filter fun o => r.posAt o.hop == pos
  let r := ({ r with out := r.out.filter fun o => r.posAt o.hop != pos
                     inbox := r.inbox.filter fun k => !r.lost k
                     transit := r.transit.filter fun t => !r.lost { t.pkt with left := t.pkt.left + 1 } } : Ring).resend (r.faces pos)
  let dead := dead.zipIdx.map fun e =>
    { e.1 with told := e.1.told || (dead.take e.2).any fun q => q.owner == e.1.owner && q.seq == e.1.seq }
  (dead.foldl (fun (s : State) o => s.ringAnswer o .range) { s with ring := r }).finishInvs.postLink 3 0

/-- A port carries no traffic: its twin carries the traffic of both; with both down, the neighbour counts as failed (R359). -/
def State.portDown (s : State) (p : Nat) : State :=
  let twin := twinOf p
  let both := !s.ring.up.getLsbD twin
  let r : Ring := { s.ring with up := setBit4 s.ring.up p false
                                fo := setBit4 (setBit4 s.ring.fo p false) twin (!both) }
  let s := ({ s with ring := (r.resend (· == p)).flush } : State).postLink 1 p
  if both && !s.ring.reconf && decide (1 < s.ring.size) then s.failPackage (s.ring.posAt (if p < 2 then 1 else -1)) else s

/-- PORT_FAILURE (R359). -/
def execPortFailure (p : Nat) (s : State) : Host.Outcome State Fault Refusal :=
  event (if 4 ≤ p ∨ !s.ring.up.getLsbD p then s else s.portDown p)

/-- PORT_RESTORED (18 R374). Where its twin is down the port carries the traffic of both, with what the twin had not
delivered (R359). -/
def execPortRestored (p : Nat) (s : State) : Host.Outcome State Fault Refusal :=
  event (if 4 ≤ p ∨ s.ring.up.getLsbD p then s
    else
      let r := s.ring
      let alone := !r.up.getLsbD (twinOf p)
      let r : Ring := { r with up := setBit4 r.up p true, fo := setBit4 (setBit4 r.fo (twinOf p) false) p alone }
      ({ s with ring := (if alone then r.resend (· == twinOf p) else r).flush } : State).postLink 2 p)

/-- PACKAGE_FAILURE (R360). -/
def execPackageFailure (pos : BitVec 6) (s : State) : Host.Outcome State Fault Refusal :=
  event (if s.ring.reconf || decide (s.ring.size ≤ pos.toNat) || decide (pos = s.ring.pos) then s else s.failPackage pos.toNat)

/-- A hop that counts a package which the ring no longer has, `d` packages away, is one less (R360 step 2). -/
def shrinkHop (h : Int) (d : Nat) : Int := if d < h.natAbs then (if h < 0 then h + 1 else h - 1) else h

/-- Packages from this one to the failed one, in the direction of a hop. -/
def Ring.distance (r : Ring) (f : Nat) (back : Bool) : Nat :=
  ((if back then (r.pos.toNat : Int) - f else (f : Int) - r.pos.toNat) % (r.size : Int)).toNat

/-- A write that waits keeps the package it was sent to. -/
def Ring.keepDest (r : Ring) (f : Nat) (o : RingOut) : RingOut := { o with hop := shrinkHop o.hop (r.distance f (o.hop < 0)) }

/-- An item that is here, or that passes through, keeps its source and its destination. -/
def Ring.keepPath (r : Ring) (f : Nat) (k : RingPkt) (through : Bool) : RingPkt :=
  let back := k.hop.msb
  let ahead := r.distance f back
  let behind := r.distance f (!back)
  let before : Nat := k.hop.toInt.natAbs - if through then k.left else k.left - 1
  let crossed := decide (behind < before)
  let coming := through && decide (ahead < k.left)
  { k with hop := if crossed || coming then BitVec.ofInt 4 (if back then k.hop.toInt + 1 else k.hop.toInt - 1) else k.hop
           left := if coming then k.left - 1 else k.left }

/-- RECONFIGURATION_DONE (R360 step 3). -/
def execReconfigurationDone (s : State) : Host.Outcome State Fault Refusal :=
  event (match s.ring.failed with
    | some f =>
      let r := s.ring
      let pos := if f < r.pos.toNat then r.pos - 1 else r.pos
      let r' : Ring := { r with pos := pos, last := r.last - 1, reconf := false, failed := none
                                out := r.out.map (r.keepDest f)
                                inbox := r.inbox.map fun k => r.keepPath f k false
                                atBank := r.atBank.map fun k => r.keepPath f k false
                                transit := r.transit.map fun t => { t with pkt := r.keepPath f t.pkt true } }
      ({ s with ring := r'.flush } : State).postLink 4 0
    | none => s)

/-- TIME_SYNC (R361). -/
def execTimeSync (t : W64) (s : State) : Host.Outcome State Fault Refusal := event (s.followTime t)

end Sys2Proof.Machine
end

