-- ==== Sys2Proof/Machine/Crypto.lean ====
section
/-! DEFINITION. SHA-256 (FIPS 180-4) and ECDSA on P-256 (FIPS 186), which 19 R381 and R386 take from their standards (00_scope.md:79). -/

namespace Sys2Proof.Machine

/-! ## SHA-256 -/

/-- The integer root `e` of n, bit by bit from bit `k` − 1 down, over the bits already found. -/
def rootDown (e n : Nat) : Nat → Nat → Nat
  | 0, r => r
  | k + 1, r => rootDown e n k (if (r + 2 ^ k) ^ e ≤ n then r + 2 ^ k else r)

/-- The first 32 bits of the fraction of the root `e` of a small number. -/
def rootFraction (e p : Nat) : W32 := BitVec.ofNat 32 (rootDown e (p * 2 ^ (32 * e)) 40 0)

/-- The first primes, those below 312: 64 of them. -/
def smallPrimes : List Nat :=
  (List.range 312).filter fun p => decide (2 ≤ p) && (List.range p).all fun d => decide (d < 2) || p % d != 0

/-- The constants of the 64 rounds: from the cube roots of the first primes. -/
def shaK : List W32 := smallPrimes.map (rootFraction 3)

/-- The initial hash value: from the square roots of the first eight. -/
def shaInit : List W32 := (smallPrimes.take 8).map (rootFraction 2)

/-- `k` bytes of a number, the most significant first: the order of the standards (19 R381). -/
def beBytes (k n : Nat) : List Byte := (leBytes k n).reverse

/-- The number that bytes stand for, the most significant first. -/
def beNat (bs : List Byte) : Nat := bs.foldl (fun n b => n * 256 + b.toNat) 0

/-- A message padded to whole blocks of 64 bytes: a bit 1, zeros, and its length in bits. -/
def shaPad (bs : List Byte) : List Byte :=
  bs ++ 0x80 :: List.replicate ((119 - bs.length % 64) % 64) 0 ++ beBytes 8 (8 * bs.length)

/-- A word rotated right by each of some amounts, the results exclusive-ored together. -/
def rotSum (rs : List Nat) (x : W32) : W32 := rs.foldl (fun y r => y ^^^ x.rotateRight r) 0

/-- The next word of the message schedule; the words before it stand newest first. -/
def shaNext (w : List W32) : W32 :=
  let far : W32 := w.getD 14 0
  let near : W32 := w.getD 1 0
  w.getD 15 0 + (rotSum [7, 18] far ^^^ (far >>> 3)) + w.getD 6 0 + (rotSum [17, 19] near ^^^ (near >>> 10))

/-- The message schedule, newest word first, `k` words longer. -/
def shaExtend : Nat → List W32 → List W32
  | 0, w => w
  | k + 1, w => shaExtend k (shaNext w :: w)

/-- One round over the working variables, the first of them a: each moves down one place, a takes the sum of both temporary
words, and the fifth gains the first of them. -/
def shaRound (v : List W32) (kw : W32 × W32) : List W32 :=
  let x (i : Nat) : W32 := v.getD i 0
  let choose := (x 4 &&& x 5) ^^^ (~~~x 4 &&& x 6)
  let majority := (x 0 &&& x 1) ^^^ (x 0 &&& x 2) ^^^ (x 1 &&& x 2)
  let first := kw.1 + kw.2 + x 7 + choose + rotSum [6, 11, 25] (x 4)
  let second := majority + rotSum [2, 13, 22] (x 0)
  ((first + second) :: v.take 7).set 4 (x 3 + first)

/-- The hash value after a block of 64 bytes. -/
def shaBlock (h : List W32) (block : List Byte) : List W32 :=
  let w := (List.range 16).map fun i => BitVec.ofNat 32 (beNat ((block.drop (4 * i)).take 4))
  let v := (shaK.zip (shaExtend 48 w.reverse).reverse).foldl shaRound h
  List.zipWith (· + ·) h v

/-- The hash value after a number of blocks. -/
def shaBlocks : Nat → List W32 → List Byte → List W32
  | 0, h, _ => h
  | k + 1, h, bs => shaBlocks k (shaBlock h (bs.take 64)) (bs.drop 64)

/-- The SHA-256 digest of a byte string, as a number. -/
def sha256 (bs : List Byte) : Nat :=
  let m := shaPad bs
  (shaBlocks (m.length / 64) shaInit m).foldl (fun n w => n * 2 ^ 32 + w.toNat) 0

/-- The 32 bytes of a digest. -/
def digest (bs : List Byte) : List Byte := beBytes 32 (sha256 bs)

/-! ## P-256 -/

/-- The prime of the field, and the order of the base point. -/
def p256P : Nat := 2 ^ 256 - 2 ^ 224 + 2 ^ 192 + 2 ^ 96 - 1
def p256N : Nat := 0xffffffff00000000ffffffffffffffffbce6faada7179e84f3b9cac2fc632551

/-- A point of the curve y² = x³ − 3x + b; none is the point at infinity. -/
abbrev EcPoint := Option (Nat × Nat)

/-- The base point. -/
def p256G : EcPoint :=
  some (0x6b17d1f2e12c4247f8bce6e563a440f277037d812deb33a0f4a13945d898c296,
    0x4fe342e2fe1a7f9b8ee7eb4a7c0f9e162bce33576b315ececbb6406837bf51f5)

/-- b of the curve. -/
def p256B : Nat := 0x5ac635d8aa3a93e7b3ebbd55769886bc651d06b0cc53b0f63bce3c3e27d2604b

/-- x to the power `e` modulo `m`, for `e` below 2 to the fuel. -/
def powMod (m : Nat) : Nat → Nat → Nat → Nat
  | 0, _, _ => 1
  | fuel + 1, x, e =>
    let r := powMod m fuel (x * x % m) (e / 2)
    if e % 2 = 1 then x * r % m else r

/-- The inverse modulo a prime below 2^256. -/
def invMod (m x : Nat) : Nat := powMod m 256 (x % m) (m - 2)

/-- The sum of two points. -/
def EcPoint.add (a b : EcPoint) : EcPoint :=
  let p := p256P
  match a, b with
  | none, q => q
  | q, none => q
  | some (x, y), some (x', y') =>
    if x = x' ∧ (y + y') % p = 0 then none
    else
      let l := if x = x' then 3 * (x * x + p - 1) * invMod p (2 * y) % p else (y' + p - y) * invMod p (x' + p - x) % p
      let x3 := (l * l + 2 * p - x - x') % p
      some (x3, (l * (x + p - x3) + p - y) % p)

/-- A multiple of a point, for a factor below 2 to the fuel. -/
def EcPoint.mul : Nat → Nat → EcPoint → EcPoint
  | 0, _, _ => none
  | fuel + 1, k, a =>
    let r := EcPoint.mul fuel (k / 2) (a.add a)
    if k % 2 = 1 then a.add r else r

/-- An affine point of the curve, as a public key has to be. -/
def onCurve (x y : Nat) : Bool :=
  decide (x < p256P ∧ y < p256P) && decide (y * y % p256P = (x * x * x + (p256P - 3) * x + p256B) % p256P)

/-! ## ECDSA -/

/-- The signature (r, s) over the digest `e` verifies under the public key (x, y). -/
def ecdsaVerifies (x y e r s : Nat) : Bool :=
  let n := p256N
  decide (1 ≤ r ∧ r < n ∧ 1 ≤ s ∧ s < n) && onCurve x y &&
  let w := invMod n s
  match EcPoint.add (EcPoint.mul 256 (e * w % n) p256G) (EcPoint.mul 256 (r * w % n) (some (x, y))) with
  | some (v, _) => v % n == r
  | none => false

/-- The signature over the digest `e` with the private key `d` and the number `k`, r then s; none where the standard takes
another `k`. -/
def ecdsaSign (d e k : Nat) : Option (Nat × Nat) :=
  let n := p256N
  match EcPoint.mul 256 k p256G with
  | some (x, _) =>
    let r := x % n
    let s := invMod n k * (e + r * d) % n
    if r = 0 ∨ s = 0 then none else some (r, s)
  | none => none

/-- The signature with the first usable number of a stream. -/
def ecdsaTry (d e : Nat) (k : Nat → Nat) : Nat → Nat → Nat × Nat
  | 0, _ => (0, 0)
  | fuel + 1, i => (ecdsaSign d e (k i)).getD (ecdsaTry d e k fuel (i + 1))

/-! ## The keys of the device (19 R379, R381, R386; log entry 7) -/

/-- An image verifies: its last 64 bytes are r and s over the digest of its body, under the vendor key (R381). -/
def imageVerifies (bs : List Byte) : Bool :=
  let body := bs.take (bs.length - 64)
  let sig := bs.drop (bs.length - 64)
  decide (64 ≤ bs.length) &&
    ecdsaVerifies Config.vendorKey.1 Config.vendorKey.2 (sha256 body) (beNat (sig.take 32)) (beNat (sig.drop 32))

/-- A number from 1 to n − 1. -/
def scalarOf (x : Nat) : Nat := x % (p256N - 1) + 1

/-- The identity private key, and the public one, x then y. -/
def identityPrivate : Nat := scalarOf Config.identitySecret
def identityPublic : List Byte :=
  let q := (EcPoint.mul 256 identityPrivate p256G).getD (0, 0)
  beBytes 32 q.1 ++ beBytes 32 q.2

/-- The identity key's signature over the digest of a byte string, r then s; `i` names the numbers that it takes. -/
def identitySign (bs : List Byte) (i : Nat) : List Byte :=
  let q := ecdsaTry identityPrivate (sha256 bs) (fun j => scalarOf (Config.signNumber j)) 64 i
  beBytes 32 q.1 ++ beBytes 32 q.2

end Sys2Proof.Machine
end

