-- ==== Sys2Proof/Machine/Service.lean ====
section
/-! DEFINITION. The start sequence, the management mailbox and its operations (19 R375 to R386). -/

namespace Sys2Proof.Machine

/-! ## The start sequence (R375, R376) -/

def Firmware.active (f : Firmware) : FwBank := if f.activeB then f.bankB else f.bankA
def Firmware.inactive (f : Firmware) : FwBank := if f.activeB then f.bankA else f.bankB

/-- Stage 1: the active bank if it verifies, else the other, which becomes active; none when neither does (R381). -/
def Firmware.boot (f : Firmware) : Option Firmware :=
  if f.active.ok then some f else if f.inactive.ok then some { f with activeB := !f.activeB } else none

def State.firmware (s : State) (i : Nat) : Firmware := mget {} s.svc.fw i

/-- Failure reasons of R375. -/
def startReasons : List (BitVec 8) := [0x01, 0x02, 0x03, 0x05, 0x10, 0x11, 0x12, 0x13]

/-- The towpath ports that did not train stay down and post LINK records (R375 stage 6; 16 R359). -/
def State.downPorts (s : State) (up : BitVec 4) : State :=
  ((List.range 4).filter fun p => !up.getLsbD p).foldl (fun s p => s.portDown p) { s with ring := { s.ring with up := 15 } }

/-- The failure came after stage 1, which had chosen the firmware banks (R375, R381). -/
def pastRom (r : BitVec 8) : Bool := r != 0x01 && r != 0x02

/-- A start whose first attempts fail for the reasons given. Three failures lead to minimal mode with the reason of the
third (R376); where no bank verifies, every attempt fails in stage 1. -/
def State.startUp (s : State) (fails : List (BitVec 8)) (pos last : BitVec 6) (up : BitVec 4) : State :=
  let t := s.afterReset
  let minimal (r : BitVec 8) (t : State) : State := { t with bootMode := 2, bootReason := r }
  match (s.firmware 0).boot, (s.firmware 1).boot with
  | some q, some m =>
    let booted : State := { t with svc := { t.svc with fw := mset {} (mset {} t.svc.fw 0 q) 1 m } }
    match fails[2]? with
    | some r => minimal r (if (fails.take 3).any pastRom then booted else t)
    | none =>
      ({ booted with bootMode := 1, bootReason := fails.getLastD 0, ring := { t.ring with pos := pos, last := last } } : State).downPorts up
  | _, _ => minimal (if fails[2]? = some 0x02 then 0x02 else 0x01) t

/-- START_SEQUENCE, after power-on or a PCIe conventional reset. -/
def execStartSequence (fails : List (BitVec 8)) (pos last : BitVec 6) (up : BitVec 4) (s : State) : Host.Outcome State Fault Refusal :=
  event (if fails.all startReasons.contains && decide (pos.toNat ≤ last.toNat) then s.startUp fails pos last up else s)

/-! ## The mailbox (R377 to R379) -/

/-- An operation ends with a status and a result. -/
def State.finishMb (s : State) (status : BitVec 8) (res : W32) : State :=
  { s with svc := { s.svc with mb := { s.svc.mb with go := false, status := status, res := res } } }

def mbOk : BitVec 8 := 0
def mbBadarg : BitVec 8 := 1
def mbBusy : BitVec 8 := 2
def mbSig : BitVec 8 := 3
def mbNospare : BitVec 8 := 4
def mbXlate : BitVec 8 := 5
def mbMinimal : BitVec 8 := 6
def mbInuse : BitVec 8 := 7

/-- ARG2 names a frequency (R380). -/
def freqOk (x : W32) : Bool := decide (500 ≤ x.toNat ∧ x.toNat ≤ 1900) && x.toNat % 25 == 0

/-- OP and its arguments lie within the ranges of R379 and R380. -/
def Mailbox.legal (m : Mailbox) : Bool :=
  match m.op.toNat with
  | 1 => decide (m.arg0.toNat ≤ 2)
  | 2 => decide (m.arg0.toNat ≤ 1)
  | 3 => decide (m.arg0.toNat < 2048)
  | 4 => decide (m.arg0.toNat < 64) && (decide (m.arg1 = 1) || (decide (m.arg1 = 0) && freqOk m.arg2))
  | 5 => decide (m.arg0.toNat < 2048)
  | 6 => decide (m.arg0.toNat < 32)
  | 7 => true
  | 8 => true
  | _ => false

/-- The operations that minimal mode answers: IDENTITY, ATTEST and STAGE (R376). -/
def minimalOps (op : Nat) : Bool := op == 1 || op == 7 || op == 8

/-- Perform operation `op` when it has been started with legal arguments. -/
def State.mailbox (s : State) (op : Nat) (f : Mailbox → State → State) : State :=
  let m := s.svc.mb
  if !m.go || m.op.toNat != op || s.svc.stopped.any (· < 64) then s
  else if s.bootMode = 2 ∧ !minimalOps op then s.finishMb mbMinimal 0
  else if !m.legal then s
  else f m s

/-- BADARG: an operation that R379 does not list, or an argument outside its range. -/
def execBadarg (s : State) : Host.Outcome State Fault Refusal :=
  let m := s.svc.mb
  event (if !m.go || m.legal then s
    else if s.bootMode = 2 ∧ !minimalOps m.op.toNat then s.finishMb mbMinimal 0
    else s.finishMb mbBadarg 0)

/-- Read the mailbox buffer, which ends the operation where it cannot be read; quay core 0 serves the mailbox (log
entry 41). -/
def State.readBuf (s : State) (m : Mailbox) (n : Nat) (f : List Byte → State → State) : State :=
  match s.farRead 0 m.bufSpace.toNat m.bufVa.toNat n with
  | .ok bs s => f bs s
  | g => g.state.finishMb mbXlate 0

/-! ## Firmware and microcode (R381 to R383) -/

def Firmware.putInactive (f : Firmware) (b : FwBank) : Firmware := if f.activeB then { f with bankA := b } else { f with bankB := b }

/-- STAGE. -/
def execStage (s : State) : Host.Outcome State Fault Refusal :=
  event (s.mailbox 1 fun m s =>
    s.readBuf m m.arg1.toNat fun bs s =>
      if imageVerifies bs = false then s.finishMb mbSig 0
      else
        let body := bs.take (bs.length - 64)
        let i := m.arg0.toNat
        let s : State := if i = 2 then { s with svc := { s.svc with staged := some body } }
          else { s with svc := { s.svc with fw := mset {} s.svc.fw i ((s.firmware i).putInactive { body := body, ok := true }) } }
        s.finishMb mbOk 0)

/-- No queue entry is in hand (R382). -/
def State.noneInHand (s : State) : Bool := s.quays.all fun e => e.2.inHand.isNone

/-- SWITCH. -/
def execSwitch (s : State) : Host.Outcome State Fault Refusal :=
  event (s.mailbox 2 fun m s =>
    let i := m.arg0.toNat
    let f := s.firmware i
    if !f.inactive.ok then s.finishMb mbBadarg 0
    else if i = 0 ∧ !s.noneInHand then s
    else ({ s with svc := { s.svc with fw := mset {} s.svc.fw i { f with activeB := !f.activeB } } } : State).finishMb mbOk 0)

/-- A launch holds a core of a basin (14 R327). -/
def State.basinHeld (s : State) (b : Nat) : Bool := (List.range 8).any fun i => (s.getCore (b * 8 + i)).launch.isSome

/-- TUGLOAD. 12 R293 describes the commands of one major version: microcode of another keeps them (log entry 77). -/
def execTugload (s : State) : Host.Outcome State Fault Refusal :=
  event (s.mailbox 3 fun m s =>
    let b := m.arg0.toNat
    let x := s.getBasin b
    if s.basinHeld b ∨ !x.tug.cmds.isEmpty then s.finishMb mbBusy 0
    else match s.svc.staged with
      | none => s.finishMb mbBadarg 0
      | some body =>
        let s := s.setBasin b { x with tug := { x.tug with uver := bytes32 (body.take 4), imemBad := false } }
        ({ s with svc := { s.svc with microcode := mput s.svc.microcode b body } } : State).finishMb mbOk 0)

/-! ## Islands (R380) -/

/-- ISLAND, set frequency. -/
def execIslandSetFrequency (s : State) : Host.Outcome State Fault Refusal :=
  event (s.mailbox 4 fun m s =>
    if m.arg1 ≠ 0 then s
    else
      let i := m.arg0.toNat
      let old := mget 1500 s.svc.freq i
      ({ s with svc := { s.svc with freq := mset 1500 s.svc.freq i m.arg2.toNat } } : State).finishMb mbOk (BitVec.ofNat 32 old))

/-- ISLAND, recalibrate: the island stops. Only one recalibration runs at a time. -/
def execIslandRecalibrate (s : State) : Host.Outcome State Fault Refusal :=
  event (s.mailbox 4 fun m s =>
    if m.arg1 ≠ 1 then s
    else if s.svc.stopped.isSome then s.finishMb mbBusy 0
    else { s with svc := { s.svc with stopped := some m.arg0.toNat } })

/-- The recalibration that runs ends, after at most 200 µs; one of a compute island ends its operation. -/
def execRecalibrationEnd (us : W32) (s : State) : Host.Outcome State Fault Refusal :=
  event (match s.svc.stopped with
    | some i =>
      let s' : State := { s with svc := { s.svc with stopped := none } }
      if 200 < us.toNat then s else if i < 64 then s'.finishMb mbOk us else s'
    | none => s)

/-- Management firmware begins to recalibrate an I/O-die island, between mailbox operations; time alone is affected. -/
def execIoIslandRecalibration (island : Nat) (s : State) : Host.Outcome State Fault Refusal :=
  event (if s.svc.mb.go || s.svc.stopped.isSome || !ioIslandOk island then s
    else { s with svc := { s.svc with stopped := some island } })

/-! ## Retiring (R384, R385) -/

def sitesPerDie : Nat := 16

/-- RETBASIN. What moves keeps its names, so nothing else changes. -/
def execRetbasin (s : State) : Host.Outcome State Fault Refusal :=
  event (s.mailbox 5 fun m s =>
    let b := m.arg0.toNat
    let used := mget 0 s.svc.usedSites (dieOf b)
    if s.basinHeld b then s.finishMb mbBusy 0
    else if sitesPerDie ≤ used then s.finishMb mbNospare 0
    else
      ({ s with svc := { s.svc with usedSites := mset 0 s.svc.usedSites (dieOf b) (used + 1), moved := s.svc.moved ++ [b] } } : State).finishMb
        mbOk (BitVec.ofNat 32 (sitesPerDie - used - 1)))

/-- Whether a leaf of LPDDR 6 below the table at `pa` reaches a limit (`some none`), or an entry comes first that cannot be
read, with its key. -/
def State.tableReaches (s : State) (limit : Nat) : Nat → Nat → Nat → Option (Option Nat)
  | 0, _, _ => none
  | fuel + 1, level, pa =>
    (List.range (2 ^ levelBits level)).findSome? fun i =>
      match s.badGranule (lpddrKey (pa + 8 * i)) 8 with
      | some g => some (some (g * 8))
      | none =>
        let e := s.entry (pa + 8 * i)
        if !flag e 0 || malformed s.svc.retired level e then none
        else if flag e 1 then
          (if bitsOf e 6 2 == 0 && decide (limit < bitsOf e 12 36 * 4096 + 2 ^ levelShift level) then some none else none)
        else s.tableReaches limit fuel (level + 1) (bitsOf e 12 36 * 4096)

/-- What a space keeps from being retired. -/
def State.spaceBlocks (s : State) (limit n : Nat) : Option (Option Nat) :=
  let at_ := s.sptbase.toNat + 8 * n
  match s.badGranule (lpddrKey at_) 8 with
  | some g => some (some (g * 8))
  | none =>
    let root := s.entry at_
    if flag root 0 && bitsOf root 1 11 == 0 && bitsOf root 48 16 == 0 then s.tableReaches limit 4 1 (bitsOf root 12 36 * 4096) else none

/-- The first space that maps a page reaching a limit, or whose tables cannot be read, with the key of the entry. -/
def State.spaceReaching (s : State) (limit : Nat) : Option (Nat × Option Nat) :=
  (List.range 4096).findSome? fun n => (s.spaceBlocks limit n).map fun b => (n, b)

/-- The check of RETCHAN meets an error in a table entry: its line is retired (18 R367). -/
def State.meetTable (s : State) (bad : Option Nat) : State :=
  match bad with
  | some key => (s.retireLine key).1
  | none => s

/-- RETCHAN. Every line keeps its physical address, so the move changes no value. A space whose tables cannot be read counts
as one that is still mapped (log entry 74). -/
def execRetchan (s : State) : Host.Outcome State Fault Refusal :=
  event (s.mailbox 6 fun m s =>
    let c := m.arg0.toNat
    let retired := s.svc.retired ||| BitVec.ofNat 32 (2 ^ c)
    if s.svc.retired.getLsbD c then s.finishMb mbBadarg 0
    else match s.spaceReaching (lpddrBytes retired) with
      | some (n, bad) => (s.meetTable bad).finishMb mbInuse (BitVec.ofNat 32 n)
      | none => ({ s with svc := { s.svc with retired := retired } } : State).finishMb mbOk 0)

/-! ## Attestation (R379, R386) -/

/-- The microcode body of a basin's tug. -/
def State.microcode (s : State) (b : Nat) : List Byte := mget [] s.svc.microcode b

/-- The repair map, the retired channels and the active banks, as the digest of 0x90 takes them (log entry 12). -/
def State.repairImage (s : State) : List Byte :=
  words4 (s.svc.moved ++ [s.svc.retired.toNat, bank 0, bank 1])
where
  /-- Words of four bytes. -/
  words4 (ws : List Nat) : List Byte := ws.flatMap (leBytes 4)
  /-- The active bank of a firmware. -/
  bank (i : Nat) : Nat := if (s.firmware i).activeB then 1 else 0

/-- Bytes 0x00 to 0xAF of the report. -/
def State.reportBody (s : State) (nonce : List Byte) : List Byte :=
  leBytes 4 0x00015941 ++ leBytes 4 s.bootWord.toNat ++ leBytes 4 s.ring.posWord.toNat ++ leBytes 4 s.svc.retired.toNat ++ nonce
    ++ digest (s.firmware 0).active.body ++ digest (s.firmware 1).active.body
    ++ digest ((List.range 2048).flatMap fun b => digest (s.microcode b)) ++ digest s.repairImage

/-- Write the mailbox buffer and end. Where a part of it cannot be written, none is (R378). -/
def State.writeBuf (s : State) (m : Mailbox) (bs : List Byte) : State :=
  match s.farWrite 0 m.bufSpace.toNat m.bufVa.toNat bs with
  | .ok _ s => s.finishMb mbOk 0
  | .ue key _ _ => (s.retireLine key).1.finishMb mbXlate 0
  | _ => s.finishMb mbXlate 0

/-- ATTEST. -/
def execAttest (s : State) : Host.Outcome State Fault Refusal :=
  event (s.mailbox 7 fun m s =>
    s.readBuf m 32 fun nonce s =>
      let body := s.reportBody nonce
      ({ s with free := s.free + 64 } : State).writeBuf m (body ++ identitySign body s.free))

/-- IDENTITY. -/
def execIdentity (s : State) : Host.Outcome State Fault Refusal :=
  event (s.mailbox 8 fun m s => s.writeBuf m identityPublic)

end Sys2Proof.Machine
end

