-- ==== Sys2Proof/Machine/Vector.lean ====
section
/-! DEFINITION. Vector instructions: VINT, VFLT, VCVT and VMOV (06 R141 to R161). -/

namespace Sys2Proof.Machine

/-! ## Lanes (R142) -/

/-- Lane `i` of width `w`. -/
def laneOf (w : Nat) (x : W128) (i : Nat) : Nat := x.toNat / 2 ^ (w * i) % 2 ^ w

/-- Lanes of width `w`, lane 0 first, as one number. -/
def packNat (w : Nat) : List Nat → Nat
  | [] => 0
  | a :: t => a % 2 ^ w + 2 ^ w * packNat w t

def packLanes (w : Nat) (xs : List Nat) : W128 := BitVec.ofNat 128 (packNat w xs)

def lanesOf (w : Nat) (x : W128) : List Nat := (List.range (128 / w)).map (laneOf w x)

def mapLanes (w : Nat) (f : Nat → Nat) (x : W128) : W128 := packLanes w ((lanesOf w x).map f)
def zipLanes (w : Nat) (f : Nat → Nat → Nat) (x y : W128) : W128 := packLanes w (List.zipWith f (lanesOf w x) (lanesOf w y))

def laneBits : Lane → Nat
  | .b => 8
  | .h => 16
  | .w => 32

/-- All ones of `w` bits, or 0. -/
def maskOf (w : Nat) (b : Bool) : Nat := if b then 2 ^ w - 1 else 0

/-- Sources of an unsized or sized VINT form, read at issue; one v register lands two cycles later (R141). -/
def vint (i : Instr) (srcs : List Nat) (d : BitVec 4) (s : State) (f : State → W128) : Host.Outcome State Fault Refusal :=
  issue i srcs [vid d] s fun s => .ok (s.later 2 [(vid d, f s)], .seq)

/-- A lane-wise VINT operation of two sources. -/
def vint2 (i : Instr) (z : Lane) (d a b : BitVec 4) (s : State) (f : Nat → Nat → Nat → Nat) : Host.Outcome State Fault Refusal :=
  vint i (vids [a, b]) d s fun s => zipLanes (laneBits z) (f (laneBits z)) (s.rv a) (s.rv b)

/-- A lane-wise VINT operation of one source. -/
def vint1 (i : Instr) (z : Lane) (d a : BitVec 4) (s : State) (f : Nat → Nat → Nat) : Host.Outcome State Fault Refusal :=
  vint i (vids [a]) d s fun s => mapLanes (laneBits z) (f (laneBits z)) (s.rv a)

/-- A bitwise operation on 128 bits. -/
def vbits (i : Instr) (d a b : BitVec 4) (s : State) (f : W128 → W128 → W128) : Host.Outcome State Fault Refusal :=
  vint i (vids [a, b]) d s fun s => f (s.rv a) (s.rv b)

/-! ## Lane results of R144: width, x, y -/

def satS (w : Nat) (x : Int) : Nat := wrapNat w (clampInt (-(2 ^ (w - 1) : Nat)) ((2 ^ (w - 1) : Nat) - 1) x)
def laneAdd (w x y : Nat) : Nat := wrapNat w (x + y)
def laneSub (w x y : Nat) : Nat := wrapNat w ((x : Int) - y)
def laneAdds (w x y : Nat) : Nat := satS w (signedNat w x + signedNat w y)
def laneSubs (w x y : Nat) : Nat := satS w (signedNat w x - signedNat w y)
def laneAddus (w x y : Nat) : Nat := min (x + y) (2 ^ w - 1)
def laneSubus (_ x y : Nat) : Nat := x - y
def laneMin (w x y : Nat) : Nat := if signedNat w x ≤ signedNat w y then x else y
def laneMax (w x y : Nat) : Nat := if signedNat w x ≤ signedNat w y then y else x
def laneMinu (_ x y : Nat) : Nat := min x y
def laneMaxu (_ x y : Nat) : Nat := max x y
def laneSll (w x y : Nat) : Nat := x * 2 ^ (y % w) % 2 ^ w
def laneSrl (w x y : Nat) : Nat := x / 2 ^ (y % w)
def laneSra (w x y : Nat) : Nat := wrapNat w (rdnDiv (signedNat w x) (2 ^ (y % w)))
def laneCeq (w x y : Nat) : Nat := maskOf w (decide (x = y))
def laneClt (w x y : Nat) : Nat := maskOf w (decide (signedNat w x < signedNat w y))
def laneCltu (w x y : Nat) : Nat := maskOf w (decide (x < y))
def laneAbs (w x : Nat) : Nat := wrapNat w (signedNat w x).natAbs
def laneNeg (w x : Nat) : Nat := wrapNat w (-(x : Int))
def laneMul (w x y : Nat) : Nat := x * y % 2 ^ w
def laneMulh (w x y : Nat) : Nat := wrapNat w (rdnDiv (signedNat w x * signedNat w y) (2 ^ w))

/-- `vsum` (R145). -/
def vsumOp (w : Nat) (x : W128) : W128 := packLanes 32 [wrapNat 32 ((lanesOf w x).map (signedNat w)).sum]

/-- `vdot4` (R145). -/
def vdot4Op (d x y : W128) : W128 :=
  packLanes 32 ((List.range 4).map fun k =>
    wrapNat 32 (laneOf 32 d k + ((List.range 4).map fun j =>
      signedNat 8 (laneOf 8 x (4 * k + j)) * signedNat 8 (laneOf 8 y (4 * k + j))).sum))

def execVadd (z : Lane) (d a b : BitVec 4) (s : State) := vint2 (.vadd z d a b) z d a b s laneAdd
def execVsub (z : Lane) (d a b : BitVec 4) (s : State) := vint2 (.vsub z d a b) z d a b s laneSub
def execVadds (z : Lane) (d a b : BitVec 4) (s : State) := vint2 (.vadds z d a b) z d a b s laneAdds
def execVsubs (z : Lane) (d a b : BitVec 4) (s : State) := vint2 (.vsubs z d a b) z d a b s laneSubs
def execVaddus (z : Lane) (d a b : BitVec 4) (s : State) := vint2 (.vaddus z d a b) z d a b s laneAddus
def execVsubus (z : Lane) (d a b : BitVec 4) (s : State) := vint2 (.vsubus z d a b) z d a b s laneSubus
def execVmin (z : Lane) (d a b : BitVec 4) (s : State) := vint2 (.vmin z d a b) z d a b s laneMin
def execVmax (z : Lane) (d a b : BitVec 4) (s : State) := vint2 (.vmax z d a b) z d a b s laneMax
def execVminu (z : Lane) (d a b : BitVec 4) (s : State) := vint2 (.vminu z d a b) z d a b s laneMinu
def execVmaxu (z : Lane) (d a b : BitVec 4) (s : State) := vint2 (.vmaxu z d a b) z d a b s laneMaxu
def execVand (d a b : BitVec 4) (s : State) := vbits (.vand d a b) d a b s fun x y => x &&& y
def execVor (d a b : BitVec 4) (s : State) := vbits (.vor d a b) d a b s fun x y => x ||| y
def execVxor (d a b : BitVec 4) (s : State) := vbits (.vxor d a b) d a b s fun x y => x ^^^ y
def execVandn (d a b : BitVec 4) (s : State) := vbits (.vandn d a b) d a b s fun x y => x &&& ~~~y
def execVsll (z : Lane) (d a b : BitVec 4) (s : State) := vint2 (.vsll z d a b) z d a b s laneSll
def execVsrl (z : Lane) (d a b : BitVec 4) (s : State) := vint2 (.vsrl z d a b) z d a b s laneSrl
def execVsra (z : Lane) (d a b : BitVec 4) (s : State) := vint2 (.vsra z d a b) z d a b s laneSra
def execVceq (z : Lane) (d a b : BitVec 4) (s : State) := vint2 (.vceq z d a b) z d a b s laneCeq
def execVclt (z : Lane) (d a b : BitVec 4) (s : State) := vint2 (.vclt z d a b) z d a b s laneClt
def execVcltu (z : Lane) (d a b : BitVec 4) (s : State) := vint2 (.vcltu z d a b) z d a b s laneCltu
def execVabs (z : Lane) (d a : BitVec 4) (s : State) := vint1 (.vabs z d a) z d a s laneAbs
def execVneg (z : Lane) (d a : BitVec 4) (s : State) := vint1 (.vneg z d a) z d a s laneNeg
def execVmul (z : Lane) (d a b : BitVec 4) (s : State) := vint2 (.vmul z d a b) z d a b s laneMul
def execVmulh (z : Lane) (d a b : BitVec 4) (s : State) := vint2 (.vmulh z d a b) z d a b s laneMulh
def execVsum (z : Lane) (d a : BitVec 4) (s : State) :=
  vint (.vsum z d a) (vids [a]) d s fun s => vsumOp (laneBits z) (s.rv a)
def execVdot4 (d a b : BitVec 4) (s : State) :=
  vint (.vdot4 d a b) (vids [d, a, b]) d s fun s => vdot4Op (s.rv d) (s.rv a) (s.rv b)

/-! ## Lane moves (R159, R160) -/

/-- `vshuf` (R159). -/
def vshufOp (w : Nat) (x y : W128) : W128 := mapLanes w (fun j => if j < 128 / w then laneOf w x j else 0) y

/-- `vins` (R159). -/
def vinsOp (w n : Nat) (d : W128) (x : W32) : W128 := packLanes w ((lanesOf w d).set n x.toNat)

/-- `vsel` (R159): the old value of d is the mask. -/
def vselOp (d x y : W128) : W128 := (d &&& x) ||| (~~~d &&& y)

/-- The pair that `vzip` writes (R160), as one list of lanes. -/
def zipped (w : Nat) (x y : W128) : List Nat := (List.zipWith (fun a b => [a, b]) (lanesOf w x) (lanesOf w y)).flatten

/-- The pair that `vuzp` writes (R160): even lanes, then odd lanes. -/
def unzipped (w : Nat) (x y : W128) (odd : Nat) : List Nat :=
  let c := lanesOf w x ++ lanesOf w y
  (List.range (128 / w)).map fun i => c.getD (2 * i + odd) 0

/-- A VMOV that writes a pair. -/
def vpair (i : Instr) (lat : Nat) (srcs : List Nat) (d : BitVec 4) (flags : Option Flags) (s : State)
    (f : State → W128 × W128) : Host.Outcome State Fault Refusal :=
  issue i srcs [vid d, vid d + 1] s fun s =>
    .ok (s.later lat [(vid d, (f s).1), (vid d + 1, (f s).2)] flags, .seq)

def execVsplat (z : Lane) (d : BitVec 4) (a : BitVec 5) (s : State) :=
  vint (.vsplat z d a) (gids [a]) d s fun s => packLanes (laneBits z) (List.replicate (128 / laneBits z) (s.rg a).toNat)
def execVext (z : Lane) (d : BitVec 5) (a : BitVec 4) (n : BitVec 5) (s : State) : Host.Outcome State Fault Refusal :=
  issue (.vext z d a n) (vids [a]) [gid d] s fun s =>
    let v := BitVec.ofInt 32 (signedNat (laneBits z) (laneOf (laneBits z) (s.rv a) n.toNat))
    .ok (s.later 2 [(gid d, v.zeroExtend 128)], .seq)
def execVins (z : Lane) (d : BitVec 4) (a n : BitVec 5) (s : State) :=
  vint (.vins z d a n) (vids [d] ++ gids [a]) d s fun s => vinsOp (laneBits z) n.toNat (s.rv d) (s.rg a)
def execVshuf (z : Lane) (d a b : BitVec 4) (s : State) :=
  vint (.vshuf z d a b) (vids [a, b]) d s fun s => vshufOp (laneBits z) (s.rv a) (s.rv b)
def execVzip (z : Lane) (d a b : BitVec 4) (s : State) :=
  vpair (.vzip z d a b) 2 (vids [a, b]) d none s fun s =>
    let c := zipped (laneBits z) (s.rv a) (s.rv b)
    (packLanes (laneBits z) (c.take (128 / laneBits z)), packLanes (laneBits z) (c.drop (128 / laneBits z)))
def execVuzp (z : Lane) (d a b : BitVec 4) (s : State) :=
  vpair (.vuzp z d a b) 2 (vids [a, b]) d none s fun s =>
    (packLanes (laneBits z) (unzipped (laneBits z) (s.rv a) (s.rv b) 0),
     packLanes (laneBits z) (unzipped (laneBits z) (s.rv a) (s.rv b) 1))
def execVsel (d a b : BitVec 4) (s : State) :=
  vint (.vsel d a b) (vids [d, a, b]) d s fun s => vselOp (s.rv d) (s.rv a) (s.rv b)
def execVmv (d a : BitVec 4) (s : State) := vint (.vmv d a) (vids [a]) d s fun s => s.rv a

/-! ## Floating point (R146 to R149) -/

/-- A lane result with its flags. -/
abbrev Lanes := List (Nat × Flags)

def lanesVal (w : Nat) (xs : Lanes) : W128 := packLanes w (xs.map (·.1))
def lanesFlags (xs : Lanes) : Flags := orFlags (xs.map (·.2))

/-- An FP32 result rounded to BF16 with RNE (02 R49). -/
def thenBf16 (x : Nat × Flags) : Nat × Flags := let y := toBf16 .rne x.1; (y.1, x.2 ||| y.2)

/-- Lanes of a type as FP32 patterns: a BF16 lane is widened (02 R49). -/
def fpLanes (z : FLane) (x : W128) : List Nat :=
  match z with
  | .f => lanesOf 32 x
  | .bf => (lanesOf 16 x).map (· * 65536)

/-- The arithmetic of one lane under FRM: FP32, then BF16 where the lane is one (R146). -/
def arith (z : FLane) (x : Nat × Flags) : Nat × Flags :=
  match z with
  | .f => x
  | .bf => thenBf16 x

def flaneBits : FLane → Nat
  | .f => 32
  | .bf => 16

/-- The rounding mode of the issuing context, read at issue (R143). -/
def State.frm (s : State) : Rounding := roundingOf s.cur.frm

/-- A VFLT or VCVT instruction that writes one register four cycles later, with its flags (R141, R143). -/
def vflt (i : Instr) (w : Nat) (srcs : List Nat) (d : BitVec 4) (s : State) (f : State → Lanes) : Host.Outcome State Fault Refusal :=
  issue i srcs [vid d] s fun s => .ok (s.later 4 [(vid d, lanesVal w (f s))] (some (lanesFlags (f s))), .seq)

/-- A VFLT or VCVT instruction that sets no flags. -/
def vfltQuiet (i : Instr) (srcs : List Nat) (d : BitVec 4) (s : State) (f : State → W128) : Host.Outcome State Fault Refusal :=
  issue i srcs [vid d] s fun s => .ok (s.later 4 [(vid d, f s)], .seq)

def vflt2 (i : Instr) (z : FLane) (d a b : BitVec 4) (s : State) (f : Rounding → Nat → Nat → Nat × Flags) :
    Host.Outcome State Fault Refusal :=
  vflt i (flaneBits z) (vids [a, b]) d s fun s =>
    List.zipWith (fun x y => arith z (f s.frm x y)) (fpLanes z (s.rv a)) (fpLanes z (s.rv b))

def vflt1 (i : Instr) (z : FLane) (d a : BitVec 4) (s : State) (f : Rounding → Nat → Nat × Flags) :
    Host.Outcome State Fault Refusal :=
  vflt i (flaneBits z) (vids [a]) d s fun s => (fpLanes z (s.rv a)).map fun x => arith z (f s.frm x)

/-- A comparison: all ones or zero in the lane (R146). -/
def vfcmp (i : Instr) (z : FLane) (d a b : BitVec 4) (s : State) (f : Nat → Nat → Bool × Flags) :
    Host.Outcome State Fault Refusal :=
  vflt i (flaneBits z) (vids [a, b]) d s fun s =>
    List.zipWith (fun x y => (maskOf (flaneBits z) (f x y).1, (f x y).2)) (fpLanes z (s.rv a)) (fpLanes z (s.rv b))

/-- `vfmin` and `vfmax`: no rounding, the operand's own pattern (R147). -/
def vfpick (i : Instr) (z : FLane) (d a b : BitVec 4) (s : State) (wantMax : Bool) : Host.Outcome State Fault Refusal :=
  let narrow (x : Nat × Flags) : Nat × Flags := match z with
    | .f => x
    | .bf => (x.1 / 65536, x.2)
  vflt i (flaneBits z) (vids [a, b]) d s fun s =>
    List.zipWith (fun x y => narrow (fMinMax wantMax x y)) (fpLanes z (s.rv a)) (fpLanes z (s.rv b))

def fmaLanes (z : FLane) (r : Rounding) (x y d : W128) : Lanes :=
  List.zipWith (fun xy d => arith z (fFma r xy.1 xy.2 d)) ((fpLanes z x).zip (fpLanes z y)) (fpLanes z d)

/-- FP32 addition that gathers flags. -/
def addGather (r : Rounding) (x y : Nat × Flags) : Nat × Flags := let t := fAdd r x.1 y.1; (t.1, x.2 ||| y.2 ||| t.2)

/-- The pairwise tree of `vfsum`: neighbours are added until one value is left (R148). -/
def sumTree (r : Rounding) : Nat → Lanes → Nat × Flags
  | 0, xs => xs.headD (0, 0)
  | n + 1, xs => sumTree r n ((List.range (xs.length / 2)).map fun i =>
      addGather r (xs.getD (2 * i) (0, 0)) (xs.getD (2 * i + 1) (0, 0)))

def vfsumOp (z : FLane) (r : Rounding) (x : W128) : Nat × Flags :=
  let xs : Lanes := (fpLanes z x).map fun v => (v, 0)
  match z with
  | .f => sumTree r 2 xs
  | .bf => thenBf16 (sumTree r 3 xs)

def execVfadd (z : FLane) (d a b : BitVec 4) (s : State) := vflt2 (.vfadd z d a b) z d a b s fAdd
def execVfsub (z : FLane) (d a b : BitVec 4) (s : State) := vflt2 (.vfsub z d a b) z d a b s fSub
def execVfmul (z : FLane) (d a b : BitVec 4) (s : State) := vflt2 (.vfmul z d a b) z d a b s fMul
def execVfma (z : FLane) (d a b : BitVec 4) (s : State) :=
  vflt (.vfma z d a b) (flaneBits z) (vids [d, a, b]) d s fun s => fmaLanes z s.frm (s.rv a) (s.rv b) (s.rv d)
def execVfmin (z : FLane) (d a b : BitVec 4) (s : State) := vfpick (.vfmin z d a b) z d a b s false
def execVfmax (z : FLane) (d a b : BitVec 4) (s : State) := vfpick (.vfmax z d a b) z d a b s true
def execVfceq (z : FLane) (d a b : BitVec 4) (s : State) := vfcmp (.vfceq z d a b) z d a b s fCeq
def execVfclt (z : FLane) (d a b : BitVec 4) (s : State) := vfcmp (.vfclt z d a b) z d a b s fClt
def execVfcle (z : FLane) (d a b : BitVec 4) (s : State) := vfcmp (.vfcle z d a b) z d a b s fCle
def execVfabs (z : FLane) (d a : BitVec 4) (s : State) :=
  vfltQuiet (.vfabs z d a) (vids [a]) d s fun s => mapLanes (flaneBits z) (· % 2 ^ (flaneBits z - 1)) (s.rv a)
def execVfneg (z : FLane) (d a : BitVec 4) (s : State) :=
  vfltQuiet (.vfneg z d a) (vids [a]) d s fun s => mapLanes (flaneBits z) (· ^^^ 2 ^ (flaneBits z - 1)) (s.rv a)
def execVfsum (z : FLane) (d a : BitVec 4) (s : State) :=
  vflt (.vfsum z d a) (flaneBits z) (vids [a]) d s fun s => [vfsumOp z s.frm (s.rv a)]
def execVfrcp (z : FLane) (d a : BitVec 4) (s : State) := vflt1 (.vfrcp z d a) z d a s fRcp
def execVfrsq (z : FLane) (d a : BitVec 4) (s : State) := vflt1 (.vfrsq z d a) z d a s fRsq

/-! ## Conversions (R151) -/

/-- Result lanes of a `vcvt` kind: their width and values. -/
def cvtLanes (k : CvtKind) (frm : Rounding) (rtz : Bool) (x y : W128) : Nat × Lanes :=
  let quiet (xs : List Nat) : Lanes := xs.map fun v => (v, 0)
  let r := if rtz then .rtz else frm
  let widen (w w' lo n : Nat) : Lanes := quiet ((((lanesOf w x).drop lo).take n).map fun v => wrapNat w' (signedNat w v))
  match k with
  | .f2bf => (16, (lanesOf 32 x ++ lanesOf 32 y).map (toBf16 (if rtz then .rtz else .rne)))
  | .bflo2f => (32, ((lanesOf 16 x).take 4).map ofBf16)
  | .bfhi2f => (32, ((lanesOf 16 x).drop 4).map ofBf16)
  | .w2f => (32, (lanesOf 32 x).map fun v => ofInt32 r (signedNat 32 v))
  | .f2w => (32, (lanesOf 32 x).map (toInt32 r))
  | .blo2h => (16, widen 8 16 0 8)
  | .bhi2h => (16, widen 8 16 8 8)
  | .hlo2w => (32, widen 16 32 0 4)
  | .hhi2w => (32, widen 16 32 4 4)
  | .h2b => (8, quiet ((lanesOf 16 x ++ lanesOf 16 y).map fun v => satS 8 (signedNat 16 v)))
  | .w2h => (16, quiet ((lanesOf 32 x ++ lanesOf 32 y).map fun v => satS 16 (signedNat 32 v)))

/-- Two-source kinds read b (R151). -/
def twoSource : CvtKind → Bool
  | .f2bf | .h2b | .w2h => true
  | _ => false

/-- Kinds that may set flags (R151). -/
def cvtFlags : CvtKind → Bool
  | .f2bf | .bflo2f | .bfhi2f | .w2f | .f2w => true
  | _ => false

def execVcvt (k : CvtKind) (rtz : Bool) (d a b : BitVec 4) (s : State) : Host.Outcome State Fault Refusal :=
  issue (.vcvt k rtz d a b) (vids (if twoSource k then [a, b] else [a])) [vid d] s fun s =>
    let r := cvtLanes k s.frm rtz (s.rv a) (s.rv b)
    .ok (s.later 4 [(vid d, lanesVal r.1 r.2)] (if cvtFlags k then some (lanesFlags r.2) else none), .seq)

/-! ## Quantisation (R152 to R154) -/

/-- An FP32 input of Q8B4: none for a NaN or an infinity. -/
def q8Input (x : Nat) : Option Dyadic :=
  match fpVal x with
  | .fin neg m e => some (FpVal.fin neg m e).dyadic
  | _ => none

/-- `vq8b` over the four registers of a group (R152). -/
def vq8bOp (xs : List W128) : W128 × W128 × Flags :=
  let qs := xs.map fun x => q8b4 ((lanesOf 32 x).map q8Input)
  (packLanes 8 (qs.flatMap fun q => q.elems.map (wrapNat 8)), packLanes 16 (qs.map (·.scale)), orFlags (qs.map (·.flags)))

def State.quad (s : State) (a : BitVec 4) : List W128 := (List.range 4).map (s.rvAt a)

def execVq8b (d a : BitVec 4) (s : State) : Host.Outcome State Fault Refusal :=
  issue (.vq8b d a) (vgroup a) [vid d, vid d + 1] s fun s =>
    let r := vq8bOp (s.quad a)
    .ok (s.later 4 [(vid d, r.1), (vid d + 1, r.2.1)] (some r.2.2), .seq)

/-- One element of `vdq8b` (R153). -/
def dq8 (r : Rounding) (c : Nat) (x : Int) : Nat × Flags :=
  if scaleE c = 255 then (fp32.nan, flagNV)
  else if scaleE c = 0 then (0, 0)
  else roundDyadic fp32 r (({ n := x, e := 0 } : Dyadic).mul (scaleVal c)) false

def dq8Lanes (r : Rounding) (x y : W128) (j : Nat) : Lanes :=
  (List.range 4).map fun i => dq8 r (laneOf 16 y j % 4096) (signedNat 8 (laneOf 8 x (4 * j + i)))

def execVdq8b (d a b : BitVec 4) (s : State) : Host.Outcome State Fault Refusal :=
  issue (.vdq8b d a b) (vids [a, b]) (vgroup d) s fun s =>
    let rs := (List.range 4).map (dq8Lanes s.frm (s.rv a) (s.rv b))
    .ok (s.later 4 (rs.zipIdx.map fun e => (vid d + e.2, lanesVal 32 e.1)) (some (orFlags (rs.map lanesFlags))), .seq)

def execVmx8 (d a b : BitVec 4) (s : State) :=
  vpair (.vmx8 d a b) 4 (vids [a, b]) d none s fun s =>
    let x := laneOf 8 (s.rv b) 0
    (mapLanes 8 (fun v => wrapNat 8 (mx8Elem x (signedNat 8 v))) (s.rv a), packLanes 16 (List.replicate 4 (mx8Scale x)))

/-! ## Ternarisation and trits (R155 to R158) -/

/-- Sign of a value; 0 for either zero. -/
def fpSign (v : FpVal) : Int := if v.isZero then 0 else if v.neg then -1 else 1

/-- The scale that `vtern` accepts: a positive finite value (R155). -/
def ternScale (x : Nat) : Option Dyadic :=
  match fpVal x with
  | .fin false m e => if m = 0 then none else some { n := m, e := e }
  | _ => none

/-- One trit of `vtern`: `u` is the draw with `.sr` (R155). -/
def ternOne (sc : Dyadic) (u : Option Nat) (x : Nat) : Int × Flags :=
  let v := fpVal x
  if v.isNan then (0, flagNV)
  else
    let r := v.dyadic.abs.frac sc
    let one : Bool := match u with
      | some u => decide ((u : Int) < (if v.isInf then 2 ^ 16 else min (rdnDiv (r.1 * 2 ^ 16) r.2) (2 ^ 16)))
      | none => v.isInf || decide (1 ≤ rneDiv r.1 r.2)
    (if one then fpSign v else 0, 0)

/-- The sixteen trits and flags of `vtern`. -/
def ternAll (sc : Nat) (draw : Nat → Option Nat) (vs : List Nat) : List (Int × Flags) :=
  match ternScale sc with
  | none => vs.map fun _ => (0, flagNV)
  | some d => vs.zipIdx.map fun e => ternOne d (draw e.2) e.1

def State.quadLanes (s : State) (a : BitVec 4) : List Nat := (s.quad a).flatMap (lanesOf 32)

/-- The draw of lane k (02 R57). -/
def ternDraw (x : Ctx) (k : Nat) : Nat := (spate x.srkeyHi x.srkeyLo x.srseq (BitVec.ofNat 32 k)).toNat / 65536

def execVtern (sr : Bool) (d a b : BitVec 4) (s : State) : Host.Outcome State Fault Refusal :=
  issue (.vtern sr d a b) (vgroup a ++ vids [b]) [vid d] s fun s =>
    let x := s.cur
    let ts := ternAll (laneOf 32 (s.rv b) 0) (fun k => if sr then some (ternDraw x k) else none) (s.quadLanes a)
    let s := if sr then s.setCur { x with srseq := x.srseq + 1 } else s
    .ok (s.later 4 [(vid d, packLanes 8 (ts.map fun t => wrapNat 8 t.1))] (some (orFlags (ts.map (·.2)))), .seq)

/-- One trit of `vthr` (R156). -/
def thrOne (delta : FpVal) (x : Nat) : Int × Flags :=
  let v := fpVal x
  let minus : FpVal := match delta with
    | .nan b => .nan b
    | .inf n => .inf !n
    | .fin n m e => .fin (!n) m e
  if v.isNan || delta.isNan then (0, flagNV)
  else (if delta.lt v then 1 else if v.lt minus then -1 else 0, 0)

def execVthr (d a b : BitVec 4) (s : State) : Host.Outcome State Fault Refusal :=
  vflt (.vthr d a b) 8 (vgroup a ++ vids [b]) d s fun s =>
    (s.quadLanes a).map fun x => let t := thrOne (fpVal (laneOf 32 (s.rv b) 0)) x; (wrapNat 8 t.1, t.2)

/-- Lists of five. -/
def chunks5 : Nat → List Int → List (List Int)
  | 0, _ => []
  | n + 1, xs => xs.take 5 :: chunks5 n (xs.drop 5)

/-- `vtrpk` (R157). -/
def vtrpkOp (xs : List W128) (y : W128) : W128 :=
  let ts := (((xs.flatMap (lanesOf 8)) ++ lanesOf 8 y).map fun v => Int.sign (signedNat 8 v)).take 80
  packLanes 8 ((chunks5 16 ts).map t5Byte)

def execVtrpk (d a b : BitVec 4) (s : State) :=
  vfltQuiet (.vtrpk d a b) (vgroup a ++ vids [b]) d s fun s => vtrpkOp (s.quad a) (s.rv b)

/-- `vtrunpk` (R158). -/
def vtrunpkOp (x : W128) (p : Nat) : W128 :=
  let ts := (lanesOf 8 x).flatMap fun b => (t5Trits b).getD [0, 0, 0, 0, 0]
  packLanes 8 ((List.range 16).map fun i => wrapNat 8 (ts.getD (p + i) 0))

def execVtrunpk (d a : BitVec 4) (b : BitVec 5) (s : State) :=
  vfltQuiet (.vtrunpk d a b) (vids [a] ++ gids [b]) d s fun s => vtrunpkOp (s.rv a) ((s.rg b).toNat % 128)

end Sys2Proof.Machine
end

