-- ==== Sys2Proof/Machine/Dispatch.lean ====
section
/-! DEFINITION. The dispatch of every constructor of the instruction set to its meaning. -/

namespace Sys2Proof.Machine

def exec (i : Instr) (s : State) : Host.Outcome State Fault Refusal :=
  match i with
  | .add d a b => Sys2Proof.Machine.execAdd d a b s
  | .sub d a b => Sys2Proof.Machine.execSub d a b s
  | .and d a b => Sys2Proof.Machine.execAnd d a b s
  | .or d a b => Sys2Proof.Machine.execOr d a b s
  | .xor d a b => Sys2Proof.Machine.execXor d a b s
  | .andn d a b => Sys2Proof.Machine.execAndn d a b s
  | .orn d a b => Sys2Proof.Machine.execOrn d a b s
  | .sll d a b => Sys2Proof.Machine.execSll d a b s
  | .srl d a b => Sys2Proof.Machine.execSrl d a b s
  | .sra d a b => Sys2Proof.Machine.execSra d a b s
  | .rol d a b => Sys2Proof.Machine.execRol d a b s
  | .ror d a b => Sys2Proof.Machine.execRor d a b s
  | .slt d a b => Sys2Proof.Machine.execSlt d a b s
  | .sltu d a b => Sys2Proof.Machine.execSltu d a b s
  | .min d a b => Sys2Proof.Machine.execMin d a b s
  | .max d a b => Sys2Proof.Machine.execMax d a b s
  | .minu d a b => Sys2Proof.Machine.execMinu d a b s
  | .maxu d a b => Sys2Proof.Machine.execMaxu d a b s
  | .mul d a b => Sys2Proof.Machine.execMul d a b s
  | .mulh d a b => Sys2Proof.Machine.execMulh d a b s
  | .mulhu d a b => Sys2Proof.Machine.execMulhu d a b s
  | .div d a b => Sys2Proof.Machine.execDiv d a b s
  | .divu d a b => Sys2Proof.Machine.execDivu d a b s
  | .rem d a b => Sys2Proof.Machine.execRem d a b s
  | .remu d a b => Sys2Proof.Machine.execRemu d a b s
  | .clz d a => Sys2Proof.Machine.execClz d a s
  | .ctz d a => Sys2Proof.Machine.execCtz d a s
  | .popc d a => Sys2Proof.Machine.execPopc d a s
  | .sextb d a => Sys2Proof.Machine.execSextb d a s
  | .sexth d a => Sys2Proof.Machine.execSexth d a s
  | .zexth d a => Sys2Proof.Machine.execZexth d a s
  | .addi d a imm => Sys2Proof.Machine.execAddi d a imm s
  | .andi d a imm => Sys2Proof.Machine.execAndi d a imm s
  | .ori d a imm => Sys2Proof.Machine.execOri d a imm s
  | .xori d a imm => Sys2Proof.Machine.execXori d a imm s
  | .slti d a imm => Sys2Proof.Machine.execSlti d a imm s
  | .sltiu d a imm => Sys2Proof.Machine.execSltiu d a imm s
  | .shi d a op n => Sys2Proof.Machine.execShi d a op n s
  | .lui d imm => Sys2Proof.Machine.execLui d imm s
  | .aui d imm => Sys2Proof.Machine.execAui d imm s
  | .ldb d a imm => Sys2Proof.Machine.execLdb d a imm s
  | .ldbu d a imm => Sys2Proof.Machine.execLdbu d a imm s
  | .ldh d a imm => Sys2Proof.Machine.execLdh d a imm s
  | .ldhu d a imm => Sys2Proof.Machine.execLdhu d a imm s
  | .ldw d a imm => Sys2Proof.Machine.execLdw d a imm s
  | .stb b a imm => Sys2Proof.Machine.execStb b a imm s
  | .sth b a imm => Sys2Proof.Machine.execSth b a imm s
  | .stw b a imm => Sys2Proof.Machine.execStw b a imm s
  | .ldbPtr d a ord scope cons post => Sys2Proof.Machine.execLdbPtr d a ord scope cons post s
  | .ldbuPtr d a ord scope cons post => Sys2Proof.Machine.execLdbuPtr d a ord scope cons post s
  | .ldhPtr d a ord scope cons post => Sys2Proof.Machine.execLdhPtr d a ord scope cons post s
  | .ldhuPtr d a ord scope cons post => Sys2Proof.Machine.execLdhuPtr d a ord scope cons post s
  | .ldwPtr d a ord scope cons post => Sys2Proof.Machine.execLdwPtr d a ord scope cons post s
  | .stbPtr d a ord scope post => Sys2Proof.Machine.execStbPtr d a ord scope post s
  | .sthPtr d a ord scope post => Sys2Proof.Machine.execSthPtr d a ord scope post s
  | .stwPtr d a ord scope post => Sys2Proof.Machine.execStwPtr d a ord scope post s
  | .vld d a ord scope cons post => Sys2Proof.Machine.execVld d a ord scope cons post s
  | .vst d a ord scope post => Sys2Proof.Machine.execVst d a ord scope post s
  | .vldg d a cons post => Sys2Proof.Machine.execVldg d a cons post s
  | .vstg d a post => Sys2Proof.Machine.execVstg d a post s
  | .beq a b imm => Sys2Proof.Machine.execBeq a b imm s
  | .bne a b imm => Sys2Proof.Machine.execBne a b imm s
  | .blt a b imm => Sys2Proof.Machine.execBlt a b imm s
  | .bge a b imm => Sys2Proof.Machine.execBge a b imm s
  | .bltu a b imm => Sys2Proof.Machine.execBltu a b imm s
  | .bgeu a b imm => Sys2Proof.Machine.execBgeu a b imm s
  | .call imm => Sys2Proof.Machine.execCall imm s
  | .j imm => Sys2Proof.Machine.execJ imm s
  | .jr a imm => Sys2Proof.Machine.execJr a imm s
  | .callr a imm => Sys2Proof.Machine.execCallr a imm s
  | .ret => Sys2Proof.Machine.execRet s
  | .rep a => Sys2Proof.Machine.execRep a s
  | .repi n => Sys2Proof.Machine.execRepi n s
  | .loop a imm => Sys2Proof.Machine.execLoop a imm s
  | .loopi n imm => Sys2Proof.Machine.execLoopi n imm s
  | .pset d a b => Sys2Proof.Machine.execPset d a b s
  | .pnear d a b unit => Sys2Proof.Machine.execPnear d a b unit s
  | .pfar d a b => Sys2Proof.Machine.execPfar d a b s
  | .padd d a b => Sys2Proof.Machine.execPadd d a b s
  | .pwalk d a => Sys2Proof.Machine.execPwalk d a s
  | .pget d a hi => Sys2Proof.Machine.execPget d a hi s
  | .wset d a e => Sys2Proof.Machine.execWset d a e s
  | .ext d a b => Sys2Proof.Machine.execExt d a b s
  | .extu d a b => Sys2Proof.Machine.execExtu d a b s
  | .ins d a b => Sys2Proof.Machine.execIns d a b s
  | .bbset a => Sys2Proof.Machine.execBbset a s
  | .bget d a => Sys2Proof.Machine.execBget d a s
  | .bpeek d a => Sys2Proof.Machine.execBpeek d a s
  | .bskip a => Sys2Proof.Machine.execBskip a s
  | .balign => Sys2Proof.Machine.execBalign s
  | .bgetu d a => Sys2Proof.Machine.execBgetu d a s
  | .hlay d a b => Sys2Proof.Machine.execHlay d a b s
  | .hpack d a b => Sys2Proof.Machine.execHpack d a b s
  | .hunpk d a b => Sys2Proof.Machine.execHunpk d a b s
  | .vadd z d a b => Sys2Proof.Machine.execVadd z d a b s
  | .vsub z d a b => Sys2Proof.Machine.execVsub z d a b s
  | .vadds z d a b => Sys2Proof.Machine.execVadds z d a b s
  | .vsubs z d a b => Sys2Proof.Machine.execVsubs z d a b s
  | .vaddus z d a b => Sys2Proof.Machine.execVaddus z d a b s
  | .vsubus z d a b => Sys2Proof.Machine.execVsubus z d a b s
  | .vmin z d a b => Sys2Proof.Machine.execVmin z d a b s
  | .vmax z d a b => Sys2Proof.Machine.execVmax z d a b s
  | .vminu z d a b => Sys2Proof.Machine.execVminu z d a b s
  | .vmaxu z d a b => Sys2Proof.Machine.execVmaxu z d a b s
  | .vand d a b => Sys2Proof.Machine.execVand d a b s
  | .vor d a b => Sys2Proof.Machine.execVor d a b s
  | .vxor d a b => Sys2Proof.Machine.execVxor d a b s
  | .vandn d a b => Sys2Proof.Machine.execVandn d a b s
  | .vsll z d a b => Sys2Proof.Machine.execVsll z d a b s
  | .vsrl z d a b => Sys2Proof.Machine.execVsrl z d a b s
  | .vsra z d a b => Sys2Proof.Machine.execVsra z d a b s
  | .vceq z d a b => Sys2Proof.Machine.execVceq z d a b s
  | .vclt z d a b => Sys2Proof.Machine.execVclt z d a b s
  | .vcltu z d a b => Sys2Proof.Machine.execVcltu z d a b s
  | .vabs z d a => Sys2Proof.Machine.execVabs z d a s
  | .vneg z d a => Sys2Proof.Machine.execVneg z d a s
  | .vmul z d a b => Sys2Proof.Machine.execVmul z d a b s
  | .vmulh z d a b => Sys2Proof.Machine.execVmulh z d a b s
  | .vsum z d a => Sys2Proof.Machine.execVsum z d a s
  | .vdot4 d a b => Sys2Proof.Machine.execVdot4 d a b s
  | .vfadd z d a b => Sys2Proof.Machine.execVfadd z d a b s
  | .vfsub z d a b => Sys2Proof.Machine.execVfsub z d a b s
  | .vfmul z d a b => Sys2Proof.Machine.execVfmul z d a b s
  | .vfma z d a b => Sys2Proof.Machine.execVfma z d a b s
  | .vfmin z d a b => Sys2Proof.Machine.execVfmin z d a b s
  | .vfmax z d a b => Sys2Proof.Machine.execVfmax z d a b s
  | .vfceq z d a b => Sys2Proof.Machine.execVfceq z d a b s
  | .vfclt z d a b => Sys2Proof.Machine.execVfclt z d a b s
  | .vfcle z d a b => Sys2Proof.Machine.execVfcle z d a b s
  | .vfabs z d a => Sys2Proof.Machine.execVfabs z d a s
  | .vfneg z d a => Sys2Proof.Machine.execVfneg z d a s
  | .vfsum z d a => Sys2Proof.Machine.execVfsum z d a s
  | .vfrcp z d a => Sys2Proof.Machine.execVfrcp z d a s
  | .vfrsq z d a => Sys2Proof.Machine.execVfrsq z d a s
  | .vcvt kind rtz d a b => Sys2Proof.Machine.execVcvt kind rtz d a b s
  | .vq8b d a => Sys2Proof.Machine.execVq8b d a s
  | .vdq8b d a b => Sys2Proof.Machine.execVdq8b d a b s
  | .vmx8 d a b => Sys2Proof.Machine.execVmx8 d a b s
  | .vtern sr d a b => Sys2Proof.Machine.execVtern sr d a b s
  | .vthr d a b => Sys2Proof.Machine.execVthr d a b s
  | .vtrpk d a b => Sys2Proof.Machine.execVtrpk d a b s
  | .vtrunpk d a b => Sys2Proof.Machine.execVtrunpk d a b s
  | .vsplat z d a => Sys2Proof.Machine.execVsplat z d a s
  | .vext z d a n => Sys2Proof.Machine.execVext z d a n s
  | .vins z d a n => Sys2Proof.Machine.execVins z d a n s
  | .vshuf z d a b => Sys2Proof.Machine.execVshuf z d a b s
  | .vzip z d a b => Sys2Proof.Machine.execVzip z d a b s
  | .vuzp z d a b => Sys2Proof.Machine.execVuzp z d a b s
  | .vsel d a b => Sys2Proof.Machine.execVsel d a b s
  | .vmv d a => Sys2Proof.Machine.execVmv d a s
  | .lcopy d a b => Sys2Proof.Machine.execLcopy d a b s
  | .lfill d a b => Sys2Proof.Machine.execLfill d a b s
  | .stc scope d a b post => Sys2Proof.Machine.execStc scope d a b post s
  | .rcopen n a b policy => Sys2Proof.Machine.execRcopen n a b policy s
  | .rcclose d n => Sys2Proof.Machine.execRcclose d n s
  | .rcdec rel scope a post => Sys2Proof.Machine.execRcdec rel scope a post s
  | .rcpeek d a => Sys2Proof.Machine.execRcpeek d a s
  | .get d a b ctr cons => Sys2Proof.Machine.execGet d a b ctr cons s
  | .put d a b ctr cnt hnd => Sys2Proof.Machine.execPut d a b ctr cnt hnd s
  | .getx d a b ctr cons => Sys2Proof.Machine.execGetx d a b ctr cons s
  | .putx d a b ctr => Sys2Proof.Machine.execPutx d a b ctr s
  | .fwait => Sys2Proof.Machine.execFwait s
  | .rmwadd vec ord scope d a b => Sys2Proof.Machine.execRmwadd vec ord scope d a b s
  | .rmwand vec ord scope d a b => Sys2Proof.Machine.execRmwand vec ord scope d a b s
  | .rmwor vec ord scope d a b => Sys2Proof.Machine.execRmwor vec ord scope d a b s
  | .rmwxor vec ord scope d a b => Sys2Proof.Machine.execRmwxor vec ord scope d a b s
  | .rmwmin vec ord scope d a b => Sys2Proof.Machine.execRmwmin vec ord scope d a b s
  | .rmwmax vec ord scope d a b => Sys2Proof.Machine.execRmwmax vec ord scope d a b s
  | .rmwminu vec ord scope d a b => Sys2Proof.Machine.execRmwminu vec ord scope d a b s
  | .rmwmaxu vec ord scope d a b => Sys2Proof.Machine.execRmwmaxu vec ord scope d a b s
  | .rmwswap vec ord scope d a b => Sys2Proof.Machine.execRmwswap vec ord scope d a b s
  | .rmwcas ord scope d a b => Sys2Proof.Machine.execRmwcas ord scope d a b s
  | .rmwdec ord scope d a b => Sys2Proof.Machine.execRmwdec ord scope d a b s
  | .fence scope pred succ => Sys2Proof.Machine.execFence scope pred succ s
  | .mwld mode n d a b => Sys2Proof.Machine.execMwld mode n d a b s
  | .mrun round ovw cons gth n d a b => Sys2Proof.Machine.execMrun round ovw cons gth n d a b s
  | .macz b a => Sys2Proof.Machine.execMacz b a s
  | .mdrain type d a b => Sys2Proof.Machine.execMdrain type d a b s
  | .macc rdn b a => Sys2Proof.Machine.execMacc rdn b a s
  | .mstat d n => Sys2Proof.Machine.execMstat d n s
  | .mfmt a => Sys2Proof.Machine.execMfmt a s
  | .mcmd d a b => Sys2Proof.Machine.execMcmd d a b s
  | .mcap n a => Sys2Proof.Machine.execMcap n a s
  | .msave what d a b => Sys2Proof.Machine.execMsave what d a b s
  | .mrest what d a b => Sys2Proof.Machine.execMrest what d a b s
  | .send a b => Sys2Proof.Machine.execSend a b s
  | .sendw d a b => Sys2Proof.Machine.execSendw d a b s
  | .spawn d a b => Sys2Proof.Machine.execSpawn d a b s
  | .callat d a b => Sys2Proof.Machine.execCallat d a b s
  | .reply a => Sys2Proof.Machine.execReply a s
  | .start a b => Sys2Proof.Machine.execStart a b s
  | .done => Sys2Proof.Machine.execDone s
  | .commit => Sys2Proof.Machine.execCommit s
  | .tmsg d n => Sys2Proof.Machine.execTmsg d n s
  | .waitf a b => Sys2Proof.Machine.execWaitf a b s
  | .barinit a b => Sys2Proof.Machine.execBarinit a b s
  | .bararr d a b => Sys2Proof.Machine.execBararr d a b s
  | .barwait d a b => Sys2Proof.Machine.execBarwait d a b s
  | .bardrop d a b => Sys2Proof.Machine.execBardrop d a b s
  | .bartest d a exp => Sys2Proof.Machine.execBartest d a exp s
  | .kick d a => Sys2Proof.Machine.execKick d a s
  | .keep d a => Sys2Proof.Machine.execKeep d a s
  | .ktest d a kp => Sys2Proof.Machine.execKtest d a kp s
  | .mfs d r => Sys2Proof.Machine.execMfs d r s
  | .mts r a => Sys2Proof.Machine.execMts r a s
  | .clr cls a => Sys2Proof.Machine.execClr cls a s
  | .trap a b => Sys2Proof.Machine.execTrap a b s
  | .svc a => Sys2Proof.Machine.execSvc a s
  | .tret => Sys2Proof.Machine.execTret s
  | .idle => Sys2Proof.Machine.execIdle s
  | .brk n => Sys2Proof.Machine.execBrk n s
  | .bmode a b => Sys2Proof.Machine.execBmode a b s
  | .l2wb a b => Sys2Proof.Machine.execL2wb a b s
  | .l2inv a b dis => Sys2Proof.Machine.execL2inv a b dis s
  | .rdtime d => Sys2Proof.Machine.execRdtime d s
  | .isync => Sys2Proof.Machine.execIsync s
  | .skey a => Sys2Proof.Machine.execSkey a s
  | .hMv d b => Sys2Proof.Machine.execHMv d b s
  | .hLi d imm => Sys2Proof.Machine.execHLi d imm s
  | .hAddi d imm => Sys2Proof.Machine.execHAddi d imm s
  | .hAdd d b => Sys2Proof.Machine.execHAdd d b s
  | .hSub d b => Sys2Proof.Machine.execHSub d b s
  | .hAnd d b => Sys2Proof.Machine.execHAnd d b s
  | .hOr d b => Sys2Proof.Machine.execHOr d b s
  | .hXor d b => Sys2Proof.Machine.execHXor d b s
  | .hShl d n => Sys2Proof.Machine.execHShl d n s
  | .hShr d n => Sys2Proof.Machine.execHShr d n s
  | .hAsr d n => Sys2Proof.Machine.execHAsr d n s
  | .hLdw d b => Sys2Proof.Machine.execHLdw d b s
  | .hStw d b => Sys2Proof.Machine.execHStw d b s
  | .hBz d imm => Sys2Proof.Machine.execHBz d imm s
  | .hBnz d imm => Sys2Proof.Machine.execHBnz d imm s
  | .hJ imm => Sys2Proof.Machine.execHJ imm s
  | .hRet => Sys2Proof.Machine.execHRet s
  | .hDone => Sys2Proof.Machine.execHDone s
  | .hCommit => Sys2Proof.Machine.execHCommit s
  | .hNop => Sys2Proof.Machine.execHNop s
  | .hNeg d b => Sys2Proof.Machine.execHNeg d b s
  | .illegalInstruction w => Sys2Proof.Machine.execIllegalInstruction w s
  | .reset => Sys2Proof.Machine.execReset s
  | .resultLand core ctx k => Sys2Proof.Machine.execResultLand core ctx k s
  | .remoteFill k => Sys2Proof.Machine.execRemoteFill k s
  | .deferredFault core ctx => Sys2Proof.Machine.execDeferredFault core ctx s
  | .budget core ctx => Sys2Proof.Machine.execBudget core ctx s
  | .lazyRestore core ctx gr => Sys2Proof.Machine.execLazyRestore core ctx gr s
  | .messageAccept k => Sys2Proof.Machine.execMessageAccept k s
  | .dispatch core => Sys2Proof.Machine.execDispatch core s
  | .retrySlotEntry core k => Sys2Proof.Machine.execRetrySlotEntry core k s
  | .fifoPopServed basin bank => Sys2Proof.Machine.execFifoPopServed basin bank s
  | .fifoPushAppended basin bank => Sys2Proof.Machine.execFifoPushAppended basin bank s
  | .countedFillPin w => Sys2Proof.Machine.execCountedFillPin w s
  | .cntLimitExpiry w => Sys2Proof.Machine.execCntLimitExpiry w s
  | .transferChunk core id => Sys2Proof.Machine.execTransferChunk core id s
  | .transferCompletion core id => Sys2Proof.Machine.execTransferCompletion core id s
  | .barrierArrival core ctx => Sys2Proof.Machine.execBarrierArrival core ctx s
  | .kickRegisterStore core ctx basin val => Sys2Proof.Machine.execKickRegisterStore core ctx basin val s
  | .lin basin token => Sys2Proof.Machine.execLin basin token s
  | .patch basin token => Sys2Proof.Machine.execPatch basin token s
  | .cdel basin token => Sys2Proof.Machine.execCdel basin token s
  | .host basin token => Sys2Proof.Machine.execHost basin token s
  | .tern basin token => Sys2Proof.Machine.execTern basin token s
  | .tugBox basin token box => Sys2Proof.Machine.execTugBox basin token box s
  | .tugCompletion basin token => Sys2Proof.Machine.execTugCompletion basin token s
  | .bin basin => Sys2Proof.Machine.execBin basin s
  | .merge basin => Sys2Proof.Machine.execMerge basin s
  | .isect basin => Sys2Proof.Machine.execIsect basin s
  | .part basin => Sys2Proof.Machine.execPart basin s
  | .scan basin => Sys2Proof.Machine.execScan basin s
  | .keeperCompletion basin => Sys2Proof.Machine.execKeeperCompletion basin s
  | .operandLatchLoad core => Sys2Proof.Machine.execOperandLatchLoad core s
  | .arrayRun core => Sys2Proof.Machine.execArrayRun core s
  | .tileZero core => Sys2Proof.Machine.execTileZero core s
  | .tileAdd core => Sys2Proof.Machine.execTileAdd core s
  | .tileDrain core => Sys2Proof.Machine.execTileDrain core s
  | .slotStatistics core => Sys2Proof.Machine.execSlotStatistics core s
  | .formatChange core => Sys2Proof.Machine.execFormatChange core s
  | .matrixSave core => Sys2Proof.Machine.execMatrixSave core s
  | .matrixRestore core => Sys2Proof.Machine.execMatrixRestore core s
  | .mcmdArrival k => Sys2Proof.Machine.execMcmdArrival k s
  | .doorbell quay queue x => Sys2Proof.Machine.execDoorbell quay queue x s
  | .queueReset quay queue x => Sys2Proof.Machine.execQueueReset quay queue x s
  | .queueEnable quay queue x => Sys2Proof.Machine.execQueueEnable quay queue x s
  | .launch quay queue => Sys2Proof.Machine.execLaunch quay queue s
  | .open_ quay queue => Sys2Proof.Machine.execOpen_ quay queue s
  | .seal quay queue => Sys2Proof.Machine.execSeal quay queue s
  | .cancel quay queue => Sys2Proof.Machine.execCancel quay queue s
  | .msg quay queue => Sys2Proof.Machine.execMsg quay queue s
  | .free quay queue => Sys2Proof.Machine.execFree quay queue s
  | .launchLoad handle => Sys2Proof.Machine.execLaunchLoad handle s
  | .ended handle => Sys2Proof.Machine.execEnded handle s
  | .preemption handle => Sys2Proof.Machine.execPreemption handle s
  | .preemptionSave handle => Sys2Proof.Machine.execPreemptionSave handle s
  | .preemptionRestore handle => Sys2Proof.Machine.execPreemptionRestore handle s
  | .invalidation quay ctl => Sys2Proof.Machine.execInvalidation quay ctl s
  | .fix quay x => Sys2Proof.Machine.execFix quay x s
  | .hostWrite quay t data => Sys2Proof.Machine.execHostWrite quay t data s
  | .hostRead quay t size => Sys2Proof.Machine.execHostRead quay t size s
  | .hsqRdptr quay fq x => Sys2Proof.Machine.execHsqRdptr quay fq x s
  | .barRegisterWrite quay off x => Sys2Proof.Machine.execBarRegisterWrite quay off x s
  | .flitReceive port f => Sys2Proof.Machine.execFlitReceive port f s
  | .ringArrival p => Sys2Proof.Machine.execRingArrival p s
  | .portFailure port => Sys2Proof.Machine.execPortFailure port s
  | .packageFailure pos => Sys2Proof.Machine.execPackageFailure pos s
  | .reconfigurationDone => Sys2Proof.Machine.execReconfigurationDone s
  | .timeSync t => Sys2Proof.Machine.execTimeSync t s
  | .startSequence fails pos last up => Sys2Proof.Machine.execStartSequence fails pos last up s
  | .stage => Sys2Proof.Machine.execStage s
  | .switch => Sys2Proof.Machine.execSwitch s
  | .tugload => Sys2Proof.Machine.execTugload s
  | .islandSetFrequency => Sys2Proof.Machine.execIslandSetFrequency s
  | .islandRecalibrate => Sys2Proof.Machine.execIslandRecalibrate s
  | .recalibrationEnd us => Sys2Proof.Machine.execRecalibrationEnd us s
  | .retbasin => Sys2Proof.Machine.execRetbasin s
  | .retchan => Sys2Proof.Machine.execRetchan s
  | .attest => Sys2Proof.Machine.execAttest s
  | .identity => Sys2Proof.Machine.execIdentity s
  | .badarg => Sys2Proof.Machine.execBadarg s
  | .portRestored port => Sys2Proof.Machine.execPortRestored port s
  | .ioIslandRecalibration island => Sys2Proof.Machine.execIoIslandRecalibration island s
  | .cxlCacheSnoop pa kind => Sys2Proof.Machine.execCxlCacheSnoop pa kind s

end Sys2Proof.Machine
end

