-- ==== Sys2Proof/Machine/Faults.lean ====
section
/-! DEFINITION. Soft errors from outside, and their containment (18 R364 to R369). -/

namespace Sys2Proof.Machine

/-! ## Uncorrectable errors (R366 to R369) -/

/-- An uncorrectable error appears in granules of 8 bytes. -/
def State.markGranules (s : State) (gs : List Nat) : State :=
  { s with errs := { s.errs with mem := gs.foldl (fun m g => mset false m g true) s.errs.mem } }

/-- An error in a granule of 8 bytes. A clean uncounted cached line is read again from memory; a line of LPDDR 6 fails
whole; host memory is the host's (R364). -/
def State.upsetMem (s : State) (g : Nat) : State :=
  let key := g * 8
  let lk := key / 64
  if !isFarKey key then s.markGranules [g]
  else match s.farLine lk with
    | some l =>
      if !l.dirty && !l.pinned then
        (s.dropFar lk).correction 2 ((s.home (farPa key)).getD 0) (BitVec.ofNat 32 (farPa key))
      else s.markGranules [g]
    | none => if key < 2 ^ 49 then { s with errs := { s.errs with dram := mset false s.errs.dram lk true } } else s

/-- An entry of a list is marked. -/
def markAt {α : Type} (f : α → α) (xs : List α) (k : Nat) : List α := xs.zipIdx.map fun e => if e.2 = k then f e.1 else e.1

/-- A soft error appears in storage. What it does, it does when the storage is read (R366). A register or a tile that is
absent is written before it is read (15 R344). -/
def State.upset (s : State) : Upset → State
  | .mem g => s.upsetMem g
  | .reg n c id => if (s.getCtx n c).regState id = .absent then s else { s with errs := { s.errs with regs := mset false s.errs.regs (regKey n c id) true } }
  | .acc n t e => if ((s.mat n).tile t).absent then s else { s with errs := { s.errs with acc := mset false s.errs.acc ((n * 8 + t) * 1024 + e) true } }
  | .slot n i =>
    let k := s.getCore n
    let bad (x : Slot) : Slot := if x.state = .valid then { x with bad := true } else x
    s.setCore n { k with mat := if i = 0 then { k.mat with slot0 := bad k.mat.slot0 } else { k.mat with slot1 := bad k.mat.slot1 } }
  | .readPath n c id => { s with errs := { s.errs with glitch := mset false s.errs.glitch (regKey n c id) true } }
  | .matEntry n k => s.setMat n { s.mat n with queue := markAt (fun c => { c with bad := true }) (s.mat n).queue k }
  | .fifoEntry b bank k =>
    let f := s.fifo b bank
    if k < f.entries.length ∧ !f.bad.contains k then s.setFifo b bank { f with bad := k :: f.bad } else s
  | .queueEntry n l i => s.setLevel n l { s.level n l with hw := markAt (fun m => { m with bad := true }) (s.level n l).hw i }
  | .retrySlot n l => s.setLevel n l { s.level n l with retry := (s.level n l).retry.map fun m => { m with bad := true } }
  | .imem b =>
    let x := s.getBasin b
    s.setBasin b { x with tug := { x.tug with imemBad := true } }
  | .barrier id => s.setBar id { s.getBar id with bad := true }
  | .obj h => s.setObj h { s.getObj h with bad := true }
  | .corrected struct b addr => s.correction struct b addr

end Sys2Proof.Machine
end

