-- ==== Sys2Proof/Machine/Turns.lean ====
section
/-! DEFINITION. Fetch (03 R62, R63), one cycle of a core (01 R21 to R23), and one move of the package. -/

namespace Sys2Proof.Machine

/-! ## Fetch (03 R62, R63, R78) -/

/-- The instruction at the PC of the issuing context, or the fault that its fetch meets. What has been fetched ahead is kept
until the next `isync` (10 R275). -/
def State.fetch (s : State) : Except Stop Instr := do
  let pc := s.cur.pc.toNat
  let k ← s.lengthAt pc
  match if k = 4 then s.fetchFails (pc + 2) else none with
  | some e => .error e
  | none =>
    let bs := (List.range k).map fun i => s.fetchByte s.core s.ctx (pc + i)
    match decodeBytes bs with
    | .ok (i, _) => .ok i
    | .error _ => .ok (.illegalInstruction (bytes32 bs))

/-- Fetch and execute one instruction of context (n, c). -/
def State.runCtx (s : State) (n c : Nat) : Host.Outcome State Fault Refusal :=
  let s : State := { s with core := n, ctx := c }
  match s.fetch with
  | .error e => .next (State.stopped (.illegalInstruction 0) e)
  | .ok i => exec i s

/-! ## One cycle of a core (01 R23) -/

/-- The context did not issue (01 R21). A trap that ends an attempt is the issue of its cycle (01 R23), though the attempt's
transfers may still run. -/
def Ctx.stays (x : Ctx) : Bool := decide (x.status = .parked ∨ x.status = .waiting) && x.ending.isNone

/-- What a look at a context finds, results due having landed. A context with a trap to take is READY (01 R23). -/
def State.lookAt (s : State) (n c : Nat) : Status :=
  let x := s.getCtx n c
  if x.status = .idle then .idle
  else if x.ending.isSome then .waiting
  else if (s.boundaryTrap n c).isSome then .ready
  else match s.runCtx n c with
    | .next t => if (t.getCtx n c).stays then (t.getCtx n c).status else .ready
    | _ => .waiting

/-- The state of a context at a cycle boundary (01 R21). The table names no state for a READY context that a pre-emption
stops, nor for one whose attempt is ending while its transfers run (11 R288): here both are WAITING (log entry 80). -/
def State.stateOf (s : State) (n c : Nat) : Status :=
  if s.lookAt n c = .ready ∧ s.heldAtBoundary n (s.getCtx n c) = true then .waiting else s.lookAt n c

/-- The search of R23 over the contexts still to be looked at, and the end of the cycle. -/
def State.search (n : Nat) : List Nat → State → Host.Outcome State Fault Refusal
  | [], s => .next (s.endCycle n)
  | c :: cs, s =>
    let s := s.settleEnding n c
    if s.passesBy n c then State.search n cs s
    else match s.boundaryTrap n c with
      | some t => .next (t.takeBoundary n c)
      | none => match s.runCtx n c with
        | .next t => if (t.getCtx n c).stays then State.search n cs t else .next (t.takeBoundary n c)
        | .fault r => .fault r
        | .refused r => .refused r

/-- Whether a core or an engine of a basin stands still: its island's clock is stopped (19 R380), or the package is in minimal
mode (19 R376). -/
def State.standsStill (s : State) (b : Nat) : Bool := s.svc.stopped == some (islandOf b) || decide (s.bootMode = 2)

/-- One cycle of core `n`: the results due land, after the fills that have come in it (01 R32), and the search goes round. -/
def State.cycle (s : State) (n : Nat) : Host.Outcome State Fault Refusal :=
  if s.standsStill (basinOf n) then .next s else State.search n (searchOrder (s.getCore n).ilast) (s.landDue n)

/-! ## Moves -/

/-- The basin of whoever waits for a pinned way. -/
def waiterBasin : PinWaiter → Nat
  | .stc n _ => basinOf n
  | .xfer n _ => basinOf n
  | .tug b _ => b

/-- The basin whose clock drives an event of a core, a tug or a keeper. -/
def clockOf : Instr → Option Nat
  | .resultLand n _ _ | .deferredFault n _ | .budget n _ | .lazyRestore n _ _ | .dispatch n | .retrySlotEntry n _
  | .transferChunk n _ | .transferCompletion n _ | .operandLatchLoad n | .arrayRun n | .tileZero n | .tileAdd n
  | .tileDrain n | .slotStatistics n | .formatChange n | .matrixSave n | .matrixRestore n => some (basinOf n)
  | .countedFillPin w | .cntLimitExpiry w => some (waiterBasin w)
  | .fifoPopServed b _ | .fifoPushAppended b _ | .lin b _ | .patch b _ | .cdel b _ | .host b _ | .tern b _
  | .tugBox b _ _ | .tugCompletion b _ | .bin b | .merge b | .isect b | .part b | .scan b | .keeperCompletion b => some b
  | _ => none

/-- The move names a core, or a step that no program word codes, with an existing subject. -/
def Turn.ok : Turn → Bool
  | .cycle n => coreOk n
  | .event i => (encode i).isNone && wellFormed i
  | .tick _ => true
  | .upset _ => true

/-- One move. Time stands for the nanoseconds that pass (00 R5). -/
def State.turn (s : State) (t : Turn) : Host.Outcome State Fault Refusal :=
  match t with
  | .cycle n => s.cycle n
  | .event i =>
    match clockOf i with
    | some b => if s.standsStill b then .next s else exec i s
    | none => exec i s
  | .tick ns => .next { s with time := s.time + BitVec.ofNat 64 ns }
  | .upset u => .next (s.upset u)

/-- The next move: the schedule's, else the free one. -/
def State.move (s : State) : Host.Outcome State Fault Refusal :=
  match s.sched with
  | t :: ts => if Turn.ok t then ({ s with sched := ts } : State).turn t else .fault .noSuchSubject
  | [] =>
    let t := Config.freeTurn s.free
    let s : State := { s with free := s.free + 1 }
    if Turn.ok t then s.turn t else .next s

/-! ## The host's instruction at the next step -/

/-- Make context (s.core, s.ctx) the first that the next cycle of its core looks at, with nothing due before its
instruction, and nothing fetched ahead. -/
def State.armed (s : State) : State :=
  let k := s.me
  let x := s.cur
  let y : Ctx := { x with status := .ready, ending := none, deferred := [], publishing := false, judged := none, verdict := none
                          xtag := none, pc := if 0x1FFFC < x.pc.toNat then 0 else x.pc
                          task := x.task.map fun t => { t with used := 0 } }
  let s := (s.setCore s.core ({ k with ilast := (s.ctx + 10) % 11 }.setCtx s.ctx y)).refetch s.core s.ctx
  { s with sched := .cycle s.core :: s.sched, svc := { s.svc with stopped := none }
           bootMode := if s.bootMode = 2 then 1 else s.bootMode }

/-- The four bytes at the PC of the armed context hold `w`, in plain lines without errors. -/
def State.placed (s : State) (w : Nat) : State :=
  let key := localKey s.core s.cur.pc.toNat
  let s := (s.setLine (key / 64) .plain).setLine ((key + 3) / 64) .plain
  let gs := (List.range 2).map (key / 8 + ·)
  (({ s with errs := { s.errs with mem := gs.foldl mdel s.errs.mem } } : State).putBytes key (leBytes 4 w)).refetch s.core s.ctx

end Sys2Proof.Machine
end

