-- ==== Sys2Proof/Machine/Step.lean ====
section
/-! DEFINITION. One step of the package, and the host's way to place an instruction. -/

namespace Sys2Proof.Machine

/-- One step: the next move of the schedule (log entry 4). -/
def step (s : State) : Host.Outcome State Fault Refusal := s.move

/-- `s` with the instruction whose bits are `w` standing where the next step fetches (log entry 13). -/
def State.withFetchWord (s : State) (_nbits w : Nat) : State := s.armed.placed w

end Sys2Proof.Machine
end

