-- ==== Sys2Proof/Machine/Sources.lean ====
section
/-! DEFINITION. What an instruction needs before it issues, for every instruction at once: the registers it reads and writes
(01 R21, R26), and the contexts in which its word is legal (03 R78, 08 R196). Steps that no program word codes have none. -/

namespace Sys2Proof.Machine

/-- The further sources of `mcmd`: those of the command that e3 carries, once e3 is full (07 R191). -/
def carriedSrcs (s : State) : List Nat :=
  if s.cur.regState (eid 3) = .full then ((carriedForm s (s.re 3)).map MatForm.srcs).getD [] else []

/-- The registers that an instruction reads, in a state: some commands name further ones in their operands. -/
def sourcesOf (s : State) : Instr → List Nat
  | .add _ a b | .sub _ a b | .and _ a b | .or _ a b | .xor _ a b | .andn _ a b | .orn _ a b | .sll _ a b | .srl _ a b
    | .sra _ a b | .rol _ a b | .ror _ a b | .slt _ a b | .sltu _ a b | .min _ a b | .max _ a b | .minu _ a b | .maxu _ a b
    | .mul _ a b | .mulh _ a b | .mulhu _ a b | .div _ a b | .divu _ a b | .rem _ a b | .remu _ a b | .beq a b _ | .bne a b _
    | .blt a b _ | .bge a b _ | .bltu a b _ | .bgeu a b _ | .pset _ a b | .pnear _ a b _ | .pfar _ a b | .ext _ a b
    | .extu _ a b | .hlay _ a b | .waitf a b | .barinit a b | .bararr _ a b | .barwait _ a b | .bardrop _ a b | .trap a b
    | .bmode a b => gids [a, b]
  | .clz _ a | .ctz _ a | .popc _ a | .sextb _ a | .sexth _ a | .zexth _ a | .addi _ a _ | .andi _ a _ | .ori _ a _
    | .xori _ a _ | .slti _ a _ | .sltiu _ a _ | .shi _ a _ _ | .ldb _ a _ | .ldbu _ a _ | .ldh _ a _ | .ldhu _ a _
    | .ldw _ a _ | .jr a _ | .rep a | .loop a _ | .wset _ a _ | .vsplat _ _ a | .mfmt a | .mcap _ a | .reply a
    | .bartest _ a _ | .kick _ a | .keep _ a | .ktest _ a _ | .mts _ a | .svc a | .skey a => gids [a]
  | .stb b a _ | .sth b a _ | .stw b a _ => gids [b, a]
  | .ldbPtr _ a ord scope _ post | .ldbuPtr _ a ord scope _ post | .ldhPtr _ a ord scope _ post
    | .ldhuPtr _ a ord scope _ post | .ldwPtr _ a ord scope _ post | .vld _ a ord scope _ post => ptrIds a post ++ memIds ord scope
  | .stbPtr d a ord scope post | .sthPtr d a ord scope post | .stwPtr d a ord scope post => gid d :: ptrIds a post ++ memIds ord scope
  | .vst d a ord scope post => vid d :: ptrIds a post ++ memIds ord scope
  | .vldg _ a _ post | .rcdec _ _ a post => ptrIds a post
  | .vstg d a post => vgroup d ++ ptrIds a post
  | .call _ | .ret | .hRet => [linkId]
  | .callr a _ => gids [a] ++ [linkId]
  | .padd _ a b | .rcopen _ a b _ | .l2wb a b | .l2inv a b _ => [pid a, gid b]
  | .pwalk _ a => [pid a, wid a]
  | .pget _ a _ | .rcpeek _ a => [pid a]
  | .ins d a b | .lcopy d a b | .lfill d a b => gids [d, a, b]
  | .bbset a | .bget _ a | .bpeek _ a | .bskip a | .bgetu _ a => gids [a] ++ [bbId]
  | .balign => [bbId]
  | .hpack d a b => ggroup d 2 ++ gids [a, b]
  | .hunpk _ a b => ggroup a 2 ++ gids [b]
  | .vadd _ _ a b | .vsub _ _ a b | .vadds _ _ a b | .vsubs _ _ a b | .vaddus _ _ a b | .vsubus _ _ a b | .vmin _ _ a b
    | .vmax _ _ a b | .vminu _ _ a b | .vmaxu _ _ a b | .vand _ a b | .vor _ a b | .vxor _ a b | .vandn _ a b | .vsll _ _ a b
    | .vsrl _ _ a b | .vsra _ _ a b | .vceq _ _ a b | .vclt _ _ a b | .vcltu _ _ a b | .vmul _ _ a b | .vmulh _ _ a b
    | .vfadd _ _ a b | .vfsub _ _ a b | .vfmul _ _ a b | .vfmin _ _ a b | .vfmax _ _ a b | .vfceq _ _ a b | .vfclt _ _ a b
    | .vfcle _ _ a b | .vdq8b _ a b | .vmx8 _ a b | .vshuf _ _ a b | .vzip _ _ a b | .vuzp _ _ a b => vids [a, b]
  | .vabs _ _ a | .vneg _ _ a | .vsum _ _ a | .vfabs _ _ a | .vfneg _ _ a | .vfsum _ _ a | .vfrcp _ _ a | .vfrsq _ _ a
    | .vext _ _ a _ | .vmv _ a => vids [a]
  | .vdot4 d a b | .vfma _ d a b | .vsel d a b => vids [d, a, b]
  | .vcvt kind _ _ a b => vids (if twoSource kind then [a, b] else [a])
  | .vq8b _ a => vgroup a
  | .vtern _ _ a b | .vthr _ a b | .vtrpk _ a b => vgroup a ++ vids [b]
  | .vtrunpk _ a b => vids [a] ++ gids [b]
  | .vins _ d a _ => vids [d] ++ gids [a]
  | .stc _ d a b post => vgroup d ++ ptrIds a post ++ [gid b]
  | .get _ a b ctr _ => [pid a, gid b] ++ xferEs false ctr false false
  | .put _ a b ctr cnt hnd => [pid a, gid b] ++ xferEs false ctr cnt hnd
  | .getx _ a b ctr _ | .putx _ a b ctr => [pid a, gid b] ++ xferEs true ctr false false
  | .rmwadd vec _ _ _ a b => [pid a, atomId vec b] ++ atomEs .add
  | .rmwand vec _ _ _ a b => [pid a, atomId vec b] ++ atomEs .and
  | .rmwor vec _ _ _ a b => [pid a, atomId vec b] ++ atomEs .or
  | .rmwxor vec _ _ _ a b => [pid a, atomId vec b] ++ atomEs .xor
  | .rmwmin vec _ _ _ a b => [pid a, atomId vec b] ++ atomEs .min
  | .rmwmax vec _ _ _ a b => [pid a, atomId vec b] ++ atomEs .max
  | .rmwminu vec _ _ _ a b => [pid a, atomId vec b] ++ atomEs .minu
  | .rmwmaxu vec _ _ _ a b => [pid a, atomId vec b] ++ atomEs .maxu
  | .rmwswap vec _ _ _ a b => [pid a, atomId vec b] ++ atomEs .swap
  | .rmwcas _ _ _ a b => [pid a, atomId false b] ++ atomEs .cas
  | .rmwdec _ _ _ a b => [pid a, atomId false b] ++ atomEs .dec
  | .mwld mode n d a b => ((matForm s (.mwld mode n d a b)).map MatForm.srcs).getD []
  | .mrun round ovw cons gth n d a b => ((matForm s (.mrun round ovw cons gth n d a b)).map MatForm.srcs).getD []
  | .macz b a => ((matForm s (.macz b a)).map MatForm.srcs).getD []
  | .mdrain type d a b => ((matForm s (.mdrain type d a b)).map MatForm.srcs).getD []
  | .macc rdn b a => ((matForm s (.macc rdn b a)).map MatForm.srcs).getD []
  | .mstat d n => ((matForm s (.mstat d n)).map MatForm.srcs).getD []
  | .mcmd _ a b => [pid a, gid b, eid 3] ++ carriedSrcs s
  | .msave what d a b => ((matForm s (.msave what d a b)).map MatForm.srcs).getD []
  | .mrest what d a b => ((matForm s (.mrest what d a b)).map MatForm.srcs).getD []
  | .send a b | .sendw _ a b => gids [a, b] ++ eids [4, 5]
  | .spawn _ a b => gids [a, b] ++ eids [4]
  | .callat _ a b => gids [a] ++ ggroup b 4 ++ eids [4]
  | .start a b => gids [a, b] ++ eids [0, 1]
  | .hMv _ b | .hLdw _ b | .hNeg _ b => gids [b]
  | .hAddi d _ | .hShl d _ | .hShr d _ | .hAsr d _ | .hBz d _ | .hBnz d _ => gids [d]
  | .hAdd d b | .hSub d b | .hAnd d b | .hOr d b | .hXor d b | .hStw d b => gids [d, b]
  | _ => []

/-- The registers that an instruction writes. -/
def destsOf : Instr → List Nat
  | .add d _ _ | .sub d _ _ | .and d _ _ | .or d _ _ | .xor d _ _ | .andn d _ _ | .orn d _ _ | .sll d _ _ | .srl d _ _
    | .sra d _ _ | .rol d _ _ | .ror d _ _ | .slt d _ _ | .sltu d _ _ | .min d _ _ | .max d _ _ | .minu d _ _ | .maxu d _ _
    | .mul d _ _ | .mulh d _ _ | .mulhu d _ _ | .div d _ _ | .divu d _ _ | .rem d _ _ | .remu d _ _ | .clz d _ | .ctz d _
    | .popc d _ | .sextb d _ | .sexth d _ | .zexth d _ | .addi d _ _ | .andi d _ _ | .ori d _ _ | .xori d _ _ | .slti d _ _
    | .sltiu d _ _ | .shi d _ _ _ | .lui d _ | .aui d _ | .ldb d _ _ | .ldbu d _ _ | .ldh d _ _ | .ldhu d _ _ | .ldw d _ _
    | .pget d _ _ | .ext d _ _ | .extu d _ _ | .ins d _ _ | .bget d _ | .bpeek d _ | .bgetu d _ | .hlay d _ _ | .hunpk d _ _
    | .vext _ d _ _ | .rcclose d _ | .rcpeek d _ | .get d _ _ _ _ | .put d _ _ _ _ _ | .getx d _ _ _ _ | .putx d _ _ _
    | .mwld _ _ d _ _ | .mrun _ _ _ _ _ d _ _ | .mdrain _ d _ _ | .mstat d _ | .mcmd d _ _ | .msave _ d _ _ | .mrest _ d _ _
    | .sendw d _ _ | .spawn d _ _ | .callat d _ _ | .tmsg d _ | .bararr d _ _ | .barwait d _ _ | .bardrop d _ _
    | .bartest d _ _ | .kick d _ | .keep d _ | .ktest d _ _ | .mfs d _ | .hMv d _ | .hLi d _ | .hAddi d _ | .hAdd d _
    | .hSub d _ | .hAnd d _ | .hOr d _ | .hXor d _ | .hShl d _ | .hShr d _ | .hAsr d _ | .hLdw d _ | .hNeg d _ => [gid d]
  | .ldbPtr d a _ _ _ post | .ldbuPtr d a _ _ _ post | .ldhPtr d a _ _ _ post | .ldhuPtr d a _ _ _ post
    | .ldwPtr d a _ _ _ post => gid d :: ptrDst a post
  | .stbPtr _ a _ _ post | .sthPtr _ a _ _ post | .stwPtr _ a _ _ post | .vst _ a _ _ post | .vstg _ a post
    | .stc _ _ a _ post | .rcdec _ _ a post => ptrDst a post
  | .vld d a _ _ _ post => vid d :: ptrDst a post
  | .vldg d a _ post => vgroup d ++ ptrDst a post
  | .pset d _ _ | .pnear d _ _ _ | .pfar d _ _ | .padd d _ _ | .pwalk d _ => [pid d]
  | .wset d _ e => [if e then eid d.toNat else wid d]
  | .hpack d _ _ | .rdtime d => ggroup d 2
  | .vadd _ d _ _ | .vsub _ d _ _ | .vadds _ d _ _ | .vsubs _ d _ _ | .vaddus _ d _ _ | .vsubus _ d _ _ | .vmin _ d _ _
    | .vmax _ d _ _ | .vminu _ d _ _ | .vmaxu _ d _ _ | .vand d _ _ | .vor d _ _ | .vxor d _ _ | .vandn d _ _ | .vsll _ d _ _
    | .vsrl _ d _ _ | .vsra _ d _ _ | .vceq _ d _ _ | .vclt _ d _ _ | .vcltu _ d _ _ | .vabs _ d _ | .vneg _ d _
    | .vmul _ d _ _ | .vmulh _ d _ _ | .vsum _ d _ | .vdot4 d _ _ | .vfadd _ d _ _ | .vfsub _ d _ _ | .vfmul _ d _ _
    | .vfma _ d _ _ | .vfmin _ d _ _ | .vfmax _ d _ _ | .vfceq _ d _ _ | .vfclt _ d _ _ | .vfcle _ d _ _ | .vfabs _ d _
    | .vfneg _ d _ | .vfsum _ d _ | .vfrcp _ d _ | .vfrsq _ d _ | .vcvt _ _ d _ _ | .vtern _ d _ _ | .vthr d _ _
    | .vtrpk d _ _ | .vtrunpk d _ _ | .vsplat _ d _ | .vins _ d _ _ | .vshuf _ d _ _ | .vsel d _ _ | .vmv d _ => [vid d]
  | .vq8b d _ | .vmx8 d _ _ | .vzip _ d _ _ | .vuzp _ d _ _ => [vid d, vid d + 1]
  | .vdq8b d _ _ => vgroup d
  | .rmwadd vec _ _ d _ _ | .rmwand vec _ _ d _ _ | .rmwor vec _ _ d _ _ | .rmwxor vec _ _ d _ _ | .rmwmin vec _ _ d _ _
    | .rmwmax vec _ _ d _ _ | .rmwminu vec _ _ d _ _ | .rmwmaxu vec _ _ d _ _ | .rmwswap vec _ _ d _ _ => [atomId vec d]
  | .rmwcas _ _ d _ _ | .rmwdec _ _ d _ _ => [atomId false d]
  | .macz _ _ | .macc _ _ _ | .send _ _ => [gid 0]
  | _ => []

/-- Whether the issuing context may issue the instruction; elsewhere its word is ILL. -/
def legalIn (s : State) : Instr → Bool
  | .rcopen _ _ _ _ | .rcclose _ _ | .mfmt _ | .mcap _ _ | .msave _ _ _ _ | .mrest _ _ _ _ | .start _ _ | .barinit _ _
    | .bmode _ _ | .l2wb _ _ | .l2inv _ _ _ => s.ctx == 0
  | .done | .hDone => s.ctx != 0
  | .mfs _ r | .mts r _ => decide (r.toNat ≤ 28)
  | .tret | .idle => !s.inTask
  | .illegalInstruction _ => false
  | _ => true

end Sys2Proof.Machine
end

