-- ==== Sys2Proof/Safety.lean ====
section
/-! DEFINITION. The terms in which the statements speak of the machine: what a state keeps, when an instruction has
issued, where the PC goes, and what an instruction writes. -/

namespace Sys2Proof.Machine

/-! ## Canonical forms -/

/-- Memory and line states are in canonical form: keys strictly rising, nothing listed that an unlisted key reads as. -/
def State.Canonical (s : State) : Prop := Memory.wf s.mem = true ∧ mwf LineState.plain s.lines = true

/-- A count that a line may have: 1 to 255 (05 R115). -/
def LineState.CountOk (st : LineState) : Prop := ∀ n, st = .counted n → 1 ≤ n ∧ n ≤ 255

/-- Every count that the package holds is from 1 to 255 (05 R115): of a line at its home, of a cached far line, and of a
line in a save area. -/
def State.CountsOk (s : State) : Prop :=
  (∀ e ∈ s.lines, e.2.CountOk) ∧ (∀ e ∈ s.far, e.2.st.CountOk)
    ∧ ∀ o ∈ s.objs, ∀ l, o.2.launch = some l → ∀ v, l.save = some v → ∀ e ∈ v.lines, e.2.CountOk

/-! ## What an instruction leaves alone -/

/-- Everything of a context but its registers and their states, its results on their way, PC and RC, and what the
model notes of an issue: so every special register, the bit buffer, the link store, the task and what it holds. -/
def Ctx.rest (x : Ctx) : Ctx :=
  { x with g := [], v := [], p := [], w := [], e := [], rst := [], pend := [], pc := 0, rc := 0, status := .idle
           judged := none, blockedOn := [], verdict := none }
/-- Everything of a core but its contexts. -/
def Core.rest (k : Core) : Core := { k with ctxs := [] }
/-- Everything of the package but the cores, the marks of registers with a parity error, and the model's note of results
written in this cycle (01 R32). -/
def State.rest (s : State) : State := { s with cores := [], written := [], errs := { s.errs with regs := [] } }
/-- The same without what a store may change: bytes, cached lines, the marks of granules with an error, and what running
contexts see of a write to local memory. -/
def State.restButBytes (s : State) : State :=
  { s.rest with mem := [], far := [], fetched := [], watches := [], errs := { s.rest.errs with mem := [], dram := [] } }

/-- Only the issuing context changed, and of its registers only those of `dsts` (FOVREG ids, 01 R34). -/
structure CtxFrame (s t : State) (dsts : List Nat) : Prop where
  cores : ∀ n, n ≠ s.core → t.getCore n = s.getCore n
  core : t.me.rest = s.me.rest
  ctxs : ∀ c, c ≠ s.ctx → t.me.getCtx c = s.me.getCtx c
  special : t.cur.rest = s.cur.rest
  regs : ∀ id, id < 160 → id ∉ dsts → t.cur.value id = s.cur.value id ∧ t.cur.regState id = s.cur.regState id

/-- The frame of a form that stores nothing: no byte, line or other state of the package changed. -/
structure Frame (s t : State) (dsts : List Nat) : Prop extends CtxFrame s t dsts where
  rest : t.rest = s.rest
  bytes : ∀ a, t.byteAt a = s.byteAt a

/-- The frame of a form that stores: of the bytes, only those at keys in `cells` changed, and no line state. -/
structure StoreFrame (s t : State) (dsts : List Nat) (cells : Nat → Prop) : Prop extends CtxFrame s t dsts where
  rest : t.restButBytes = s.restButBytes
  lines : ∀ lk, t.lineState lk = s.lineState lk
  bytes : ∀ a, ¬cells a → t.byteAt a = s.byteAt a

/-! ## Issue and the next PC -/

/-- PC and RC after an instruction of `len` bytes that transfers no control (03 R63, 04 R109). At the top of local memory
the PC goes on at 0: the model's choice (log entry 19). -/
def State.nextPc (s : State) (len : Nat) : Off × W32 :=
  let x := s.cur
  if x.rc ≠ 0 ∧ x.le.toNat = x.pc.toNat / 2 then
    if 1 < x.rc.toNat then (BitVec.ofNat 17 (x.ls.toNat * 2), x.rc - 1) else (x.pc + BitVec.ofNat 17 len, 0)
  else (x.pc + BitVec.ofNat 17 len, x.rc)

/-- The instruction has issued: its context neither parked nor waits (01 R21), and PC and RC are these. -/
structure Issued (s t : State) (pc : Off) (rc : W32) : Prop where
  core : t.core = s.core
  ctx : t.ctx = s.ctx
  status : t.cur.stays = false
  pc : t.cur.pc = pc
  rc : t.cur.rc = rc

/-- It has issued and goes on to the next instruction. -/
def Next (i : Instr) (s t : State) : Prop := Issued s t (s.nextPc (lengthOf i)).1 (s.nextPc (lengthOf i)).2

/-! ## What an instruction writes

`srcs` and `dsts` are the registers it reads and writes, by their FOVREG ids; State.ready says that they let it issue
(01 R21, R26, R30). -/

/-- `i` completes in `s`: where its registers are ready it answers a state of which `post` holds, after going on to the
next instruction (State.nextPc: at the top of local memory by log entry 19). -/
def Completes (i : Instr) (s : State) (srcs dsts : List Nat) (post : State → Prop) : Prop :=
  s.ready i srcs dsts = true → ∃ t, exec i s = .next t ∧ Next i s t ∧ post t

/-- `i` writes `v` to g[d] at once, and nothing else. A write to g0 is discarded (01 R29). -/
def SetsG (i : Instr) (s : State) (srcs : List Nat) (d : BitVec 5) (v : W32) : Prop :=
  Completes i s srcs [gid d] fun t => Frame s t [gid d] ∧ t.cur.pend = s.cur.pend
    ∧ t.rg d = (if d = 0 then 0 else v) ∧ t.cur.regState (gid d) = .full

/-- `i` writes `v` to p[d] at once, and nothing else. -/
def SetsP (i : Instr) (s : State) (srcs : List Nat) (d : BitVec 3) (v : W64) : Prop :=
  Completes i s srcs [pid d] fun t => Frame s t [pid d] ∧ t.cur.pend = s.cur.pend
    ∧ t.rp d = v ∧ t.cur.regState (pid d) = .full

/-- `i` issues results for the registers `regs` that land `lat` cycles later with these flags, and nothing else; until
they land the registers are empty (01 R25, R26). -/
def LandsAfter (i : Instr) (s : State) (srcs : List Nat) (lat : Nat) (regs : List (Nat × W128))
    (flags : Option (BitVec 5) := none) : Prop :=
  Completes i s srcs (regs.map (·.1)) fun t => Frame s t (regs.map (·.1))
    ∧ t.cur.pend = s.cur.pend ++ [{ regs := regs, flags := flags, due := some (s.me.cyc + lat), mem := false }]
    ∧ ∀ id ∈ regs.map (·.1), id ≠ 0 → t.cur.regState id = .empty

/-- `t` is `u` but for PC, RC and what the model notes of an issue. With `u` written as an update of the state before
the instruction, this says what the instruction changed and that it changed nothing else. -/
def Reaches (u t : State) : Prop := Frame u t [] ∧ t.cur.pend = u.cur.pend

/-- `i` transfers control to `target`, which leaves RC alone (04 R109), and the state becomes `u` otherwise. -/
def Jumps (i : Instr) (s : State) (srcs : List Nat) (target : Off) (u : State) : Prop :=
  s.ready i srcs [] = true → ∃ t, exec i s = .next t ∧ Issued s t target s.cur.rc ∧ Reaches u t

/-- `i` issues with the effect `u`, which the publication of a task's effects may be part of (11 R285), and goes on to
the next instruction. -/
def Becomes (i : Instr) (s : State) (srcs dsts : List Nat) (u : State) : Prop :=
  s.ready i srcs dsts = true → ∃ t, exec i s = .next t ∧ Next i u t ∧ Reaches u t

/-- `i` does not issue: its context waits in `u` (01 R21). -/
def WaitsIn (i : Instr) (s : State) (srcs dsts : List Nat) (u : State) : Prop :=
  s.ready i srcs dsts = true → exec i s = .next (u.setStatus .waiting)

/-- `i` traps with a cause and a TRAP_VAL and has no other effect: the trap entry of 08 R224 is taken at its PC. It is taken
in `u`, where a translation, or the publication of a task's effects, has reached another state than `s` (11 R285). -/
def Traps (i : Instr) (s : State) (srcs dsts : List Nat) (c : Cause) (v : W32) (u : State := s) : Prop :=
  s.ready i srcs dsts = true → exec i s = .next (u.trapEntry u.core u.ctx c u.cur.pc v)

/-- `i` meets an uncorrectable error at a key (18 R366): the error is reported with the address, its line is retired where
it can be (R367), and the instruction traps UE, in `u` as above. -/
def MeetsUe (i : Instr) (s : State) (srcs dsts : List Nat) (key addr : Nat) (v : W32) (u : State := s) : Prop :=
  s.ready i srcs dsts = true →
    exec i s = .next ((u.meetUe u.me.launch u.core u.ctx key addr).trapEntry u.core u.ctx .ue u.cur.pc v)

/-- The access of `i` through p[a] fails in `u`, the state that its publication reached (05 R113, 11 R285): step 1 traps
with the number of the register, and steps 2, 3 and 5 with P[31:0]; a failed translation is a miss (15 R339); an
uncorrectable error is met. -/
def FailsAt (i : Instr) (s : State) (srcs dsts : List Nat) (a : BitVec 3) (f : Fail) (u : State := s) : Prop :=
  let P := u.rp a
  let traps (u : State) (c : Cause) (v : W32) : State := u.trapEntry u.core u.ctx c u.cur.pc v
  s.ready i srcs dsts = true → exec i s = .next (match f with
    | .ptr c => traps u c (BitVec.ofNat 32 a.toNat)
    | .cause c => traps u c (ptrLow P)
    | .miss m => u.takeMiss m (ptrLow P)
    | .ue key => traps (u.meetUe u.me.launch u.core u.ctx key (ueAddr P)) .ue (ptrLow P))

/-! ## Local memory as a context reads it (05 R117) -/

/-- The byte at a local offset: the task's latest held write of it, else memory. -/
def State.localByte (s : State) (off : Nat) : Byte :=
  overlay (s.heldWrites s.core s.cur) (localKey s.core off) (s.byteAt (localKey s.core off))

/-- A plain read of the byte meets neither a dropped line nor an uncorrectable error. -/
def State.localReads (s : State) (off : Nat) : Prop :=
  s.seenState (s.decsOf s.core s.cur) (localKey s.core off / 64) ≠ .dropped ∧ s.badGranule (localKey s.core off) 1 = none

/-- The `n` bytes from a local offset as one number, the first least significant (00 R11). -/
def State.localNat (s : State) (off : Nat) : Nat → Nat
  | 0 => 0
  | n + 1 => (s.localByte off).toNat + 256 * s.localNat (off + 1) n

/-- A refill of the bit buffer by `i` that comes to the byte at `off` stops there where it cannot be read (04 R100). -/
def RefillStops (i : Instr) (s : State) (srcs dsts : List Nat) (off : Nat) : Prop :=
  let v : W32 := BitVec.ofNat 32 off
  let seen := s.seenState (s.decsOf s.core s.cur) (localKey s.core off / 64)
  (seen = .dropped → Traps i s srcs dsts .overread v)
    ∧ ∀ g, seen ≠ .dropped → s.badGranule (localKey s.core off) 1 = some g → MeetsUe i s srcs dsts (g * 8) off v

/-- `i` issues a load of own local memory, and nothing else; its result lands three cycles later, which is the model's
choice of what 01 R25 calls typical (log entry 44). -/
def LoadsLocal (i : Instr) (s : State) (srcs : List Nat) (d : BitVec 5) (v : W32) : Prop :=
  Completes i s srcs [gid d] fun t => Frame s t [gid d] ∧ (d ≠ 0 → t.cur.regState (gid d) = .empty)
    ∧ t.cur.pend = s.cur.pend ++ [{ regs := [(gid d, v.zeroExtend 128)], due := some (s.me.cyc + 3), mem := true }]

/-- The `n` bytes of memory from a key as one number. -/
def State.memNat (s : State) (key : Nat) : Nat → Nat
  | 0 => 0
  | n + 1 => (s.byteAt key).toNat + 256 * s.memNat (key + 1) n

/-- The task of a context has room for one more held effect of `n` data bytes (11 R286). -/
def State.bufferRoom (s : State) (n : Nat) : Prop :=
  (heldCost s.cur.held).1 + 1 ≤ 64 ∧ (heldCost s.cur.held).2 + n ≤ 2048

/-- TRAP_VAL of TASKBUF: the entries and data bytes that the buffer holds (11 R286). -/
def State.bufferFill (s : State) : W32 :=
  BitVec.ofNat 32 ((heldCost s.cur.held).1 * 2 ^ 16 + (heldCost s.cur.held).2)

/-- The issuing context with one more held effect. -/
def State.holding (s : State) (h : Held) : State := s.setCur { s.cur with held := s.cur.held ++ [h] }

/-- The keys of the parts of an access. -/
def partCells (ps : List Part) (a : Nat) : Prop := ∃ p ∈ ps, p.key ≤ a ∧ a < p.key + p.len

/-! ## The publication of what a task holds (05 R117, 11 R285) -/

/-- Nothing of context (n, c) is under way that one of its held effects might have to follow (10 R258, R261). -/
def State.quiet (s : State) (n c : Nat) : Prop :=
  s.popsHold n c = false ∧ s.ringBusy n c = false ∧ s.accessPending n c .sys = false

/-- The form in which a held store of these bytes reaches its place. -/
def heldForm (data : List Byte) : Form := if data.length = 64 then .group else if data.length = 4 then .word else .any

/-- Held effect `h` of context (n, c) is performed in `w`, and leaves `u`. A store that reaches no memory, a counted store
of a far line and an `rmwdec` are said through the operations that the instructions themselves use. -/
def Performs (n c : Nat) (h : Held) (w u : State) : Prop :=
  let k := w.getCore n
  match h with
  | .store P data _ => ∃ place x, w.resolve n P data.length 1 .write (heldForm data) = .ok (place, x) ∧
      ((∃ ps, place = .mem ps ∧ x.checkParts .write [] ps = .ok () ∧ u = x.writeParts data ps)
        ∨ ((∀ ps, place ≠ .mem ps) ∧ w.doStore n c 0 P data 1 (heldForm data) = .ok u))
  | .lmem off data => (∀ p ∈ localParts n off data.length, w.lineState (p.key / 64) = .plain ∧ w.badPartial p.key p.len = none)
      ∧ u = w.writeParts data (localParts n off data.length)
  | .stc P data count _ => ∃ p x, w.resolve n P 64 1 .counted .group = .ok (.mem [p], x) ∧ ptrOff P % 64 = 0
      ∧ x.inRegion (p.key / 64) = true ∧ 1 ≤ count ∧ count ≤ 255 ∧ x.checkParts .counted [] [p] = .ok ()
      ∧ ((p.key < 2 ^ 48 ∧ u = (x.putBytes (p.key / 64 * 64) (lineBytes data)).setLine (p.key / 64) (.counted count))
        ∨ (2 ^ 48 ≤ p.key ∧ w.doStc n c 0 P data (BitVec.ofNat 32 count) = .ok u))
  | .atomic P op vec y e0 e4 e5 _ =>
      let z := if vec then 16 else 4
      (op = .dec ∧ ∃ old, w.doAtomic n c 0 P op vec y e0 e4 e5 = .ok (old, u))
        ∨ (op ≠ .dec ∧ ∃ ps x, w.resolveAtomic n P op z = .ok (.mem ps, x) ∧ x.checkParts .atomic [] ps = .ok ()
          ∧ u = x.writeParts (leBytes z (atomNew op vec (bytes128 (x.readParts ps)) y e0).toNat) ps)
  | .decr P _ _ => ∃ p x, w.resolve n P 1 1 .dec = .ok (.mem [p], x) ∧ x.checkParts .dec [] [p] = .ok () ∧ u = x.decLine (p.key / 64)
  | .put x => u = w.setCore n { k with xfers := k.xfers ++ [{ x with id := k.nextXfer, after := w.seq }], nextXfer := k.nextXfer + 1 }
  | .send tgt m word dst => u = { w.setCore n { k with msgSeq := k.msgSeq + 1 } with
      net := w.net ++ [.msg (w.handleOf n) n c tgt { m with id := BitVec.ofNat 32 (n * 2 ^ 18 + k.msgSeq.toNat) } word
        (if dst = 0 then none else some { core := n, ctx := c, reg := dst }) w.seq] }
  | .reply v => ∃ t r, (w.getCtx n c).task = some t ∧ targetOf t.msg.reply = some r ∧ u = { w with
      seq := w.seq + 1, net := w.net ++ [.fill (w.handleOf n) r.core r.ctx r.reg (v.zeroExtend 128) (.ctx n c w.seq)] }
  | .kick v b => w.tugFull b = false ∧ w.kicksOut n c b = false ∧
      let x := w.getBasin b
      u = w.setBasin b { x with tug := { x.tug with next := x.tug.next + 1, cmds := x.tug.cmds ++ [{
        token := x.tug.next.toNat, basin := b, core := n, ctx := c, att := (w.getCtx n c).att, handle := w.handleOf n
        off := v.toNat % 131072, after := w.seq }] } }
  | .mat m => k.mat.full m.op = false
      ∧ u = w.setCore n { k with mat := { k.mat with queue := k.mat.queue ++ [{ m with after := w.seq }] } }
  | .mcmd tgt cap m => u = { w with net := w.net ++ [.mcmd (w.handleOf n) tgt cap { m with after := w.seq }] }
  | .fence sc pred => w.fencePending n c sc pred = false ∧ u = w

/-- Held effects of context (n, c) are performed in order in `w`, and leave `u`, in which `left` are still held. -/
def PerformsAll (n c : Nat) (left : List Held) : List Held → State → State → Prop
  | [], w, u => u = w
  | h :: t, w, u => w.quiet n c ∧ ∃ x, Performs n c h w x
      ∧ PerformsAll n c left t (x.setCtx n c { x.getCtx n c with held := t ++ left }) u

/-- Held effect `h` fails in `w` at its second check (05 R117): with this cause and TRAP_VAL, in the state `u`. -/
def FailsHeld (n : Nat) (h : Held) (w u : State) (cause : Cause) (v : W32) : Prop :=
  match h with
  | .store P data _ => u = w ∧ v = ptrLow P ∧ (w.resolve n P data.length 1 .write (heldForm data) = .error (.cause cause)
      ∨ ∃ ps x, w.resolve n P data.length 1 .write (heldForm data) = .ok (.mem ps, x) ∧ x.checkParts .write [] ps = .error (.cause cause))
  | .lmem off data => u = w ∧ ∃ pre p post, localParts n off data.length = pre ++ p :: post
      ∧ (∀ q ∈ pre, w.lineState (q.key / 64) = .plain) ∧ v = BitVec.ofNat 32 (p.key % 131072)
      ∧ ((w.lineState (p.key / 64) = .dropped ∧ cause = .overread) ∨ ((∃ k, w.lineState (p.key / 64) = .counted k) ∧ cause = .cntwrite))
  | .stc P _ count _ => v = ptrLow P ∧ ∃ p x, w.resolve n P 64 1 .counted .group = .ok (.mem [p], x) ∧ p.key < 2 ^ 49
      ∧ ptrOff P % 64 = 0
      ∧ ((u = x ∧ x.inRegion (p.key / 64) = false ∧ cause = .range)
        ∨ (u = w ∧ x.inRegion (p.key / 64) = true ∧ 1 ≤ count ∧ count ≤ 255 ∧ (∃ k, x.lineState (p.key / 64) = .counted k)
          ∧ cause = .cntwrite))
  | .atomic P op vec _ _ _ _ _ => u = w ∧ v = ptrLow P ∧ ∃ ps x,
      w.resolveAtomic n P op (if vec then 16 else 4) = .ok (.mem ps, x) ∧ x.checkParts .atomic [] ps = .error (.cause cause)
  | .decr P val _ => u = w ∧ v = val ∧ ∃ ps x, w.resolve n P 1 1 .dec = .ok (.mem ps, x)
      ∧ x.checkParts .dec [] ps = .error (.cause cause)
  | _ => False

end Sys2Proof.Machine
end

