-- ==== Sys2Proof/Certificates/Slice0/Obligations.lean ====
section
/-! DEFINITION. The statements for the provers. Each docstring names the rules of spec/ that it rests on. -/

section

open Sys2Proof Sys2Proof.Machine

/-! ## Scalar arithmetic (04 R93 to R96) -/

/-- 04 R93: the results of latency 1, with x = g[a], y = g[b], sh = y[4:0], all modulo 2^32. -/
def Obligations.OprResults : Prop :=
  ∀ (s : State) (d a b : BitVec 5),
    let x := s.rg a
    let y := s.rg b
    let sh := y.toNat % 32
    let two := [gid a, gid b]
    SetsG (.add d a b) s two d (x + y)
      ∧ SetsG (.sub d a b) s two d (x - y)
      ∧ SetsG (.and d a b) s two d (x &&& y)
      ∧ SetsG (.or d a b) s two d (x ||| y)
      ∧ SetsG (.xor d a b) s two d (x ^^^ y)
      ∧ SetsG (.andn d a b) s two d (x &&& ~~~y)
      ∧ SetsG (.orn d a b) s two d (x ||| ~~~y)
      ∧ SetsG (.sll d a b) s two d (BitVec.ofNat 32 (x.toNat * 2 ^ sh))
      ∧ SetsG (.srl d a b) s two d (BitVec.ofNat 32 (x.toNat / 2 ^ sh))
      ∧ SetsG (.sra d a b) s two d (BitVec.ofInt 32 (x.toInt / 2 ^ sh))
      ∧ SetsG (.rol d a b) s two d (BitVec.ofNat 32 (x.toNat * 2 ^ sh % 2 ^ 32 + x.toNat / 2 ^ (32 - sh)))
      ∧ SetsG (.ror d a b) s two d (BitVec.ofNat 32 (x.toNat / 2 ^ sh + x.toNat % 2 ^ sh * 2 ^ (32 - sh)))
      ∧ SetsG (.slt d a b) s two d (if x.toInt < y.toInt then 1 else 0)
      ∧ SetsG (.sltu d a b) s two d (if x.toNat < y.toNat then 1 else 0)
      ∧ SetsG (.min d a b) s two d (BitVec.ofInt 32 (min x.toInt y.toInt))
      ∧ SetsG (.max d a b) s two d (BitVec.ofInt 32 (max x.toInt y.toInt))
      ∧ SetsG (.minu d a b) s two d (BitVec.ofNat 32 (min x.toNat y.toNat))
      ∧ SetsG (.maxu d a b) s two d (BitVec.ofNat 32 (max x.toNat y.toNat))

/-- 04 R93, 01 R25: the unary results, whose counts are said through the bits that they count, and multiplication, whose
results land two cycles later. -/
def Obligations.UnaryAndMultiplyResults : Prop :=
  (∀ (s : State) (d a : BitVec 5),
      let x := s.rg a
      (∃ n, n ≤ 32 ∧ (∀ k, k < n → x.getLsbD (31 - k) = false) ∧ (n < 32 → x.getLsbD (31 - n) = true)
          ∧ SetsG (.clz d a) s [gid a] d (BitVec.ofNat 32 n))
        ∧ (∃ n, n ≤ 32 ∧ (∀ k, k < n → x.getLsbD k = false) ∧ (n < 32 → x.getLsbD n = true)
          ∧ SetsG (.ctz d a) s [gid a] d (BitVec.ofNat 32 n))
        ∧ SetsG (.popc d a) s [gid a] d (BitVec.ofNat 32 ((List.range 32).countP fun k => x.getLsbD k))
        ∧ SetsG (.sextb d a) s [gid a] d (BitVec.ofInt 32 ((x.toNat : Int).bmod 256))
        ∧ SetsG (.sexth d a) s [gid a] d (BitVec.ofInt 32 ((x.toNat : Int).bmod 65536))
        ∧ SetsG (.zexth d a) s [gid a] d (BitVec.ofNat 32 (x.toNat % 65536)))
  ∧ ∀ (s : State) (d a b : BitVec 5),
      let x := s.rg a
      let y := s.rg b
      let lands (i : Instr) (v : W32) : Prop := LandsAfter i s [gid a, gid b] 2 [(gid d, v.zeroExtend 128)]
      lands (.mul d a b) (BitVec.ofNat 32 (x.toNat * y.toNat))
        ∧ lands (.mulh d a b) (BitVec.ofInt 32 (x.toInt * y.toInt / 2 ^ 32))
        ∧ lands (.mulhu d a b) (BitVec.ofNat 32 (x.toNat * y.toNat / 2 ^ 32))

/-- 04 R94: quotients and remainders. Division never traps. -/
def Obligations.DivisionResults : Prop :=
  ∀ (s : State) (d a b : BitVec 5),
    let x := s.rg a
    let y := s.rg b
    let lands (i : Instr) (v : W32) : Prop := LandsAfter i s [gid a, gid b] 18 [(gid d, v.zeroExtend 128)]
    (y = 0 → lands (.div d a b) 0xFFFFFFFF ∧ lands (.divu d a b) 0xFFFFFFFF
        ∧ lands (.rem d a b) x ∧ lands (.remu d a b) x)
      ∧ (x.toInt = -2 ^ 31 ∧ y.toInt = -1 → lands (.div d a b) x ∧ lands (.rem d a b) 0)
      ∧ (y ≠ 0 → ¬(x.toInt = -2 ^ 31 ∧ y.toInt = -1) →
        lands (.div d a b) (BitVec.ofInt 32 (Int.tdiv x.toInt y.toInt))
          ∧ lands (.rem d a b) (BitVec.ofInt 32 (x.toInt - Int.tdiv x.toInt y.toInt * y.toInt)))
      ∧ (y ≠ 0 → lands (.divu d a b) (BitVec.ofNat 32 (x.toNat / y.toNat))
          ∧ lands (.remu d a b) (BitVec.ofNat 32 (x.toNat - x.toNat / y.toNat * y.toNat)))

/-- 04 R95: the immediate forms, with i = sext(imm12). 04 R112: the compact arithmetic forms, and `h.nop`, which has no
effect. -/
def Obligations.ImmediateAndCompactResults : Prop :=
  (∀ (s : State) (d a : BitVec 5) (imm : BitVec 12) (n : BitVec 5),
      let x := s.rg a
      let i : W32 := BitVec.ofInt 32 imm.toInt
      let sets (j : Instr) (v : W32) : Prop := SetsG j s [gid a] d v
      sets (.addi d a imm) (x + i) ∧ sets (.andi d a imm) (x &&& i) ∧ sets (.ori d a imm) (x ||| i)
        ∧ sets (.xori d a imm) (x ^^^ i)
        ∧ sets (.slti d a imm) (if x.toInt < i.toInt then 1 else 0)
        ∧ sets (.sltiu d a imm) (if x.toNat < i.toNat then 1 else 0)
        ∧ sets (.shi d a .sll n) (BitVec.ofNat 32 (x.toNat * 2 ^ n.toNat))
        ∧ sets (.shi d a .srl n) (BitVec.ofNat 32 (x.toNat / 2 ^ n.toNat))
        ∧ sets (.shi d a .sra n) (BitVec.ofInt 32 (x.toInt / 2 ^ n.toNat))
        ∧ sets (.shi d a .ror n) (BitVec.ofNat 32 (x.toNat / 2 ^ n.toNat + x.toNat % 2 ^ n.toNat * 2 ^ (32 - n.toNat))))
  ∧ ∀ (s : State) (d b n : BitVec 5),
      let x := s.rg d
      let y := s.rg b
      SetsG (.hMv d b) s [gid b] d y
        ∧ SetsG (.hLi d n) s [] d (BitVec.ofInt 32 n.toInt)
        ∧ SetsG (.hAddi d n) s [gid d] d (x + BitVec.ofInt 32 n.toInt)
        ∧ SetsG (.hAdd d b) s [gid d, gid b] d (x + y)
        ∧ SetsG (.hSub d b) s [gid d, gid b] d (x - y)
        ∧ SetsG (.hAnd d b) s [gid d, gid b] d (x &&& y)
        ∧ SetsG (.hOr d b) s [gid d, gid b] d (x ||| y)
        ∧ SetsG (.hXor d b) s [gid d, gid b] d (x ^^^ y)
        ∧ SetsG (.hShl d n) s [gid d] d (BitVec.ofNat 32 (x.toNat * 2 ^ n.toNat))
        ∧ SetsG (.hShr d n) s [gid d] d (BitVec.ofNat 32 (x.toNat / 2 ^ n.toNat))
        ∧ SetsG (.hAsr d n) s [gid d] d (BitVec.ofInt 32 (x.toInt / 2 ^ n.toNat))
        ∧ SetsG (.hNeg d b) s [gid b] d (-y)
        ∧ Completes .hNop s [] [] fun t => Frame s t [] ∧ t.cur.pend = s.cur.pend

/-- 04 R96: the U-form instructions; each writes at once, which is latency 1. -/
def Obligations.UpperImmediateResults : Prop :=
  ∀ (s : State) (d : BitVec 5) (imm : BitVec 20),
    SetsG (.lui d imm) s [] d (BitVec.ofNat 32 (imm.toNat * 2 ^ 12))
      ∧ SetsG (.aui d imm) s [] d (BitVec.ofNat 32 (s.cur.pc.toNat + imm.toNat * 2 ^ 12))

/-! ## Pointers and walks (04 R98, 01 R38) -/

/-- 04 R98: the pointers that `pset`, `pnear`, `pfar` and `padd` form, the words that `pget` and `wset` move, and the
fault of `padd` and `pwalk` on a pointer of kind 0b11. None of them checks a pointer. -/
def Obligations.PointerResults : Prop :=
  ∀ (s : State) (d a : BitVec 3) (g h r : BitVec 5),
    let x := s.rg g
    let y := s.rg h
    let P := s.rp a
    let kind := P.toNat / 2 ^ 62
    let width := if kind = 0 then 17 else if kind = 1 then 21 else 48
    SetsP (.pset d g h) s [gid g, gid h] d (BitVec.ofNat 64 (y.toNat * 2 ^ 32 + x.toNat))
      ∧ SetsP (.pnear d g h false) s [gid g, gid h] d
        (BitVec.ofNat 64 (2 ^ 62 + x.toNat / 8 % 2 ^ 11 * 2 ^ 25 + x.toNat % 8 * 2 ^ 21 + y.toNat % 2 ^ 21))
      ∧ SetsP (.pnear d g h true) s [gid g, gid h] d
        (BitVec.ofNat 64 (2 ^ 62 + x.toNat / 16 % 2 ^ 11 * 2 ^ 25 + x.toNat % 16 * 2 ^ 21 + y.toNat % 2 ^ 21))
      ∧ SetsP (.pfar d g h) s [gid g, gid h] d (BitVec.ofNat 64 (2 ^ 63 + y.toNat % 2 ^ 16 * 2 ^ 32 + x.toNat))
      ∧ (kind ≠ 3 → SetsP (.padd d a g) s [pid a, gid g] d (BitVec.ofNat 64
          (P.toNat - P.toNat % 2 ^ width + ((P.toNat % 2 ^ width + x.toInt) % (2 ^ width : Int)).toNat)))
      ∧ (kind = 3 → Traps (.padd d a g) s [pid a, gid g] [pid d] .ptr (BitVec.ofNat 32 a.toNat)
          ∧ Traps (.pwalk d a) s [pid a, wid a] [pid d] .ptr (BitVec.ofNat 32 a.toNat))
      ∧ SetsG (.pget r a false) s [pid a] r (BitVec.ofNat 32 P.toNat)
      ∧ SetsG (.pget r a true) s [pid a] r (BitVec.ofNat 32 (P.toNat / 2 ^ 32))
      ∧ (Completes (.wset d g false) s [gid g] [wid d] fun t => Frame s t [wid d] ∧ t.cur.pend = s.cur.pend
          ∧ t.rw d = x ∧ t.cur.regState (wid d) = .full)
      ∧ (Completes (.wset d g true) s [gid g] [eid d.toNat] fun t => Frame s t [eid d.toNat] ∧ t.cur.pend = s.cur.pend
          ∧ t.re d.toNat = x ∧ t.cur.regState (eid d.toNat) = .full)

/-- 01 R38, 04 R98: `pwalk` writes the pointer that a post-increment by the walk register leaves, and the post-increment of
an access (State.bump) writes it to its own pointer register and changes nothing else. -/
def Obligations.WalkResult : Prop :=
  ∀ (s : State) (d a : BitVec 3),
    let P : Nat := (s.rp a).toNat
    let W := s.rw a
    let kind : Nat := P / 2 ^ 62
    let width : Nat := if kind = 0 then 17 else if kind = 1 then 21 else 48
    let span : Nat := min (W.toNat / 2 ^ 20 % 32) width
    let off : Nat := P % 2 ^ width
    let t : Int := (off % 2 ^ span : Nat) + (W.extractLsb' 0 20).toInt
    let k : Int := t / (2 ^ span : Nat)
    let off' : Nat := (((off - off % 2 ^ span : Nat) + t % (2 ^ span : Nat)) % (2 ^ width : Nat) : Int).toNat
    let n : Nat := P / 2 ^ 25 % 2 ^ 11 * 8 + P / 2 ^ 21 % 8
    let n' : Nat := (((n : Int) + k * (W.extractLsb' 25 7).toInt) % 2 ^ 14).toNat
    let u := s.bump a true
    let gives (Q : W64) : Prop := SetsP (.pwalk d a) s [pid a, wid a] d Q
      ∧ u = s.setCur u.cur ∧ u.cur = { s.cur with p := u.cur.p, rst := u.cur.rst } ∧ u.rp a = Q ∧ u.cur.regState (pid a) = .full
      ∧ ∀ id, id < 160 → id ≠ pid a → u.cur.value id = s.cur.value id ∧ u.cur.regState id = s.cur.regState id
    (kind ≠ 3 → ¬(kind = 1 ∧ P / 2 ^ 24 % 2 = 0) → gives (BitVec.ofNat 64 (P - off + off')))
      ∧ (kind = 1 ∧ P / 2 ^ 24 % 2 = 0 → gives (BitVec.ofNat 64 (P / 2 ^ 36 * 2 ^ 36 + n' / 8 * 2 ^ 25 + n' % 8 * 2 ^ 21 + off')))
      ∧ s.bump a false = s

/-! ## Fields, the bit buffer and headers (04 R99 to R102) -/

/-- 04 R99: each bit of the results of `ext`, `extu` and `ins` under a field spec. -/
def Obligations.FieldResults : Prop :=
  ∀ (s : State) (d a b : BitVec 5),
    let x := s.rg a
    let pos := (s.rg b).toNat % 64
    let w := min ((s.rg b).toNat / 256 % 64) 32
    (∃ v : W32, (∀ k, k < 32 → v.getLsbD k = (decide (k < w) && x.getLsbD (pos + k)))
        ∧ SetsG (.extu d a b) s [gid a, gid b] d v)
      ∧ (∃ v : W32, (∀ k, k < 32 → v.getLsbD k = (decide (0 < w) && x.getLsbD (pos + min k (w - 1))))
        ∧ SetsG (.ext d a b) s [gid a, gid b] d v)
      ∧ (∃ v : W32, (∀ k, k < 32 → v.getLsbD k = if pos ≤ k ∧ k < pos + w then x.getLsbD (k - pos) else (s.rg d).getLsbD k)
        ∧ SetsG (.ins d a b) s [gid d, gid a, gid b] d v)

/-- 04 R100, R101: the bit buffer. A refill loads the least number of bytes that fill the buffer to n bits; where each of
them can be read, `bget`, `bgetu` and `bpeek` complete. `bskip` reads no byte that it passes over whole. The first byte of a
dropped line that a refill reads faults OVERREAD, and the first with an uncorrectable error UE, with its offset. Where an
instruction reads a byte, pops of its context that wait come first (10 R258; log entry 62). That a refill completes at once,
without the 3 cycles of WAITING that R100 gives it, is the model's choice of timing (log entry 14). -/
def Obligations.BitBufferResults : Prop :=
  (∀ (s : State) (d a : BitVec 5),
      let x := s.cur
      let n := min ((s.rg a).toNat % 64) 32
      let m := (n - x.bbFill + 7) / 8
      let bytes := (List.range m).map fun i => (s.localByte ((x.bbOff.toNat + i) % 2 ^ 17)).toNat * 2 ^ (8 * i)
      let data : W64 := BitVec.ofNat 64 (x.bbData.toNat + bytes.sum * 2 ^ x.bbFill)
      let v := data.toNat % 2 ^ n
      let kept : State := s.setCur { x with bbData := data, bbFill := x.bbFill + 8 * m, bbOff := x.bbOff + BitVec.ofNat 17 m }
      let consumed : State := s.setCur { kept.cur with bbData := data >>> n, bbFill := x.bbFill + 8 * m - n }
      let gives (i : Instr) (u : State) (w : W32) : Prop := Completes i s [gid a, bbId] [gid d] fun t =>
        Frame u t [gid d] ∧ t.cur.pend = s.cur.pend ∧ t.rg d = (if d = 0 then 0 else w) ∧ t.cur.regState (gid d) = .full
      let byteOff (i : Nat) : Nat := (x.bbOff.toNat + i) % 2 ^ 17
      (m = 0 ∨ s.popsHold s.core s.ctx = false →
        (∀ i, i < m → s.localReads (byteOff i)) →
          gives (.bgetu d a) consumed (BitVec.ofNat 32 v) ∧ gives (.bpeek d a) kept (BitVec.ofNat 32 v)
            ∧ gives (.bget d a) consumed (if n = 0 then 0 else BitVec.ofInt 32 ((v : Int).bmod (2 ^ n))))
        ∧ ∀ i, i ∈ [Instr.bget d a, .bgetu d a, .bpeek d a] → s.popsHold s.core s.ctx = false →
          ∀ k, k < m → (∀ j, j < k → s.localReads (byteOff j)) → RefillStops i s [gid a, bbId] [gid d] (byteOff k))
  ∧ ∀ (s : State) (a : BitVec 5),
      let x := s.cur
      let n := min ((s.rg a).toNat % 128) 64
      let m := n - x.bbFill
      let at_ := (x.bbOff.toNat + m / 8) % 2 ^ 17
      let byte := (s.localByte at_).toNat
      let reaches (i : Instr) (srcs : List Nat) (data : W64) (fill : Nat) (off : Off) : Prop :=
        Completes i s srcs [] (Reaches (s.setCur { x with bbData := data, bbFill := fill, bbOff := off }))
      reaches (.bbset a) [gid a, bbId] 0 0 (BitVec.ofNat 17 (s.rg a).toNat)
        ∧ reaches .balign [bbId] (x.bbData >>> (x.bbFill % 8)) (x.bbFill - x.bbFill % 8) x.bbOff
        ∧ (n ≤ x.bbFill → reaches (.bskip a) [gid a, bbId] (x.bbData >>> n) (x.bbFill - n) x.bbOff)
        ∧ (x.bbFill < n → m % 8 = 0 → reaches (.bskip a) [gid a, bbId] 0 0 (BitVec.ofNat 17 at_))
        ∧ (x.bbFill < n → m % 8 ≠ 0 → s.popsHold s.core s.ctx = false →
          (s.localReads at_ →
            reaches (.bskip a) [gid a, bbId] (BitVec.ofNat 64 (byte / 2 ^ (m % 8))) (8 - m % 8) (BitVec.ofNat 17 (at_ + 1)))
            ∧ RefillStops (.bskip a) s [gid a, bbId] [] at_)

/-- 04 R102: `hlay` reads a field spec from a descriptor in local memory, or gives 0, after the checks of its address and
its read; `hpack` replaces bits of the header in a pair of registers, and `hunpk` takes a field of it. -/
def Obligations.HeaderResults : Prop :=
  (∀ (s : State) (d a b : BitVec 5),
      let off := (s.rg a).toNat
      let i := (s.rg b).toNat
      let wid (j : Nat) : Nat := (s.localByte (off + j)).toNat
      let pos := ((List.range i).map wid).sum
      let i8 (v : W32) : Prop := LandsAfter (.hlay d a b) s [gid a, gid b] 3 [(gid d, v.zeroExtend 128)]
      let traps (c : Cause) : Prop := Traps (.hlay d a b) s [gid a, gid b] [gid d] c (s.rg a)
      let seen := s.seenState (s.decsOf s.core s.cur) (localKey s.core off / 64)
      (0x1FFF8 < off → traps .range) ∧ (off ≤ 0x1FFF8 → off % 8 ≠ 0 → traps .align)
        ∧ (off ≤ 0x1FFF8 → off % 8 = 0 →
          (seen = .dropped → traps .overread)
            ∧ (∀ g, seen ≠ .dropped → s.badGranule (localKey s.core off) 8 = some g →
              MeetsUe (.hlay d a b) s [gid a, gid b] [gid d] (g * 8) off (s.rg a))
            ∧ ((∀ j, j < 8 → s.localReads (off + j)) →
              (i < 8 ∧ (∀ j, j ≤ i → 1 ≤ wid j ∧ wid j ≤ 32) ∧ pos + wid i ≤ 64 → i8 (BitVec.ofNat 32 (wid i * 256 + pos)))
                ∧ (¬(i < 8 ∧ (∀ j, j ≤ i → 1 ≤ wid j ∧ wid j ≤ 32) ∧ pos + wid i ≤ 64) → i8 0))))
  ∧ ∀ (s : State) (d a b c : BitVec 5), d.toNat % 2 = 0 →
      let H : W64 := s.rg (d + 1) ++ s.rg d
      let pos := (s.rg b).toNat % 64
      let w := min ((s.rg b).toNat / 256 % 64) 32
      (∃ H' : W64, (∀ k, k < 64 → H'.getLsbD k = if pos ≤ k ∧ k < pos + w then (s.rg a).getLsbD (k - pos) else H.getLsbD k)
          ∧ Completes (.hpack d a b) s [gid d, gid d + 1, gid a, gid b] [gid d, gid d + 1] fun t =>
            Frame s t [gid d, gid d + 1] ∧ t.cur.pend = s.cur.pend
              ∧ t.rg d = (if d = 0 then 0 else H'.extractLsb' 0 32) ∧ t.rg (d + 1) = H'.extractLsb' 32 32)
        ∧ SetsG (.hunpk c d b) s [gid d, gid d + 1, gid b] c (BitVec.ofNat 32 (H.toNat / 2 ^ pos % 2 ^ w))

/-! ## Loads and stores of a g base (05 R119, R120) -/

/-- 05 R119: the loads with a g base, in the order of their checks, and `h.ldw` (03 R66). The value and its register are
R119's; that it lands at the third cycle is the model's choice (log entry 44). -/
def Obligations.LocalLoads : Prop :=
  ∀ (s : State) (d a : BitVec 5) (imm : BitVec 12),
    let load (i : Instr) (x : Int) (z : Nat) (value : Nat → W32) : Prop :=
      let inside := 0 ≤ x ∧ x + z ≤ 0x20000
      let off := x.toNat
      (¬inside → Traps i s [gid a] [gid d] .range (BitVec.ofInt 32 x))
        ∧ (inside → off % z ≠ 0 → Traps i s [gid a] [gid d] .align (BitVec.ofInt 32 x))
        ∧ (inside → off % z = 0 → s.seenState (s.decsOf s.core s.cur) (localKey s.core off / 64) = .dropped →
          Traps i s [gid a] [gid d] .overread (BitVec.ofInt 32 x))
        ∧ (∀ k, inside → off % z = 0 → s.seenState (s.decsOf s.core s.cur) (localKey s.core off / 64) ≠ .dropped →
          s.badGranule (localKey s.core off) z = some k → MeetsUe i s [gid a] [gid d] (k * 8) off (BitVec.ofInt 32 x))
        ∧ (inside → off % z = 0 → (∀ j, j < z → s.localReads (off + j)) →
          LoadsLocal i s [gid a] d (value (s.localNat off z)))
    let x : Int := (s.rg a).toNat + imm.toInt
    load (.ldb d a imm) x 1 (fun v => BitVec.ofInt 32 ((v : Int).bmod 256))
      ∧ load (.ldbu d a imm) x 1 (BitVec.ofNat 32)
      ∧ load (.ldh d a imm) x 2 (fun v => BitVec.ofInt 32 ((v : Int).bmod 65536))
      ∧ load (.ldhu d a imm) x 2 (BitVec.ofNat 32)
      ∧ load (.ldw d a imm) x 4 (BitVec.ofNat 32)
      ∧ load (.hLdw d a) (s.rg a).toNat 4 (BitVec.ofNat 32)

/-- 05 R120, R117: the stores with a g base, and `h.stw` (03 R66). Outside a task the low bytes of g[b] are stored and
no other byte changes; a task holds the store, or faults TASKBUF where its buffer is full (11 R286). A counted line faults
CNTWRITE, and a store outside a task that covers in part a granule with an uncorrectable error meets it (18 R367). -/
def Obligations.LocalStores : Prop :=
  ∀ (s : State) (b a : BitVec 5) (imm : BitVec 12), s.core < 16384 → s.CountsOk →
    let store (i : Instr) (x : Int) (z : Nat) : Prop :=
      let inside := 0 ≤ x ∧ x + z ≤ 0x20000
      let off := x.toNat
      let key := localKey s.core off
      let seen := s.seenState (s.decsOf s.core s.cur) (key / 64)
      (¬inside → Traps i s [gid b, gid a] [] .range (BitVec.ofInt 32 x))
        ∧ (inside → off % z ≠ 0 → Traps i s [gid b, gid a] [] .align (BitVec.ofInt 32 x))
        ∧ (inside → off % z = 0 → seen = .dropped → s.inTask = true → Traps i s [gid b, gid a] [] .overread (BitVec.ofInt 32 x))
        ∧ (inside → off % z = 0 → s.lineState (key / 64) = .dropped → s.inTask = false →
          Traps i s [gid b, gid a] [] .overread (BitVec.ofInt 32 x))
        ∧ (inside → off % z = 0 → (∃ n, seen = .counted n) → s.inTask = true → Traps i s [gid b, gid a] [] .cntwrite (BitVec.ofInt 32 x))
        ∧ (inside → off % z = 0 → (∃ n, s.lineState (key / 64) = .counted n) → s.inTask = false →
          Traps i s [gid b, gid a] [] .cntwrite (BitVec.ofInt 32 x))
        ∧ (inside → off % z = 0 → s.lineState (key / 64) = .plain → s.badPartial key z = none → s.inTask = false →
          Completes i s [gid b, gid a] [] fun t => StoreFrame s t [] (fun k => key ≤ k ∧ k < key + z)
            ∧ t.cur.pend = s.cur.pend ∧ t.memNat key z = (s.rg b).toNat % 256 ^ z)
        ∧ (∀ k, inside → off % z = 0 → s.lineState (key / 64) = .plain → s.badPartial key z = some k → s.inTask = false →
          MeetsUe i s [gid b, gid a] [] (k * 8) off (BitVec.ofInt 32 x))
        ∧ (inside → off % z = 0 → seen = .plain → s.inTask = true → s.bufferRoom z →
          Completes i s [gid b, gid a] [] (Reaches (s.holding (.store (localPtr off) (leBytes z (s.rg b).toNat) none))))
        ∧ (inside → off % z = 0 → seen = .plain → s.inTask = true → ¬s.bufferRoom z →
          Traps i s [gid b, gid a] [] .taskbuf s.bufferFill)
    let x : Int := (s.rg a).toNat + imm.toInt
    store (.stb b a imm) x 1 ∧ store (.sth b a imm) x 2 ∧ store (.stw b a imm) x 4
      ∧ store (.hStw b a) (s.rg a).toNat 4

/-! ## Loads and stores through a pointer (05 R113, R121) -/

/-- 05 R121, R113, R117: a load through a pointer that passes its checks reads the bytes of its parts, decrements where it
consumes, and increments its pointer. A check that fails traps, with the register's number for the checks of 01 R36 and
P[31:0] for the others; a translation that fails is a miss (O49), and an uncorrectable error is met. `ldw` reads the
registers of the tug and the keeper (12 R293, R306). `vldg` first waits for pops that wait at a bank (10 R258). That a load
of the own local memory lands at the third cycle is the model's choice (log entry 44). -/
def Obligations.PointerLoads : Prop :=
  ∀ (s : State) (d : BitVec 5) (v : BitVec 4) (a : BitVec 3) (ord : MemOrd) (scope : BitVec 2) (cons post : Bool),
    let P := s.rp a
    let acc : Acc := if cons then .consume else .read
    let srcs := (if post then [pid a, wid a] else [pid a]) ++ (if ord = .relaxed ∨ scope ≠ 3 then [] else [eid 7])
    let ptrs := if post then [pid a] else []
    let load (i : Instr) (z : Nat) (form : Form) (srcs dsts : List Nat) (regs : List Byte → List (Nat × W128)) : Prop :=
      form ≠ .group ∨ s.popsHold s.core s.ctx = false →
      (∀ f, s.resolve s.core P z (min z 16) acc form = .error f → FailsAt i s srcs (dsts ++ ptrs) a f)
        ∧ ∀ ps s', s.resolve s.core P z (min z 16) acc form = .ok (.mem ps, s') →
          (∀ f, s'.checkParts acc (s'.decsOf s.core s.cur) ps = .error f → FailsAt i s srcs (dsts ++ ptrs) a f)
            ∧ (s'.checkParts acc (s'.decsOf s.core s.cur) ps = .ok () →
              ∀ u, (if cons then s'.consume P ps = .ok u else u = s') →
              Completes i s srcs (dsts ++ ptrs) fun t => Frame (u.bump a post) t dsts
                ∧ t.cur.pend = s.cur.pend ++ [{ regs := regs (s'.readSeen s.core s.cur ps)
                                                due := if ownLocal s.core ps then some (s.me.cyc + 3) else none, mem := true }])
    let word (f : Nat → W32) (bs : List Byte) : List (Nat × W128) := [(gid d, (f (leNat bs)).zeroExtend 128)]
    let signed (m : Nat) (v : Nat) : W32 := BitVec.ofInt 32 ((v : Int).bmod m)
    load (.ldbPtr d a ord scope cons post) 1 .any srcs [gid d] (word (signed 256))
      ∧ load (.ldbuPtr d a ord scope cons post) 1 .any srcs [gid d] (word (BitVec.ofNat 32))
      ∧ load (.ldhPtr d a ord scope cons post) 2 .any srcs [gid d] (word (signed 65536))
      ∧ load (.ldhuPtr d a ord scope cons post) 2 .any srcs [gid d] (word (BitVec.ofNat 32))
      ∧ load (.ldwPtr d a ord scope cons post) 4 .word srcs [gid d] (word (BitVec.ofNat 32))
      ∧ (∀ b unit off, s.resolve s.core P 4 4 acc .word = .ok (.engine b unit off, s) →
        let x := s.getBasin b
        let w : W32 := if unit = 10 then BitVec.ofNat 32 (x.keeper.next.toNat * 2 ^ 16 + x.keeper.reqs.length)
          else if off = 4 then BitVec.ofNat 32 (x.tug.next.toNat * 2 ^ 16 + x.tug.cmds.length) else if off = 8 then x.tug.uver else 0
        Completes (.ldwPtr d a ord scope cons post) s srcs ([gid d] ++ ptrs) fun t => Frame (s.bump a post) t [gid d]
          ∧ t.cur.pend = s.cur.pend ++ [{ regs := [(gid d, w.zeroExtend 128)], mem := true }])
      ∧ load (.vld v a ord scope cons post) 16 .any srcs [vid v] (fun bs => [(vid v, BitVec.ofNat 128 (leNat bs))])
      ∧ load (.vldg v a cons post) 64 .group (if post then [pid a, wid a] else [pid a]) (vgroup v)
        (fun bs => [0, 1, 2, 3].map fun j => (vid v + j, BitVec.ofNat 128 (leNat ((bs.drop (16 * j)).take 16))))

/-- 05 R121, R113, R117: a store through a pointer. Outside a task the bytes of the register are written to the parts of the
access in order, no other byte and no line state changes, and the pointer is incremented; through a ring window they are
sent as chunks of 16 bytes, or as an entry to a FIFO window (16 R353, R356), and a window whose hop does not exist defers
RANGE (16 R358). A task holds the store, or faults TASKBUF. A store to KICK, outside a task, sends the tug a command, and
waits while the tug is full (12 R293). A release outside a task waits for the context's earlier accesses first (10 R261),
and `vstg` for its pops that wait (10 R258): then it completes here once none of them is pending. -/
def Obligations.PointerStores : Prop :=
  ∀ (s : State) (d : BitVec 5) (v : BitVec 4) (a : BitVec 3) (ord : MemOrd) (scope : BitVec 2) (post : Bool),
    let P := s.rp a
    let low := ptrLow P
    let ptrs := if post then [pid a] else []
    let srcs := (if post then [pid a, wid a] else [pid a]) ++ (if ord = .relaxed ∨ scope ≠ 3 then [] else [eid 7])
    let rel := if ord = .relaxed then none else some (s.memScope scope)
    let out (leaf : W64) (item : RingItem) : RingOut := { srcBasin := basinOf s.core, hop := ringHop leaf, destBasin := ringBasin leaf
                                                          item := item, owner := .stc s.core s.ctx, val := low }
    let chunks (data : List Byte) (p : RingPart) (t : List RingPart) : List RingOut := (List.range ((data.length + 15) / 16)).map fun j =>
      let leaf := if 16 * j < p.len then p.leaf else (t.headD p).leaf
      out leaf (.chunk (ringOff leaf (p.va + 16 * j)) ((data.drop (16 * j)).take 16))
    let store (i : Instr) (form : Form) (srcs : List Nat) (data : List Byte) (rel : Option Scope) : Prop :=
      let r := s.resolve s.core P data.length (min data.length 16) .write form
      let holds (u : State) : Prop :=
        (s.bufferRoom data.length → Completes i s srcs ptrs (Reaches ((u.holding (.store P data rel)).bump a post)))
          ∧ (¬s.bufferRoom data.length → Traps i s srcs ptrs .taskbuf s.bufferFill u)
      (∀ f, r = .error f → FailsAt i s srcs ptrs a f)
        ∧ (∀ ps u, r = .ok (.mem ps, u) →
          (s.inTask = false →
              (∀ f, u.checkParts .write [] ps = .error f → FailsAt i s srcs ptrs a f)
                ∧ (u.checkParts .write [] ps = .ok () → Completes i s srcs ptrs fun t =>
                  Reaches ((u.writeParts data ps).bump a post) t ∧ StoreFrame (u.bump a post) t [] (partCells ps)))
            ∧ (s.inTask = true →
              (∀ c, u.checkStates .write (u.decsOf s.core s.cur) ps = some c → FailsAt i s srcs ptrs a (.cause c))
                ∧ (u.checkStates .write (u.decsOf s.core s.cur) ps = none → holds u)))
        ∧ (∀ p t u, r = .ok (.ring (p :: t), u) →
          let fifo := ∃ q ∈ p :: t, ringFifo q.leaf = true
          (fifo → form ≠ .group → FailsAt i s srcs ptrs a (.cause .range))
            ∧ (¬fifo ∨ form = .group → s.inTask = true → holds u)
            ∧ (¬fifo ∨ form = .group → s.inTask = false →
              ((∃ q ∈ p :: t, u.ring.reaches q.leaf = false) →
                  Completes i s srcs ptrs (Reaches ((u.defer s.core s.ctx .range low).bump a post)))
                ∧ ((∀ q ∈ p :: t, u.ring.reaches q.leaf = true) → Completes i s srcs ptrs (Reaches ((u.ringSend
                  (if ringFifo p.leaf then [out p.leaf (.entry (ringBank p.leaf) (bytesLine data))] else chunks data p t)).bump a post)))))
        ∧ (∀ b k, r = .ok (.fifo b k, s) → s.inTask = true → holds s)
        ∧ ∀ b unit off, r = .ok (.engine b unit off, s) → s.inTask = false →
          let w := bytes32 data
          let at_ := w.toNat % 2 ^ 17
          (¬(unit = 9 ∧ off = 0) → Completes i s srcs ptrs (Reaches (s.bump a post)))
            ∧ (unit = 9 → off = 0 → (at_ % 64 ≠ 0 → Traps i s srcs ptrs .align w)
              ∧ (at_ % 64 = 0 → 0x1FFC0 < at_ → Traps i s srcs ptrs .range w)
              ∧ (at_ % 64 = 0 → at_ ≤ 0x1FFC0 →
                (s.accessPending s.core s.ctx .basin = true ∨ s.tugFull b = true → WaitsIn i s srcs ptrs s)
                  ∧ (s.accessPending s.core s.ctx .basin = false → s.tugFull b = false → Completes i s srcs ptrs (Reaches
                    (({ s with net := s.net ++ [.kick (s.handleOf s.core) s.core s.ctx s.cur.att b w s.seq] } : State).bump a post)))))
    (s.inTask = true ∨ ord = .relaxed ∨ s.accessPending s.core s.ctx (s.memScope scope) = false →
      store (.stbPtr d a ord scope post) .any (gid d :: srcs) (leBytes 1 (s.rg d).toNat) rel
        ∧ store (.sthPtr d a ord scope post) .any (gid d :: srcs) (leBytes 2 (s.rg d).toNat) rel
        ∧ store (.stwPtr d a ord scope post) .word (gid d :: srcs) (leBytes 4 (s.rg d).toNat) rel
        ∧ store (.vst v a ord scope post) .any (vid v :: srcs) (leBytes 16 (s.rv v).toNat) rel)
      ∧ (s.popsHold s.core s.ctx (s.bankOf s.core P .write) = false →
        store (.vstg v a post) .group (vgroup v ++ if post then [pid a, wid a] else [pid a])
          ([0, 1, 2, 3].flatMap fun j => leBytes 16 (s.rv (v + BitVec.ofNat 4 j)).toNat) none)

/-- 09 R238 to R240, 05 R121: `vldg` and `vstg` on a FIFO bank outside a task. A pop takes the oldest entry, or waits at the
bank with its group empty: where the bank is empty, where other pops wait, and where an earlier push of the context waits
there. A push appends its entry, or waits: at the full bank, behind pushes that wait there, and behind an earlier pop of its
context that waits at its mesh port, since the bank holds 16 pops. A push waits for the replies of its context (10 R264),
and pops of the context that wait at another bank come first (10 R258; log entry 62). An oldest entry with an uncorrectable
error is met by the pop (18 R366; log entry 52). -/
def Obligations.FifoAccesses : Prop :=
  ∀ (s : State) (v : BitVec 4) (a : BitVec 3) (cons post : Bool) (b k : Nat), s.inTask = false → s.popsHold s.core s.ctx (some (b, k)) = false →
    let P := s.rp a
    let f := s.fifo b k
    let ptrs := if post then [pid a] else []
    let reads := if post then [pid a, wid a] else [pid a]
    let line : Line := s.rv (v + 3) ++ s.rv (v + 2) ++ s.rv (v + 1) ++ s.rv v
    let numbered : State := { s with seq := s.seq + 1 }
    let behind := ∃ q ∈ f.pushes, q.src = .ctx s.core s.ctx ∧ q.seq < s.seq
    let here := (f.pops.filter fun p => !f.pushes.any fun q => q.src == .ctx p.core p.ctx && decide (q.seq < p.seq)).take 16
    let atPort (q : PushWait) : Prop := ∃ p ∈ f.pops, p ∉ here ∧ q.src = .ctx p.core p.ctx ∧ p.seq < q.seq
    let new : PushWait := { src := .ctx s.core s.ctx, data := line, seq := s.seq }
    (s.resolve s.core P 64 16 .read .group = .ok (.fifo b k, s) →
      (∀ e es, f.entries = e :: es → f.pops = [] → ¬behind → 0 ∉ f.bad →
        Completes (.vldg v a cons post) s reads (vgroup v ++ ptrs) fun t =>
          Frame ((s.setFifo b k { f with entries := es, bad := (f.bad.filter (· ≠ 0)).map (· - 1)
                                         head := (f.head + 1) % 2048 }).bump a post) t (vgroup v)
          ∧ t.cur.pend = s.cur.pend ++ [{ regs := [0, 1, 2, 3].map fun j => (vid v + j, e.extractLsb' (128 * j) 128), mem := true }])
      ∧ (f.entries ≠ [] → f.pops = [] → ¬behind → 0 ∈ f.bad →
        MeetsUe (.vldg v a cons post) s reads (vgroup v ++ ptrs) (bankKey b k (f.head * 64)) (ptrLow P).toNat (ptrLow P))
      ∧ (f.entries = [] ∨ f.pops ≠ [] ∨ behind → Completes (.vldg v a cons post) s reads (vgroup v ++ ptrs) fun t =>
        Frame ((numbered.setFifo b k { f with pops := f.pops ++ [{ core := s.core, ctx := s.ctx, vreg := v.toNat
                                                                   val := ptrLow P, seq := s.seq }] }).bump a post) t (vgroup v)
          ∧ t.cur.pend = s.cur.pend ∧ ∀ id ∈ vgroup v, t.cur.regState id = .empty))
      ∧ (s.resolve s.core P 64 16 .write .group = .ok (.fifo b k, s) →
        let pushed (g : Fifo) : Prop := Completes (.vstg v a post) s (vgroup v ++ reads) ptrs
          (Reaches ((numbered.setFifo b k g).bump a post))
        let goes := f.entries.length < 2048 ∧ ¬atPort new ∧ ∀ q ∈ f.pushes, atPort q
        (s.repliesBefore s.core s.ctx s.seq = true → WaitsIn (.vstg v a post) s (vgroup v ++ reads) ptrs s)
          ∧ (s.repliesBefore s.core s.ctx s.seq = false → goes → pushed { f with entries := f.entries ++ [line] })
          ∧ (s.repliesBefore s.core s.ctx s.seq = false → ¬goes → pushed { f with pushes := f.pushes ++ [new] }))

/-- 05 R122, R123: a pass of `lcopy` and `lfill` moves at most 16 bytes, which a task holds as one store, and keeps its
progress in PROG; the last pass goes on and clears PROG. A pass that faults has no effect: RANGE comes first, then the first
byte of the source whose line is dropped, then the first of the destination whose line is dropped or counted; TRAP_VAL is
the offset of that byte. -/
def Obligations.BlockPasses : Prop :=
  ∀ (s : State) (d a b : BitVec 5), s.CountsOk →
    let n := (s.rg b).toNat
    let dst := (s.rg d).toNat
    let src := (s.rg a).toNat
    let prog := s.cur.prog.toNat
    let k := min 16 (n - prog)
    let srcs := [gid d, gid a, gid b]
    let lineAt (off : Nat) : Nat := localKey s.core off / 64
    let seen (off : Nat) : LineState := s.seenState (s.decsOf s.core s.cur) (lineAt off)
    let met (off : Nat) : LineState := if s.inTask then seen off else s.lineState (lineAt off)
    let traps (i : Instr) (c : Cause) (off : Nat) : Prop := Traps i s srcs [] c (BitVec.ofNat 32 off)
    let passes (i : Instr) (u : State) : Prop :=
      (prog + k = n → Completes i s srcs [] (Reaches (u.setCur { u.cur with prog := 0 })))
        ∧ (prog + k < n → s.ready i srcs [] = true → ∃ t, exec i s = .next t ∧ Issued s t s.cur.pc s.cur.rc
          ∧ Reaches (u.setCur { u.cur with prog := BitVec.ofNat 32 (prog + k) }) t)
    let ues (i : Instr) (off : Nat) (bad : Option Nat) : Prop := ∀ g, bad = some g → off % 64 + k ≤ 64 →
      let at_ := max (g * 8) (localKey s.core off) % 131072
      MeetsUe i s srcs [] (g * 8) at_ (BitVec.ofNat 32 at_)
    let writes (i : Instr) (o : Nat) (bs : List Byte) : Prop :=
      let at_ := dst + o
      let key := localKey s.core at_
      (∀ j, j < k → met (at_ + j) = .dropped → (∀ j', j' < j → met (at_ + j') = .plain) → traps i .overread (at_ + j))
        ∧ (∀ j c, j < k → met (at_ + j) = .counted c → (∀ j', j' < j → met (at_ + j') = .plain) → traps i .cntwrite (at_ + j))
        ∧ ((∀ j, j < k → met (at_ + j) = .plain) →
          (s.inTask = true → s.bufferRoom k → passes i (s.holding (.lmem at_ bs)))
            ∧ (s.inTask = true → ¬s.bufferRoom k → Traps i s srcs [] .taskbuf s.bufferFill)
            ∧ (s.inTask = false → ues i at_ (s.badPartial key k))
            ∧ (s.inTask = false → s.core < 16384 → (∀ p ∈ localParts s.core at_ k, s.badPartial p.key p.len = none) →
              ∃ u, StoreFrame s u [] (fun x => key ≤ x ∧ x < key + k) ∧ u.cur = s.cur
                ∧ (∀ j, j < k → u.byteAt (key + j) = bs.getD j 0) ∧ passes i u))
    (n ≤ prog → Completes (.lcopy d a b) s srcs [] (Reaches (s.setCur { s.cur with prog := 0 }))
        ∧ Completes (.lfill d a b) s srcs [] (Reaches (s.setCur { s.cur with prog := 0 })))
      ∧ (prog < n → 0x20000 < dst + n → Traps (.lcopy d a b) s srcs [] .range (s.rg d) ∧ Traps (.lfill d a b) s srcs [] .range (s.rg d))
      ∧ (prog < n → dst + n ≤ 0x20000 → 0x20000 < src + n → Traps (.lcopy d a b) s srcs [] .range (s.rg a))
      ∧ (prog < n → dst + n ≤ 0x20000 →
        writes (.lfill d a b) prog ((List.range k).map fun j => BitVec.ofNat 8 (src / 256 ^ ((prog + j) % 4))))
      ∧ (prog < n → dst + n ≤ 0x20000 → src + n ≤ 0x20000 →
        let o := if src < dst then n - prog - k else prog
        (∀ j, j < k → seen (src + o + j) = .dropped → (∀ j', j' < j → seen (src + o + j') ≠ .dropped) →
            traps (.lcopy d a b) .overread (src + o + j))
          ∧ ((∀ j, j < k → seen (src + o + j) ≠ .dropped) → ues (.lcopy d a b) (src + o) (s.badGranule (localKey s.core (src + o)) k))
          ∧ ((∀ j, j < k → s.localReads (src + o + j)) →
            writes (.lcopy d a b) o ((List.range k).map fun j => s.localByte (src + o + j))))

/-! ## Counted lines (05 R115, R124 to R128) -/

/-- 01 R36, 05 R113, R114: which pointer words fault, and the place that each address names: steps 1 to 4 of R113 for 1 to
64 bytes. 00 R11, 05 R121: bytes written to parts that do not overlap are read back, and no other byte changes. 05 R115,
R116: what one decrement does to a line; the last one drops the line and discards its data. That an access partly through a
ring window faults RANGE, and that one which leaves its target faults RANGE whatever its alignment, are the model's choices
(log entries 9 and 42). -/
def Obligations.WritesAndDecrements : Prop :=
  (∀ (s : State) (n z align : Nat) (P : W64) (acc : Acc) (form : Form) (who : Who) (basin : Nat), 0 < z → z ≤ 64 → 0 < align →
      let r := s.resolve n P z align acc form who basin
      let L := s.recOf n
      let kind := P.toNat / 2 ^ 62
      let near := P.toNat % 2 ^ 21
      let b := P.toNat / 2 ^ 25 % 2 ^ 11
      let unit := P.toNat / 2 ^ 21 % 16
      let va := P.toNat % 2 ^ 48
      let span (key : Nat) : Place := .mem (if key % 64 + z ≤ 64 then [{ key := key, len := z }]
        else [{ key := key, len := 64 - key % 64 }, { key := key + (64 - key % 64), len := z - (64 - key % 64) }])
      let inSet := L.d0 ≤ b / 512 ∧ b / 512 ≤ L.d1 ∧ L.r0 ≤ b / 32 % 16 ∧ b / 32 % 16 ≤ L.r1 ∧ L.c0 ≤ b % 32 ∧ b % 32 ≤ L.c1
      let bad := kind = 3 ∨ (kind = 0 ∧ P.toNat / 2 ^ 17 ≠ 0) ∨ (kind = 1 ∧ (P.toNat / 2 ^ 36 % 2 ^ 26 ≠ 0 ∨ 11 ≤ unit))
        ∨ (kind = 2 ∧ P.toNat / 2 ^ 48 % 2 ^ 14 ≠ 0)
      let outside := kind = 1 ∧ (¬inSet ∨ (unit < 8 ∧ 2 ^ 17 ≤ near))
      let reaches (fits : Prop) (off : Nat) (p : Place) : Prop := (¬fits → r = .error (.cause .range))
        ∧ (fits → off % align ≠ 0 → r = .error (.cause .align)) ∧ (fits → off % align = 0 → r = .ok (p, s))
      (bad → r = .error (.ptr .ptr)) ∧ (¬bad → outside → r = .error (.ptr .range))
        ∧ (¬bad → ¬outside →
          (kind = 0 → reaches (va + z ≤ 2 ^ 17) va (span (n * 2 ^ 17 + va)))
            ∧ (kind = 1 → unit < 8 → reaches (near + z ≤ 2 ^ 17) near (span ((b * 8 + unit) * 2 ^ 17 + near)))
            ∧ (kind = 1 → unit = 8 →
              let k := near / 2 ^ 17
              let x := near % 2 ^ 17
              (12 ≤ k ∨ s.mode b k = 0 ∨ s.mode b k = 3 → r = .error (.cause .range))
                ∧ (k < 12 → s.mode b k = 1 → reaches (x + z ≤ 2 ^ 17) near (span (2 ^ 32 + (b * 16 + k) * 2 ^ 17 + x)))
                ∧ (k < 12 → s.mode b k = 2 → (form = .group → x = 0 → r = .ok (.fifo b k, s))
                  ∧ (form ≠ .group ∨ x ≠ 0 → r = .error (.cause .range))))
            ∧ (kind = 1 → 8 < unit →
              let register := form = .word ∧ (near = 0 ∨ (unit = 9 ∧ (near = 4 ∨ near = 8)))
              (register → r = .ok (.engine b unit near, s)) ∧ (¬register → r = .error (.cause .range)))
            ∧ (kind = 2 →
              let via := s.via (stationOf basin)
              let space := (s.getCore n).spaceId.toNat
              let xlt (u : State) (a : Nat) : Xlt := u.translate via.1 space a acc who
              let used (key : Nat) (cache : Bool) (u : State) : State := if cache then u.touchLine (key / 64) else u
              let m := 64 - va % 64
              (2 ^ 48 < va + z → r = .error (.cause .range))
                ∧ (va + z ≤ 2 ^ 48 → va % align ≠ 0 → r = .error (.cause .align))
                ∧ (va + z ≤ 2 ^ 48 → va % align = 0 →
                  (∀ w u, xlt via.2 va = .miss w u → r = .error (.miss w)) ∧ (∀ k u, xlt via.2 va = .ue k u → r = .error (.ue k))
                    ∧ (z ≤ m → (∀ leaf u, xlt via.2 va = .ok (.ring leaf) u → r = .ok (.ring [{ leaf := leaf, va := va, len := z }], u))
                      ∧ ∀ key cache u, xlt via.2 va = .ok (.mem key cache) u →
                        r = .ok (.mem [{ key := key, len := z, cache := cache }], used key cache u))
                    ∧ (m < z → ∀ key cache u, xlt via.2 va = .ok (.mem key cache) u →
                      (∀ leaf v, xlt (used key cache u) (va + m) = .ok (.ring leaf) v → r = .error (.cause .range))
                        ∧ (∀ w v, xlt (used key cache u) (va + m) = .miss w v → r = .error (.miss w))
                        ∧ (∀ k v, xlt (used key cache u) (va + m) = .ue k v → r = .error (.ue k))
                        ∧ ∀ key' cache' v, xlt (used key cache u) (va + m) = .ok (.mem key' cache') v →
                          r = .ok (.mem [{ key := key, len := m, cache := cache }, { key := key', len := z - m, cache := cache' }],
                            used key' cache' v))
                    ∧ (m < z → ∀ leaf u, xlt via.2 va = .ok (.ring leaf) u →
                      (∀ key cache v, xlt u (va + m) = .ok (.mem key cache) v → r = .error (.cause .range))
                        ∧ (∀ w v, xlt u (va + m) = .miss w v → r = .error (.miss w))
                        ∧ (∀ k v, xlt u (va + m) = .ue k v → r = .error (.ue k))
                        ∧ ∀ leaf' v, xlt u (va + m) = .ok (.ring leaf') v →
                          (leaf ≠ leaf' → ringFifo leaf = true ∨ ringFifo leaf' = true → r = .error (.cause .range))
                            ∧ (leaf = leaf' ∨ (ringFifo leaf = false ∧ ringFifo leaf' = false) →
                              r = .ok (.ring [{ leaf := leaf, va := va, len := m }, { leaf := leaf', va := va + m, len := z - m }], v)))))))
  ∧ (∀ (s : State) (ps : List Part) (bs : List Byte),
      ps.Pairwise (fun p q => p.key + p.len ≤ q.key ∨ q.key + q.len ≤ p.key) → bs.length = (ps.map Part.len).sum →
        let t := s.writeParts bs ps
        t.readParts ps = bs ∧ (∀ a, ¬partCells ps a → t.byteAt a = s.byteAt a) ∧ (∀ lk, t.lineState lk = s.lineState lk)
          ∧ t.restButBytes = s.restButBytes ∧ t.cores = s.cores)
  ∧ ∀ (s : State) (lk : Nat),
      let t := s.decLine lk
      (s.lineState lk = .plain ∨ s.lineState lk = .dropped → t = s)
        ∧ (∀ n, s.lineState lk = .counted n → 1 < n → t.lineState lk = .counted (n - 1) ∧ ∀ a, t.byteAt a = s.byteAt a)
        ∧ (∀ n, s.lineState lk = .counted n → n ≤ 1 → t.lineState lk = .dropped
          ∧ (∀ j, j < 64 → t.byteAt (lk * 64 + j) = 0) ∧ ∀ a, a / 64 ≠ lk → t.byteAt a = s.byteAt a)
        ∧ ∀ lk', lk' ≠ lk → t.lineState lk' = s.lineState lk'

/-- 05 R124, R117, 09 R245, R247: `stc` writes data and count as one event. Its checks, in order: the target, alignment,
region, count, the state of the line. The first part says so outright of a line of the own local memory outside a task. The
second says it of every place that the address resolves to: a line of local memory or of a SCRATCH bank, near or far, takes
its count, a far one once its set has room for a pinned line, and PRESSURE or a wait until then; through a ring window the
line is sent, and checked there (16 R354); a task holds the store. -/
def Obligations.CountedStore : Prop :=
  ∀ (s : State) (scope : Scope) (v : BitVec 4) (a : BitVec 3) (b : BitVec 5) (post : Bool),
    let P := s.rp a
    let off := P.toNat
    let lk := localKey s.core off / 64
    let count := (s.rg b).toNat
    let srcs := vgroup v ++ (if post then [pid a, wid a] else [pid a]) ++ [gid b]
    let ptrs := if post then [pid a] else []
    let traps (c : Cause) (x : W32) : Prop := Traps (.stc scope v a b post) s srcs ptrs c x
    let data := s.groupLine v
    (s.core < 16384 → s.CountsOk → s.inTask = false → s.accessPending s.core s.ctx scope = false → off < 0x20000 - 63 →
      (off % 64 ≠ 0 → traps .align (ptrLow P))
        ∧ (off % 64 = 0 → s.inRegion lk = false → traps .range (ptrLow P))
        ∧ (off % 64 = 0 → s.inRegion lk = true → count = 0 ∨ 255 < count → traps .range (s.rg b))
        ∧ (off % 64 = 0 → s.inRegion lk = true → 1 ≤ count → count ≤ 255 → (∃ n, s.lineState lk = .counted n) →
          traps .cntwrite (ptrLow P))
        ∧ (off % 64 = 0 → s.inRegion lk = true → 1 ≤ count → count ≤ 255 → s.lineState lk = .plain ∨ s.lineState lk = .dropped →
          Completes (.stc scope v a b post) s srcs ptrs fun t =>
            t.lineState lk = .counted count ∧ (∀ l, l ≠ lk → t.lineState l = s.lineState l)
              ∧ (∀ j, j < 4 → t.memNat (lk * 64 + 16 * j) 16 = (s.rv (v + BitVec.ofNat 4 j)).toNat)
              ∧ (∀ x, x / 64 ≠ lk → t.byteAt x = s.byteAt x)
              ∧ Reaches (((s.putBytes (lk * 64) (lineBytes data)).setLine lk (.counted count)).bump a post) t))
      ∧ (s.inTask = true ∨ s.accessPending s.core s.ctx scope = false →
        let i : Instr := .stc scope v a b post
        let r := s.resolve s.core P 64 1 .counted .group
        let low := ptrLow P
        let fails (u : State) (c : Cause) (x : W32) : Prop := Traps i s srcs ptrs c x u
        let holds (u : State) : Prop :=
          (s.bufferRoom 64 → Completes i s srcs ptrs (Reaches ((u.holding (.stc P data count (some scope))).bump a post)))
            ∧ (¬s.bufferRoom 64 → fails u .taskbuf s.bufferFill)
        (∀ f, r = .error f → FailsAt i s srcs ptrs a f)
          ∧ (∀ p ps u, r = .ok (.mem (p :: ps), u) →
            let lk := p.key / 64
            let counts (w : State) : Prop := Completes i s srcs ptrs fun t => t.lineState lk = .counted count
              ∧ Reaches (((w.putBytes (lk * 64) (lineBytes data)).setLine lk (.counted count)).bump a post) t
            ((∃ q ∈ p :: ps, 2 ^ 49 ≤ q.key) → fails u .range low)
              ∧ ((∀ q ∈ p :: ps, q.key < 2 ^ 49) →
                (ptrOff P % 64 ≠ 0 → fails u .align low)
                  ∧ (ptrOff P % 64 = 0 → u.inRegion lk = false → fails u .range low)
                  ∧ (ptrOff P % 64 = 0 → u.inRegion lk = true → count = 0 ∨ 255 < count → fails u .range (s.rg b))
                  ∧ (ptrOff P % 64 = 0 → u.inRegion lk = true → 1 ≤ count → count ≤ 255 →
                    (s.inTask = true →
                      ((∃ n, u.seenState (u.decsOf s.core s.cur) lk = .counted n) → FailsAt i s srcs ptrs a (.cause .cntwrite))
                        ∧ ((∀ n, u.seenState (u.decsOf s.core s.cur) lk ≠ .counted n) → holds u))
                    ∧ (s.inTask = false → (∃ n, u.lineState lk = .counted n) → FailsAt i s srcs ptrs a (.cause .cntwrite))
                    ∧ (s.inTask = false → (∀ n, u.lineState lk ≠ .counted n) → u.badPartial p.key p.len = none →
                      (p.key < 2 ^ 48 → counts u)
                        ∧ (2 ^ 48 ≤ p.key →
                          let x := u.cur
                          let w := u.setCur { x with pinStart := none }
                          let stuck := (∀ t, x.pinStart = some t → s.me.cyc - t < s.me.cntLimit.toNat) ∧ u.pinRoom lk = some false
                          ((∃ t, x.pinStart = some t ∧ s.me.cntLimit.toNat ≤ s.me.cyc - t) → fails s .pressure low)
                            ∧ ((∀ t, x.pinStart = some t → s.me.cyc - t < s.me.cntLimit.toNat) →
                              (u.pinRoom lk = none → fails s .pressure low)
                                ∧ (u.pinRoom lk = some true → counts ((w.touchLine lk).writeBack lk)))
                            ∧ (stuck → (x.pinStart = none → WaitsIn i s srcs ptrs
                                ((u.stall s.core).setCur { x with pinStart := some s.me.cyc }))
                              ∧ (x.pinStart ≠ none → WaitsIn i s srcs ptrs u)))))))
          ∧ (∀ p ps u, r = .ok (.ring (p :: ps), u) →
            ((∃ q ∈ p :: ps, ringFifo q.leaf = true) → fails u .range low)
              ∧ ((∀ q ∈ p :: ps, ringFifo q.leaf = false) → ptrOff P % 64 ≠ 0 → fails u .align low)
              ∧ ((∀ q ∈ p :: ps, ringFifo q.leaf = false) → ptrOff P % 64 = 0 → s.inTask = true → holds u)
              ∧ ((∀ q ∈ p :: ps, ringFifo q.leaf = false) → ptrOff P % 64 = 0 → s.inTask = false →
                (u.ring.reaches p.leaf = false → Completes i s srcs ptrs (Reaches ((u.defer s.core s.ctx .range low).bump a post)))
                  ∧ (u.ring.reaches p.leaf = true → Completes i s srcs ptrs (Reaches ((u.ringSend
                    [{ srcBasin := basinOf s.core, hop := ringHop p.leaf, destBasin := ringBasin p.leaf
                       item := .counted (ringOff p.leaf p.va) data count, owner := .stc s.core s.ctx, val := low }]).bump a post)))))
          ∧ ∀ b' k u, r = .ok (.fifo b' k, u) → fails u .range low)

/-- 05 R127, R128: `rcdec` decrements the line that holds P, and `rcpeek` reads its count: 0 for a plain line, 0x100 for a
dropped one. That a peek of the own local memory lands at the third cycle is the model's choice (log entry 44). -/
def Obligations.DecrementAndPeek : Prop :=
  ∀ (s : State) (rel : Bool) (scope : Scope) (d : BitVec 5) (a : BitVec 3) (post : Bool) (p : Part) (s' : State),
    let P := s.rp a
    let srcs := if post then [pid a, wid a] else [pid a]
    let lk := p.key / 64
    (s.resolve s.core P 1 1 .dec = .ok (.mem [p], s') → s.inTask = false → rel = false ∨ s.accessPending s.core s.ctx scope = false →
        s'.checkParts .dec [] [p] = .ok () →
        Completes (.rcdec rel scope a post) s srcs (if post then [pid a] else []) (Reaches ((s'.decLine lk).bump a post)))
      ∧ (s.resolve s.core P 1 1 .dec = .ok (.mem [p], s') → s.inTask = true →
        s'.checkParts .dec (s'.decsOf s.core s.cur) [p] = .ok () → s.bufferRoom 0 →
        Completes (.rcdec rel scope a post) s srcs (if post then [pid a] else [])
          (Reaches ((s'.holding (.decr P (ptrLow P) (if rel then some scope else none))).bump a post)))
      ∧ (s.resolve s.core P 1 1 .peek = .ok (.mem [p], s') →
        let value : W32 := match s'.seenState (s'.decsOf s.core s.cur) lk with
          | .plain => 0
          | .counted n => BitVec.ofNat 32 n
          | .dropped => 0x100
        Completes (.rcpeek d a) s [pid a] [gid d] fun t => Frame s' t [gid d]
          ∧ t.cur.pend = s.cur.pend ++ [{ regs := [(gid d, value.zeroExtend 128)]
                                          due := if ownLocal s.core [p] then some (s.me.cyc + 3) else none, mem := false }])

/-- 05 R125, R126: `rcopen` by c0, in the order of its checks, registers the lines of a range of the own local memory, of
SCRATCH banks of its own basin, or of far memory. `rcclose` writes 0xFFFF_FFFF for a region that is not open; otherwise the
number of lines that were still counted. Each counted or dropped line of the region becomes plain and reads zero, no other
line and no other byte changes, the slot is freed, and UNDERREAD is recorded where lines were counted; under policy fault
UNDERREAD is taken after every other effect. That the trap for an overlap names the lowest such slot, and that a far base is
translated before its alignment is checked, are the model's choices (log entries 49 and 50). -/
def Obligations.RegionResults : Prop :=
  (∀ (s : State) (n a : BitVec 3) (b : BitVec 5) (policy : RcPolicy),
      s.ctx = 0 → s.accessPending s.core s.ctx .pkg = false →
      let P := s.rp a
      let kind := P.toNat / 2 ^ 62
      let basin := ptrBasin P
      let unit := ptrUnit P
      let off := ptrOff P
      let len := (s.rg b).toNat
      let bank := off / 131072
      let at_ := s.via (stationOf (basinOf s.core))
      let traps (c : Cause) (x : W32) : Prop := Traps (.rcopen n a b policy) s [pid a, gid b] [] c x
      let meets (rs : List (Nat × Nat)) (e : Nat × Option Region) : Prop :=
        ∃ r, e.2 = some r ∧ ∃ x ∈ r.ranges, ∃ y ∈ rs, x.1 < y.2 ∧ y.1 < x.2
      let opens (rs : List (Nat × Nat)) (u : State) : Prop :=
        ((mget none s.me.regions n.toNat).isSome = true → traps .range (BitVec.ofNat 32 n.toNat))
          ∧ (mget none s.me.regions n.toNat = none →
            (∀ pre e post, s.me.regions = pre ++ e :: post → meets rs e → (∀ e' ∈ pre, ¬meets rs e') →
                traps .range (BitVec.ofNat 32 e.1))
              ∧ ((∀ e ∈ s.me.regions, ¬meets rs e) →
                Completes (.rcopen n a b policy) s [pid a, gid b] [] (Reaches (u.setMe { u.me with
                  regions := mset none u.me.regions n.toNat (some
                    { base := P, len := len, ranges := rs
                      faultPolicy := match policy with
                        | .launch => (s.recOf s.core).policyFault
                        | .event => false
                        | .fault => true }) }))))
      let checks (inside : Prop) (goes : Prop) : Prop :=
        (off % 64 ≠ 0 → traps .align (ptrLow P))
          ∧ (off % 64 = 0 → len = 0 ∨ len % 64 ≠ 0 → traps .range (s.rg b))
          ∧ (off % 64 = 0 → 0 < len → len % 64 = 0 → ¬inside → traps .range (ptrLow P))
          ∧ (off % 64 = 0 → 0 < len → len % 64 = 0 → inside → goes)
      let one (key : Nat) : List (Nat × Nat) := [(key / 64, key / 64 + len / 64)]
      let own := kind = 0 ∨ (kind = 1 ∧ unit < 8 ∧ basin * 8 + unit = s.core)
      let scratch := basin = basinOf s.core ∧ bank < 12 ∧ s.mode basin bank = 1
      (∀ c, ptrCheck (s.recOf s.core) P = some c → traps c (BitVec.ofNat 32 a.toNat))
        ∧ (ptrCheck (s.recOf s.core) P = none →
          (own → checks (off + len ≤ 0x20000) (opens (one (localKey s.core off)) s))
            ∧ (kind = 1 → ¬own → ¬(unit = 8 ∧ scratch) → traps .range (ptrLow P))
            ∧ (kind = 1 → unit = 8 → scratch →
              checks (∀ k, bank ≤ k → k * 131072 < off + len → k < 12 ∧ s.mode basin k = 1) (opens (one (bankKey basin 0 off)) s))
            ∧ (kind = 2 →
              (∀ leaf t, s.translate at_.1 s.me.spaceId.toNat off .open_ = .ok (.ring leaf) t → traps .range (ptrLow P))
                ∧ ∀ key cache t, s.translate at_.1 s.me.spaceId.toNat off .open_ = .ok (.mem key cache) t →
                  (2 ^ 49 ≤ key → traps .range (ptrLow P))
                    ∧ (key < 2 ^ 49 → checks (off + len ≤ 2 ^ 48) (∀ rs u,
                      at_.2.farRanges at_.1 P (pageParts (len / 2 ^ 19 + 2) off len) [] = .ok (rs, u) → opens rs u)))))
  ∧ ∀ (s : State) (d : BitVec 5) (n : BitVec 3), s.ctx = 0 → s.accessPending s.core s.ctx .pkg = false →
      (mget none s.me.regions n.toNat = none → SetsG (.rcclose d n) s [] d 0xFFFFFFFF)
        ∧ ∀ (r : Region) (L : List Nat), mget none s.me.regions n.toNat = some r →
          let inside (lk : Nat) : Prop := ∃ g ∈ r.ranges, g.1 ≤ lk ∧ lk < g.2
          let closes (lk : Nat) : Prop := inside lk ∧ s.lineState lk ≠ .plain
          L.Nodup → (∀ lk, lk ∈ L ↔ inside lk ∧ ∃ c, s.lineState lk = .counted c) →
          let lines := L.length
          let reads := (L.map fun lk => match s.lineState lk with
            | .counted c => c
            | _ => 0).sum
          ∃ w : State, w.cores = s.cores ∧ ({ w.restButBytes with lines := [] } : State) = { s.restButBytes with lines := [] }
            ∧ (∀ lk, inside lk → w.lineState lk = .plain) ∧ (∀ lk, ¬inside lk → w.lineState lk = s.lineState lk)
            ∧ (∀ lk j, closes lk → j < 64 → w.byteAt (lk * 64 + j) = 0)
            ∧ (∀ x, ¬closes (x / 64) → w.byteAt x = s.byteAt x) ∧ (∀ lk, ¬closes lk → w.farLine lk = s.farLine lk)
            ∧ (let v := w.setMe { w.me with regions := mset none w.me.regions n.toNat none }
              let u := if lines = 0 then v else v.postLaunch (s.handleOf s.core) (mkRecord 0x05 .underread (s.recOf s.core).lid 0
                s.core false (BitVec.ofNat 32 n.toNat) (BitVec.ofNat 32 lines) (BitVec.ofNat 32 reads) 0)
              (lines = 0 ∨ r.faultPolicy = false →
                Completes (.rcclose d n) s [] [gid d] (Reaches (u.wg d (BitVec.ofNat 32 lines))))
                ∧ (0 < lines → r.faultPolicy = true → s.ready (.rcclose d n) [] [gid d] = true →
                  exec (.rcclose d n) s
                    = .next ((u.wg d (BitVec.ofNat 32 lines)).takeTrap .underread s.cur.pc (BitVec.ofNat 32 lines))))

/-! ## Transfers (05 R129 to R134) -/

/-- 05 R130, R131, R134: a transfer that passes its checks is started, and its status register is empty until it completes;
the first check that fails traps. A task holds `put` and `putx` (R117), and publishes before a `get` or a `getx` with `.c`
(11 R285). `fwait` waits for the transfers of its context. That the checks of the completion counter of `getx` and `putx`
come last, and where that of a FIFO window stands, are the model's choices (log entry 43). -/
def Obligations.TransfersStart : Prop :=
  ∀ (s v : State) (d : BitVec 5) (a : BitVec 3) (b : BitVec 5) (ctr : Bool), (ctr = true → d = 0) →
    let P := v.rp a
    let n := (v.re 0).toNat
    let z := (v.re 1).toNat
    let l := (v.rg b).toNat
    let x (kind : XferKind) (indexed cnt hnd cons : Bool) : Xfer :=
      { id := v.me.nextXfer, core := v.core, ctx := v.ctx, att := v.cur.att, handle := v.handleOf v.core, kind := kind, ptr := P
        loff := l, len := n, esize := if indexed then z else 0, idx := if indexed then (v.re 2).toNat else 0
        stride := if indexed then v.re 3 else 0, hnd := if hnd then some (v.re 4) else none
        cnt := if cnt then some (v.re 5).toNat else none, cons := cons
        ctr := if ctr then some (v.re 6).toNat else none, dst := d.toNat, after := v.seq }
    let started (x : Xfer) : State :=
      (v.setMe { v.me with xfers := v.me.xfers ++ [x], nextXfer := v.me.nextXfer + 1 }).emptyRegs [gid d]
    let es (ks : List Nat) : List Nat := [pid a, gid b] ++ ks.map eid ++ if ctr then [eid 6] else []
    let counter : List (Prop × Cause × W32) := [(ctr = true ∧ 0x1FFFC < (v.re 6).toNat, .range, v.re 6),
      (ctr = true ∧ (v.re 6).toNat % 4 ≠ 0, .align, v.re 6)]
    let window (put : Bool) (k : Nat) : Prop × Cause × W32 :=
      (put = true ∧ k % 64 ≠ 0 ∧ v.fifoWindow v.core P = true, .align, BitVec.ofNat 32 k)
    let copies (put cnt hnd : Bool) : List (Prop × Cause × W32) :=
      [(131072 < n, .range, v.re 0), (131072 < l + n, .range, v.rg b)] ++ counter
        ++ [(hnd = true ∧ ptrKind P = 1 ∧ 8 ≤ ptrUnit P, .range, ptrLow P), (cnt = true ∧ ptrOff P % 64 ≠ 0, .align, ptrLow P),
          (cnt = true ∧ n % 64 ≠ 0, .align, v.re 0), (cnt = true ∧ ((v.re 5).toNat < 1 ∨ 255 < (v.re 5).toNat), .range, v.re 5),
          window put n, (hnd = true ∧ handlerOk (v.re 4) = false, .range, v.re 4)]
    let elements (put : Bool) : List (Prop × Cause × W32) :=
      [(4096 < n, .range, v.re 0), (z < 1 ∨ 4096 < z, .range, v.re 1), (131072 < l + n * z, .range, v.rg b),
        ((v.re 2).toNat % 4 ≠ 0, .align, v.re 2)] ++ counter ++ [window put (n * z)]
    let checks (i : Instr) (srcs : List Nat) (cs : List (Prop × Cause × W32)) (goes : Prop) : Prop :=
      (∀ pre c post, cs = pre ++ c :: post → (∀ q ∈ pre, ¬q.1) → c.1 → Traps i s srcs [gid d] c.2.1 c.2.2 v)
        ∧ ((∀ q ∈ cs, ¬q.1) → goes)
    let copy (i : Instr) (srcs : List Nat) (put cnt hnd : Bool) (goes : Prop) : Prop :=
      (∀ c, ptrCheck (v.recOf v.core) P = some c → Traps i s srcs [gid d] c (BitVec.ofNat 32 a.toNat) v)
        ∧ (ptrCheck (v.recOf v.core) P = none → checks i srcs (copies put cnt hnd) goes)
    let puts (i : Instr) (srcs : List Nat) (x : Xfer) : Prop :=
      (s.inTask = false → Completes i s srcs [gid d] (Reaches (started x)))
        ∧ (s.inTask = true → s.bufferRoom 0 →
          Completes i s srcs [gid d] (Reaches ((s.holding (.put { x with id := 0, after := 0 })).emptyRegs [gid d])))
        ∧ (s.inTask = true → ¬s.bufferRoom 0 → Traps i s srcs [gid d] .taskbuf s.bufferFill)
    (∀ cons, (if cons then s.publish = .ok v else v = s) →
        copy (.get d a b ctr cons) (es [0]) false false false
            (Becomes (.get d a b ctr cons) s (es [0]) [gid d] (started (x .get false false false cons)))
          ∧ checks (.getx d a b ctr cons) (es [0, 1, 2, 3]) (elements false)
            (Becomes (.getx d a b ctr cons) s (es [0, 1, 2, 3]) [gid d] (started (x .getx true false false cons))))
      ∧ (v = s → (∀ cnt hnd,
          let srcs := es ([0] ++ (if hnd then [4] else []) ++ if cnt then [5] else [])
          copy (.put d a b ctr cnt hnd) srcs true cnt hnd (puts (.put d a b ctr cnt hnd) srcs (x .put false cnt hnd false)))
        ∧ checks (.putx d a b ctr) (es [0, 1, 2, 3]) (elements true)
          (puts (.putx d a b ctr) (es [0, 1, 2, 3]) (x .putx true false false false)))
      ∧ (s.xfersOf s.core s.ctx = [] → Completes .fwait s [] [] (Reaches s))
      ∧ (s.xfersOf s.core s.ctx ≠ [] → WaitsIn .fwait s [] [] s)

/-- 05 R130 to R133, 10 R259, R265: a transfer moves its next unit, up to an aligned boundary of 16 bytes at the destination
or a whole line or entry, once its issuer's earlier accesses are performed. An element of `getx` and `putx` first reads its
index, and then goes on at its own address. A failed access stops the transfer, with the byte offset or the element index.
Once all is moved its status or its counter is written; a stopped one gives its cause, and raises its fault once that status
has landed (O50). The reading of an element's address, the fault of an index past the end of local memory, the window of an
entry of mixed elements, and that a transfer of no bytes has no handler task are the model's choices (log entries 17, 54, 55
and 64). -/
def Obligations.TransferProgress : Prop :=
  ∀ (s : State) (n id : Nat) (x : Xfer), s.findXfer n id = some x → s.priorPending n x.ctx x.after = false → s.CountsOk →
    let get := x.kind = .get ∨ x.kind = .getx
    let val (off : Nat) : W32 := BitVec.ofNat 32 (if x.kind = .get ∨ x.kind = .put then off else x.pos)
    let stops (y : Xfer) (c : Cause) (off : Nat) : Xfer :=
      { y with stop := some (c, val off), tag := none, verdict := none, pinned := none }
    let unit (p : Span) (at_ z : Nat) (next : Xfer → Xfer) : Prop := ∀ buf u f, State.gather n x p at_ z 6 x.buf s = (buf, u, f) →
      let y : Xfer := { x with buf := buf }
      let w := u.setXfer n y
      (∀ c, f = some (.cause c) → exec (.transferChunk n id) s = .next (w.setXfer n (stops y c (at_ + buf.length))))
        ∧ (f = none →
          (∀ v k leaf, w.writeDest n y p at_ (buf.take z) = .ok (.done v k leaf) → exec (.transferChunk n id) s
              = .next (v.setXfer n (next { y with buf := buf.drop z, pinned := none, ringOut := x.ringOut + k
                                                  win := if x.pos = 0 ∧ x.sub = 0 then leaf else x.win })))
            ∧ (w.writeDest n y p at_ (buf.take z) = .ok .waits → exec (.transferChunk n id) s = .next (w.pinXfer n y))
            ∧ ∀ c, w.writeDest n y p at_ (buf.take z) = .error (.cause c) →
              exec (.transferChunk n id) s = .next (w.setXfer n (stops y c at_)))
    let moves (t : State) (x' : Xfer) : Prop := t.findXfer n id = some x'
    let copies (from_ to_ z : Nat) (next : Xfer → Prop) (v : W32) : Prop :=
      (s.lineState (from_ / 64) ≠ .dropped → s.badGranule from_ z = none → s.lineState (to_ / 64) = .plain → s.badPartial to_ z = none →
          ∃ t, exec (.transferChunk n id) s = .next t
            ∧ (∀ j, j < z → t.byteAt (to_ + j) = s.byteAt (from_ + j)) ∧ (∀ k, ¬(to_ ≤ k ∧ k < to_ + z) → t.byteAt k = s.byteAt k)
            ∧ (∃ x', moves t x' ∧ x'.buf = [] ∧ x'.stop = none ∧ next x') ∧ ∀ lk, t.lineState lk = s.lineState lk)
        ∧ (s.lineState (from_ / 64) = .dropped → ∃ t, exec (.transferChunk n id) s = .next t ∧ (∀ k, t.byteAt k = s.byteAt k)
          ∧ ∃ x', moves t x' ∧ x'.stop = some (.overread, v))
    let goes := x.pos < x.len ∧ x.stop = none ∧ x.tag = none
    let elem : Span := { ptr := x.ptr, loff := x.loff + x.pos * x.esize, len := x.esize }
    (goes → ∀ c, x.verdict = some c → exec (.transferChunk n id) s
        = .next (s.setXfer n (stops x c (x.pos + if get then x.buf.length else 0))))
      ∧ (x.kind = .get ∨ x.kind = .put → goes → x.verdict = none → s.xferExpired n x = false →
        let p : Span := { ptr := x.ptr, loff := x.loff, len := x.len }
        let whole : Bool := x.cnt.isSome || (x.kind == .put && s.entersFifo n p x.pos)
        let dest := if x.kind = .get then x.loff + x.pos else ptrOff x.ptr + x.pos
        let z := min (if whole then 64 else 16 - dest % 16) (x.len - x.pos)
        unit p x.pos z fun y => { y with pos := x.pos + z })
      ∧ (x.kind = .get → goes → x.verdict = none → x.pinned = none → x.cnt = none → x.cons = false → x.buf = [] → n < 16384 →
        x.ptr.toNat + x.len ≤ 0x20000 → x.loff + x.len ≤ 0x20000 → (x.ptr.toNat + x.pos) % 16 = (x.loff + x.pos) % 16 →
        let z := min (16 - (x.loff + x.pos) % 16) (x.len - x.pos)
        copies (localKey n (x.ptr.toNat + x.pos)) (localKey n (x.loff + x.pos)) z (fun y => y.pos = x.pos + z) (BitVec.ofNat 32 x.pos))
      ∧ (x.kind = .getx ∨ x.kind = .putx → goes → x.verdict = none →
        (x.curIdx = none → x.idx % 4 = 0 →
          let off := x.idx + 4 * x.pos
          let key := localKey n off
          (0x20000 ≤ off → exec (.transferChunk n id) s = .next (s.setXfer n (stops x .range 0)))
            ∧ (off < 0x20000 → s.lineState (key / 64) = .dropped → exec (.transferChunk n id) s = .next (s.setXfer n (stops x .overread 0)))
            ∧ (∀ g, off < 0x20000 → s.lineState (key / 64) ≠ .dropped → s.badGranule key 4 = some g → exec (.transferChunk n id) s
              = .next ((s.meetUe (some x.handle) n x.ctx (g * 8) off).setXfer n (stops x .ue 0)))
            ∧ (off < 0x20000 → s.lineState (key / 64) ≠ .dropped → s.badGranule key 4 = none → exec (.transferChunk n id) s
              = .next (s.setXfer n { x with curIdx := some (BitVec.ofNat 32 (s.memNat key 4)) })))
          ∧ ∀ i, x.curIdx = some i → x.sub < x.esize →
            let step : Int := i.toNat * x.stride.toInt
            let next (z : Nat) (y : Xfer) : Xfer := if x.sub + z < x.esize then { y with sub := x.sub + z }
              else { y with pos := x.pos + (x.sub + z) / x.esize, sub := (x.sub + z) % x.esize, curIdx := none }
            (ptrKind x.ptr = 3 → exec (.transferChunk n id) s = .next (s.setXfer n (stops x .ptr 0)))
              ∧ (∀ Q, ptrAdd x.ptr step = some Q →
                let p : Span := { elem with ptr := Q }
                (x.kind = .getx ∨ s.entersFifo n p x.sub = false →
                  let dest := if x.kind = .getx then p.loff + x.sub else ptrOff Q + x.sub
                  let z := min (16 - dest % 16) (x.esize - x.sub)
                  unit p x.sub z (next z))
                  ∧ (x.kind = .putx → s.entersFifo n p x.sub = true →
                    let left := (x.len - x.pos) * x.esize
                    unit { p with len := left } x.sub (min 64 (left - x.sub)) (next (min 64 (left - x.sub)))))
              ∧ (x.kind = .getx → x.cons = false → x.buf = [] → n < 16384 → x.ptr.toNat < 0x20000 →
                let at_ := ((x.ptr.toNat + step) % (0x20000 : Int)).toNat + x.sub
                let to_ := x.loff + x.pos * x.esize + x.sub
                at_ - x.sub + x.esize ≤ 0x20000 → to_ - x.sub + x.esize ≤ 0x20000 → at_ % 16 = to_ % 16 →
                let z := min (16 - to_ % 16) (x.esize - x.sub)
                copies (localKey n at_) (localKey n to_) z
                  (fun y => if x.sub + z < x.esize then y.pos = x.pos ∧ y.sub = x.sub + z ∧ y.curIdx = some i
                    else y.pos = x.pos + 1 ∧ y.sub = 0 ∧ y.curIdx = none) (BitVec.ofNat 32 x.pos)))
      ∧ let left : State := { s.dropXfer n x.id with seq := s.seq + 1 }
        let status (u : State) (w : W32) : State := u.deliverFill x.handle { core := n, ctx := x.ctx, reg := x.dst } w (.status s.seq)
        (x.len ≤ x.pos → x.stop = none → x.ringOut = 0 → x.hnd = none ∨ x.handed = true ∨ x.len = 0 →
          let ends (u : State) : Prop := exec (.transferCompletion n id) s = .next u.finishInvs
          (x.ctr = none → x.dst ≠ 0 → ends (status left 0)) ∧ (x.ctr = none → x.dst = 0 → ends left)
            ∧ (∀ off, x.ctr = some off → ends (left.bumpCounter n off x)))
          ∧ ∀ c v, x.stop = some (c, v) → x.ringOut = 0 → x.ctr = none → x.dst ≠ 0 → c ∉ [Cause.none, .cap, .order, .queue] →
            exec (.transferCompletion n id) s
              = .next (status (left.deferXfer n x c v (some s.seq)) (BitVec.ofNat 32 (causeCode c))).finishInvs

/-! ## Atomics and fences (05 R135 to R140) -/

/-- 05 R135, R136: an atomic on a word of the own local memory outside a task writes the new word and returns the old one;
no other byte changes. That the old word lands at the third cycle is the model's choice (log entry 44). -/
def Obligations.AtomicResults : Prop :=
  ∀ (s : State) (ord : AtomOrd) (scope : Scope) (d : BitVec 5) (a : BitVec 3) (b : BitVec 5),
    s.core < 16384 → s.inTask = false → s.accessPending s.core s.ctx scope = false →
    let off := (s.rp a).toNat
    let key := localKey s.core off
    let x : W32 := BitVec.ofNat 32 (s.memNat key 4)
    let y := s.rg b
    let atom (i : Instr) (es : List Nat) (new : W32) : Prop := Completes i s ([pid a, gid b] ++ es) [gid d] fun t =>
      t.memNat key 4 = new.toNat ∧ StoreFrame s t [gid d] (fun k => key ≤ k ∧ k < key + 4)
        ∧ (d ≠ 0 → t.cur.regState (gid d) = .empty)
        ∧ t.cur.pend = s.cur.pend ++ [{ regs := [(gid d, x.zeroExtend 128)], due := some (s.me.cyc + 3), mem := true }]
    off ≤ 0x1FFFC → off % 4 = 0 → s.lineState (key / 64) = .plain → s.badGranule key 4 = none →
      atom (.rmwadd false ord scope d a b) [] (x + y) ∧ atom (.rmwand false ord scope d a b) [] (x &&& y)
        ∧ atom (.rmwor false ord scope d a b) [] (x ||| y) ∧ atom (.rmwxor false ord scope d a b) [] (x ^^^ y)
        ∧ atom (.rmwmin false ord scope d a b) [] (BitVec.ofInt 32 (min x.toInt y.toInt))
        ∧ atom (.rmwmax false ord scope d a b) [] (BitVec.ofInt 32 (max x.toInt y.toInt))
        ∧ atom (.rmwminu false ord scope d a b) [] (BitVec.ofNat 32 (min x.toNat y.toNat))
        ∧ atom (.rmwmaxu false ord scope d a b) [] (BitVec.ofNat 32 (max x.toNat y.toNat))
        ∧ atom (.rmwswap false ord scope d a b) [] y
        ∧ atom (.rmwcas ord scope d a b) [eid 0] (if x = s.re 0 then y else x)
        ∧ (handlerOk (s.re 4) = true → x = 0 ∨ x ≠ y → atom (.rmwdec ord scope d a b) [eid 4, eid 5] (x - y))

/-- 05 R135 to R138, 08 R199: an atomic at any place of memory, on a word or on the four lanes of 16 bytes. The parts are
those that steps 1 to 4 of R113 resolve; the new value is written there, lane by lane, and the old one goes to the
destination. In a task one that returns a value publishes first (`v` is the state after that), and a result-less one is
held. A check that fails traps; a translation that fails is a miss (O49). An `rmwdec` that reaches zero offers its handler
task to the core whose memory it is in, a release at core scope (10 R264). That the old value of a word of the own local
memory lands at the third cycle is the model's choice (log entry 44). -/
def Obligations.AtomicForms : Prop :=
  ∀ (s : State) (vec : Bool) (ord : AtomOrd) (scope : Scope) (d : BitVec 5) (a : BitVec 3) (b : BitVec 5),
    let atom (op : AtomOp) (vec : Bool) (i : Instr) (es : List Nat) (f : W32 → W32 → W32 → W32) : Prop :=
      let id (r : BitVec 5) : Nat := if vec then 32 + r.toNat % 16 else r.toNat
      let srcs := [pid a, id b] ++ es
      let z := if vec then 16 else 4
      let lane (r : W128) (j : Nat) : W32 := r.extractLsb' (32 * j) 32
      let y := s.cur.value (id b)
      let low := ptrLow (s.rp a)
      let near (P : W64) : Prop := ptrKind P = 1 ∧ ptrUnit P < 8
      (s.inTask = true → vec = false → d = 0 →
          (∀ f, s.resolveAtomic s.core (s.rp a) op 4 = .error f → FailsAt i s srcs [id d] a f)
            ∧ ∀ ps u, s.resolveAtomic s.core (s.rp a) op 4 = .ok (.mem ps, u) →
              (∀ c, u.checkStates .atomic (u.decsOf s.core s.cur) ps = some c → Traps i s srcs [id d] c low)
                ∧ (u.checkStates .atomic (u.decsOf s.core s.cur) ps = none →
                  (op = .dec → handlerOk (s.re 4) = false → Traps i s srcs [id d] .range (s.re 4))
                    ∧ (op ≠ .dec ∨ handlerOk (s.re 4) = true →
                      (s.bufferRoom 4 → Completes i s srcs [id d] (Reaches (u.holding (.atomic (s.rp a) op false y (s.re 0) (s.re 4)
                          (s.re 5) (if ord = .release ∨ ord = .acqRel then some scope else none)))))
                        ∧ (¬s.bufferRoom 4 → Traps i s srcs [id d] .taskbuf s.bufferFill u))))
        ∧ (∀ v, s.publish = .ok v → s.inTask = false ∨ vec = true ∨ d ≠ 0 →
          (ord = .release ∨ ord = .acqRel → v.accessPending v.core v.ctx scope = true → WaitsIn i s srcs [id d] v)
            ∧ (ord = .relaxed ∨ ord = .acquire ∨ v.accessPending v.core v.ctx scope = false →
              (∀ f, v.resolveAtomic v.core (v.rp a) op z = .error f → FailsAt i s srcs [id d] a f v)
                ∧ (op = .dec → ptrCheck (v.recOf v.core) (v.rp a) = none → ¬(ptrKind (v.rp a) = 0 ∨ near (v.rp a)) →
                  Traps i s srcs [id d] .range (ptrLow (v.rp a)) v)
                ∧ ∀ ps u, v.resolveAtomic v.core (v.rp a) op z = .ok (.mem ps, u) →
                  (∀ f, u.checkParts .atomic [] ps = .error f → FailsAt i s srcs [id d] a f v)
                    ∧ (u.checkParts .atomic [] ps = .ok () → op = .dec → handlerOk (v.re 4) = false →
                      Traps i s srcs [id d] .range (v.re 4) v)))
        ∧ ∀ v, s.publish = .ok v → ord = .relaxed ∨ ord = .acquire ∨ v.accessPending v.core v.ctx scope = false →
          s.inTask = false ∨ vec = true ∨ d ≠ 0 → ∀ ps u, v.resolveAtomic v.core (v.rp a) op z = .ok (.mem ps, u) →
            u.checkParts .atomic [] ps = .ok () → op ≠ .dec ∨ handlerOk (v.re 4) = true →
              let P := v.rp a
              let own := ptrKind P = 0 ∨ (near P ∧ ptrBasin P * 8 + ptrUnit P = v.core)
              let x : W128 := BitVec.ofNat 128 (leNat (u.readParts ps))
              let new : Nat := ((List.range (z / 4)).map fun j => (f (v.re 0) (lane x j) (lane y j)).toNat * 2 ^ (32 * j)).sum
              let w := u.writeParts (leBytes z new) ps
              let at_ := (ps.map Part.key).headD 0
              let off : W32 := BitVec.ofNat 32 (at_ % 131072)
              let m := w.nextId v.core
              let q := m.2.enqueue (at_ / 131072) { pc := handlerPc (v.re 4), level := handlerLevel (v.re 4), arg0 := v.re 5, arg1 := off, id := m.1 }
              let triggers := op = .dec ∧ x ≠ 0 ∧ new = 0
              let w' := if triggers
                then if q.1 then q.2 else q.2.postQueueEvent (v.handleOf v.core) v.core v.ctx (at_ / 131072) (v.re 4) (v.re 5) off
                else w
              (triggers → v.accessPending v.core v.ctx .core = false) →
              s.ready i srcs [id d] = true → ∃ t, exec i s = .next t ∧ Next i v t ∧ Frame w' t [id d]
                ∧ t.cur.pend = w'.cur.pend ++ [{ regs := [(id d, x)], due := if own then some (w'.me.cyc + 3) else none, mem := true }]
                ∧ w.readParts ps = leBytes z new
    let sgnMin (_ x y : W32) : W32 := BitVec.ofInt 32 (min x.toInt y.toInt)
    let sgnMax (_ x y : W32) : W32 := BitVec.ofInt 32 (max x.toInt y.toInt)
    let unsMin (_ x y : W32) : W32 := BitVec.ofNat 32 (min x.toNat y.toNat)
    let unsMax (_ x y : W32) : W32 := BitVec.ofNat 32 (max x.toNat y.toNat)
    atom .add vec (.rmwadd vec ord scope d a b) [] (fun _ x y => x + y)
      ∧ atom .and vec (.rmwand vec ord scope d a b) [] (fun _ x y => x &&& y)
      ∧ atom .or vec (.rmwor vec ord scope d a b) [] (fun _ x y => x ||| y)
      ∧ atom .xor vec (.rmwxor vec ord scope d a b) [] (fun _ x y => x ^^^ y)
      ∧ atom .min vec (.rmwmin vec ord scope d a b) [] sgnMin ∧ atom .max vec (.rmwmax vec ord scope d a b) [] sgnMax
      ∧ atom .minu vec (.rmwminu vec ord scope d a b) [] unsMin ∧ atom .maxu vec (.rmwmaxu vec ord scope d a b) [] unsMax
      ∧ atom .swap vec (.rmwswap vec ord scope d a b) [] (fun _ _ y => y)
      ∧ atom .cas false (.rmwcas ord scope d a b) [eid 0] (fun e0 x y => if x = e0 then y else x)
      ∧ atom .dec false (.rmwdec ord scope d a b) [eid 4, eid 5] (fun _ x y => x - y)

/-- 05 R139, R140: a fence whose earlier accesses have been performed has no other effect; in a task it takes its place
among the held effects; otherwise it waits.
That accesses are performed when they are made is the model's choice (log entry 3). -/
def Obligations.FenceEffect : Prop :=
  ∀ (s : State) (scope : Scope) (pred succ : BitVec 4),
    (s.fencePending s.core s.ctx scope pred = false → s.inTask = false → Completes (.fence scope pred succ) s [] [] (Reaches s))
      ∧ (s.fencePending s.core s.ctx scope pred = false → s.inTask = true → s.bufferRoom 0 →
        Completes (.fence scope pred succ) s [] [] (Reaches (s.holding (.fence scope pred))))
      ∧ (s.fencePending s.core s.ctx scope pred = true → s.ready (.fence scope pred succ) [] [] = true →
        exec (.fence scope pred succ) s = .next (s.setStatus .waiting))

/-! ## Control (04 R103 to R108) -/

/-- 04 R103: a branch whose condition holds goes to PC + 2·sext(imm); a taken one faults RANGE on a target outside local
memory, and one that is not taken never faults. The compact branches compare with 0 and go to PC + 2 + 2·imm5, imm5 unsigned
(03 R66). -/
def Obligations.BranchResults : Prop :=
  ∀ (s : State) (a b d : BitVec 5) (imm : BitVec 12) (m : BitVec 5),
    let branch (i : Instr) (srcs : List Nat) (taken : Prop) (x : Int) : Prop :=
      let target : Int := s.cur.pc.toNat + 2 * x
      (taken → 0 ≤ target ∧ target ≤ 0x1FFFE → Jumps i s srcs (BitVec.ofInt 17 target) s)
        ∧ (taken → ¬(0 ≤ target ∧ target ≤ 0x1FFFE) → Traps i s srcs [] .range (BitVec.ofInt 32 target))
        ∧ (¬taken → Completes i s srcs [] (Reaches s))
    let x := s.rg a
    let y := s.rg b
    let two := [gid a, gid b]
    branch (.beq a b imm) two (x = y) imm.toInt ∧ branch (.bne a b imm) two (x ≠ y) imm.toInt
      ∧ branch (.blt a b imm) two (x.toInt < y.toInt) imm.toInt ∧ branch (.bge a b imm) two (y.toInt ≤ x.toInt) imm.toInt
      ∧ branch (.bltu a b imm) two (x.toNat < y.toNat) imm.toInt ∧ branch (.bgeu a b imm) two (y.toNat ≤ x.toNat) imm.toInt
      ∧ branch (.hBz d m) [gid d] (s.rg d = 0) (m.toNat + 1) ∧ branch (.hBnz d m) [gid d] (s.rg d ≠ 0) (m.toNat + 1)

/-- 04 R104, R106: jumps, and calls with the push of the return address, in the order of their checks. A full link store
spills its oldest entry to local memory, after pops of the context that wait (10 R258). -/
def Obligations.JumpsAndCalls : Prop :=
  ∀ (s : State) (imm : BitVec 25) (h : BitVec 10) (a : BitVec 5) (off : BitVec 12), s.CountsOk →
    let x := s.cur
    let near : Int := x.pc.toNat + 2 * imm.toInt
    let nearH : Int := x.pc.toNat + 2 * h.toInt
    let reg := s.rg a + BitVec.ofInt 32 off.toInt
    let inside (t : Int) : Prop := 0 ≤ t ∧ t ≤ 0x1FFFE
    let pushed (u : State) (ls : List (BitVec 18)) (top : BitVec 15) : State :=
      u.setCur { u.cur with links := ls ++ [BitVec.ofNat 18 (x.pc.toNat + 4)], spillTop := top }
    let top := x.spillTop.toNat * 4
    let lk := localKey s.core top / 64
    let calls (i : Instr) (srcs : List Nat) (target : Off) : Prop :=
      (x.links.length < 8 → Jumps i s srcs target (pushed s x.links x.spillTop))
        ∧ ∀ o ls, x.links = o :: ls → 7 ≤ ls.length → s.popsHold s.core s.ctx = false →
          (x.linkLimit.toNat ≤ x.spillTop.toNat → Traps i s srcs [] .linkovf (BitVec.ofNat 32 top))
            ∧ (x.spillTop.toNat < x.linkLimit.toNat → s.lineState lk = .dropped → Traps i s srcs [] .overread (BitVec.ofNat 32 top))
            ∧ (x.spillTop.toNat < x.linkLimit.toNat → (∃ n, s.lineState lk = .counted n) →
              Traps i s srcs [] .cntwrite (BitVec.ofNat 32 top))
            ∧ (∀ k, x.spillTop.toNat < x.linkLimit.toNat → s.lineState lk = .plain → s.badPartial (localKey s.core top) 4 = some k →
              MeetsUe i s srcs [] (k * 8) top (BitVec.ofNat 32 top))
            ∧ (x.spillTop.toNat < x.linkLimit.toNat → s.lineState lk = .plain → s.badPartial (localKey s.core top) 4 = none →
              Jumps i s srcs target (pushed (s.putBytes (localKey s.core top) (leBytes 4 o.toNat)) ls (x.spillTop + 1)))
    let refuses (i : Instr) (srcs : List Nat) (t : Int) : Prop := ¬inside t → Traps i s srcs [] .range (BitVec.ofInt 32 t)
    let odd (i : Instr) (srcs : List Nat) : Prop :=
      inside reg.toNat → reg.toNat % 2 = 1 → Traps i s srcs [] .align reg
    refuses (.j imm) [] near ∧ refuses (.hJ h) [] nearH ∧ refuses (.call imm) [linkId] near
      ∧ refuses (.jr a off) [gid a] reg.toNat ∧ refuses (.callr a off) [gid a, linkId] reg.toNat
      ∧ odd (.jr a off) [gid a] ∧ odd (.callr a off) [gid a, linkId]
      ∧ (inside near → Jumps (.j imm) s [] (BitVec.ofInt 17 near) s ∧ calls (.call imm) [linkId] (BitVec.ofInt 17 near))
      ∧ (inside nearH → Jumps (.hJ h) s [] (BitVec.ofInt 17 nearH) s)
      ∧ (inside reg.toNat → reg.toNat % 2 = 0 → Jumps (.jr a off) s [gid a] (reg.truncate 17) s
        ∧ calls (.callr a off) [gid a, linkId] (reg.truncate 17))

/-- 04 R107: `ret`, in its 32-bit and its compact form, pops the newest return address, from the link store or else from
the spill area, after pops of the context that wait (10 R258). That the read of the spill area takes no time is the model's
choice (log entry 39). -/
def Obligations.Returns : Prop :=
  ∀ (s : State) (i : Instr), i = .ret ∨ i = .hRet →
    let c := s.cur
    let base := c.spillBase.toNat * 4
    let top := c.spillTop.toNat * 4
    let at_ := top - 4
    let x := s.localNat at_ 4
    let traps (e : Cause) (v : Nat) : Prop := Traps i s [linkId] [] e (BitVec.ofNat 32 v)
    (∀ ls y, c.links = ls ++ [y] →
        (0x1FFFE < y.toNat → traps .range y.toNat)
          ∧ (y.toNat ≤ 0x1FFFE → Jumps i s [linkId] (BitVec.ofNat 17 y.toNat) (s.setCur { c with links := ls })))
      ∧ (c.links = [] → top ≤ base → traps .linkunf top)
      ∧ (c.links = [] → base < top → s.popsHold s.core s.ctx = false →
        let seen := s.seenState (s.decsOf s.core s.cur) (localKey s.core at_ / 64)
        (seen = .dropped → traps .overread at_)
          ∧ (∀ g, seen ≠ .dropped → s.badGranule (localKey s.core at_) 4 = some g →
            MeetsUe i s [linkId] [] (g * 8) at_ (BitVec.ofNat 32 at_))
          ∧ ((∀ j, j < 4 → s.localReads (at_ + j)) →
            (0x1FFFE < x ∨ x % 2 = 1 → traps .range x)
              ∧ (x ≤ 0x1FFFE → x % 2 = 0 →
                Jumps i s [linkId] (BitVec.ofNat 17 x) (s.setCur { c with spillTop := c.spillTop - 1 }))))

/-- 04 R108: a repeat sets RC, LS and LE; with a count of 0 it goes past the instruction at LE, whose halfword it reads, and
meets the faults of that fetch (State.fetchStop, said in O56). The trap value 0x20000 is the model's choice (log entry 19),
and so is the PC of the repeat as that of the faults (log entry 51). That the halfword is what was fetched before the last
`isync` is log entry 3. -/
def Obligations.RepeatResults : Prop :=
  ∀ (s : State) (a : BitVec 5) (n imm : BitVec 12) (m : BitVec 10),
    let pc := s.cur.pc.toNat
    let repeats (i : Instr) (srcs : List Nat) (count : W32) (le : Nat) : Prop :=
      let key := localKey s.core le
      let k := if (s.fetchByte s.core s.ctx le).toNat % 2 = 0 then 2 else 4
      let u := s.setCur { s.cur with rc := count, ls := BitVec.ofNat 16 ((pc + 4) / 2), le := BitVec.ofNat 16 (le / 2) }
      (0x1FFFE < le → Traps i s srcs [] .range (BitVec.ofNat 32 le))
        ∧ (le ≤ 0x1FFFE → count ≠ 0 → s.ready i srcs [] = true → ∃ t, exec i s = .next t
          ∧ Issued s t (u.nextPc 4).1 (u.nextPc 4).2 ∧ Reaches u t)
        ∧ (le ≤ 0x1FFFE → count = 0 → s.fetchStop s.core s.ctx le = some .overread →
          Traps i s srcs [] .overread (s.cur.pc.zeroExtend 32))
        ∧ (∀ g, le ≤ 0x1FFFE → count = 0 → s.fetchStop s.core s.ctx le = some .ue → s.badGranule key 2 = some g →
          MeetsUe i s srcs [] (g * 8) le (s.cur.pc.zeroExtend 32))
        ∧ (le ≤ 0x1FFFE → count = 0 → s.fetchStop s.core s.ctx le = none →
          (le = 0x1FFFE → k = 4 → Traps i s srcs [] .range (s.cur.pc.zeroExtend 32))
            ∧ (le + k = 0x20000 → Traps i s srcs [] .range 0x20000)
            ∧ (le + k < 0x20000 → s.ready i srcs [] = true → ∃ t, exec i s = .next t
              ∧ Issued s t (BitVec.ofNat 17 (le + k)) 0 ∧ Reaches u t))
    repeats (.rep a) [gid a] (s.rg a) (pc + 4)
      ∧ repeats (.repi n) [] (BitVec.ofNat 32 n.toNat) (pc + 4)
      ∧ repeats (.loop a imm) [gid a] (s.rg a) (pc + 2 * imm.toNat)
      ∧ repeats (.loopi m imm) [] (BitVec.ofNat 32 m.toNat) (pc + 2 * imm.toNat)

/-! ## Vectors (06 R142 to R160) -/

/-- 06 R144, R145: packed integer arithmetic, lane by lane, modulo 2^w; the results land two cycles later (R141). -/
def Obligations.VectorIntegerResults : Prop :=
  ∀ (s : State) (z : Lane) (d a b : BitVec 4),
    let w := laneBits z
    let lane (u : Nat) (r : W128) (k : Nat) : Int := ((r.toNat / 2 ^ (u * k) % 2 ^ u : Nat) : Int)
    let two := [vid a, vid b]
    let gives (i : Instr) (srcs : List Nat) (u : Nat) (f : Nat → Int) : Prop :=
      ∃ v : W128, (∀ k, k < 128 / u → lane u v k = f k % 2 ^ u) ∧ LandsAfter i s srcs 2 [(vid d, v)]
    let x := lane w (s.rv a)
    let y := lane w (s.rv b)
    let sx (k : Nat) := (x k).bmod (2 ^ w)
    let sy (k : Nat) := (y k).bmod (2 ^ w)
    let sh (k : Nat) : Nat := (y k).toNat % w
    let sat (t : Int) : Int := max (-2 ^ (w - 1)) (min t (2 ^ (w - 1) - 1))
    let mask (q : Prop) [Decidable q] : Int := if q then -1 else 0
    gives (.vadd z d a b) two w (fun k => x k + y k) ∧ gives (.vsub z d a b) two w (fun k => x k - y k)
      ∧ gives (.vadds z d a b) two w (fun k => sat (sx k + sy k)) ∧ gives (.vsubs z d a b) two w (fun k => sat (sx k - sy k))
      ∧ gives (.vaddus z d a b) two w (fun k => min (x k + y k) (2 ^ w - 1))
      ∧ gives (.vsubus z d a b) two w (fun k => max (x k - y k) 0)
      ∧ gives (.vmin z d a b) two w (fun k => min (sx k) (sy k)) ∧ gives (.vmax z d a b) two w (fun k => max (sx k) (sy k))
      ∧ gives (.vminu z d a b) two w (fun k => min (x k) (y k)) ∧ gives (.vmaxu z d a b) two w (fun k => max (x k) (y k))
      ∧ gives (.vsll z d a b) two w (fun k => x k * 2 ^ sh k) ∧ gives (.vsrl z d a b) two w (fun k => x k / 2 ^ sh k)
      ∧ gives (.vsra z d a b) two w (fun k => sx k / 2 ^ sh k)
      ∧ gives (.vceq z d a b) two w (fun k => mask (x k = y k)) ∧ gives (.vclt z d a b) two w (fun k => mask (sx k < sy k))
      ∧ gives (.vcltu z d a b) two w (fun k => mask (x k < y k))
      ∧ gives (.vabs z d a) [vid a] w (fun k => (sx k).natAbs) ∧ gives (.vneg z d a) [vid a] w (fun k => -x k)
      ∧ gives (.vmul z d a b) two w (fun k => x k * y k) ∧ gives (.vmulh z d a b) two w (fun k => sx k * sy k / 2 ^ w)
      ∧ gives (.vsum z d a) [vid a] 32 (fun k => if k = 0 then ((List.range (128 / w)).map sx).sum else 0)
      ∧ gives (.vdot4 d a b) [vid d, vid a, vid b] 32 (fun k => lane 32 (s.rv d) k + ((List.range 4).map fun j =>
          (lane 8 (s.rv a) (4 * k + j)).bmod 256 * (lane 8 (s.rv b) (4 * k + j)).bmod 256).sum)

/-- 06 R144, R159, R160: the bitwise forms and the lane moves. -/
def Obligations.VectorMoveResults : Prop :=
  ∀ (s : State) (z : Lane) (d a b : BitVec 4) (g h n : BitVec 5),
    let w := laneBits z
    let N := 128 / w
    let lane (r : W128) (k : Nat) : Nat := r.toNat / 2 ^ (w * k) % 2 ^ w
    let x := s.rv a
    let y := s.rv b
    let gives (i : Instr) (srcs : List Nat) (f : Nat → Nat) : Prop :=
      ∃ v : W128, (∀ k, k < N → lane v k = f k) ∧ LandsAfter i s srcs 2 [(vid d, v)]
    let pair (i : Instr) (f f' : Nat → Nat) : Prop :=
      ∃ v v' : W128, (∀ k, k < N → lane v k = f k ∧ lane v' k = f' k)
        ∧ LandsAfter i s [vid a, vid b] 2 [(vid d, v), (vid d + 1, v')]
    let bits (i : Instr) (srcs : List Nat) (f : Nat → Bool) : Prop :=
      ∃ v : W128, (∀ k, k < 128 → v.getLsbD k = f k) ∧ LandsAfter i s srcs 2 [(vid d, v)]
    let joined (k : Nat) : Nat := if k < N then lane x k else lane y (k - N)
    bits (.vand d a b) [vid a, vid b] (fun k => x.getLsbD k && y.getLsbD k)
      ∧ bits (.vor d a b) [vid a, vid b] (fun k => x.getLsbD k || y.getLsbD k)
      ∧ bits (.vxor d a b) [vid a, vid b] (fun k => x.getLsbD k != y.getLsbD k)
      ∧ bits (.vandn d a b) [vid a, vid b] (fun k => x.getLsbD k && !y.getLsbD k)
      ∧ bits (.vsel d a b) [vid d, vid a, vid b] (fun k => if (s.rv d).getLsbD k then x.getLsbD k else y.getLsbD k)
      ∧ bits (.vmv d a) [vid a] (fun k => x.getLsbD k)
      ∧ gives (.vsplat z d g) [gid g] (fun _ => (s.rg g).toNat % 2 ^ w)
      ∧ (n.toNat < N → gives (.vins z d g n) [vid d, gid g] (fun k => if k = n.toNat then (s.rg g).toNat % 2 ^ w else lane (s.rv d) k))
      ∧ gives (.vshuf z d a b) [vid a, vid b] (fun k => if lane y k < N then lane x (lane y k) else 0)
      ∧ pair (.vzip z d a b) (fun k => if k % 2 = 0 then lane x (k / 2) else lane y (k / 2))
        (fun k => if k % 2 = 0 then lane x (N / 2 + k / 2) else lane y (N / 2 + k / 2))
      ∧ pair (.vuzp z d a b) (fun k => joined (2 * k)) (fun k => joined (2 * k + 1))
      ∧ LandsAfter (.vext z h a n) s [vid a] 2 [(gid h, (BitVec.ofInt 32 ((lane x n.toNat : Int).bmod (2 ^ w))).zeroExtend 128)]

/-- 06 R141, R143, R146 to R149: VFLT, lane by lane under FRM, with the arithmetic of 02 R48 and R49 that the model's FP32
functions compute; results and flags land four cycles later. -/
def Obligations.VectorFloatResults : Prop :=
  ∀ (s : State) (z : FLane) (d a b : BitVec 4),
    let w := flaneBits z
    let x := fpLanes z (s.rv a)
    let y := fpLanes z (s.rv b)
    let u := fpLanes z (s.rv d)
    let frm := s.frm
    let N := 128 / w
    let lands (i : Instr) (srcs : List Nat) (lanes : List (Nat × Flags)) : Prop :=
      LandsAfter i s srcs 4 [(vid d, packLanes w (lanes.map (·.1)))] (some (orFlags (lanes.map (·.2))))
    let each (f : Nat → Nat × Flags) : List (Nat × Flags) := (List.range N).map f
    let two (i : Instr) (f : Nat → Nat × Flags) : Prop := lands i [vid a, vid b] (each f)
    let X (k : Nat) : Nat := x.getD k 0
    let Y (k : Nat) : Nat := y.getD k 0
    let test (r : Bool × Flags) : Nat × Flags := (if r.1 then 2 ^ w - 1 else 0, r.2)
    let own (r : Nat × Flags) : Nat × Flags := (if z = .bf then r.1 / 65536 else r.1, r.2)
    two (.vfadd z d a b) (fun k => arith z (fAdd frm (X k) (Y k)))
      ∧ two (.vfsub z d a b) (fun k => arith z (fSub frm (X k) (Y k)))
      ∧ two (.vfmul z d a b) (fun k => arith z (fMul frm (X k) (Y k)))
      ∧ lands (.vfma z d a b) [vid d, vid a, vid b] (each fun k => arith z (fFma frm (X k) (Y k) (u.getD k 0)))
      ∧ two (.vfmin z d a b) (fun k => own (fMinMax false (X k) (Y k)))
      ∧ two (.vfmax z d a b) (fun k => own (fMinMax true (X k) (Y k)))
      ∧ two (.vfceq z d a b) (fun k => test (fCeq (X k) (Y k))) ∧ two (.vfclt z d a b) (fun k => test (fClt (X k) (Y k)))
      ∧ two (.vfcle z d a b) (fun k => test (fCle (X k) (Y k)))
      ∧ lands (.vfsum z d a) [vid a] [vfsumOp z frm (s.rv a)]
      ∧ lands (.vfrcp z d a) [vid a] (each fun k => arith z (fRcp frm (X k)))
      ∧ lands (.vfrsq z d a) [vid a] (each fun k => arith z (fRsq frm (X k)))
      ∧ (∃ v : W128, (∀ k, k < 128 → v.getLsbD k = ((s.rv a).getLsbD k && decide (k % w ≠ w - 1)))
        ∧ LandsAfter (.vfabs z d a) s [vid a] 4 [(vid d, v)])
      ∧ ∃ v : W128, (∀ k, k < 128 → v.getLsbD k = ((s.rv a).getLsbD k != decide (k % w = w - 1)))
        ∧ LandsAfter (.vfneg z d a) s [vid a] 4 [(vid d, v)]

/-- 06 R150 to R158: VCVT. The integer conversions and the packing of trits are said lane by lane; the others through the
model's arithmetic of 02. A `vtern.sr` takes the next SRSEQ. -/
def Obligations.ConversionResults : Prop :=
  ∀ (s : State) (d a b : BitVec 4) (g : BitVec 5) (rtz : Bool),
    let lane (u : Nat) (r : W128) (k : Nat) : Nat := r.toNat / 2 ^ (u * k) % 2 ^ u
    let sl (u : Nat) (r : W128) (k : Nat) : Int := (lane u r k : Int).bmod (2 ^ u)
    let x := s.rv a
    let y := s.rv b
    let quad := [vid a, vid a + 1, vid a + 2, vid a + 3]
    let q (k : Nat) : W128 := s.rv (BitVec.ofNat 4 (a.toNat + k))
    let exact (i : Instr) (srcs : List Nat) (u : Nat) (f : Nat → Int) : Prop :=
      ∃ v : W128, (∀ k, k < 128 / u → (lane u v k : Int) = f k % 2 ^ u) ∧ LandsAfter i s srcs 4 [(vid d, v)]
    let sat (u : Nat) (t : Int) : Int := max (-2 ^ (u - 1)) (min t (2 ^ (u - 1) - 1))
    let cvt (k : CvtKind) : Instr := .vcvt k rtz d a b
    let float (k : CvtKind) (srcs : List Nat) : Prop :=
      let r := cvtLanes k s.frm rtz x y
      LandsAfter (cvt k) s srcs 4 [(vid d, packLanes r.1 (r.2.map (·.1)))] (some (orFlags (r.2.map (·.2))))
    let terns (u : State) (sr : Bool) (draw : Nat → Option Nat) : Prop :=
      let ts := ternAll (lane 32 y 0) draw (s.quadLanes a)
      Completes (.vtern sr d a b) s (quad ++ [vid b]) [vid d] fun t => Frame u t [vid d] ∧ t.cur.regState (vid d) = .empty
        ∧ t.cur.pend = s.cur.pend ++ [{ regs := [(vid d, packLanes 8 (ts.map fun e => (e.1 % 256).toNat))]
                                        flags := some (orFlags (ts.map (·.2))), due := some (s.me.cyc + 4), mem := false }]
    float .f2bf [vid a, vid b] ∧ float .bflo2f [vid a] ∧ float .bfhi2f [vid a] ∧ float .w2f [vid a] ∧ float .f2w [vid a]
      ∧ exact (cvt .blo2h) [vid a] 16 (fun k => sl 8 x k) ∧ exact (cvt .bhi2h) [vid a] 16 (fun k => sl 8 x (k + 8))
      ∧ exact (cvt .hlo2w) [vid a] 32 (fun k => sl 16 x k) ∧ exact (cvt .hhi2w) [vid a] 32 (fun k => sl 16 x (k + 4))
      ∧ exact (cvt .h2b) [vid a, vid b] 8 (fun k => sat 8 (if k < 8 then sl 16 x k else sl 16 y (k - 8)))
      ∧ exact (cvt .w2h) [vid a, vid b] 16 (fun k => sat 16 (if k < 4 then sl 32 x k else sl 32 y (k - 4)))
      ∧ (let r := vq8bOp (s.quad a)
        LandsAfter (.vq8b d a) s quad 4 [(vid d, r.1), (vid d + 1, r.2.1)] (some r.2.2))
      ∧ (let r (j : Nat) := dq8Lanes s.frm x y j
        let v (j : Nat) := packLanes 32 ((r j).map (·.1))
        LandsAfter (.vdq8b d a b) s [vid a, vid b] 4 [(vid d, v 0), (vid d + 1, v 1), (vid d + 2, v 2), (vid d + 3, v 3)]
          (some (orFlags ([r 0, r 1, r 2, r 3].map fun l => orFlags (l.map (·.2))))))
      ∧ (let u := lane 8 y 0
        ∃ v : W128, (∀ k, k < 16 → (lane 8 v k : Int) = mx8Elem u (sl 8 x k) % 256)
          ∧ LandsAfter (.vmx8 d a b) s [vid a, vid b] 4 [(vid d, v), (vid d + 1, packLanes 16 (List.replicate 4 (mx8Scale u)))])
      ∧ terns s false (fun _ => none)
      ∧ terns (s.setCur { s.cur with srseq := s.cur.srseq + 1 }) true (fun k =>
          some ((spate s.cur.srkeyHi s.cur.srkeyLo s.cur.srseq (BitVec.ofNat 32 k)).toNat / 2 ^ 16))
      ∧ (let ts := (s.quadLanes a).map (thrOne (fpVal (lane 32 y 0)))
        LandsAfter (.vthr d a b) s (quad ++ [vid b]) 4 [(vid d, packLanes 8 (ts.map fun e => (e.1 % 256).toNat))]
          (some (orFlags (ts.map (·.2)))))
      ∧ (let trit (n : Nat) : Int := Int.sign (if n < 64 then sl 8 (q (n / 16)) (n % 16) else sl 8 y (n % 16))
        exact (.vtrpk d a b) (quad ++ [vid b]) 8 (fun k =>
          ((List.range 5).map fun j => (trit (5 * k + j) + 1) * 3 ^ j).sum))
      ∧ (let p := (s.rg g).toNat % 128
        exact (.vtrunpk d a g) [vid a, gid g] 8 (fun k =>
          let n := p + k
          if n < 80 ∧ lane 8 x (n / 5) < 243 then (lane 8 x (n / 5) / 3 ^ (n % 5) % 3 : Nat) - 1 else 0))

/-! ## The matrix unit (07) -/

/-- 07 R163, R174, R175, R178 to R180, R187: a MAT instruction that meets a full queue waits; where its operands pass their
checks it enters the queue of the unit with what it read, and with nothing else, or the buffer of a task, and its status
register is empty until it retires. The first check that fails traps, with the number of the pointer register or the e
register. A run with random rounding takes the next SRSEQ. -/
def Obligations.MatrixIssue : Prop :=
  ∀ (s : State) (n : BitVec 1) (d g : BitVec 5) (a b : BitVec 3),
    let m := s.me.mat
    let P := s.rp a
    let e0 := (s.re 0).toNat
    let bits (lo n : Nat) : Nat := e0 / 2 ^ lo % 2 ^ n
    let cmd (i : Instr) (op : MatOp) : MatCmd :=
      { op := op, word := wordOf i, core := s.core, ctx := s.ctx, att := s.cur.att, handle := s.handleOf s.core, after := s.seq }
    let at_ (c : MatCmd) : MatCmd := { c with pa := P, pregA := a.toNat }
    let status (c : MatCmd) : MatCmd := { c with target := if d = 0 then none else some { core := s.core, ctx := s.ctx, reg := d.toNat } }
    let rows (least : Nat) : Prop := bits 14 2 ≠ 0 ∨ bits 7 1 ≠ 0 ∨ bits 0 7 < least ∨ 64 < bits 0 7 ∨ 64 < bits 8 6 + bits 0 7
    let enters (i : Instr) (save : Prop) (srcs : List Nat) (e : BitVec 5) (ptrs : List (BitVec 3)) (checks : List (Prop × W32))
        (c : MatCmd) (u : State) : Prop :=
      let full := m.fmt ≠ none ∨ (8 ≤ m.queue.length ∧ ¬((m.halt = true ∨ m.preHalt = true) ∧ save))
      let badPtr (p : BitVec 3) : Prop := ptrCheck (s.recOf s.core) (s.rp p) ≠ none
      (s.inTask = false → full → WaitsIn i s srcs [gid e] s)
        ∧ (s.inTask = true ∨ ¬full →
          (∀ pre p post c, ptrs = pre ++ p :: post → (∀ q ∈ pre, ¬badPtr q) → ptrCheck (s.recOf s.core) (s.rp p) = some c →
              Traps i s srcs [gid e] c (BitVec.ofNat 32 p.toNat))
            ∧ (∀ pre x post, (∀ p ∈ ptrs, ¬badPtr p) → checks = pre ++ x :: post → (∀ q ∈ pre, ¬q.1) → x.1 →
              Traps i s srcs [gid e] .range x.2)
            ∧ ((∀ p ∈ ptrs, ¬badPtr p) → (∀ q ∈ checks, ¬q.1) →
              (s.inTask = false → Completes i s srcs [gid e]
                  (Reaches ((u.setMat s.core { m with queue := m.queue ++ [c] }).emptyRegs [gid e])))
                ∧ (s.inTask = true → s.bufferRoom 0 → Completes i s srcs [gid e] (Reaches ((u.holding (.mat c)).emptyRegs [gid e])))
                ∧ (s.inTask = true → ¬s.bufferRoom 0 → Traps i s srcs [gid e] .taskbuf s.bufferFill)))
    (∀ mode, let i : Instr := .mwld mode n d a b
      enters i False [pid a, pid b, eid 0] d [a, b] [(e0 / 2 ^ 6 ≠ 0 ∨ (mode ≠ .t5 ∧ bits 0 4 ≠ 0), s.re 0)]
        (status { at_ (cmd i (.mwld mode n.toNat)) with pb := s.rp b, e0 := s.re 0 }) s)
      ∧ (∀ round ovw cons gth,
        let i : Instr := .mrun round ovw cons gth n d a b
        let c := status { at_ (cmd i (.mrun round ovw cons gth n.toNat b.toNat)) with
          wa := s.rw a, e0 := s.re 0, e1 := if s.me.netfmt = 0 then 0 else s.re 1, e2 := if gth = true then s.re 2 else 0
          seq := if round = .sr then s.cur.srseq else 0, keyLo := if round = .sr then s.cur.srkeyLo else 0
          keyHi := if round = .sr then s.cur.srkeyHi else 0
          gather := if gth = true then s.groupLine (gatherGroup s) else 0 }
        enters i False (mrunSrcs s gth a) d [a]
          [(1 < ptrKind P, BitVec.ofNat 32 a.toNat),
            (e0 / 2 ^ 20 ≠ 0 ∨ rows 2 ∨ bits 0 1 ≠ 0 ∨ (gth = true ∧ bits 16 2 ≠ 0) ∨ (gth = false ∧ bits 16 4 ≠ 0), s.re 0),
            (s.me.netfmt ≠ 0 ∧ (if ptrKind P = 0 then 2 ^ 17 else 2 ^ 21) ≤ (s.re 1).toNat, s.re 1),
            (gth = true ∧ 2 ^ 16 ≤ (s.re 2).toNat, s.re 2)]
          c (if round = .sr then s.setCur { s.cur with srseq := s.cur.srseq + 1 } else s))
      ∧ (let i : Instr := .macz b g
        enters i False [gid g] 0 [] [] { cmd i (.macz b.toNat) with anchor := s.rg g } s)
      ∧ (∀ type, let i : Instr := .mdrain type d a b
        enters i False ([pid a, wid a, eid 0] ++ if type = .i8b4 then [eid 1] else []) d [a] [(e0 / 2 ^ 26 ≠ 0 ∨ rows 1, s.re 0)]
          (status { at_ (cmd i (.mdrain type b.toNat)) with wa := s.rw a, e0 := s.re 0, e1 := if type = .i8b4 then s.re 1 else 0 }) s)
      ∧ (∀ rdn, let i : Instr := .macc rdn b a;
        enters i False [] 0 [] [] (cmd i (.macc rdn b.toNat a.toNat)) s)
      ∧ (let i : Instr := .mstat d n
        enters i False [] d [] [] (status (cmd i (.mstat n.toNat))) s)
      ∧ (∀ what, s.ctx = 0 →
        (let i : Instr := .msave what d a b;
          enters i True [pid a] d [a] [] (status (at_ (cmd i (.msave what b.toNat)))) s)
        ∧ (let i : Instr := .mrest what d a b;
          enters i True [pid a] d [a] [] (status (at_ (cmd i (.mrest what b.toNat)))) s))

/-- 07 R189 to R191: `mfmt` waits until the unit has changed the format; `mcap` writes the capability table; `mcmd` sends a
command, read from e3 with the operands it names, to another core's unit, after the checks of its target, of the word in e3
and of the carried command. That a carried `mrun` takes e1 as the sender's format has it is the model's choice (log entry
70). -/
def Obligations.MatrixControl : Prop :=
  ∀ (s : State) (d g : BitVec 5) (a n : BitVec 3),
    let m := s.me.mat
    let P := s.rp a
    (s.ctx = 0 → (s.rg g).toNat ≤ 2 →
        (m.fmt = none → WaitsIn (.mfmt g) s [gid g] [] (s.setMat s.core { m with fmt := some ((s.rg g).truncate 2, false) }))
          ∧ (∀ v, m.fmt = some (v, false) → WaitsIn (.mfmt g) s [gid g] [] s)
          ∧ (∀ v, m.fmt = some (v, true) →
            Completes (.mfmt g) s [gid g] [] (Reaches (s.setMat s.core { m with fmt := none }))))
      ∧ (s.ctx = 0 → 2 < (s.rg g).toNat → Traps (.mfmt g) s [gid g] [] .range (s.rg g))
      ∧ (s.ctx = 0 → Completes (.mcap n g) s [gid g] []
        (Reaches (s.setMat s.core { m with caps := mset 0 m.caps n.toNat ((s.rg g).truncate 16) })))
      ∧ (s.cur.regState (eid 3) = .full →
        let form := carriedForm s (s.re 3)
        let srcs := [pid a, gid g, eid 3] ++ ((form.map MatForm.srcs).getD [])
        let traps (c : Cause) (v : W32) : Prop := Traps (.mcmd d a g) s srcs [gid d] c v
        let core := ptrKind P = 1 ∧ ptrUnit P < 8
        (∀ c, ptrCheck (s.recOf s.core) P = some c → traps c (BitVec.ofNat 32 a.toNat))
          ∧ (ptrCheck (s.recOf s.core) P = none → ¬core → traps .range (BitVec.ofNat 32 a.toNat))
          ∧ (ptrCheck (s.recOf s.core) P = none → core →
            ((∀ i, decode (s.re 3).toNat = .ok i → (∀ mode n d a b, i ≠ .mwld mode n d a b)
                ∧ (∀ r o c h n d a b, i ≠ .mrun r o c h n d a b) ∧ (∀ b a, i ≠ .macz b a) ∧ (∀ t d a b, i ≠ .mdrain t d a b)
                ∧ (∀ r b a, i ≠ .macc r b a) ∧ ∀ d n, i ≠ .mstat d n) → traps .ill (s.re 3))
              ∧ (∀ f c v, form = some f → f.capture s (s.re 3) d = .error (.trap s c v) → traps c v)
              ∧ ∀ f c u, form = some f → f.capture s (s.re 3) d = .ok (c, u) →
                let tgt := ptrBasin P * 8 + ptrUnit P
                let cap : BitVec 16 := (s.rg g).truncate 16
                (s.inTask = false → Completes (.mcmd d a g) s srcs [gid d]
                    (Reaches (({ u with net := u.net ++ [.mcmd (s.handleOf s.core) tgt cap c] } : State).emptyRegs [gid d])))
                  ∧ (s.inTask = true → s.bufferRoom 0 → Completes (.mcmd d a g) s srcs [gid d]
                    (Reaches ((u.holding (.mcmd tgt cap c)).emptyRegs [gid d])))
                  ∧ (s.inTask = true → ¬s.bufferRoom 0 → traps .taskbuf s.bufferFill)))

/-- 07 R179, R182, R185 to R188: the steps of the unit on the command that it performs next, once the accesses of its
issuer that precede it are performed (R176). That it performs one command at a time, the pieces and the order in which
it reads and writes, and the address of an access past the pointer's field are the model's choices (log entries 16, 66,
67 and 68). -/
def Obligations.MatrixSteps : Prop :=
  ∀ (s : State) (n k : Nat) (c : MatCmd), s.nextMat n = some (k, c) → c.bad = false → c.verdict = none →
    let core := s.getCore n
    let m := core.mat
    (∀ mode slot, c.op = .mwld mode slot →
        ((m.slot slot).state ≠ .loading →
          exec (.operandLatchLoad n) s = .next (s.setMat n (m.setSlot slot { state := .loading })))
        ∧ ∀ x, (m.slot slot).state = .loading → s.loadTile n mode c = .ok x →
          exec (.operandLatchLoad n) s = .next ((s.setCore n { core with
            mat := m.setSlot slot x
            dropTotal := BitVec.ofNat 32 (min (core.dropTotal.toNat + x.stats.dropped) (2 ^ 32 - 1)) }).retire n k c))
      ∧ (∀ round ovw cons gth slot ti ops, c.op = .mrun round ovw cons gth slot ti →
        let sl := m.slot slot
        let rows := e0Rows c.e0
        let row0 := e0Row0 c.e0
        let clear := ovw = true ∧ (m.tile ti).prog = 0
        let t := if clear then (m.tile ti).clearRows row0 rows else m.tile ti
        let u := s.setMat n (m.setTile ti t)
        let u := if clear then u.freshElems n ti row0 rows else u
        let t' := { runGroup core.netfmt round c sl t.prog ops t with prog := t.prog + 1 }
        let v := u.setMat n { (u.mat n).setTile ti t' with running := true }
        (m.tile ti).absent = false → sl.bad = false → sl.state = .valid → (m.tile ti).tag = core.netfmt → t.prog < groupsOf sl.kq →
        u.groupRows n core.netfmt sl.kq gth c t.prog (List.range rows) = .ok ops → u.badElem n ti row0 rows = none →
          exec (.arrayRun n) s = .next (if t.prog + 1 = groupsOf sl.kq then v.finishRun n k ti core.netfmt cons gth c sl.kq else v))
      ∧ (∀ ti, c.op = .macz ti → (m.tile ti).absent = false →
        exec (.tileZero n) s = .next (((s.setMat n (m.setTile ti { anchor := c.anchor.truncate 10, tag := core.netfmt })).freshElems
          n ti 0 64).retire n k c))
      ∧ (∀ rdn b a, c.op = .macc rdn b a → (m.tile a).absent = false → (m.tile b).absent = false →
        (m.tile b).tag = core.netfmt → (m.tile a).tag = core.netfmt → s.badElem n a 0 64 = none → s.badElem n b 0 64 = none →
          exec (.tileAdd n) s = .next ((s.setMat n (m.setTile b (addTile rdn (m.tile a) (m.tile b)))).retire n k c))
      ∧ (∀ type ti u f, c.op = .mdrain type ti → (m.tile ti).absent = false →
        s.drainRows n type (m.tile ti) (c.e0.extractLsb' 16 10).toInt ti c (List.range (e0Rows c.e0)) 0 = (u, f, none) →
          exec (.tileDrain n) s = .next ((u.orIssuer c f).retire n k c))
      ∧ (∀ slot, c.op = .mstat slot → (m.slot slot).bad = false →
        exec (.slotStatistics n) s = .next (s.leave n k c (statWord (m.slot slot))))

/-- 07 R189, R191 to R195, 15 R339: the format changes once the queue is empty; a save writes an image and a restore takes
it back, and each goes on where it was after a translation that the host has mended; a command that `msave.q` cannot read
stops (18 R369); a carried command that arrives is judged by the capability table, at once (log entry 81). The pieces in
which the unit reads and writes, the words of an image that the rules do not name, and how an image that breaks its layout
stops are the model's choices (log entries 16, 10 and 69). -/
def Obligations.MatrixServiceSteps : Prop :=
  ∀ (s : State) (n k : Nat),
    let core := s.getCore n
    let m := core.mat
    (∀ v, m.fmt = some (v, false) → m.queue = [] → exec (.formatChange n) s
        = .next (s.setCore n { core with netfmt := v, mat := { m with fmt := some (v, true) } }))
      ∧ (∀ c b u, s.nextMat n = some (k, c) → c.bad = false → c.verdict = none → ptrOff c.pa % 64 = 0 →
        let writes (image : List Byte) (v : List Byte → State) : Prop :=
          let image := if c.image = [] then image else c.image
          let r := s.writeImage n (chunksOf c.pa c.pos (image.length - c.pos)) c.pos (image.drop c.pos)
          (r = (u, none) → exec (.matrixSave n) s = .next (v image))
            ∧ ∀ pos w v t tag, r = (u, some (pos, .miss w v)) → u.openTag (quayOf (basinOf n)) w (u.getCore n).launchId = (t, tag) →
              exec (.matrixSave n) s = .next (t.setMat n { t.mat n with
                queue := (t.mat n).queue.set k { c with image := image, pos := pos, tag := tag, missVal := v } })
        let reads (len : Nat) (bs : List Byte) : Prop :=
          s.readOn n (chunksOf c.pa c.image.length (len - c.image.length)) c.image = (bs, u, none)
        (c.op = .msave .tile b → (m.tile b).absent = false → s.badElem n b 0 64 = none →
            writes (tileImage (m.tile b)) fun _ => u.retire n k c)
          ∧ (c.op = .msave .slot b → (m.slot b).bad = false → writes (slotImage (m.slot b)) fun _ => u.retire n k c)
          ∧ (c.op = .msave .queue b → m.halt = true →
            let mine := m.queue.filter fun x => !x.op.isSave
            (∀ pre bad post, c.image = [] → m.queue = pre ++ bad :: post → bad.bad = true → bad.op.isSave = false →
                (∀ x ∈ pre, x.bad = true → x.op.isSave = true) → exec (.matrixSave n) s = .next (s.stopBad n pre.length bad))
              ∧ (c.image ≠ [] ∨ (∀ x ∈ mine, x.bad = false) → writes (queueImage mine) fun image =>
                let v := u.retire n k c
                let moved := leNat (image.take 4)
                v.setMat n { v.mat n with queue := takeOut moved (v.mat n).queue
                                          moved := (v.mat n).moved ++ ((v.mat n).queue.filter fun x => !x.op.isSave).take moved }))
          ∧ (∀ bs t, c.op = .mrest .tile b → (m.tile b).absent = false → reads 8256 bs → parseTile bs = .ok t →
            exec (.matrixRestore n) s = .next (((u.setMat n ((u.mat n).setTile b t)).freshElems n b 0 64).retire n k c))
          ∧ (∀ bs x, c.op = .mrest .slot b → reads 2752 bs → parseSlot bs = .ok x →
            exec (.matrixRestore n) s = .next ((u.setMat n ((u.mat n).setSlot b x)).retire n k c)))
      ∧ ∀ h tgt cap c, s.net[k]? = some (.mcmd h tgt cap c) →
        let u : State := { s with net := s.net.eraseIdx k }
        let t := u.mat tgt
        let known := cap ≠ 0 ∧ ∃ e ∈ t.caps, e.2 = cap
        (known → t.port = [] → t.full c.op = false →
            exec (.mcmdArrival k) s = .next (u.setMat tgt { t with queue := t.queue ++ [c] }))
          ∧ (known → t.port ≠ [] ∨ t.full c.op = true → exec (.mcmdArrival k) s = .next (u.setMat tgt { t with port := t.port ++ [c] }))
          ∧ (¬known → c.target = none → exec (.mcmdArrival k) s = .next u)
          ∧ (¬known → ∀ r, c.target = some r → exec (.mcmdArrival k) s = .next (u.deliverFill c.handle r 0x11))

/-! ## Messages and tasks (08 R197 to R209) -/

/-- 08 R199 to R201: a message to a core of the launch with a legal handler word takes the next message id and travels; a
task holds it until it publishes. A register that takes the answer is empty from issue. -/
def Obligations.MessagesSent : Prop :=
  ∀ (s : State) (d a b : BitVec 5),
    let w := s.re 4
    let m : Message := { pc := BitVec.ofNat 17 w.toNat, level := BitVec.ofNat 2 (w.toNat / 2 ^ 30) }
    let answer : RegTarget := { core := s.core, ctx := s.ctx, reg := d.toNat }
    let handler := w.toNat / 2 ^ 17 % 2 ^ 13 = 0 ∧ w.toNat % 2 = 0
    let sends (i : Instr) (srcs : List Nat) (e : BitVec 5) (tgt : W32) (msg : Message) (status : Bool) : Prop :=
      let r := if status = true ∧ e ≠ 0 then some answer else none
      let k := s.me
      let sent : State := { s.setMe { k with msgSeq := k.msgSeq + 1 } with
        net := s.net ++ [.msg (s.handleOf s.core) s.core s.ctx tgt.toNat
          { msg with id := BitVec.ofNat 32 (s.core * 2 ^ 18 + k.msgSeq.toNat) } w r s.seq] }
      let inSet := (s.recOf s.core).hasCore tgt.toNat
      (inSet = false → Traps i s srcs [gid e] .range tgt)
        ∧ (inSet = true → ¬handler → Traps i s srcs [gid e] .range w)
        ∧ (inSet = true → handler → s.inTask = false → Completes i s srcs [gid e] (Reaches (sent.emptyRegs [gid e])))
        ∧ (inSet = true → handler → s.inTask = true → s.bufferRoom (if msg.call then 16 else 8) →
          Completes i s srcs [gid e] (Reaches ((s.holding (.send tgt.toNat msg w (if status then e.toNat else 0))).emptyRegs [gid e])))
    let g (k : Nat) : W32 := s.rg (BitVec.ofNat 5 (b.toNat + k))
    sends (.send a b) [gid a, gid b, eid 4, eid 5] 0 (s.rg a) { m with arg0 := s.rg b, arg1 := s.re 5 } true
      ∧ sends (.sendw d a b) [gid a, gid b, eid 4, eid 5] d (s.rg a) { m with arg0 := s.rg b, arg1 := s.re 5 } true
      ∧ sends (.spawn d a b) [gid a, gid b, eid 4] d (BitVec.ofNat 32 s.core) { m with arg0 := s.rg a, arg1 := s.rg b } true
      ∧ sends (.callat d a b) [gid a, gid b, gid b + 1, gid b + 2, gid b + 3, eid 4] d (s.rg a)
        { m with call := true, arg0 := g 0, arg1 := g 1, arg2 := g 2, arg3 := g 3
                 reply := if d = 0 then 0 else BitVec.ofNat 32 (2 ^ 31 + s.core * 2 ^ 9 + s.ctx * 2 ^ 5 + d.toNat) } false

/-- 08 R202, R203, R207: `reply` once to a valid reply target; `start` of an idle helper by c0, whose registers and state
are those of 01 R28 and whose registers hold no error (18 R368); the fields that `tmsg` reads, 0 outside a task. -/
def Obligations.RepliesAndStarts : Prop :=
  ∀ (s : State) (d a b : BitVec 5) (n : BitVec 3),
    let x := s.cur
    let c := (s.rg a).toNat
    let pc := s.rg b
    let y := s.getCtx s.core c
    let r := s.recOf s.core
    let traps (v : W32) (e : Cause) : Prop := Traps (.start a b) s [gid a, gid b, eid 0, eid 1] [] e v
    let new : Ctx := { status := .ready, pc := pc.truncate 17, spillBase := y.spillBase, spillTop := y.spillBase
                       linkLimit := y.linkLimit, srkeyLo := r.srkeyLo, srkeyHi := r.srkeyHi, srseq := r.srseq, att := y.att + 1
                       epoch := y.epoch }
    (∀ t, x.task = some t → t.replied = false → t.msg.reply.getLsbD 31 = true → s.bufferRoom 4 →
        Completes (.reply a) s [gid a] [] (Reaches (s.setCur { x with
          held := x.held ++ [.reply (s.rg a)], task := some { t with replied := true } })))
      ∧ (x.task = none ∨ (∃ t, x.task = some t ∧ (t.replied = true ∨ t.msg.reply.getLsbD 31 = false)) →
        Traps (.reply a) s [gid a] [] .range 0)
      ∧ (s.ctx = 0 → c < 1 ∨ 10 < c → traps (s.rg a) .range)
      ∧ (s.ctx = 0 → 1 ≤ c → c ≤ 10 → y.status ≠ .idle → traps (s.rg a) .range)
      ∧ (s.ctx = 0 → 1 ≤ c → c ≤ 10 → y.status = .idle → 0x1FFFE < pc.toNat → traps pc .range)
      ∧ (s.ctx = 0 → 1 ≤ c → c ≤ 10 → y.status = .idle → pc.toNat ≤ 0x1FFFE → pc.toNat % 2 = 1 → traps pc .align)
      ∧ (s.ctx = 0 → 1 ≤ c → c ≤ 10 → y.status = .idle → pc.toNat ≤ 0x1FFFE → pc.toNat % 2 = 0 →
        s.accessPending s.core s.ctx .core = false → Completes (.start a b) s [gid a, gid b, eid 0, eid 1] []
          (Reaches ((s.clearCtx s.core c).setCtx s.core c { (new.wg 1 (s.re 0)).wg 2 (s.re 1) with started := true })))
      ∧ (x.task = none → SetsG (.tmsg d n) s [] d 0)
      ∧ ∀ t, x.task = some t → SetsG (.tmsg d n) s [] d (match n.toNat with
        | 0 => BitVec.ofNat 32 t.msg.pc.toNat
        | 1 => t.msg.arg0
        | 2 => t.msg.arg1
        | 3 => t.msg.id
        | 4 => if t.msg.call then t.msg.arg2 else 0
        | 5 => if t.msg.call then t.msg.arg3 else 0
        | 6 => if t.msg.call then t.msg.reply else 0
        | _ => BitVec.ofNat 32 t.msg.level.toNat)

/-- 05 R117, 11 R285, 08 R206, R208, R209, R226: commit points publish what a task holds. Its held effects are performed in
program order, after which its buffer is empty and it is no longer retryable; the first that fails traps with its own cause
and TRAP_VAL at the commit point, and no effect after it is performed. A first commit point waits for the task's transfers
(R134). `done` and `idle` then end the run of the context, once its transfers, its matrix commands and its ring stores have
ended and it has no fault to take; `waitf` checks its address, and goes on once a read of the word it names, at issue or at
a write since (O50), found it large enough, and `isync` once the context's stores are performed, and its pops (09 R239),
after which the context fetches anew. That a pop which still waits is withdrawn when the run of its context ends, and the
order of the faults of `waitf`, are the model's choices (log entries 63 and 75). -/
def Obligations.CommitPoints : Prop :=
  (∀ (s : State) (t : TaskRun), s.cur.task = some t →
    let n := s.core
    let c := s.ctx
    let held := s.cur.held
    let w := s.setCur { s.cur with publishing := true, task := some { t with retryable := false } }
    let free := t.retryable = false ∨ s.xferBusy n c s.cur.att = false
    (¬free → WaitsIn .commit s [] [] s)
      ∧ (∀ u, free → PerformsAll n c [] held w u →
        (u.storesBefore n c u.seq true = true → WaitsIn .commit s [] [] u)
          ∧ (u.storesBefore n c u.seq true = false →
            s.publish = .ok (u.setCur { u.cur with publishing := false }) ∧ u.core = n ∧ u.ctx = c ∧ u.cur.held = []
              ∧ u.cur.task = some { t with retryable := false }))
      ∧ ∀ pre h post u x cause v, free → held = pre ++ h :: post → PerformsAll n c (h :: post) pre w u → u.quiet n c →
        FailsHeld n h u x cause v → Traps .commit s [] [] cause v x)
  ∧ (∀ (s : State) (n c b k : Nat), let f := s.fifo b k
    (s.withdrawPops n c).fifo b k = { f with pops := f.pops.filter fun p => !(p.core == n && p.ctx == c) })
  ∧ ∀ (s v : State) (a b : BitVec 5), s.publish = .ok v →
    let busy := v.xfersOf v.core v.ctx ≠ [] ∨ v.matBusy v.core v.ctx v.cur.att = true ∨ v.ringBusy v.core v.ctx = true
      ∨ v.cur.deferred ≠ []
    let ended := (v.withdrawPops v.core v.ctx).setCur { v.cur.landAll with status := .idle, task := none, started := false, held := [] }
    let ends (i : Instr) : Prop := (¬busy → Becomes i s [] [] ended) ∧ (busy → WaitsIn i s [] [] v)
    let off := (v.rg a).toNat
    let key := localKey v.core off
    let left := v.dropWatch v.core v.ctx
    let watch := v.watchOf off (v.rg b)
    let earlier := v.priorPending v.core v.ctx v.seq = true
    let traps (c : Cause) : Prop := Traps (.waitf a b) s [gid a, gid b] [] c (v.rg a) v
    (∀ i, i = .commit ∨ i = .hCommit → Becomes i s [] [] v)
      ∧ (∀ i, i = .done ∨ i = .hDone → s.ctx ≠ 0 → ends i)
      ∧ (s.inTask = false → ends .idle)
      ∧ (off % 4 ≠ 0 → traps .align) ∧ (off % 4 = 0 → 0x1FFFC < off → traps .range)
      ∧ (off ≤ 0x1FFFC → off % 4 = 0 →
        (watch = none →
          (v.lineState (key / 64) = .dropped → traps .overread)
            ∧ (∀ g, v.lineState (key / 64) ≠ .dropped → v.badGranule key 4 = some g →
              MeetsUe (.waitf a b) s [gid a, gid b] [] (g * 8) off (v.rg a) v)
            ∧ (v.lineState (key / 64) ≠ .dropped → v.badGranule key 4 = none →
              ((v.rg b).toNat ≤ v.memNat key 4 → Becomes (.waitf a b) s [gid a, gid b] [] left)
                ∧ (v.memNat key 4 < (v.rg b).toNat → WaitsIn (.waitf a b) s [gid a, gid b] [] { left with
                  watches := { core := v.core, ctx := v.ctx, off := off, need := v.rg b } :: left.watches })))
          ∧ ∀ w, watch = some w →
            (w.hit = some none → Becomes (.waitf a b) s [gid a, gid b] [] left)
              ∧ (w.hit = none → WaitsIn (.waitf a b) s [gid a, gid b] [] { left with watches := w :: left.watches })
              ∧ ∀ c, w.hit = some (some c) → c ≠ .ue → traps c)
      ∧ (¬earlier → Becomes .isync s [] [] (v.refetch v.core v.ctx)) ∧ (earlier → WaitsIn .isync s [] [] v)

/-! ## Barriers and engine commands (08 R210 to R218) -/

/-- 08 R210 to R214: the barrier instructions on an id that the launch record grants, and the arrival that the network
performs, whose release reaches every context that waits for its phase. An id that is not granted faults RANGE; an arrival
or a wait whose object is broken, or set anew, faults BAROVER with the id. That `bartest` and a released `barwait` write at
issue, and that `barinit` checks its id first, are the model's choices (log entries 15 and 75). -/
def Obligations.BarrierResults : Prop :=
  ∀ (s v : State) (d a b : BitVec 5) (exp : Bool),
    let granted (u : State) : Prop := let r := u.recOf u.core
      r.baren = true ∧ r.barlo ≤ (u.rg a).toNat ∧ (u.rg a).toNat ≤ r.barhi ∧ (u.rg a).toNat ≤ 255
    let id := (s.rg a).toNat
    let y := s.getBar id
    let n := (s.rg b).toNat
    let vy := v.getBar (v.rg a).toNat
    let bit := (v.rg b).getLsbD 0
    let free := v.setCur { v.cur with bar := .none }
    let pending := v.flagsPending v.core v.ctx = true ∨ v.accessPending v.core v.ctx .pkg = true
    let traps (i : Instr) (c : Cause) (x : W32) : Prop := Traps i s [gid a, gid b] [gid d] c x v
    let arrives (i : Instr) (drop : Bool) : Prop :=
      (v.cur.bar = .none → ¬granted v → traps i .range (v.rg a))
        ∧ (v.cur.bar = .none → granted v → ¬pending →
          WaitsIn i s [gid a, gid b] [gid d] (v.setCur { v.cur with bar := .sent (v.rg a).toNat bit drop v.cur.fflags }))
        ∧ (v.cur.bar = .none → granted v → pending → WaitsIn i s [gid a, gid b] [gid d] v)
        ∧ (∀ obj ph dr fl, v.cur.bar = .sent obj ph dr fl → WaitsIn i s [gid a, gid b] [gid d] v)
        ∧ (∀ next, v.cur.bar = .done next → Becomes i s [gid a, gid b] [gid d] (free.wg d (if next then 1 else 0)))
        ∧ ∀ obj, v.cur.bar = .over obj → traps i .barover (BitVec.ofNat 32 obj)
    (¬granted s → Traps (.bartest d a exp) s [gid a] [gid d] .range (s.rg a))
      ∧ (s.ctx = 0 → ¬granted s → Traps (.barinit a b) s [gid a, gid b] [] .range (s.rg a))
      ∧ (granted s → y.bad = false → SetsG (.bartest d a exp) s [gid a] d (BitVec.ofNat 32 ((if y.brk then 2 ^ 31 else 0)
        + (if y.ph then 2 ^ 30 else 0) + y.rfl.toNat * 2 ^ 16 + (if exp then y.exp.toNat else y.arr.toNat))))
      ∧ (s.ctx = 0 → granted s → n < 1 ∨ 65535 < n → Traps (.barinit a b) s [gid a, gid b] [] .range (s.rg b))
      ∧ (s.ctx = 0 → granted s → 1 ≤ n → n ≤ 65535 → Completes (.barinit a b) s [gid a, gid b] []
        (Reaches ((s.setBar id { exp := BitVec.ofNat 16 n }).failWaiters id)))
      ∧ (s.publish = .ok v →
        arrives (.bararr d a b) false ∧ arrives (.bardrop d a b) true
          ∧ (∀ fl, v.cur.bar = .freed fl →
            Becomes (.barwait d a b) s [gid a, gid b] [gid d] (free.wg d (BitVec.ofNat 32 fl.toNat)))
          ∧ (∀ obj, v.cur.bar = .over obj → traps (.barwait d a b) .barover (BitVec.ofNat 32 obj))
          ∧ ((∀ obj, v.cur.bar ≠ .over obj) → (∀ fl, v.cur.bar ≠ .freed fl) →
            (¬granted v → traps (.barwait d a b) .range (v.rg a))
              ∧ (granted v → vy.bad = false → vy.brk = true → traps (.barwait d a b) .barover (v.rg a))
              ∧ (granted v → vy.bad = false → vy.brk = false →
                (vy.ph = bit → Becomes (.barwait d a b) s [gid a, gid b] [gid d] (free.wg d (BitVec.ofNat 32 vy.rfl.toNat)))
                  ∧ (vy.ph ≠ bit →
                    WaitsIn (.barwait d a b) s [gid a, gid b] [gid d] (v.setCur { v.cur with bar := .wait (v.rg a).toNat bit })))))
      ∧ ∀ core ctx obj phase drop flags, (s.getCtx core ctx).bar = .sent obj phase drop flags →
        let o := s.getBar obj
        let drops := o.drops + if drop then 1 else 0
        let o' : Barrier := if o.arr + 1 = o.exp
          then { o with rfl := o.acc ||| flags, acc := 0, arr := 0, ph := !o.ph, exp := o.exp - BitVec.ofNat 16 drops, drops := 0 }
          else { o with acc := o.acc ||| flags, arr := o.arr + 1, drops := drops }
        let w := if o.arr + 1 = o.exp
          then (s.setBar obj o').wakeWaiters obj fun ph => if ph = !o.ph then .freed o'.rfl else .wait obj ph
          else s.setBar obj o'
        let f := (s.setBar obj { o with brk := true, bad := false }).failWaiters obj
        o.bad = false →
          (o.brk = false → phase = o.ph → o.exp ≠ 0 → exec (.barrierArrival core ctx) s
              = .next (w.setCtx core ctx { w.getCtx core ctx with bar := .done (!phase) }))
            ∧ (o.brk = true ∨ phase ≠ o.ph ∨ o.exp = 0 → exec (.barrierArrival core ctx) s
              = .next (f.setCtx core ctx { f.getCtx core ctx with bar := .over obj }))

/-- 08 R215 to R218, 10 R265, 12 R300, R307: `kick` gives the tug of the basin a command, `keep` gives the keeper a request,
each after the earlier accesses of its context, and `ktest` tells what became of one; one of a saved launch is pending. A
`keep`, and a `kick` that answers, publish first, whatever their checks find (R209). That `ktest` writes at issue, and the
order of the refusals of `keep`, are the model's choices (log entries 15 and 23). -/
def Obligations.EngineCommands : Prop :=
  ∀ (s v : State) (d a : BitVec 5) (kp : Bool),
    let off := s.rg a
    let voff := s.rg a
    let b := basinOf s.core
    let x := v.getBasin b
    let reg : RegTarget := { core := v.core, ctx := v.ctx, reg := d.toNat }
    let answer (u : State) (w : W32) : State := if d = 0 then u else (u.emptyRegs [gid d]).sendFill (v.handleOf v.core) reg w
    let cmd : TugCmd := { token := x.tug.next.toNat, basin := b, core := v.core, ctx := v.ctx, att := v.cur.att
                          handle := v.handleOf v.core, off := voff.toNat, after := v.seq }
    let good (w : W32) : Prop := w.toNat % 64 = 0 ∧ w.toNat ≤ 0x1FFC0
    let stops (i : Instr) (c : Cause) : Prop := Traps i s [gid a] [gid d] c voff v
    let checks (i : Instr) : Prop := (voff.toNat % 64 ≠ 0 → stops i .align)
      ∧ (voff.toNat % 64 = 0 → 0x1FFC0 < voff.toNat → stops i .range)
    let basin := s.getBasin b
    let tok := (s.rg a).toNat % 65536
    let holds (y : Basin) : Prop := if kp then ∃ r ∈ y.keeper.reqs, r.token = tok else ∃ c ∈ y.tug.cmds, c.token = tok
    let pending := holds basin ∨ ∃ o ∈ s.objs, ∃ l v, o.2.launch = some l ∧ l.save = some v ∧ ∃ e ∈ v.basins, e.1 = b ∧ holds e.2
    let ahead := v.priorPending v.core v.ctx v.seq
    let age := (((if kp then basin.keeper.next else basin.tug.next) - BitVec.ofNat 16 tok : BitVec 16)).toNat
    let ended := (if kp then basin.keeper.ended else basin.tug.ended).find? fun e => e.1 == tok
    let tells (w : Nat) : Prop := SetsG (.ktest d a kp) s [gid a] d (BitVec.ofNat 32 w)
    (s.inTask = true → d = 0 →
        (off.toNat % 64 ≠ 0 → Traps (.kick d a) s [gid a] [gid d] .align off)
          ∧ (off.toNat % 64 = 0 → 0x1FFC0 < off.toNat → Traps (.kick d a) s [gid a] [gid d] .range off)
          ∧ (good off → s.bufferRoom 0 → Completes (.kick d a) s [gid a] [gid d] (Reaches (s.holding (.kick off b)))))
      ∧ (s.inTask = false ∨ d ≠ 0 → s.publish = .ok v →
        checks (.kick d a)
          ∧ (good voff → v.accessPending v.core v.ctx .basin = false →
            (v.tugFull b = true ∨ v.kicksOut v.core v.ctx b = true → WaitsIn (.kick d a) s [gid a] [gid d] v)
              ∧ (v.tugFull b = false → v.kicksOut v.core v.ctx b = false → Becomes (.kick d a) s [gid a] [gid d]
                (answer (v.setBasin b { x with tug := { x.tug with next := x.tug.next + 1, cmds := x.tug.cmds ++ [cmd] } })
                  (BitVec.ofNat 32 cmd.token)))))
      ∧ (s.publish = .ok v → v.core = s.core →
        checks (.keep d a)
          ∧ (good voff → ahead = true → WaitsIn (.keep d a) s [gid a] [gid d] v)
          ∧ (good voff → ahead = false → 4 ≤ x.keeper.reqs.length → Becomes (.keep d a) s [gid a] [gid d] (answer v 1))
          ∧ ∀ blk bad, good voff → ahead = false → x.keeper.reqs.length < 4 → v.readBlock v.core voff.toNat = (blk, bad) →
            let req : KeepReq := { token := x.keeper.next.toNat, core := v.core, ctx := v.ctx, att := v.cur.att
                                   handle := v.handleOf v.core, off := voff.toNat, block := blk, after := v.seq }
            let taken (r : KeepReq) : State := v.setBasin b { x with keeper := { x.keeper with
              next := x.keeper.next + 1, reqs := x.keeper.reqs ++ [r] } }
            let accepts (u : State) : Prop := Becomes (.keep d a) s [gid a] [gid d]
              (answer u (BitVec.ofNat 32 (x.keeper.next.toNat * 2 ^ 16)))
            (bad = none → (∃ o, keeperBad (v.recOf v.core) blk = some o) → Becomes (.keep d a) s [gid a] [gid d] (answer v 2))
              ∧ (bad = none → keeperBad (v.recOf v.core) blk = none → accepts (taken req))
              ∧ ∀ c o key, bad = some (c, o, key) →
                let u := taken { req with result := some (c, BitVec.ofNat 32 (voff.toNat + o)), noCompletion := decide (o < 16) }
                accepts (if c = .ue then u.meetUe (some (v.handleOf v.core)) v.core v.ctx key (voff.toNat + o) else u))
      ∧ (pending → tells 0)
      ∧ (¬pending → age = 0 ∨ 256 < age → tells 3)
      ∧ (¬pending → 1 ≤ age → age ≤ 256 → (ended = none → tells 3)
        ∧ ∀ k c, ended = some (k, c) → tells (if c = .none then 1 else causeCode c * 256 + 2))

/-! ## The tug and the keeper (12) -/

/-- 12 R293 to R305: the steps of the tug. A command whose block passes its checks starts; its boxes are performed, each
followed by the decrements of the lines it is the last to read (09 R249), or stop it; then its completion word is written
and it leaves. A line found dropped stops the command (10 R271), and decrements whose translation fails go on after it,
their box not complete before (R300). What a box that fails leaves, the order of the accesses of a box, and that a CDEL of
no bytes has no handler task, are the model's choices (log entries 24, 79 and 64). -/
def Obligations.TugSteps : Prop :=
  ∀ (s : State) (b t : Nat) (c : TugCmd), s.findTug b t = some c →
    let tug := (s.getBasin b).tug
    (∀ blk op i, (op, i) ∈ [((1 : Nat), Instr.lin b t), (2, .patch b t), (3, .cdel b t), (4, .host b t), (5, .tern b t)] →
        let c' : TugCmd := { c with started := true, block := blk }
        s.tugBlock c = (blk, none) → blkOp blk = op → tug.mayStart c (blkSer blk) = true → tug.imemBad = false → c.imem = false →
        s.priorPending c.core c.ctx c.after = false →
          ((tugBad (s.recOf c.core) blk = none ∧ ¬(op = 3 ∧ blkHnd blk = true ∧ handCore c' = none) →
              exec i s = .next (s.setTug b { c' with nboxes := boxCount blk }))
            ∧ (tugBad (s.recOf c.core) blk = none → op = 3 → blkHnd blk = true → handCore c' = none →
              exec i s = .next (s.setTug b { c' with stop := some (.range, ptrLow (blkPtr blk 0x18)) }))
            ∧ ∀ o, tugBad (s.recOf c.core) blk = some o → exec i s
              = .next (s.setTug b { c' with stop := some (.ill, BitVec.ofNat 32 o), noCompletion := decide (o < 16) })))
      ∧ (∀ i u k inv, s.boxReady c i = true → tug.imemBad = false → c.decs = none → s.runBox b c i = .done u k inv →
        let c' : TugCmd := { c with boxes := mset false c.boxes i true, ringOut := c.ringOut + k, invg := c.invg || inv
                                    resume := 0, resumeBox := 0, boxed := false, pinned := none }
        exec (.tugBox b t i) s = .next ((u.setTug b c').boxDecs b c' i))
      ∧ (∀ i ls, s.boxReady c i = true → tug.imemBad = false → c.decs = some ls →
        let c' : TugCmd := { c with boxes := mset false c.boxes i true, resumeBox := 0, boxed := false, decs := none }
        exec (.tugBox b t i) s = .next ((s.setTug b c').makeDecs b c' i ls))
      ∧ (∀ (w : State) i l ls,
        let P := setOff c.src ((ptrWidth c.src).getD 0) ((64 * l : Nat) : Int)
        let r := w.resolve c.core P 1 1 .dec .any .tug c.basin
        let back : TugCmd := { c with boxes := mset false c.boxes i false }
        w.makeDecs b c i [] = w
          ∧ (∀ p u, r = .ok (.mem [p], u) →
            (u.lineState (p.key / 64) ≠ .dropped → w.makeDecs b c i (l :: ls) = (u.decLine (p.key / 64)).makeDecs b c i ls)
              ∧ (u.lineState (p.key / 64) = .dropped →
                w.makeDecs b c i (l :: ls) = u.setTug b { back with stop := some (.overread, ptrLow P) }))
          ∧ ∀ m u tag, r = .error (.miss m) → w.openTag (quayOf c.basin) m (w.getCore c.core).launchId = (u, tag) →
            w.makeDecs b c i (l :: ls) = u.setTug b { back with
              boxed := true, resumeBox := i, decs := some (l :: ls), tag := tag, missVal := ptrLow P })
      ∧ (∀ i u j k f cause, s.boxReady c i = true → tug.imemBad = false → c.decs = none → s.runBox b c i = .fail u j k f →
          f.fail = .cause cause →
        let c' : TugCmd := { c with stop := some (cause, f.val), resume := j, resumeBox := i, boxed := s.goesOn c, ringOut := c.ringOut + k
                                    pinned := none }
        exec (.tugBox b t i) s = .next (u.setTug b c'))
      ∧ (∀ i, s.boxReady c i = true → tug.imemBad = true → exec (.tugBox b t i) s = .next (s.readImem b c))
      ∧ (c.worked = true → c.tag = none → c.ringOut = 0 →
        let ends (u : State) (w : Option Cause) : Prop :=
          let v := u.completeEngine c.ending w
          let x := v.getBasin b
          exec (.tugCompletion b t) s = .next (v.setBasin b { x with tug := { x.tug with
            cmds := x.tug.cmds.filter fun y => y.token != t, ended := ((t, c.ending.cause) :: x.tug.ended).take 272 } })
        (∀ w, c.cword = some w → ends s w)
          ∧ (c.cword = none → c.verdict = none →
            ¬(c.stop = none ∧ blkOp c.block = 3 ∧ blkHnd c.block = true ∧ c.handed = false ∧ c.len ≠ 0) →
            ∀ u w k, s.writeCword c.ending (.tug b c.token) = .ok (u, w, k) →
              (k = 0 → ends u w)
                ∧ (0 < k → exec (.tugCompletion b t) s = .next (u.setTug b { c with ringOut := k, cword := some w }))))

/-- 12 R293, R306 to R311: a store to the KICK register gives a command while the tug has room; the keeper runs the request
at the head of its queue, and completes it. The model's choices in it: that a request runs in one step, that a store to KICK
of a launch saved away waits, and what a ring write of a request that fails leaves (log entries 23, 58 and 59). -/
def Obligations.KeeperSteps : Prop :=
  ∀ (s : State) (b : Nat),
    let x := s.getBasin b
    (∀ r rest u k i run, x.keeper.reqs = r :: rest → r.result = none → r.tag = none →
        s.priorPending r.core r.ctx r.after = false →
        (blkOp r.block, i, run) ∈ [((1 : Nat), Instr.bin b, s.keepBin r), (2, .merge b, s.keepMerge r false),
          (3, .isect b, s.keepMerge r true), (4, .part b, s.keepPart r),
          (5, .scan b, s.keepScan r (List.range (blkWord r.block 0x28).toNat) (blkWord r.block 0x2C).toNat)] →
        ∀ v, run = .ok (k, u) → u.keepRes r k = .ok v →
          exec i s = .next (v.setKeep b { r with result := some (.none, BitVec.ofNat 32 k), verdict := none
                                                 ringOut := v.keeperRing b r.token }))
      ∧ (∀ r rest cause val, x.keeper.reqs = r :: rest → r.result = some (cause, val) → r.tag = none → r.ringOut = 0 →
        let ends (u : State) (w : Option Cause) : Prop :=
          let v := u.completeEngine (r.ending cause val) w
          let y := v.getBasin b
          exec (.keeperCompletion b) s = .next (v.setBasin b { y with keeper := { y.keeper with
            reqs := y.keeper.reqs.tail, ended := ((r.token, cause) :: y.keeper.ended).take 272 } })
        (∀ w, r.cword = some w → ends s w)
          ∧ (r.cword = none → r.verdict = none →
            ∀ u w k, s.writeCword (r.ending cause val) (.keeper b r.token) = .ok (u, w, k) →
              (k = 0 → ends u w)
                ∧ (0 < k → exec (.keeperCompletion b) s = .next (u.setKeep b { r with ringOut := k, cword := some w }))))
      ∧ ∀ pre post h n c att v m, s.net = pre ++ .kick h n c att b v m :: post →
        (∀ h' att' v' m', Flight.kick h' n c att' b v' m' ∉ pre) → (∀ w, w ≠ v → exec (.kickRegisterStore n c b w) s = .next s) ∧
        (s.tugFull b = true ∨ s.savedAway h = true → exec (.kickRegisterStore n c b v) s = .next s)
          ∧ (s.tugFull b = false → s.savedAway h = false →
            let cmd : TugCmd := { token := x.tug.next.toNat, basin := b, core := n, ctx := c, att := att, handle := h, off := v.toNat % 131072
                                  after := m }
            exec (.kickRegisterStore n c b v) s = .next (({ s with net := pre ++ post } : State).setBasin b { x with
              tug := { x.tug with next := x.tug.next + 1, cmds := x.tug.cmds ++ [cmd] } }))

/-! ## System registers (08 R219 to R222, R229; 01 R33, R34) -/

/-- 08 R220 to R222: what `mfs` reads of each system register and what `mts` writes of it. Read-only and reserved fields
ignore a write, and so do the fields of CNT_LIMIT and MSTAT.HALT in a helper. Where the write stands at the end of a repeat
and its register is RC, LS or LE, that the new values decide the next pass is the model's choice (log entry 19). -/
def Obligations.SystemRegisters : Prop :=
  ∀ (s : State) (d a : BitVec 5),
    let x := s.cur
    let k := s.me
    let v := s.rg a
    let bits (n : Nat) : W32 := BitVec.ofNat 32 n
    let reads (r : Nat) (w : W32) : Prop := SetsG (.mfs d (BitVec.ofNat 6 r)) s [] d w
    let writes (r : Nat) (u : State) : Prop := Becomes (.mts (BitVec.ofNat 6 r) a) s [gid a] [] u
    let ctx (r : Nat) (y : Ctx) : Prop := writes r (s.setCur y)
    let cls := x.sel.toNat / 4
    let idx := x.sel.toNat % 4
    let code (j : Nat) : Nat := match x.regState (cls * 32 + idx * 8 + j) with
      | .empty => 0
      | .full => 1
      | .absent => 2
    let states := if cls ≤ 4 ∧ (cls = 0 ∨ (cls = 1 ∧ idx < 2) ∨ (2 ≤ cls ∧ idx = 0))
      then ((List.range 8).map fun j => code j * 4 ^ j).sum else 0xFFFF
    let regions := ((List.range 8).map fun i => if (mget none k.regions i).isSome then 2 ^ i else 0).sum
    let flag (b : Bool) (n : Nat) : Nat := if b then 2 ^ n else 0
    let slot (y : Slot) : Nat := match y.state with
      | .empty => 0
      | .loading => 1
      | .valid => 2
    let m := k.mat
    let attempt := (x.task.map fun t => t.msg.attempt).getD 0
    (reads 0 (bits s.core) ∧ reads 1 (bits (flag x.task.isSome 8 + s.ctx)) ∧ reads 2 (bits k.launchId.toNat)
        ∧ reads 3 (bits k.spaceId.toNat) ∧ reads 4 ((x.task.map fun t => t.msg.id).getD 0)
        ∧ reads 5 (bits (flag x.inh 31 + x.code.toNat)) ∧ reads 6 (bits (x.trapPc.toNat * 2)) ∧ reads 7 x.trapVal
        ∧ reads 8 (bits (x.trapVec.toNat * 2)) ∧ reads 9 x.rc ∧ reads 10 (bits (x.ls.toNat * 2))
        ∧ reads 11 (bits (x.le.toNat * 2)) ∧ reads 12 x.prog
        ∧ reads 13 (bits (x.spillBase.toNat * 2 ^ 17 + x.spillTop.toNat * 4)) ∧ reads 14 (bits (x.linkLimit.toNat * 4))
        ∧ (s.flagsPending s.core s.ctx = false → reads 15 (bits x.fflags.toNat)) ∧ reads 16 (bits x.frm.toNat)
        ∧ reads 17 (bits k.netfmt.toNat) ∧ reads 18 x.srkeyLo ∧ reads 19 x.srkeyHi ∧ reads 20 x.srseq ∧ reads 21 x.budget
        ∧ reads 22 (bits (attempt % 8 * 16 + (s.recOf s.core).retry.toNat)) ∧ reads 23 k.cntLimit
        ∧ reads 24 (bits (regions * 2 ^ 24 + k.pstall.toNat))
        ∧ reads 25 (bits (min 8 m.queue.length * 2 ^ 20 + slot m.slot1 * 2 ^ 18 + slot m.slot0 * 2 ^ 16
          + flag m.quiet 1 + flag m.halt 0))
        ∧ reads 26 k.dropTotal ∧ reads 27 (bits (s.bootReason.toNat * 2 ^ 24 + s.bootMode.toNat))
        ∧ ((∀ id ∈ stateIds x.sel, x.regState id ≠ .absent) →
          reads 28 (bits (flag x.fov 31 + x.fovreg.toNat * 2 ^ 23 + x.sel.toNat * 2 ^ 16 + states))))
      ∧ (∀ r, r ∈ [0, 1, 2, 3, 4, 17, 21, 22, 27] → writes r s)
      ∧ ctx 5 { x with inh := v.getLsbD 31, code := v.extractLsb' 0 8 } ∧ ctx 6 { x with trapPc := v.extractLsb' 1 16 }
      ∧ ctx 7 { x with trapVal := v } ∧ ctx 8 { x with trapVec := v.extractLsb' 1 16 }
      ∧ ctx 9 { x with rc := v } ∧ ctx 11 { x with le := v.extractLsb' 1 16 }
      ∧ ctx 10 { x with ls := v.extractLsb' 1 16 } ∧ ctx 12 { x with prog := v }
      ∧ ctx 13 { x with spillBase := v.extractLsb' 17 15, spillTop := v.extractLsb' 2 15 }
      ∧ ctx 14 { x with linkLimit := v.extractLsb' 2 15 }
      ∧ (s.flagsPending s.core s.ctx = false → ctx 15 { x with fflags := v.extractLsb' 0 5 })
      ∧ ctx 16 { x with frm := v.extractLsb' 0 2 } ∧ ctx 18 { x with srkeyLo := v } ∧ ctx 19 { x with srkeyHi := v }
      ∧ ctx 20 { x with srseq := v }
      ∧ writes 23 (if s.ctx = 0 then s.setMe { k with cntLimit := v } else s)
      ∧ writes 24 (s.setMe { k with pstall := v.extractLsb' 0 16 })
      ∧ writes 25 (if s.ctx = 0 then s.setMe { k with mat := { m with halt := v.getLsbD 0 } } else s)
      ∧ writes 26 (s.setMe { k with dropTotal := v })
      ∧ (let sel : BitVec 5 := v.extractLsb' 16 5
        v.toNat % 2 ^ 16 = 0xFFFF ∨ (∀ id ∈ stateIds sel, x.regState id ≠ .absent) →
          ctx 28 (({ x with sel := sel, fov := x.fov && !v.getLsbD 31 } : Ctx).putStates sel (v.toNat % 2 ^ 16)))

/-- 01 R33, 08 R222, R227 to R229: `clr` empties a register, `rdtime` reads TIME into a pair, and `skey` takes both halves
of a new key from the old one. `bmode` switches a bank that no counted line and no entry holds, after the issuer's own
pushes and pops that wait there (09 R235); that another waiting push holds the bank too is the model's choice (log entry
53); `l2wb` and `l2inv` act on the cached, uncounted lines of a far range. TRAP_VAL of their ALIGN at an address, and the
fault of a range past 2^48, are the model's choices (log entries 76 and 20). -/
def Obligations.SystemResults : Prop :=
  ∀ (s : State) (d a : BitVec 5) (p : BitVec 3),
    let x := s.cur
    let key (c : W32) : W32 := spate x.srkeyHi x.srkeyLo c (s.rg a)
    let k := (s.rg a).toNat
    let mode := (s.rg d).toNat
    let b := basinOf s.core
    let bank := s.getBasin b
    let lines := if poolMoves bank k ((s.rg d).truncate 2) then s.dieLines (dieOf b) else if bank.mode k = 0 then s.bankLines b k else []
    let traps (c : Cause) (v : W32) : Prop := Traps (.bmode a d) s [gid a, gid d] [] c v
    let used := (bank.fifo k).entries ≠ [] ∨ (bank.fifo k).pushes ≠ []
    let mine := (∃ w ∈ (bank.fifo k).pushes, w.src = .ctx s.core s.ctx) ∨ ∃ w ∈ (bank.fifo k).pops, w.core = s.core ∧ w.ctx = s.ctx
    let P := s.rp p
    let n := (s.rg a).toNat
    let far (i : Instr) (acc : Acc) (act : LineAct) : Prop :=
      let traps (c : Cause) (v : W32) : Prop := Traps i s [pid p, gid a] [] c v
      let low : W32 := P.extractLsb' 0 32
      let at_ := s.via (stationOf b)
      (∀ c, ptrCheck (s.recOf s.core) P = some c → traps c (BitVec.ofNat 32 p.toNat))
        ∧ (ptrCheck (s.recOf s.core) P = none → ptrKind P ≠ 2 → traps .range (BitVec.ofNat 32 p.toNat))
        ∧ (ptrKind P = 2 → ptrCheck (s.recOf s.core) P = none →
          (P.toNat % 64 ≠ 0 → traps .align low)
            ∧ (P.toNat % 64 = 0 → n % 64 ≠ 0 → traps .align (s.rg a))
            ∧ (P.toNat % 64 = 0 → n % 64 = 0 → 2 ^ 48 < P.toNat % 2 ^ 48 + n → traps .range low)
            ∧ (P.toNat % 64 = 0 → n % 64 = 0 → P.toNat % 2 ^ 48 + n ≤ 2 ^ 48 → ∀ lks u,
              at_.2.rangeLines at_.1 P acc (vaParts (n / 2 ^ 19 + 2) (P.toNat % 2 ^ 48) n) = .ok (lks, u) →
              act = .discard ∨ (∀ lk ∈ lks, ∀ l, u.farLine lk = some l → l.dirty = true → u.badGranule (lk * 64) 64 = none) →
              Completes i s [pid p, gid a] [] (Reaches (lks.foldl (fun v lk => v.actLine act lk) u))))
    (∀ cls id, (cls, id) ∈ [(RegClass.g, a.toNat), (.v, 32 + a.toNat), (.p, 64 + a.toNat), (.w, 96 + a.toNat), (.e, 128 + a.toNat)] →
        x.regState id ≠ .absent → Completes (.clr cls a) s [] [] (Reaches (s.setCur (x.setRegState id .empty))))
      ∧ (d.toNat % 2 = 0 → Completes (.rdtime d) s [] [gid d, gid d + 1] fun t => Frame s t [gid d, gid d + 1]
        ∧ t.cur.pend = s.cur.pend ∧ t.rg d = (if d = 0 then 0 else s.time.extractLsb' 0 32)
        ∧ t.rg (d + 1) = s.time.extractLsb' 32 32)
      ∧ Completes (.skey a) s [gid a] [] (Reaches (s.setCur { x with srkeyLo := key 0xFFFFFFFF, srkeyHi := key 0xFFFFFFFE }))
      ∧ (s.ctx = 0 →
        (11 < k → traps .range (s.rg a)) ∧ (k ≤ 11 → 2 < mode → traps .range (s.rg d))
          ∧ (k ≤ 11 → mode ≤ 2 → (bank.mode k).toNat = mode → Completes (.bmode a d) s [gid a, gid d] [] (Reaches s))
          ∧ (k ≤ 11 → mode ≤ 2 → (bank.mode k).toNat ≠ mode →
            (mine → WaitsIn (.bmode a d) s [gid a, gid d] [] s)
              ∧ (¬mine →
                ((∃ e ∈ lines, ∃ c, e.2.st = .counted c) → traps .pressure (s.rg a))
                  ∧ ((∀ e ∈ lines, ∀ c, e.2.st ≠ .counted c) →
                    (bank.mode k = 2 → used → traps .range (s.rg a))
                      ∧ (bank.mode k ≠ 2 ∨ ¬used → s.badDirty (lines.map (·.1)) = none →
                        Completes (.bmode a d) s [gid a, gid d] [] (Reaches (s.switchBank b k ((s.rg d).truncate 2))))
                      ∧ (bank.mode k ≠ 2 ∨ ¬used → ∀ key, s.badDirty (lines.map (·.1)) = some key →
                        MeetsUe (.bmode a d) s [gid a, gid d] [] key (farPa key) (BitVec.ofNat 32 (farPa key)))))))
      ∧ (s.ctx = 0 → far (.l2wb p a) .inv .writeBack ∧ far (.l2inv p a false) .inv .writeInv
        ∧ far (.l2inv p a true) .invDis .discard)

/-! ## Traps (08 R223 to R225) and issue (01 R21, R22, R26) -/

/-- 08 R223, R225, 03 R78: `trap`, `svc` and `brk` take their trap at the next instruction, and count as a pass where they
stand at LE; `tret` returns; a word that names no instruction, and a form that the context may not issue, are ILL. -/
def Obligations.TrapInstructions : Prop :=
  ∀ (s : State) (a b : BitVec 5) (n : BitVec 6) (w : W32),
    let x := s.cur
    let code := s.rg a
    let raises (i : Instr) (srcs : List Nat) (c : Cause) (v : W32) : Prop := s.ready i srcs [] = true →
      exec i s = .next ((s.setCur { x with judged := none, blockedOn := [], verdict := none, rc := (s.nextPc 4).2
                                           status := if x.status = .idle then .idle else .ready }).trapEntry
        s.core s.ctx c (s.nextPc 4).1 v)
    let ill (i : Instr) : Prop := exec i s = .next (s.trapEntry s.core s.ctx .ill x.pc (wordOf i))
    let faults : List Cause := [.ill, .align, .range, .xlate, .perm, .overread, .underread, .cntwrite, .linkovf, .linkunf, .budget,
      .taskbuf, .barover, .fmt, .meta_, .trit, .ue, .pressure, .ptr, .svc, .brk]
    (∀ c ∈ faults, code.toNat = causeCode c → raises (.trap a b) [gid a, gid b] c (s.rg b))
      ∧ ((∀ c ∈ faults, code.toNat ≠ causeCode c) → Traps (.trap a b) s [gid a, gid b] [] .ill code)
      ∧ raises (.svc a) [gid a] .svc (s.rg a) ∧ raises (.brk n) [] .brk (BitVec.ofNat 32 n.toNat)
      ∧ (s.inTask = false → Jumps .tret s [] (BitVec.ofNat 17 (x.trapPc.toNat * 2)) (s.setCur { x with inh := false }))
      ∧ exec (.illegalInstruction w) s = .next (s.trapEntry s.core s.ctx .ill x.pc w)
      ∧ (s.ctx ≠ 0 → ill (.start a b) ∧ ill (.mfmt a) ∧ ill (.barinit a b) ∧ ill (.bmode a b)
        ∧ ∀ (p q : BitVec 3) (what : SaveWhat) (policy : RcPolicy) (dis : Bool), ill (.mcap p a) ∧ ill (.rcopen p q a policy)
          ∧ ill (.rcclose a p) ∧ ill (.msave what a p q) ∧ ill (.mrest what a p q) ∧ ill (.l2wb p a) ∧ ill (.l2inv p a dis))
      ∧ (s.ctx = 0 → ill .done ∧ ill .hDone) ∧ (s.inTask = true → ill .tret ∧ ill .idle)
      ∧ (28 < n.toNat → ill (.mfs a n) ∧ ill (.mts n a))

/-- 08 R224, 01 R25, R29, 11 R288, R289: the entry of a trap. Every result of the context lands, oldest first, which changes
registers, their states and FFLAGS alone and clears the errors of the registers written (18 R368): a register takes the last
value that a result has for it, cut to its width, and g0 takes none. Cause, PC and value are saved; then an attempt ends, or
the context stops with a FAULT record, or its handler runs. The attempt closes once nothing that it started runs: a kill and
an abort post their records; an abort is tried again on the retry core, or is exhausted; one that waits for a page goes to
the waiting-for-page list while that has room (15 R339). That the pops of a context which wait are withdrawn when it ends is
the model's choice (log entry 63). -/
def Obligations.TrapEntry : Prop :=
  (∀ (s : State) (n c : Nat) (cause : Cause) (pc : Off) (v : W32),
    let u := (s.dropFmt n c).dropWatch n c
    let l := u.landAll n c
    let x := l.getCtx n c
    let y : Ctx := { x with code := BitVec.ofNat 8 (causeCode cause), trapPc := BitVec.ofNat 16 (pc.toNat / 2), trapVal := v
                            verdict := none, xtag := none, pinStart := none, publishing := false, judged := none
                            blockedOn := [], bar := .none }
    let t := s.trapEntry n c cause pc v
    (x.task = none → x.trapVec ≠ 0 → x.inh = false →
        t = l.setCtx n c { y with inh := true, pc := BitVec.ofNat 17 (x.trapVec.toNat * 2), status := .ready })
      ∧ (x.task = none → x.trapVec = 0 ∨ x.inh = true →
        let idle := (l.withdrawPops n c).setCtx n c { y with status := .idle }
        t = idle.postLaunch (idle.handleOf n)
          (mkRecord 0x01 cause (idle.recOf n).lid c n false (BitVec.ofNat 32 pc.toNat) v 0 0))
      ∧ ∀ k, x.task = some k → t = ((l.withdrawPops n c).setCtx n c { y with
          held := [], status := .waiting, ending := some { kill := !k.retryable, cause := cause, pc := pc, val := v } }).settleEnding n c)
  ∧ (∀ (s : State) (n c : Nat), let t := s.landAll n c
    t.getCtx n c = (s.getCtx n c).landAll ∧ t.rest = s.rest ∧ (∀ m, m ≠ n → t.getCore m = s.getCore m)
      ∧ (t.getCore n).rest = (s.getCore n).rest ∧ (∀ d, d ≠ c → t.getCtx n d = s.getCtx n d)
      ∧ ∀ r ∈ (s.getCtx n c).pend, ∀ e ∈ r.regs, mget false t.errs.regs (regKey n c e.1) = false)
  ∧ (∀ (s : State) (n c : Nat), let t := s.withdrawPops n c
    (∀ b k, t.fifo b k = { s.fifo b k with pops := (s.fifo b k).pops.filter fun p => !(p.core == n && p.ctx == c) })
      ∧ ∀ m, t.getCore m = s.getCore m)
  ∧ (∀ (s : State) (n c : Nat) (e : Ending) (k : TaskRun),
    let x := s.getCtx n c
    x.ending = some e → x.task = some k →
      let r := s.recOf n
      let h := s.handleOf n
      let rec_ (kind : Nat) : List W32 := mkRecord kind e.cause r.lid c n k.msg.host (BitVec.ofNat 32 e.pc.toNat) e.val k.msg.id
        (BitVec.ofNat 32 k.msg.attempt)
      let u := s.setCtx n c { x with status := .idle, task := none, held := [], deferred := [], ending := none, pinStart := none
                                     publishing := false, judged := none, blockedOn := [], bar := .none, xtag := none
                                     verdict := none }
      let t := s.settleEnding n c
      let core := u.getCore n
      let aborted := u.postLaunch h (rec_ 0x02)
      let exhausted (w : State) (core ctx : Option Nat) (cause : Cause) : Prop := ∀ l, w.launchOf h = some l →
        t = w.postHost l.quay (mkRecord 0x04 cause l.lrec.lid (ctx.getD 15) (core.getD l.quay) k.msg.host 0 0 k.msg.id
          (k.msg.id >>> 18))
      let aborts : Prop :=
        (k.msg.attempt < r.retry.toNat →
            t = { aborted with net := aborted.net ++ [.retry h (r.nextCore n) { k.msg with attempt := k.msg.attempt + 1 }] })
          ∧ (r.retry.toNat ≤ k.msg.attempt → exhausted aborted (some n) (some c) e.cause)
      (s.attemptBusy n c x.att = true → t = s)
        ∧ (s.attemptBusy n c x.att = false →
          (e.kill = true → t = u.postLaunch h (rec_ 0x03))
            ∧ (e.kill = false → e.page = none → aborts)
            ∧ ∀ w, e.kill = false → e.page = some w → w.msg = k.msg →
              (w.answer = none → 64 ≤ core.pages.length → aborts)
                ∧ (w.answer = none → core.pages.length < 64 → t = u.setCore n { core with pages := core.pages ++ [w] })
                ∧ (w.answer = some none → t = u.setCore n { core with port := core.port ++ [k.msg] })
                ∧ ∀ cause, w.answer = some (some cause) → exhausted u none none cause))
  ∧ (∀ (r : LaunchRec) (n : Nat), r.hasCore n = true → r.d1 < 4 → r.r1 < 16 → r.c1 < 32 →
    let m := r.nextCore n
    r.hasCore m = true
      ∧ ((∃ j, r.hasCore j = true ∧ n < j) → n < m ∧ ∀ j, r.hasCore j = true → n < j → m ≤ j)
      ∧ ((∀ j, r.hasCore j = true → j ≤ n) → ∀ j, r.hasCore j = true → m ≤ j))
  ∧ (∀ (x : Ctx) (l : Landing), let y := x.land l
    y.pend = x.pend ∧ y.pc = x.pc ∧ y.rc = x.rc ∧ y.rest = { x.rest with fflags := x.fflags ||| l.flags.getD 0 }
      ∧ (y.status = x.status ∨ (x.status = .parked ∧ y.status = .ready)) ∧ y.value 0 = 0
      ∧ ∀ id, 0 < id → id < 160 →
        ((∀ e ∈ l.regs, e.1 ≠ id ∧ e.1 < 160) → y.value id = x.value id ∧ y.regState id = x.regState id)
          ∧ ∀ pre post v, l.regs = pre ++ (id, v) :: post → (∀ e ∈ post, e.1 ≠ id ∧ e.1 < 160) →
            y.regState id = .full
              ∧ (y.value id).toNat = v.toNat % (if id / 32 = 1 then 2 ^ 128 else if id / 32 = 2 then 2 ^ 64 else 2 ^ 32))
  ∧ ∀ (x : Ctx), x.landAll = { x.pend.foldl Ctx.land x with pend := [] } ∧ x.landAll.pc = x.pc ∧ x.landAll.rc = x.rc
    ∧ (x.landAll.status = x.status ∨ (x.status = .parked ∧ x.landAll.status = .ready))
    ∧ x.landAll.rest = { x.rest with fflags := x.pend.foldl (fun f l => f ||| l.flags.getD 0) x.fflags }
    ∧ ∀ id, 0 < id → id < 160 →
      ((∃ l ∈ x.pend, id ∈ l.regs.map (·.1)) → x.landAll.regState id = .full)
        ∧ ((∀ l ∈ x.pend, ∀ e ∈ l.regs, e.1 ≠ id ∧ e.1 < 160) →
          x.landAll.value id = x.value id ∧ x.landAll.regState id = x.regState id)

/-- 01 R21, R22, R26, 05 R118, 11 R285, 15 R338, R339: every instruction, in a context that may issue it: where a register
that it uses is absent it waits; where a source is empty it parks; where a destination has a result outstanding it waits;
nothing else changes. In a task the first look at such a park that awaits anything but an own load, atomic, `get` or `getx`
is a commit point: what the task holds is published, and then the context stays parked. That the look judges a park, that
every instruction uses granule g0-7, and that a park comes before the wait for a destination are the model's choices (log
entries 45, 47 and 48). An access that misses opens a tag of the quay core, or joins one, and its context waits without an
effect; the attempt of a task before its first commit point ends, and its message waits for the page. Once the host refuses
the tag, the context takes the fault at its instruction with TRAP_VAL of its own access. A source that cannot be read is UE
with the word of its register, and one that its second read finds clean is a correction, after which the instruction issues
(18 R366, R368). -/
def Obligations.EmptySourcesPark : Prop :=
  (∀ (s : State) (i : Instr), (encode i).isSome = true → legalIn s i = true →
    s.cur.xtag = none → s.cur.verdict = none → s.cur.publishing = false → s.cur.judged ≠ some true →
      let srcs := sourcesOf s i
      let dsts := destsOf i
      let gone := (repeatId :: (srcs ++ dsts)).filter fun id => decide (s.cur.regState id = .absent)
      let empties := srcs.filter fun id => !decide (s.cur.regState id = .full)
      let own (id : Nat) : Prop := (∃ l ∈ s.cur.pend, l.mem = true ∧ id ∈ l.regs.map (·.1))
        ∨ (∃ v ∈ s.popsOf s.core s.ctx, 32 + v ≤ id ∧ id < 36 + v)
        ∨ ∃ t ∈ s.xfersOf s.core s.ctx, t.dst = id ∧ (t.kind = .get ∨ t.kind = .getx)
      let u := s.setCur { s.cur with blockedOn := empties, status := .parked }
      let looked (commits : Bool) : State := u.setCur { u.cur with judged := some commits }
      (gone ≠ [] → exec i s = .next ((s.setCur { s.cur with blockedOn := gone }).setStatus .waiting))
        ∧ (gone = [] → empties ≠ [] →
          (s.inTask = false ∨ s.cur.judged = some false → exec i s = .next u)
            ∧ (s.inTask = true → s.cur.judged = none →
              ((∀ id ∈ empties, own id) → exec i s = .next (looked false))
                ∧ (¬(∀ id ∈ empties, own id) →
                  (∀ v, (looked true).publish = .ok v →
                    exec i s = .next ((v.setCur { v.cur with judged := some false }).setStatus .parked))
                    ∧ ∀ w, (looked true).publish = .error (.wait w) → exec i s = .next (w.setStatus .waiting))))
        ∧ (gone = [] → empties = [] → (∃ id ∈ dsts, s.outstanding id = true) → exec i s = .next (s.setStatus .waiting))
        ∧ (gone = [] → empties = [] → (∀ id ∈ dsts, s.outstanding id = false) → ∀ pre id post, srcs = pre ++ id :: post →
          let key (r : Nat) : Nat := regKey s.core s.ctx r
          let word : W32 := BitVec.ofNat 32 (0xFFFF0000 + id)
          let misread (r : Nat) : Prop := mget false s.errs.glitch (key r) = true
          let broken (r : Nat) : Prop := mget false s.errs.regs (key r) = true
          (misread id → (∀ r ∈ pre, ¬misread r) →
              let u : State := { s with errs := { s.errs with glitch := mset false s.errs.glitch (key id) false } }
              exec i s = .next ((u.correction 4 (basinOf s.core) word).setStatus .waiting))
            ∧ (id < 160 → broken id → (∀ r ∈ pre, ¬broken r) → (∀ r ∈ srcs, ¬misread r) →
              let u := s.postUe s.me.launch s.core s.ctx 4 (0xFFFF0000 + id) false
              exec i s = .next (u.trapEntry u.core u.ctx .ue s.cur.pc word))))
  ∧ (∀ (s : State) (i : Instr), (encode i).isSome = true → legalIn s i = true →
    (s.cur.xtag ≠ none → exec i s = .next (s.setStatus .waiting))
      ∧ (s.cur.xtag = none → ∀ c, s.cur.verdict = some c → exec i s = .next (s.trapEntry s.core s.ctx c s.cur.pc s.cur.missVal)))
  ∧ (∀ (s u : State) (m : Miss) (v : W32) (tag : Option TagRef),
    let x := s.cur
    s.openTag (quayOf (basinOf s.core)) m s.me.launchId (some (s.ctx, s.core)) = (u, tag) →
      let waits : Prop := s.takeMiss m v = (u.setCur { u.cur with xtag := tag, missVal := v }).setStatus .waiting
      (x.task = none → waits)
        ∧ ∀ k, x.task = some k →
          (k.retryable = false → waits)
            ∧ (k.retryable = true →
              let w := u.landAll u.core u.ctx
              let z := w.setCur { w.cur with
                code := BitVec.ofNat 8 (causeCode m.cause), trapPc := BitVec.ofNat 16 (x.pc.toNat / 2), trapVal := v }
              s.takeMiss m v = ((z.withdrawPops z.core z.ctx).setCtx z.core z.ctx { z.cur with held := [], status := .waiting, ending := some {
                kill := false, cause := m.cause, pc := x.pc, val := v, page := some { msg := k.msg, miss := m, tag := tag } } }).settleEnding
                  z.core z.ctx))
  ∧ ∀ (s : State) (q : Nat) (m : Miss) (lid : BitVec 16) (n c : Nat),
    let y := s.getQuay q
    let key : Tag := { space := m.space, block := m.va / 2 ^ 19, reason := m.reason }
    let opens (r : State × Option TagRef) : Prop := s.openTag q m lid (some (c, n)) = r
    ((∃ e ∈ y.openTags, e.2 = key) → ∃ t, (t, key) ∈ y.openTags ∧ opens (s, some { quay := q, tag := t }))
      ∧ ((∀ e ∈ y.openTags, e.2 ≠ key) → 64 ≤ y.openTags.length → opens (s, none))
      ∧ ((∀ e ∈ y.openTags, e.2 ≠ key) → y.openTags.length < 64 →
        ∃ t, t < 2 ^ 16 ∧ (∀ e ∈ y.openTags, e.1 ≠ t)
          ∧ opens ((s.setQuay q { y with tags := mset none y.tags t (some key), nextTag := BitVec.ofNat 16 (t + 1) }).postFault q
            (mkRecord 0x0D m.cause lid c n false (BitVec.ofNat 32 (m.reason * 2 ^ 30 + m.kind * 2 ^ 24 + t)) (BitVec.ofNat 32 m.va)
              (BitVec.ofNat 32 (m.space * 2 ^ 16 + m.va / 2 ^ 32)) 0), some { quay := q, tag := t }))

/-! ## Steps of the cores (01 R25, R28, R31; 05 R133; 09 R238, R247; 11 R277 to R289; 15 R344) -/

/-- 01 R25, R31, R32, 05 R133, 08 R208, 09 R238, R247, 11 R287, 15 R344: results and fills land, entries of FIFO banks reach
those that wait, a write makes a waiting `waitf` read its word again, a granule is restored, and a wait for a way ends. A
fill of g0, or of a register of an IDLE helper, is discarded and sets FOV. A result of latency 1 that lands in the cycle of
a fill lands over it, and then FOV stays as it is: the model's choice of the two rows of R31 that apply (log entry 40).
Deferred faults and BUDGET are taken where the search comes to them, whatever the states of the registers (R23); a fault
that a status goes with waits until the status has landed (05 R133, 07 R177). When a granule is restored and a way is tried
again is the model's choice (log entries 36 and 37), and so are that a fill of a register whose own result is outstanding
meets what the register then is (log entry 40), and that the entry which a pop cannot read stays (log entry 52). -/
def Obligations.CoreSteps : Prop :=
  (∀ (s : State) (n c k : Nat) (l : Landing), let x := s.getCtx n c
    x.pend[k]? = some l → (∀ d, l.due = some d → d ≤ (s.getCore n).cyc) →
      let ids := l.regs.map (·.1)
      exec (.resultLand n c k) s
        = .next (((s.setCtx n c (({ x with pend := x.pend.eraseIdx k } : Ctx).land l)).clearRegsOf n c ids).touchRegs n c ids))
  ∧ (∀ (s : State) (k h n c reg : Nat) (v : W128) (src : FillSrc), s.net[k]? = some (.fill h n c reg v src) →
      let u : State := { s with net := s.net.eraseIdx k }
      let x := s.getCtx n c
      let fov (y : Ctx) : Ctx := { y with fov := true, fovreg := BitVec.ofNat 8 reg }
      let becomes (y : Ctx) : Prop :=
        exec (.remoteFill k) s = .next (((u.setCtx n c y).clearReg n c reg).touchRegs n c [reg])
      (s.fillWaits n c reg = true → exec (.remoteFill k) s = .next s)
        ∧ (s.fillWaits n c reg = false → reg = 0 ∨ (c ≠ 0 ∧ x.status = .idle) →
          exec (.remoteFill k) s = .next ((u.setCtx n c (fov x)).touchRegs n c [reg]))
        ∧ (s.fillWaits n c reg = false → 0 < reg → c = 0 ∨ x.status ≠ .idle → regKey n c reg ∈ s.written →
          exec (.remoteFill k) s = .next (u.touchRegs n c [reg]))
        ∧ (s.fillWaits n c reg = false → 0 < reg → c = 0 ∨ x.status ≠ .idle → regKey n c reg ∉ s.written →
          (x.regState reg = .empty → becomes (x.write reg v).wake) ∧ (x.regState reg = .full → becomes (fov (x.write reg v)))))
  ∧ (∀ (s : State) (b k : Nat),
    let f := s.fifo b k
    (∀ e es p ps, f.entries = e :: es → f.nextPop = some (p, ps) →
        (0 ∉ f.bad → exec (.fifoPopServed b k) s
            = .next ((s.setFifo b k { f with entries := es, pops := ps, bad := (f.bad.filter (· ≠ 0)).map (· - 1),
                                             head := (f.head + 1) % 2048 }).servePop p e))
          ∧ (0 ∈ f.bad → exec (.fifoPopServed b k) s
            = .next (((s.setFifo b k { f with pops := ps }).meetUe (s.getCore p.core).launch p.core p.ctx
              (bankKey b k (f.head * 64)) p.val.toNat).defer p.core p.ctx .ue p.val)))
      ∧ ∀ p ps, f.nextPush = some (p, ps) → f.entries.length < 2048 →
        let u := s.setFifo b k { f with entries := f.entries ++ [p.data], pushes := ps }
        ((∀ i, p.src ≠ .port i) → exec (.fifoPushAppended b k) s = .next u)
          ∧ ∀ i, p.src = .port i → exec (.fifoPushAppended b k) s = .next (u.leaveBank b k i))
  ∧ (∀ (s : State) (w : Watch), w ∈ s.watches → w.hit = none →
    let lk := localKey w.core w.off / 64
    let again (u : State) : Prop := u.readWatch w ∈ u.watches
      ∧ (u.lineState lk ≠ .dropped → u.badGranule (localKey w.core w.off) 4 = none →
        (u.readWatch w).hit = if w.need.toNat ≤ u.memNat (localKey w.core w.off) 4 then some none else none)
    (∀ key bs, lk ∈ linesOf key bs.length → again (s.putBytes key bs)) ∧ ∀ st, again (s.setLine lk st))
  ∧ (∀ (s : State) (n c : Nat),
    let t := s.landDue n
    let x := t.getCtx n c
    t.reached n c = true → x.inArrival = false →
      (∀ d ds, s.dueFault n c ≠ none → t.dueFault n c = some (d, ds) → exec (.deferredFault n c) s
          = .next (((t.setCtx n c { x with deferred := ds }).trapEntry n c d.cause x.pc d.val).takeBoundary n c))
        ∧ (s.dueFault n c = none → (s.getCtx n c).overBudget = true → t.dueFault n c = none → x.overBudget = true →
          x.publishing = false → t.doneEnds n c = false →
          exec (.budget n c) s = .next ((t.trapEntry n c .budget x.pc x.budget).takeBoundary n c)))
  ∧ (∀ (s : State) (n c : Nat),
    ((s.getCtx n c).deferred = [] → s.dueFault n c = none)
      ∧ ∀ d ds, (s.getCtx n c).deferred = d :: ds →
        (d.fill = none → s.dueFault n c = some (d, ds))
          ∧ ∀ q, d.fill = some q →
            ((∃ h m e r v, Flight.fill h m e r v (.status q) ∈ s.net) → s.dueFault n c = none)
              ∧ ((∀ h m e r v, Flight.fill h m e r v (.status q) ∉ s.net) → s.dueFault n c = some (d, ds)))
  ∧ (∀ (s : State) (n c : Nat) (gr : Granule),
    let k := s.getCore n
    let x := s.getCtx n c
    (∀ t, gr = .tile t → (k.mat.tile t).absent = true → s.granuleUe n c gr = none →
        exec (.lazyRestore n c gr) s = .next (s.setMat n { k.mat with
          tiles := mput k.mat.tiles t { k.mat.tile t with absent := false } }))
      ∧ ((∀ t, gr ≠ .tile t) → (∃ id ∈ granuleIds gr, x.regState id = .absent) →
        (s.granuleUe n c gr = none → exec (.lazyRestore n c gr) s = .next (s.setCtx n c (x.restoreGranule gr)))
          ∧ ∀ pa, s.granuleUe n c gr = some pa →
            (x.waitsGranule gr = true → exec (.lazyRestore n c gr) s
                = .next ((s.meetUe k.launch n c (lpddrKey pa) pa).trapEntry n c .ue x.pc (BitVec.ofNat 32 pa)))
              ∧ (x.waitsGranule gr = false → exec (.lazyRestore n c gr) s = .next s)))
  ∧ ∀ (s : State) (w : PinWaiter) (n t : Nat), s.pinSince w = some (n, t) →
      ((s.getCore n).cyc - t < (s.getCore n).cntLimit.toNat → exec (.countedFillPin w) s = .next (s.tryPin w)
          ∧ exec (.cntLimitExpiry w) s = .next s)
        ∧ ((s.getCore n).cntLimit.toNat ≤ (s.getCore n).cyc - t → exec (.countedFillPin w) s = .next s
          ∧ exec (.cntLimitExpiry w) s = .next (s.tryPin w))

/-- 11 R277, R282, R283, R289: acceptance of a message and what follows from it; dispatch of one message to the
lowest-numbered free helper, with the start state of 01 R28; a retry enters its slot. A level whose entries are all spilled
is refilled, and an entry that cannot be read is lost with a report (18 R369). That a message of a launch saved away waits,
what a spilled message is read as, and the address of the report, are the model's choices (log entries 58, 60 and 35). -/
def Obligations.MessageSteps : Prop :=
  (∀ (s : State) (k h tgt : Nat) (m : Message), s.net[k]? = some (.retry h tgt m) → s.liveLaunch h = true →
    let u : State := { s with net := s.net.eraseIdx k }
    exec (.messageAccept k) s = .next (u.setCore tgt { s.getCore tgt with port := (s.getCore tgt).port ++ [m] }))
  ∧ (∀ (s : State) (k h n c tgt after : Nat) (m : Message) (word : W32) (status : Option RegTarget),
    s.net[k]? = some (.msg h n c tgt m word status after) → (s.mayAccept k = false → exec (.messageAccept k) s = .next s) ∧
      (s.mayAccept k = true →
      let u : State := { s with net := s.net.eraseIdx k }
      (u.liveLaunch h = false → exec (.messageAccept k) s = .next u)
        ∧ (u.liveLaunch h = true → ∀ ok v, u.enqueue tgt m = (ok, v) →
          (m.call = true → ok = true → exec (.messageAccept k) s = .next v)
            ∧ (m.call = true → ok = false → exec (.messageAccept k) s
              = .next ((v.sendReply h m 0xFFFFFFFF).postQueueEvent h n c tgt word m.arg0 m.arg1))
            ∧ (m.call = false → ∀ r, status = some r → exec (.messageAccept k) s = .next (v.sendFill h r (if ok then 0 else 0x14)))
            ∧ (m.call = false → status = none → ok = true → exec (.messageAccept k) s = .next v)
            ∧ (m.call = false → status = none → ok = false →
              exec (.messageAccept k) s = .next (v.postQueueEvent h n c tgt word m.arg0 m.arg1)))))
  ∧ (∀ (s : State) (n c H : Nat),
    let k := s.getCore n
    let free (j : Nat) : Prop := (k.getCtx j).status = .idle ∧ (k.getCtx j).started = false
    let waits (l : Nat) : Prop := (k.level l).retry ≠ none ∨ (k.level l).hw ≠ [] ∨ (k.level l).spill ≠ []
    let goes (l stv : Nat) : Prop :=
      let q := k.level l
      let starts (m : Message) (q' : QLevel) : Prop :=
        let u := s.setCore n ({ k with stv := stv }.setLevel l q')
        let x := s.getCtx n c
        let r := s.recOf n
        let y : Ctx := { status := .ready, pc := m.pc, spillBase := x.spillBase, spillTop := x.spillBase, linkLimit := x.linkLimit
                         srkeyLo := r.srkeyLo, srkeyHi := r.srkeyHi, srseq := r.srseq, att := x.att + 1, epoch := x.epoch }
        (m.bad = false → exec (.dispatch n) s = .next (((u.clearCtx n c).setCtx n c
            { (y.wg 1 m.arg0).wg 2 m.arg1 with task := some { msg := m }, budget := r.budget }).refill n l 64))
          ∧ (m.bad = true → exec (.dispatch n) s = .next (((s.setLevel n l q').loseEntry n).refill n l 64))
      (∀ m, q.retry = some m → starts m { q with retry := none })
        ∧ (∀ m t, q.retry = none → q.hw = m :: t → starts m { q with hw := t })
        ∧ (q.retry = none → q.hw = [] → exec (.dispatch n) s = .next (s.refill n l 64))
    k.noDispatch = false → 1 ≤ c → c ≤ 10 → free c → (∀ j, 1 ≤ j → j < c → ¬free j) →
    H < 4 → waits H → (∀ l, l < 4 → H < l → ¬waits l) →
      ((∀ l, l < H → ¬waits l) → goes H 0)
        ∧ ∀ X, X < H → waits X → (∀ l, l < H → X < l → ¬waits l) → if k.stv = 32 then goes X 0 else goes H (k.stv + 1))
  ∧ ∀ (s : State) (n k : Nat) (m : Message),
      let l := m.level.toNat
      (s.getCore n).port[k]? = some m → (s.level n l).retry = none → (∀ m' ∈ (s.getCore n).port.take k, m'.level ≠ m.level) →
        let u := s.setCore n { s.getCore n with port := (s.getCore n).port.eraseIdx k }
        exec (.retrySlotEntry n k) s = .next (u.setLevel n l { s.level n l with retry := some m })

/-! ## Quay cores and the host (14, 15) -/

/-- 14 R318, R323 to R325, 18 R371, R373, 19 R377: the entry at the head of the queue that the round comes to is performed
or refused and consumed, stalls its queue, or waits in the hand of a queue that runs, as it was read, whatever the host then
writes to the queue; an entry or its ring that cannot be translated waits the same way, under a tag; writes of the registers
of a quay window. The cause byte of its records, the LID that a refusal names, and some reasons, are the model's choices
(log entries 25, 27 and 73), as are the object with an error that an entry names and what a cancelled or freed entry leaves
(57 and 22). -/
def Obligations.QueueSteps : Prop :=
  ∀ (s : State) (q n : Nat) (x : W32),
    let k := s.queue q n
    let y := s.getQuay q
    let hand : Hand := y.inHand.getD { queue := n, space := k.space, va := k.base.toNat + 64 * (k.rdptr.toNat % 2 ^ k.log2.toNat) }
    let read := readFar s q hand.space.toNat hand.va 64
    ((∀ h, y.inHand = some h → (s.takes q n = true ↔ h.queue = n))
        ∧ (y.inHand = none → (s.takes q n = true ↔ s.runnable q n = true ∧ ∃ i, i < 64 ∧ n = (y.served + 1 + i) % 64
          ∧ ∀ j, j < i → s.runnable q ((y.served + 1 + j) % 64) = false)))
      ∧ (∀ bs u, s.takes q n = true → k.tag = none → k.onRing = false ∨ k.verdict = none →
        (hand.entry = none ∧ read = .ok (bs, u)) ∨ (hand.entry = some bs ∧ u = s) →
        let k' : HQueue := { k with rdptr := k.rdptr + 1, state := if k.state = 3 then 3 else if k.en then 1 else 0
                                    tag := none, verdict := none, onRing := false }
        let gives (v : State) (k' : HQueue) : State :=
          (v.setQuay q { v.getQuay q with inHand := none, served := n }).setQueue q n k'
        let inHand (v : State) (k' : HQueue) : State :=
          let w := v.setQueue q n k'
          w.setQuay q { w.getQuay q with inHand := some { hand with entry := some bs } }
        let taken (i : Instr) (out : Served) : Prop :=
          (∀ v, out = .done v → exec i s = .next (gives v k'))
            ∧ (∀ r v, out = .refuse r v → exec i s = .next (gives (v.postRefused q n r k.rdptr (entryHandle bs)
              (v.refusedLid q (bs.headD 0).toNat (entryHandle bs))) k'))
            ∧ (∀ v, out = .stall v → exec i s
              = .next (gives v { k with state := if k.en then 2 else 0, tag := none, verdict := none }))
            ∧ (∀ v, out = .later v → exec i s = .next (inHand v { k with state := 1 }))
            ∧ ∀ m v w tag, out = .wait m v → v.openTag q m 0 = (w, tag) →
              exec i s = .next (inHand w { k with state := 1, tag := tag, onRing := false })
        let type := bs.headD 0
        let v := (u.meetObj (entryHandle bs)).meetParent type.toNat bs
        (type = 1 → taken (.launch q n) (launchEntry q n { k with space := hand.space } bs v))
          ∧ (type = 2 → taken (.open_ q n) (openEntry q bs v))
          ∧ (type = 3 → taken (.seal q n) (sealEntry q bs v)) ∧ (type = 4 → taken (.cancel q n) (cancelEntry q bs v))
          ∧ (type = 5 → taken (.msg q n) (msgEntry q bs v)) ∧ (type = 6 → taken (.free q n) (freeEntry q bs v))
          ∧ (type = 0 ∨ 6 < type.toNat → taken (.open_ q n) (.refuse 1 u)))
      ∧ (∀ m u v tag, s.takes q n = true → k.tag = none → k.onRing = false ∨ k.verdict = none →
        hand.entry = none → read = .error (.miss m u) → u.openTag q m 0 = (v, tag) →
          let w := v.setQueue q n { k with state := 1, tag := tag, onRing := true }
          ∀ i ∈ [Instr.launch q n, .open_ q n, .seal q n, .cancel q n, .msg q n, .free q n],
            exec i s = .next (w.setQuay q { w.getQuay q with inHand := some hand }))
      ∧ (q < 16 → n < 64 →
        let overrun := k.state ≠ 3 ∧ 2 ^ k.log2.toNat < (x - k.rdptr).toNat ∧ (s.bootMode ≠ 2 ∨ q = 0)
        (overrun → exec (.doorbell q n x) s = .next (((s.setQueue q n { k with
            wptr := x, state := 3, tag := none, verdict := none, onRing := false }).dropHand q n).postHost q
              (mkRecord 0x0C .overrun 0 15 q false (BitVec.ofNat 32 n) x k.rdptr 0)))
          ∧ (¬overrun → exec (.doorbell q n x) s = .next (s.setQueue q n { k with wptr := x }))
          ∧ (x.toNat % 32 ≤ 16 → s.bootMode ≠ 2 →
            let set : HQueue := if k.en then k else { k with space := x.extractLsb' 12 12, log2 := x.extractLsb' 0 5 }
            let en := x.getLsbD 31
            (x.getLsbD 30 = true → exec (.queueReset q n x) s
                = .next ((s.setQueue q n { set with en := en, wptr := k.rdptr, state := if en then 1 else 0
                                                    tag := none, verdict := none, onRing := false }).dropHand q n))
              ∧ (x.getLsbD 30 = false → en = true → k.en = false → k.state = 0 → exec (.queueEnable q n x) s
                = .next (s.setQueue q n { set with en := true, state := 1 })))
          ∧ (16 < x.toNat % 32 → x.getLsbD 30 = true → exec (.queueReset q n x) s = .next (s.setQueue q n k)))
      ∧ (q < 16 → exec (.hsqRdptr q false x) s = .next (s.setQuay q { y with hsq := { y.hsq with rdptr := x } })
        ∧ exec (.hsqRdptr q true x) s = .next ((s.setQuay q { y with fq := { y.fq with rdptr := x } }).drainHeld q 65)
        ∧ (n < 64 → exec (.barRegisterWrite q (64 * n + 12) x) s = exec (.doorbell q n x) s)
        ∧ exec (.barRegisterWrite q 0x1F08 x) s = exec (.invalidation q x) s ∧ exec (.barRegisterWrite q 0x1F10 x) s = exec (.fix q x) s
        ∧ exec (.barRegisterWrite q 0x1F2C x) s = .next (s.setQuay q { y with
            svpool := BitVec.ofNat 48 (x.toNat % 2 ^ 16 * 2 ^ 32 + y.svpool.toNat % 2 ^ 32), svblocks := x.extractLsb' 16 16 })
        ∧ (s.svc.mb.go = false → exec (.barRegisterWrite q 0x1F40 x) s = .next { s with svc := { s.svc with
            mb := { s.svc.mb with go := x.getLsbD 31, op := x.extractLsb' 0 8 } } }))

/-- 14 R320, R322, R326, 15 R336 to R338, R340 to R343, 10 R273: loads, ends and pre-emptions of launches; invalidations and
answers to faults; accesses of the host. The model's choices in it: what an invalidation waits for, and what a host access
acts on (log entries 29 and 30); the order and content of a save, what it does with an error, and when a pre-emption may
save (8, 32, 58, 65 and 72); a load that fails (26); the end of what is cancelled (22). -/
def Obligations.LaunchSteps : Prop :=
  (∀ (s : State) (h : Nat) (l : Launch), s.launchOf h = some l →
    let o := s.getObj h
    (o.bad = false → o.state = .sealed_ → l.tag = none → l.phase = .loading ∨ (l.phase = .waiting ∧ s.mayStart h l = true) →
        (l.verdict = none → exec (.launchLoad h) s = .next (s.load h l))
          ∧ (∀ c, l.verdict = some c → exec (.launchLoad h) s = .next (s.refuseLoad h l)))
      ∧ (o.bad = false → o.state = .sealed_ ∨ o.state = .cancelled → o.closed = false →
        (l.phase = .running ∨ l.phase = .preempting → s.launchBusy h l.lrec = false → exec (.ended h) s = .next (s.endLaunch h o l))
          ∧ (l.phase = .over → o.state = .cancelled → exec (.ended h) s = .next (s.endLaunch h o l)))
      ∧ (∀ w a, w ∈ s.waitingLaunches → w.2.lrec.meets l.lrec = true →
        (∀ e ∈ s.runningIn w.2.lrec, s.yields w.2.lrec.prio e = true) → o.state = .sealed_ → l.phase = .running →
        s.areaFor h l = some a → exec (.preemption h) s
          = .next ((s.mapCores h fun k => { k with noDispatch := true }).setLaunch h { l with phase := .preempting, area := some a }))
      ∧ (∀ a, l.area = some a → l.phase = .preempting →
        (s.readyToSave h = true →
          let u := ((s.dropWatches h).landSet h).mapCores h fun k => { k with ctxs := k.ctxs.map fun e => (e.1, e.2.atBoundary) }
          let saved := u.toSave h l.lrec
          let v := ((u.meetSaved h l saved).writeSegs a (cutSegs (u.keptSpans h l.lrec) (areaSegs u l.lrec saved))).withdraw l.lrec
          exec (.preemptionSave h) s
            = .next (((v.dropTugs h).mapCores h Core.leave).setLaunch h { l with phase := .saved, save := some saved }))
          ∧ (s.readyToSave h = false → s.tasksEnded h = true → exec (.preemptionSave h) s
            = .next (s.mapCores h fun k => { k with mat := { k.mat with preHalt := true } }))
          ∧ (s.readyToSave h = false → s.tasksEnded h = false → exec (.preemptionSave h) s = .next s))
      ∧ (∀ v u, l.save = some v → l.phase = .saved → s.mayStart h l = true → s.switchAll v.basins = some u →
        exec (.preemptionRestore h) s
          = .next (((u.restore h l.lrec v).meetArea h l (l.area.getD 0)).setLaunch h { l with phase := .running, save := none })))
  ∧ (∀ (s : State) (h : Nat), let o := s.getObj h
    o.launch = none → o.bad = false → o.freed = false → o.closed = false → o.live = 0 → o.notify = false →
      (o.state = .sealed_ → exec (.ended h) s = .next ((s.setObj h { o with state := .ended, closed := true }).dropChild o.parent))
        ∧ (o.state = .cancelled → exec (.ended h) s = .next (s.setObj h { o with closed := true })))
  ∧ (∀ (s : State) (q : Nat) (x : W32), q < 16 →
    let y := s.getQuay q
    let uses (va : Nat) (ctl : W32) : Prop := ∃ e ∈ s.cores, ∃ t ∈ e.2.xfers, t.hnd ≠ none ∧ t.win ≠ none
      ∧ invalidates va ctl (tlbKey 0 4 e.2.spaceId.toNat (ptrOff t.ptr)) = true
    (y.inv = none → x.getLsbD 31 = true → s.bootMode ≠ 2 ∨ q = 0 → ∃ t, exec (.invalidation q x) s = .next t
        ∧ (t.getQuay q).xinvCtl = x &&& 0x70000FFF
        ∧ (s.ring.out = [] → ¬uses y.xinvVa.toNat (x &&& 0x70000FFF) → (t.getQuay q).inv = none
          ∧ t.tlb = s.tlb.filter fun e => !invalidates y.xinvVa.toNat (x &&& 0x70000FFF) e.1)
        ∧ (s.ring.out ≠ [] ∨ uses y.xinvVa.toNat (x &&& 0x70000FFF) →
          (t.getQuay q).inv = some (y.xinvVa.toNat, x &&& 0x70000FFF) ∧ t.tlb = s.tlb))
      ∧ (∀ va ctl, y.inv = some (va, ctl) →
        (s.ring.out ≠ [] ∨ uses va ctl → s.finishInv q = s)
          ∧ (s.ring.out = [] → ¬uses va ctl → s.finishInv q
            = { s.setQuay q { y with inv := none } with tlb := s.tlb.filter fun e => !invalidates va ctl e.1 }))
      ∧ ((mget none y.tags (x.toNat % 2 ^ 16)).isSome = true → x.toNat / 2 ^ 30 ≠ 3 → exec (.fix q x) s
        = .next (s.answerTag { ref := { quay := q, tag := x.toNat % 2 ^ 16 }
                               refuse := if x.toNat / 2 ^ 30 = 0 then none else if x.toNat / 2 ^ 30 = 1 then some .xlate else some .perm })))
  ∧ ∀ (s : State) (q pa : Nat) (target : HostTarget) (data : List Byte) (ps : List Part),
      (s.hostParts q target data.length = some ps →
        (s.checkParts .write [] ps = .ok () → exec (.hostWrite q target data) s = .next (s.writeParts data ps))
          ∧ (s.checkParts .read [] ps = .ok () → exec (.hostRead q target data.length) s = .next { s with hostRead := s.readParts ps })
          ∧ (∀ key, s.checkParts .write [] ps = .error (.ue key) → exec (.hostWrite q target data) s = .next (s.retireLine key).1)
          ∧ ∀ key, s.checkParts .read [] ps = .error (.ue key) → exec (.hostRead q target data.length) s
            = .next { (s.retireLine key).1 with hostRead := [] })
        ∧ (s.hostParts q target data.length = none → exec (.hostWrite q target data) s = .next s
          ∧ exec (.hostRead q target data.length) s = .next { s with hostRead := [] })
        ∧ exec (.cxlCacheSnoop pa .share) s = .next (s.writeBack (hostKey pa / 64))
        ∧ exec (.cxlCacheSnoop pa .invalidate) s = .next (s.evict (hostKey pa / 64))

/-! ## The ring and the service (16, 19) -/

/-- 16 R349, R351, R354, R355, R357 to R361, 18 R374: flits and arrivals, failures of ports and packages, and time. That
unacknowledged writes go out again, how an acknowledged one ends, what a reconfiguration makes of hops on their way, and the
launch and reader that the UE record of an arrival names, are the model's choices (log entries 34, 11, 61 and 84). -/
def Obligations.RingSteps : Prop :=
  ∀ (s : State) (p : Nat),
    let r := s.ring
    let twin := if p % 2 = 0 then p + 1 else p - 1
    let bit (x : BitVec 4) (i : Nat) (b : Bool) : BitVec 4 := if b then x ||| BitVec.ofNat 4 (2 ^ i) else x &&& ~~~BitVec.ofNat 4 (2 ^ i)
    let link (ev port : Nat) (u : State) : State :=
      u.postHost 0 (mkRecord 0x0E .none 0 15 0 false (BitVec.ofNat 32 (ev * 2 ^ 24 + port)) u.ring.posWord 0 0)
    (∀ f : Flit, f.crcOk = false ∨ r.up.getLsbD p = false → exec (.flitReceive p f) s = .next s)
      ∧ (∀ f : Flit, f.crcOk = true → r.up.getLsbD p = true →
        let a := r.acknowledge p f.ackd
        let x : Port := mget {} a.ports p
        let v : State := { s with ring := ((f.pkts.map fun k => { k with port := p }).foldl Ring.take
          { a with ports := mset {} a.ports p { x with rxSeq := x.rxSeq + 1 } }).flush }
        (f.seq ≠ x.rxSeq → exec (.flitReceive p f) s = .next { s with ring := a })
          ∧ (f.seq = x.rxSeq →
            (f.kind ≠ .time → f.kind ≠ .ack → exec (.flitReceive p f) s = .next v)
              ∧ (f.kind = .ack → exec (.flitReceive p f) s = .next v.freeAnswer)
              ∧ (f.kind = .time → exec (.flitReceive p f) s = .next (if 2 ≤ p then v.followTime f.time else v))))
      ∧ (∀ pkt : RingPkt, r.lost pkt = false →
        (pkt.left ≤ 1 → r.take pkt = { r with inbox := r.inbox ++ [pkt] })
          ∧ (1 < pkt.left → r.take pkt = { r with transit := r.transit ++ [{ pkt := { pkt with left := pkt.left - 1 } }] }))
      ∧ (∀ pre pkt post, r.inbox = pre ++ pkt :: post → r.reconf = false → pkt ∉ pre →
        let u : State := { s with ring := { r with inbox := pre ++ post } }
        let ordered (k : RingPkt) : Prop := r.sourceOf pkt = r.sourceOf k ∧ pkt.srcBasin = k.srcBasin ∧ pkt.basin = k.basin
          ∧ (pkt.hop.toInt < 0 ↔ k.hop.toInt < 0)
        ((∃ k ∈ r.atBank ++ pre, ordered k) → exec (.ringArrival pkt) s = .next s)
          ∧ ((∀ k ∈ r.atBank ++ pre, ¬ordered k) → exec (.ringArrival pkt) s = .next (u.arrive pkt))
          ∧ (∀ off data, pkt.item = .chunk off data →
            let key := bankKey pkt.basin (off / 131072) (off % 131072)
            let ps : List Part := (partsOf key data.length).map fun q => { key := q.1, len := q.2 }
            (u.mode pkt.basin (off / 131072) ≠ 1 → u.arrive pkt = u)
              ∧ (u.mode pkt.basin (off / 131072) = 1 →
                (u.checkParts .write [] ps = .ok () → u.arrive pkt = u.writeParts data ps)
                  ∧ (∀ cause, u.checkParts .write [] ps = .error (.cause cause) → u.arrive pkt = u)
                  ∧ ∀ key, u.checkParts .write [] ps = .error (.ue key) → u.arrive pkt
                    = u.meetUe (u.basinLaunch pkt.basin) (quayOf pkt.basin) 15 key (nearAddr key)))
          ∧ ∀ bank d, pkt.item = .entry bank d → u.mode pkt.basin bank = 2 →
            let f := u.fifo pkt.basin bank
            (f.entries.length < 2048 → f.pushes = [] → u.arrive pkt
                = u.setFifo pkt.basin bank { f with entries := f.entries ++ [d] })
              ∧ (2048 ≤ f.entries.length →
                let w := u.setFifo pkt.basin bank { f with pushes := f.pushes ++ [{ src := .port pkt.port, data := d, seq := 0 }] }
                u.arrive pkt = { w with ring := { w.ring with atBank := w.ring.atBank ++ [pkt] } }))
      ∧ (p < 4 → r.up.getLsbD p = true → r.up.getLsbD twin = true → exec (.portFailure p) s
        = .next (link 1 p { s with ring := (({ r with up := bit r.up p false, fo := bit (bit r.fo p false) twin true } : Ring).resend
            (· == p)).flush }))
      ∧ (p < 4 → r.up.getLsbD p = true → r.up.getLsbD twin = false →
        let w := link 1 p { s with ring := (({ r with up := bit r.up p false, fo := bit (bit r.fo p false) twin false } : Ring).resend
          (· == p)).flush }
        (w.ring.reconf = false → 1 < w.ring.size →
            exec (.portFailure p) s = .next (w.failPackage (w.ring.posAt (if p < 2 then 1 else -1))))
          ∧ (w.ring.reconf = true ∨ w.ring.size ≤ 1 → exec (.portFailure p) s = .next w))
      ∧ (p < 4 → r.up.getLsbD p = false →
        let back : Ring := { r with up := bit r.up p true, fo := bit (bit r.fo twin false) p (!r.up.getLsbD twin) }
        (r.up.getLsbD twin = true → exec (.portRestored p) s = .next (link 2 p { s with ring := back.flush }))
          ∧ (r.up.getLsbD twin = false → exec (.portRestored p) s
            = .next (link 2 p { s with ring := (back.resend (· == twin)).flush })))
      ∧ (∀ pkt : RingPkt, let own := (if pkt.hop.toInt < 0 then 2 else 0) + pkt.srcBasin % 2
        r.onward pkt = if r.fo.getLsbD (if own % 2 = 0 then own + 1 else own - 1) then (if own % 2 = 0 then own + 1 else own - 1) else own)
      ∧ (∀ pos : BitVec 6, r.reconf = false → pos.toNat ≤ r.last.toNat → pos ≠ r.pos →
        exec (.packageFailure pos) s = .next (s.failPackage pos.toNat))
      ∧ (∀ f, r.failed = some f → exec .reconfigurationDone s = .next (link 4 0 { s with
        ring := ({ r with pos := if f < r.pos.toNat then r.pos - 1 else r.pos, last := r.last - 1, reconf := false, failed := none
                          out := r.out.map (r.keepDest f), inbox := r.inbox.map fun k => r.keepPath f k false
                          atBank := r.atBank.map fun k => r.keepPath f k false
                          transit := r.transit.map fun t => { t with pkt := r.keepPath f t.pkt true } } : Ring).flush }))
      ∧ ∀ t : W64, exec (.timeSync t) s
          = .next (if r.pos = 0 then s else { s with time := BitVec.ofNat 64 (max s.time.toNat t.toNat) })

/-- 19 R375 to R386: the start sequence, and the operations of the management mailbox with their results. One that cannot
write its buffer leaves all of it unwritten (R378). That a short image is SIG, that nothing is staged, and the images under
a digest are the model's choices (log entries 12 and 33), as are the keys, which are free (7), and a space whose tables
cannot be read (74). -/
def Obligations.ServiceSteps : Prop :=
  (∀ (s : State) (fails : List (BitVec 8)) (pos last : BitVec 6) (up : BitVec 4),
    (∀ f ∈ fails, f ∈ startReasons) → pos.toNat ≤ last.toNat →
      ∃ t, exec (.startSequence fails pos last up) s = .next t
        ∧ (3 ≤ fails.length → t.bootMode = 2)
        ∧ (fails.length < 3 → (s.firmware 0).active.ok = true → (s.firmware 1).active.ok = true →
          t.bootMode = 1 ∧ t.bootReason = fails.getLastD 0 ∧ t.ring.pos = pos ∧ t.ring.last = last))
  ∧ (∀ (s : State) (us : W32) (i : Nat),
    (64 ≤ i → i < 70 → s.svc.mb.go = false → s.svc.stopped = none → exec (.ioIslandRecalibration i) s
        = .next { s with svc := { s.svc with stopped := some i } })
      ∧ (s.svc.stopped = some i → us.toNat ≤ 200 →
        (i < 64 → exec (.recalibrationEnd us) s = .next { s with svc := { s.svc with
            stopped := none, mb := { s.svc.mb with go := false, status := 0, res := us } } })
          ∧ (64 ≤ i → exec (.recalibrationEnd us) s = .next { s with svc := { s.svc with stopped := none } }))
      ∧ (s.svc.stopped = some i → 64 ≤ i → s.bootMode ≠ 2 → s.svc.mb.go = true → s.svc.mb.op = 4 → s.svc.mb.legal = true →
        s.svc.mb.arg1 = 1 → exec .islandRecalibrate s = .next { s with svc := { s.svc with
          mb := { s.svc.mb with go := false, status := 2, res := 0 } } }))
  ∧ ∀ (s : State),
    let m := s.svc.mb
    let ends (u : State) (status : BitVec 8) (res : W32) : State :=
      { u with svc := { u.svc with mb := { u.svc.mb with go := false, status := status, res := res } } }
    let b := m.arg0.toNat
    let runs (op : Nat) : Prop := m.op.toNat = op ∧ m.legal = true
    m.go = true → s.svc.stopped = none → s.bootMode ≠ 2 →
      (m.legal = false → exec .badarg s = .next (ends s 1 0))
        ∧ (runs 1 → ∀ bs u, s.farRead 0 m.bufSpace.toNat m.bufVa.toNat m.arg1.toNat = .ok bs u →
          (bs.length < 64 ∨ imageVerifies bs = false → exec .stage s = .next (ends u 3 0))
            ∧ (imageVerifies bs = true →
              let sig (lo : Nat) : Nat := ((bs.drop (bs.length - 64 + lo)).take 32).foldl (fun n b => n * 256 + b.toNat) 0
              64 ≤ bs.length ∧ 1 ≤ sig 0 ∧ sig 0 < p256N ∧ 1 ≤ sig 32 ∧ sig 32 < p256N)
            ∧ (imageVerifies bs = true →
              let body := bs.take (bs.length - 64)
              (b = 2 → exec .stage s = .next (ends { u with svc := { u.svc with staged := some body } } 0 0))
                ∧ (b ≠ 2 → exec .stage s = .next (ends { u with svc := { u.svc with
                    fw := mset {} u.svc.fw b ((u.firmware b).putInactive { body := body, ok := true }) } } 0 0))))
        ∧ (runs 2 → let f := s.firmware b
          (f.inactive.ok = false → exec .switch s = .next (ends s 1 0))
            ∧ (f.inactive.ok = true → b ≠ 0 ∨ s.noneInHand = true → exec .switch s
              = .next (ends { s with svc := { s.svc with fw := mset {} s.svc.fw b { f with activeB := !f.activeB } } } 0 0)))
        ∧ (runs 3 → let x := s.getBasin b
          (s.basinHeld b = true ∨ x.tug.cmds ≠ [] → exec .tugload s = .next (ends s 2 0))
            ∧ ∀ body, s.basinHeld b = false → x.tug.cmds = [] → s.svc.staged = some body →
              let u := s.setBasin b { x with tug := { x.tug with uver := bytes32 (body.take 4), imemBad := false } }
              exec .tugload s = .next (ends { u with svc := { u.svc with microcode := mput u.svc.microcode b body } } 0 0))
        ∧ (runs 4 → (m.arg1 = 0 → exec .islandSetFrequency s = .next (ends { s with svc := { s.svc with
              freq := mset 1500 s.svc.freq b m.arg2.toNat } } 0 (BitVec.ofNat 32 (mget 1500 s.svc.freq b))))
          ∧ (m.arg1 = 1 → exec .islandRecalibrate s = .next { s with svc := { s.svc with stopped := some b } }))
        ∧ (runs 5 → let used := mget 0 s.svc.usedSites (dieOf b)
          (s.basinHeld b = true → exec .retbasin s = .next (ends s 2 0))
            ∧ (s.basinHeld b = false → 16 ≤ used → exec .retbasin s = .next (ends s 4 0))
            ∧ (s.basinHeld b = false → used < 16 → exec .retbasin s = .next (ends { s with svc := { s.svc with
                usedSites := mset 0 s.svc.usedSites (dieOf b) (used + 1), moved := s.svc.moved ++ [b] } } 0 (BitVec.ofNat 32 (15 - used)))))
        ∧ (runs 6 → let now := s.svc.retired ||| BitVec.ofNat 32 (2 ^ b)
          (s.svc.retired.getLsbD b = true → exec .retchan s = .next (ends s 1 0))
            ∧ (∀ n, s.svc.retired.getLsbD b = false → s.spaceReaching (lpddrBytes now) = some (n, none) →
              exec .retchan s = .next (ends s 7 (BitVec.ofNat 32 n)))
            ∧ (∀ n key, s.svc.retired.getLsbD b = false → s.spaceReaching (lpddrBytes now) = some (n, some key) →
              exec .retchan s = .next (ends (s.retireLine key).1 7 (BitVec.ofNat 32 n)))
            ∧ (s.svc.retired.getLsbD b = false → s.spaceReaching (lpddrBytes now) = none →
              exec .retchan s = .next (ends { s with svc := { s.svc with retired := now } } 0 0)))
        ∧ (runs 7 → ∀ nonce u v, s.farRead 0 m.bufSpace.toNat m.bufVa.toNat 32 = .ok nonce u →
          let body := u.reportBody nonce
          let w : State := { u with free := u.free + 64 }
          ∀ bs, w.farWrite 0 m.bufSpace.toNat m.bufVa.toNat (body ++ identitySign body u.free) = .ok bs v →
            exec .attest s = .next (ends v 0 0))
        ∧ (runs 8 → ∀ bs v, s.farWrite 0 m.bufSpace.toNat m.bufVa.toNat identityPublic = .ok bs v →
          exec .identity s = .next (ends v 0 0))
        ∧ ∀ miss v,
          (runs 1 → s.farRead 0 m.bufSpace.toNat m.bufVa.toNat m.arg1.toNat = .miss miss v → exec .stage s = .next (ends v 5 0))
            ∧ (runs 7 → s.farRead 0 m.bufSpace.toNat m.bufVa.toNat 32 = .miss miss v → exec .attest s = .next (ends v 5 0))
            ∧ (runs 7 → ∀ nonce u, s.farRead 0 m.bufSpace.toNat m.bufVa.toNat 32 = .ok nonce u →
              let body := u.reportBody nonce
              let w : State := { u with free := u.free + 64 }
              w.farWrite 0 m.bufSpace.toNat m.bufVa.toNat (body ++ identitySign body u.free) = .miss miss v →
                exec .attest s = .next (ends w 5 0))
            ∧ (runs 8 → s.farWrite 0 m.bufSpace.toNat m.bufVa.toNat identityPublic = .miss miss v →
              exec .identity s = .next (ends s 5 0))

/-! ## Fetch, decoding and the step -/

/-- 01 R23, R32, 03 R62, R63, R78: one cycle of a core whose search begins at a context that can go on. The results due land
first. The instruction at its PC is fetched, decoded and executed; a word that decodes to none is the illegal instruction. A
context that issues ends the search and the cycle; one that parks or waits lets the search go on over the other ten. A fetch
of a dropped line, of a word that the end of local memory cuts off, or of a granule with an uncorrectable error traps. A
byte stored to since the context's last `isync` is fetched as it was before the store, with what stopped it then, until the
next one (10 R254, R275): that every earlier store is fetched after it, and that a task's held stores are not fetched, are
the model's choices (log entries 3 and 38). -/
def Obligations.StepRunsDecoded : Prop :=
  (∀ (s : State) (n : Nat) (ts : List Turn), s.sched = .cycle n :: ts → n < 16384 → s.standsStill (basinOf n) = false →
    let c := ((s.getCore n).ilast + 1) % 11
    let u : State := { ({ s with sched := ts } : State).landDue n with core := n, ctx := c }
    let x := u.cur
    let pc := x.pc.toNat
    let k := if (u.fetchByte n c pc).toNat % 2 = 0 then 2 else 4
    let word := ((List.range k).map fun i => (u.fetchByte n c (pc + i)).toNat * 256 ^ i).sum
    let v : W32 := BitVec.ofNat 32 pc
    let goes (t : State) : Prop :=
      ((t.getCtx n c).stays = false → step s = .next (t.takeBoundary n c))
        ∧ ((t.getCtx n c).stays = true → step s = State.search n ((List.range 10).map fun j => (c + 1 + j) % 11) t)
    x.status ≠ .idle → x.ending = none → u.heldAtBoundary n x = false → u.trapDue n c = false →
      let stops (off : Nat) : Prop :=
        (u.fetchStop n c off = some .overread → goes (u.trapEntry n c .overread x.pc v))
          ∧ (u.fetchStop n c off = some .ue →
            let met := ((u.badGranule (localKey n off) 2).map (· * 8)).getD (localKey n off)
            goes ((u.meetUe u.me.launch n c met off).trapEntry n c .ue x.pc v))
      (u.fetchStop n c pc = none → (k = 4 → pc ≠ 0x1FFFE ∧ u.fetchStop n c (pc + 2) = none) →
        (∀ i t, decode word = .ok i → exec i u = .next t → goes t)
          ∧ (∀ e t, decode word = .error e → exec (.illegalInstruction (BitVec.ofNat 32 word)) u = .next t → goes t))
        ∧ stops pc
        ∧ (u.fetchStop n c pc = none → k = 4 →
          (pc = 0x1FFFE → goes (u.trapEntry n c .range x.pc v)) ∧ (pc ≠ 0x1FFFE → stops (pc + 2))))
  ∧ ∀ (s : State) (n c off : Nat),
    let key := localKey n off
    let dropped := s.lineState (key / 64) = .dropped
    (dropped → s.fetchStop n c off = some .overread)
      ∧ (¬dropped → s.stale n c off = none → s.stale n c (off + 1) = none →
        (s.badGranule key 2 = none → s.fetchStop n c off = none)
          ∧ ∀ g, s.badGranule key 2 = some g → s.fetchStop n c off = some .ue)
      ∧ (∀ e, s.stale n c off = some e → s.fetchByte n c off = e.byte ∧ (¬dropped → s.fetchStop n c off = e.stop))
      ∧ (s.stale n c off = none → s.fetchByte n c off = s.byteAt key)
      ∧ (n < 16384 → off < 0x20000 →
        (∀ a bs, (s.getCtx n c).epoch ≤ (s.getCore n).epoch → (s.putBytes a bs).fetchByte n c off = s.fetchByte n c off)
          ∧ ((∀ e ∈ mget [] s.fetched key, e.epoch ≤ (s.getCore n).epoch) → (s.refetch n c).fetchByte n c off = s.byteAt key))

/-- 03 R62 to R77: words written out from the encoding tables of the spec, and the instructions they name. -/
def Obligations.DecodeWords : Prop :=
  [0x00083283, 0x21800205, 0x38001007, 0x0066920B, 0xFE0A2F8D, 0xD500220F, 0xFFFFD013, 0x00040017, 0x004A409B,
    0x02528383].map decode
      = [.ok (.add 5 3 4), .ok (.addi 4 0 536), .ok (.lui 7 0x20), .ok (.ldhu 4 9 6), .ok (.stb 5 2 0xFFF),
        .ok (.ldwPtr 4 2 .order 3 false true), .ok (.call 0x1FFFFA0), .ok .ret, .ok (.pnear 1 4 5 false),
        .ok (.sra 7 8 9)]
    ∧ [0x0046111F, 0x190A441F, 0x03462321, 0x500062A3, 0x05024623, 0x0190C4A3, 0x014A34A5, 0x000620A7, 0x54462029,
      0x040A41AB].map decode
        = [.ok (.vadd .h 2 1 3), .ok (.vdot4 8 4 5), .ok (.vfma .bf 6 2 3), .ok (.vcvt .f2w true 5 6 0),
          .ok (.vtern true 12 4 1), .ok (.vtrpk 9 12 8), .ok (.vext .h 9 3 5), .ok (.lcopy 1 2 3),
          .ok (.rcopen 5 2 3 .fault), .ok (.get 3 4 5 false true)]
    ∧ [0x069434AD, 0x3306002F, 0x0C0411B1, 0xA8443231, 0x005072B3, 0x00000035, 0x00462237, 0x00001339, 0x3C0001BB,
      0x4040403B, 0xFC4060BB].map decode
        = [.ok (.rmwadd false .acqRel .die 9 3 10), .ok (.fence .pkg 3 3), .ok (.mwld .p24 1 3 1 2),
          .ok (.mrun .sr false true false 1 4 3 2), .ok (.sendw 5 7 8), .ok .done, .ok (.bararr 4 2 3), .ok (.kick 6 1),
          .ok (.mfs 3 15), .ok (.mts 16 4), .ok (.clr .v 6)]

/-- 03 R62 to R77: no bit of an encoding is dropped. The word of a well-formed instruction is a halfword with bit 0 clear or
a 32-bit word with bit 0 set, and it decodes to the instruction, as do its bytes in memory order whatever follows them. -/
def Obligations.DecodeEncode : Prop :=
  ∀ (i : Instr) (w : Nat), wellFormed i = true → (∀ x, i ≠ .illegalInstruction x) → encode i = some w →
    (lengthOf i = 2 ∧ w % 2 = 0 ∧ w < 2 ^ 16 ∨ lengthOf i = 4 ∧ w % 2 = 1 ∧ w < 2 ^ 32)
      ∧ decode w = .ok i ∧ ∀ rest, decodeBytes (leBytes (lengthOf i) w ++ rest) = .ok (i, rest)

/-! ## Every step, and reset -/

/-- Every move of the package keeps memory and line states in canonical form: keys strictly rising, and nothing listed that
an unlisted key reads as (log entry 2 says what that is). It keeps every count of a line from 1 to 255 too (05 R115). -/
def Obligations.StepKeepsCanonical : Prop :=
  ∀ s t : State, step s = .next t → (s.Canonical → t.Canonical) ∧ (s.CountsOk → t.CountsOk)

/-- 01 R23, R27, 02 R51, 08 R221, 09 R233, R234 and the Reset columns of the register tables: the state after reset, and
the reset of any state. RESET keeps what LPDDR 6 and host memory hold, which is the model's choice (log entry 31). -/
def Obligations.ResetState : Prop :=
  let fresh (t : State) : Prop :=
    (∀ n c, n < 16384 → c ≤ 10 →
        let u : State := { t with core := n, ctx := c }
        u.me.ilast = 10 ∧ u.cur.status = .idle ∧ u.me.launch = none
          ∧ u.sysReg 0 = BitVec.ofNat 32 n ∧ u.sysReg 1 = BitVec.ofNat 32 c ∧ u.sysReg 23 = 65536 ∧ u.sysReg 25 = 2 ∧ u.sysReg 28 = 0x5555
          ∧ (∀ r ∈ [4, 5, 6, 7, 8, 9, 10, 11, 12, 13, 14, 15, 16, 21, 24, 26], u.sysReg r = 0)
          ∧ (∀ id, id < 160 → u.cur.value id = 0 ∧ u.cur.regState id = .full)
          ∧ (∀ i, i < 8 → let x : Tile := mget {} u.me.mat.tiles i
            (∀ e, e < 1024 → mget 0 x.acc e = 0 ∧ mget false x.inv e = false)
              ∧ x.anchor = 0 ∧ x.tag = 0 ∧ x.sat = false ∧ x.prog = 0)
          ∧ ∀ off, off < 0x20000 → t.byteAt (localKey n off) = 0 ∧ t.lineState (localKey n off / 64) = .plain)
      ∧ (∀ b k, b < 2048 → k < 12 → t.mode b k = 0 ∧ t.fifo b k = {})
      ∧ (∀ b, b < 2048 → (t.getBasin b).tug.next = 0 ∧ (t.getBasin b).tug.cmds = []
        ∧ (t.getBasin b).keeper.next = 0 ∧ (t.getBasin b).keeper.reqs = [])
      ∧ ∀ q off, q < 16 → off < 0x2000 → t.barRead q off = 0
  State.reset.Canonical ∧ State.reset.CountsOk ∧ fresh State.reset
    ∧ ∀ s : State, ∃ t, exec .reset s = .next t ∧ fresh t ∧ (s.Canonical → t.Canonical) ∧ t.CountsOk
      ∧ t.sched = s.sched ∧ ∀ a, 2 ^ 48 ≤ a → t.byteAt a = mget 0 s.mem a

end
end

