-- ==== Sys2Proof/Laws/Map.lean ====
section
/-! SUPPORT. What the map operations do: read after write, writes elsewhere, and that writes keep the canonical form. -/

namespace Sys2Proof.Machine

variable {α : Type} {d v : α} {m : SMap α} {k k' lo n : Nat}

@[simp] theorem mget_nil : mget d ([] : SMap α) k = d := rfl

theorem mget_cons (e : Nat × α) : mget d (e :: m) k = if e.1 = k then e.2 else mget d m k := rfl

@[simp] theorem mget_mdel_self : mget d (mdel m k) k = d := by
  induction m with
  | nil => rfl
  | cons e t ih => obtain ⟨a, b⟩ := e; by_cases h : a = k <;> simp [mdel, mget, h, ih]

theorem mget_mdel_ne (h : k' ≠ k) : mget d (mdel m k) k' = mget d m k' := by
  induction m with
  | nil => rfl
  | cons e t ih =>
    obtain ⟨a, b⟩ := e
    by_cases ha : a = k
    · subst ha; simp [mdel, mget, ih, Ne.symm h]
    · simp [mdel, mget, ha, ih]

theorem mget_mins_self (h : mget d m k = d → ∀ e ∈ m, e.1 ≠ k) (h' : mget d m k = d) :
    mget d (mins k v m) k = v := by
  have hk := h h'
  clear h h'
  induction m with
  | nil => simp [mins, mget]
  | cons e t ih =>
    obtain ⟨a, b⟩ := e
    have ha : a ≠ k := hk (a, b) (by simp)
    unfold mins
    split
    · simp [mget]
    · simp [mget, ha]
      exact ih fun e he => hk e (by simp [he])

theorem mdel_no_key : ∀ e ∈ mdel m k, e.1 ≠ k := by
  induction m with
  | nil => simp [mdel]
  | cons e t ih =>
    obtain ⟨a, b⟩ := e
    by_cases h : a = k
    · simpa [mdel, h] using ih
    · simp only [mdel, h, if_false, List.mem_cons, forall_eq_or_imp]
      exact ⟨h, ih⟩

theorem mget_mins_ne (h : k' ≠ k) : mget d (mins k v m) k' = mget d m k' := by
  induction m with
  | nil => simp [mins, mget, Ne.symm h]
  | cons e t ih =>
    obtain ⟨a, b⟩ := e
    unfold mins
    split
    · simp [mget, Ne.symm h]
    · simp [mget, ih]

@[simp] theorem mget_mput_self : mget d (mput m k v) k = v :=
  mget_mins_self (fun _ => mdel_no_key) mget_mdel_self

theorem mget_mput_ne (h : k' ≠ k) : mget d (mput m k v) k' = mget d m k' := by
  rw [mput, mget_mins_ne h, mget_mdel_ne h]

theorem mget_mput : mget d (mput m k v) k' = if k' = k then v else mget d m k' := by
  by_cases h : k' = k
  · simp [h]
  · simp [h, mget_mput_ne h]

theorem mem_mdel {e : Nat × α} : e ∈ mdel m k → e ∈ m := by
  induction m with
  | nil => simp [mdel]
  | cons f t ih =>
    obtain ⟨a, b⟩ := f
    by_cases h : a = k
    · simp only [mdel, h, if_true, List.mem_cons]; exact fun he => Or.inr (ih he)
    · simp only [mdel, h, if_false, List.mem_cons]
      rintro (he | he)
      · exact Or.inl he
      · exact Or.inr (ih he)

theorem mem_mins {e : Nat × α} : e ∈ mins k v m → e = (k, v) ∨ e ∈ m := by
  induction m with
  | nil => simp [mins]
  | cons f t ih =>
    obtain ⟨a, b⟩ := f
    unfold mins
    split
    · simp
    · simp only [List.mem_cons]
      rintro (he | he)
      · exact Or.inr (Or.inl he)
      · rcases ih he with h | h
        · exact Or.inl h
        · exact Or.inr (Or.inr h)

section
variable [DecidableEq α]

@[simp] theorem mget_mset_self : mget d (mset d m k v) k = v := by
  unfold mset; split <;> simp_all

theorem mget_mset_ne (h : k' ≠ k) : mget d (mset d m k v) k' = mget d m k' := by
  unfold mset; split
  · exact mget_mdel_ne h
  · exact mget_mput_ne h

theorem mget_mset : mget d (mset d m k v) k' = if k' = k then v else mget d m k' := by
  by_cases h : k' = k
  · simp [h]
  · simp [h, mget_mset_ne h]

/-- The canonical form, said of the head and every later entry. -/
theorem mwf_cons {e : Nat × α} :
    mwf d (e :: m) = true ↔ e.2 ≠ d ∧ (∀ e' ∈ m, e.1 < e'.1) ∧ mwf d m = true := by
  induction m generalizing e with
  | nil => obtain ⟨a, b⟩ := e; simp [mwf]
  | cons f t ih =>
    obtain ⟨a, b⟩ := e; obtain ⟨a', b'⟩ := f
    have := @ih (a', b')
    simp only [mwf, Bool.and_eq_true, decide_eq_true_eq, Bool.not_eq_true', decide_eq_false_iff_not,
      List.mem_cons, forall_eq_or_imp] at *
    constructor
    · rintro ⟨⟨h1, h2⟩, h3⟩
      exact ⟨h1, ⟨h2, fun e' he' => Nat.lt_trans h2 ((this.1 h3).2.1 e' he')⟩, h3⟩
    · rintro ⟨h1, ⟨h2, -⟩, h3⟩
      exact ⟨⟨h1, h2⟩, h3⟩

theorem mwf_mdel (h : mwf d m = true) : mwf d (mdel m k) = true := by
  induction m with
  | nil => rfl
  | cons e t ih =>
    obtain ⟨a, b⟩ := e
    have hc := mwf_cons.1 h
    by_cases ha : a = k
    · simpa [mdel, ha] using ih hc.2.2
    · simp only [mdel, ha, if_false]
      exact mwf_cons.2 ⟨hc.1, fun e' he' => hc.2.1 e' (mem_mdel he'), ih hc.2.2⟩

theorem mwf_mins (hv : v ≠ d) (hk : ∀ e ∈ m, e.1 ≠ k) (h : mwf d m = true) : mwf d (mins k v m) = true := by
  induction m with
  | nil => simp [mins, mwf, hv]
  | cons e t ih =>
    obtain ⟨a, b⟩ := e
    have hc := mwf_cons.1 h
    have ha : a ≠ k := hk (a, b) (by simp)
    unfold mins
    split
    · next hlt =>
      refine mwf_cons.2 ⟨hv, ?_, h⟩
      intro e' he'
      rcases List.mem_cons.1 he' with rfl | he'
      · exact hlt
      · exact Nat.lt_trans hlt (hc.2.1 e' he')
    · next hge =>
      refine mwf_cons.2 ⟨hc.1, ?_, ih (fun e he => hk e (by simp [he])) hc.2.2⟩
      intro e' he'
      rcases mem_mins he' with rfl | he'
      · simp at hge ⊢; omega
      · exact hc.2.1 e' he'

theorem mwf_mset (h : mwf d m = true) : mwf d (mset d m k v) = true := by
  unfold mset; split
  · exact mwf_mdel h
  · next hv => exact mwf_mins hv mdel_no_key (mwf_mdel h)

theorem mwf_filter {f : Nat × α → Bool} (h : mwf d m = true) : mwf d (m.filter f) = true := by
  induction m with
  | nil => rfl
  | cons e t ih =>
    have hc := mwf_cons.1 h
    by_cases hf : f e
    · rw [List.filter_cons_of_pos hf]
      exact mwf_cons.2 ⟨hc.1, fun e' he' => hc.2.1 e' (List.mem_filter.1 he').1, ih hc.2.2⟩
    · rw [List.filter_cons_of_neg hf]; exact ih hc.2.2

theorem mwf_mclear (h : mwf d m = true) : mwf d (mclear m lo n) = true := mwf_filter h

end

end Sys2Proof.Machine
end

