-- ==== Sys2Proof/Laws/State.lean ====
section
/-! SUPPORT. What each update of the state leaves as it was, and what the accessors read after it. -/

namespace Sys2Proof.Machine

variable (s : State)

@[simp] theorem State.setCore_core (n : Nat) (k : Core) : (s.setCore n k).core = s.core := rfl
@[simp] theorem State.setCore_ctx (n : Nat) (k : Core) : (s.setCore n k).ctx = s.ctx := rfl
@[simp] theorem State.setCore_sched (n : Nat) (k : Core) : (s.setCore n k).sched = s.sched := rfl
@[simp] theorem State.setCore_free (n : Nat) (k : Core) : (s.setCore n k).free = s.free := rfl
@[simp] theorem State.setCore_seq (n : Nat) (k : Core) : (s.setCore n k).seq = s.seq := rfl
@[simp] theorem State.setCore_fetched (n : Nat) (k : Core) : (s.setCore n k).fetched = s.fetched := rfl
@[simp] theorem State.setCore_written (n : Nat) (k : Core) : (s.setCore n k).written = s.written := rfl
@[simp] theorem State.setCore_watches (n : Nat) (k : Core) : (s.setCore n k).watches = s.watches := rfl
@[simp] theorem State.setCore_basins (n : Nat) (k : Core) : (s.setCore n k).basins = s.basins := rfl
@[simp] theorem State.setCore_mem (n : Nat) (k : Core) : (s.setCore n k).mem = s.mem := rfl
@[simp] theorem State.setCore_lines (n : Nat) (k : Core) : (s.setCore n k).lines = s.lines := rfl
@[simp] theorem State.setCore_far (n : Nat) (k : Core) : (s.setCore n k).far = s.far := rfl
@[simp] theorem State.setCore_tlb (n : Nat) (k : Core) : (s.setCore n k).tlb = s.tlb := rfl
@[simp] theorem State.setCore_bars (n : Nat) (k : Core) : (s.setCore n k).bars = s.bars := rfl
@[simp] theorem State.setCore_quays (n : Nat) (k : Core) : (s.setCore n k).quays = s.quays := rfl
@[simp] theorem State.setCore_objs (n : Nat) (k : Core) : (s.setCore n k).objs = s.objs := rfl
@[simp] theorem State.setCore_nextAge (n : Nat) (k : Core) : (s.setCore n k).nextAge = s.nextAge := rfl
@[simp] theorem State.setCore_net (n : Nat) (k : Core) : (s.setCore n k).net = s.net := rfl
@[simp] theorem State.setCore_sptbase (n : Nat) (k : Core) : (s.setCore n k).sptbase = s.sptbase := rfl
@[simp] theorem State.setCore_time (n : Nat) (k : Core) : (s.setCore n k).time = s.time := rfl
@[simp] theorem State.setCore_bootReason (n : Nat) (k : Core) : (s.setCore n k).bootReason = s.bootReason := rfl
@[simp] theorem State.setCore_bootMode (n : Nat) (k : Core) : (s.setCore n k).bootMode = s.bootMode := rfl
@[simp] theorem State.setCore_ring (n : Nat) (k : Core) : (s.setCore n k).ring = s.ring := rfl
@[simp] theorem State.setCore_svc (n : Nat) (k : Core) : (s.setCore n k).svc = s.svc := rfl
@[simp] theorem State.setCore_errs (n : Nat) (k : Core) : (s.setCore n k).errs = s.errs := rfl
@[simp] theorem State.setCore_hostRead (n : Nat) (k : Core) : (s.setCore n k).hostRead = s.hostRead := rfl

@[simp] theorem State.setCtx_core (n c : Nat) (x : Ctx) : (s.setCtx n c x).core = s.core := rfl
@[simp] theorem State.setCtx_ctx (n c : Nat) (x : Ctx) : (s.setCtx n c x).ctx = s.ctx := rfl
@[simp] theorem State.setCtx_sched (n c : Nat) (x : Ctx) : (s.setCtx n c x).sched = s.sched := rfl
@[simp] theorem State.setCtx_free (n c : Nat) (x : Ctx) : (s.setCtx n c x).free = s.free := rfl
@[simp] theorem State.setCtx_seq (n c : Nat) (x : Ctx) : (s.setCtx n c x).seq = s.seq := rfl
@[simp] theorem State.setCtx_fetched (n c : Nat) (x : Ctx) : (s.setCtx n c x).fetched = s.fetched := rfl
@[simp] theorem State.setCtx_written (n c : Nat) (x : Ctx) : (s.setCtx n c x).written = s.written := rfl
@[simp] theorem State.setCtx_watches (n c : Nat) (x : Ctx) : (s.setCtx n c x).watches = s.watches := rfl
@[simp] theorem State.setCtx_basins (n c : Nat) (x : Ctx) : (s.setCtx n c x).basins = s.basins := rfl
@[simp] theorem State.setCtx_mem (n c : Nat) (x : Ctx) : (s.setCtx n c x).mem = s.mem := rfl
@[simp] theorem State.setCtx_lines (n c : Nat) (x : Ctx) : (s.setCtx n c x).lines = s.lines := rfl
@[simp] theorem State.setCtx_far (n c : Nat) (x : Ctx) : (s.setCtx n c x).far = s.far := rfl
@[simp] theorem State.setCtx_tlb (n c : Nat) (x : Ctx) : (s.setCtx n c x).tlb = s.tlb := rfl
@[simp] theorem State.setCtx_bars (n c : Nat) (x : Ctx) : (s.setCtx n c x).bars = s.bars := rfl
@[simp] theorem State.setCtx_quays (n c : Nat) (x : Ctx) : (s.setCtx n c x).quays = s.quays := rfl
@[simp] theorem State.setCtx_objs (n c : Nat) (x : Ctx) : (s.setCtx n c x).objs = s.objs := rfl
@[simp] theorem State.setCtx_nextAge (n c : Nat) (x : Ctx) : (s.setCtx n c x).nextAge = s.nextAge := rfl
@[simp] theorem State.setCtx_net (n c : Nat) (x : Ctx) : (s.setCtx n c x).net = s.net := rfl
@[simp] theorem State.setCtx_sptbase (n c : Nat) (x : Ctx) : (s.setCtx n c x).sptbase = s.sptbase := rfl
@[simp] theorem State.setCtx_time (n c : Nat) (x : Ctx) : (s.setCtx n c x).time = s.time := rfl
@[simp] theorem State.setCtx_bootReason (n c : Nat) (x : Ctx) : (s.setCtx n c x).bootReason = s.bootReason := rfl
@[simp] theorem State.setCtx_bootMode (n c : Nat) (x : Ctx) : (s.setCtx n c x).bootMode = s.bootMode := rfl
@[simp] theorem State.setCtx_ring (n c : Nat) (x : Ctx) : (s.setCtx n c x).ring = s.ring := rfl
@[simp] theorem State.setCtx_svc (n c : Nat) (x : Ctx) : (s.setCtx n c x).svc = s.svc := rfl
@[simp] theorem State.setCtx_errs (n c : Nat) (x : Ctx) : (s.setCtx n c x).errs = s.errs := rfl
@[simp] theorem State.setCtx_hostRead (n c : Nat) (x : Ctx) : (s.setCtx n c x).hostRead = s.hostRead := rfl

@[simp] theorem State.setCur_core (x : Ctx) : (s.setCur x).core = s.core := rfl
@[simp] theorem State.setCur_ctx (x : Ctx) : (s.setCur x).ctx = s.ctx := rfl
@[simp] theorem State.setCur_sched (x : Ctx) : (s.setCur x).sched = s.sched := rfl
@[simp] theorem State.setCur_free (x : Ctx) : (s.setCur x).free = s.free := rfl
@[simp] theorem State.setCur_seq (x : Ctx) : (s.setCur x).seq = s.seq := rfl
@[simp] theorem State.setCur_fetched (x : Ctx) : (s.setCur x).fetched = s.fetched := rfl
@[simp] theorem State.setCur_written (x : Ctx) : (s.setCur x).written = s.written := rfl
@[simp] theorem State.setCur_watches (x : Ctx) : (s.setCur x).watches = s.watches := rfl
@[simp] theorem State.setCur_basins (x : Ctx) : (s.setCur x).basins = s.basins := rfl
@[simp] theorem State.setCur_mem (x : Ctx) : (s.setCur x).mem = s.mem := rfl
@[simp] theorem State.setCur_lines (x : Ctx) : (s.setCur x).lines = s.lines := rfl
@[simp] theorem State.setCur_far (x : Ctx) : (s.setCur x).far = s.far := rfl
@[simp] theorem State.setCur_tlb (x : Ctx) : (s.setCur x).tlb = s.tlb := rfl
@[simp] theorem State.setCur_bars (x : Ctx) : (s.setCur x).bars = s.bars := rfl
@[simp] theorem State.setCur_quays (x : Ctx) : (s.setCur x).quays = s.quays := rfl
@[simp] theorem State.setCur_objs (x : Ctx) : (s.setCur x).objs = s.objs := rfl
@[simp] theorem State.setCur_nextAge (x : Ctx) : (s.setCur x).nextAge = s.nextAge := rfl
@[simp] theorem State.setCur_net (x : Ctx) : (s.setCur x).net = s.net := rfl
@[simp] theorem State.setCur_sptbase (x : Ctx) : (s.setCur x).sptbase = s.sptbase := rfl
@[simp] theorem State.setCur_time (x : Ctx) : (s.setCur x).time = s.time := rfl
@[simp] theorem State.setCur_bootReason (x : Ctx) : (s.setCur x).bootReason = s.bootReason := rfl
@[simp] theorem State.setCur_bootMode (x : Ctx) : (s.setCur x).bootMode = s.bootMode := rfl
@[simp] theorem State.setCur_ring (x : Ctx) : (s.setCur x).ring = s.ring := rfl
@[simp] theorem State.setCur_svc (x : Ctx) : (s.setCur x).svc = s.svc := rfl
@[simp] theorem State.setCur_errs (x : Ctx) : (s.setCur x).errs = s.errs := rfl
@[simp] theorem State.setCur_hostRead (x : Ctx) : (s.setCur x).hostRead = s.hostRead := rfl

@[simp] theorem State.setMe_core (k : Core) : (s.setMe k).core = s.core := rfl
@[simp] theorem State.setMe_ctx (k : Core) : (s.setMe k).ctx = s.ctx := rfl
@[simp] theorem State.setMe_sched (k : Core) : (s.setMe k).sched = s.sched := rfl
@[simp] theorem State.setMe_free (k : Core) : (s.setMe k).free = s.free := rfl
@[simp] theorem State.setMe_seq (k : Core) : (s.setMe k).seq = s.seq := rfl
@[simp] theorem State.setMe_fetched (k : Core) : (s.setMe k).fetched = s.fetched := rfl
@[simp] theorem State.setMe_written (k : Core) : (s.setMe k).written = s.written := rfl
@[simp] theorem State.setMe_watches (k : Core) : (s.setMe k).watches = s.watches := rfl
@[simp] theorem State.setMe_basins (k : Core) : (s.setMe k).basins = s.basins := rfl
@[simp] theorem State.setMe_mem (k : Core) : (s.setMe k).mem = s.mem := rfl
@[simp] theorem State.setMe_lines (k : Core) : (s.setMe k).lines = s.lines := rfl
@[simp] theorem State.setMe_far (k : Core) : (s.setMe k).far = s.far := rfl
@[simp] theorem State.setMe_tlb (k : Core) : (s.setMe k).tlb = s.tlb := rfl
@[simp] theorem State.setMe_bars (k : Core) : (s.setMe k).bars = s.bars := rfl
@[simp] theorem State.setMe_quays (k : Core) : (s.setMe k).quays = s.quays := rfl
@[simp] theorem State.setMe_objs (k : Core) : (s.setMe k).objs = s.objs := rfl
@[simp] theorem State.setMe_nextAge (k : Core) : (s.setMe k).nextAge = s.nextAge := rfl
@[simp] theorem State.setMe_net (k : Core) : (s.setMe k).net = s.net := rfl
@[simp] theorem State.setMe_sptbase (k : Core) : (s.setMe k).sptbase = s.sptbase := rfl
@[simp] theorem State.setMe_time (k : Core) : (s.setMe k).time = s.time := rfl
@[simp] theorem State.setMe_bootReason (k : Core) : (s.setMe k).bootReason = s.bootReason := rfl
@[simp] theorem State.setMe_bootMode (k : Core) : (s.setMe k).bootMode = s.bootMode := rfl
@[simp] theorem State.setMe_ring (k : Core) : (s.setMe k).ring = s.ring := rfl
@[simp] theorem State.setMe_svc (k : Core) : (s.setMe k).svc = s.svc := rfl
@[simp] theorem State.setMe_errs (k : Core) : (s.setMe k).errs = s.errs := rfl
@[simp] theorem State.setMe_hostRead (k : Core) : (s.setMe k).hostRead = s.hostRead := rfl

@[simp] theorem State.setBasin_core (b : Nat) (x : Basin) : (s.setBasin b x).core = s.core := rfl
@[simp] theorem State.setBasin_ctx (b : Nat) (x : Basin) : (s.setBasin b x).ctx = s.ctx := rfl
@[simp] theorem State.setBasin_sched (b : Nat) (x : Basin) : (s.setBasin b x).sched = s.sched := rfl
@[simp] theorem State.setBasin_free (b : Nat) (x : Basin) : (s.setBasin b x).free = s.free := rfl
@[simp] theorem State.setBasin_seq (b : Nat) (x : Basin) : (s.setBasin b x).seq = s.seq := rfl
@[simp] theorem State.setBasin_fetched (b : Nat) (x : Basin) : (s.setBasin b x).fetched = s.fetched := rfl
@[simp] theorem State.setBasin_written (b : Nat) (x : Basin) : (s.setBasin b x).written = s.written := rfl
@[simp] theorem State.setBasin_watches (b : Nat) (x : Basin) : (s.setBasin b x).watches = s.watches := rfl
@[simp] theorem State.setBasin_cores (b : Nat) (x : Basin) : (s.setBasin b x).cores = s.cores := rfl
@[simp] theorem State.setBasin_mem (b : Nat) (x : Basin) : (s.setBasin b x).mem = s.mem := rfl
@[simp] theorem State.setBasin_lines (b : Nat) (x : Basin) : (s.setBasin b x).lines = s.lines := rfl
@[simp] theorem State.setBasin_far (b : Nat) (x : Basin) : (s.setBasin b x).far = s.far := rfl
@[simp] theorem State.setBasin_tlb (b : Nat) (x : Basin) : (s.setBasin b x).tlb = s.tlb := rfl
@[simp] theorem State.setBasin_bars (b : Nat) (x : Basin) : (s.setBasin b x).bars = s.bars := rfl
@[simp] theorem State.setBasin_quays (b : Nat) (x : Basin) : (s.setBasin b x).quays = s.quays := rfl
@[simp] theorem State.setBasin_objs (b : Nat) (x : Basin) : (s.setBasin b x).objs = s.objs := rfl
@[simp] theorem State.setBasin_nextAge (b : Nat) (x : Basin) : (s.setBasin b x).nextAge = s.nextAge := rfl
@[simp] theorem State.setBasin_net (b : Nat) (x : Basin) : (s.setBasin b x).net = s.net := rfl
@[simp] theorem State.setBasin_sptbase (b : Nat) (x : Basin) : (s.setBasin b x).sptbase = s.sptbase := rfl
@[simp] theorem State.setBasin_time (b : Nat) (x : Basin) : (s.setBasin b x).time = s.time := rfl
@[simp] theorem State.setBasin_bootReason (b : Nat) (x : Basin) : (s.setBasin b x).bootReason = s.bootReason := rfl
@[simp] theorem State.setBasin_bootMode (b : Nat) (x : Basin) : (s.setBasin b x).bootMode = s.bootMode := rfl
@[simp] theorem State.setBasin_ring (b : Nat) (x : Basin) : (s.setBasin b x).ring = s.ring := rfl
@[simp] theorem State.setBasin_svc (b : Nat) (x : Basin) : (s.setBasin b x).svc = s.svc := rfl
@[simp] theorem State.setBasin_errs (b : Nat) (x : Basin) : (s.setBasin b x).errs = s.errs := rfl
@[simp] theorem State.setBasin_hostRead (b : Nat) (x : Basin) : (s.setBasin b x).hostRead = s.hostRead := rfl

@[simp] theorem State.setQuay_core (q : Nat) (x : Quay) : (s.setQuay q x).core = s.core := rfl
@[simp] theorem State.setQuay_ctx (q : Nat) (x : Quay) : (s.setQuay q x).ctx = s.ctx := rfl
@[simp] theorem State.setQuay_sched (q : Nat) (x : Quay) : (s.setQuay q x).sched = s.sched := rfl
@[simp] theorem State.setQuay_free (q : Nat) (x : Quay) : (s.setQuay q x).free = s.free := rfl
@[simp] theorem State.setQuay_seq (q : Nat) (x : Quay) : (s.setQuay q x).seq = s.seq := rfl
@[simp] theorem State.setQuay_fetched (q : Nat) (x : Quay) : (s.setQuay q x).fetched = s.fetched := rfl
@[simp] theorem State.setQuay_written (q : Nat) (x : Quay) : (s.setQuay q x).written = s.written := rfl
@[simp] theorem State.setQuay_watches (q : Nat) (x : Quay) : (s.setQuay q x).watches = s.watches := rfl
@[simp] theorem State.setQuay_cores (q : Nat) (x : Quay) : (s.setQuay q x).cores = s.cores := rfl
@[simp] theorem State.setQuay_basins (q : Nat) (x : Quay) : (s.setQuay q x).basins = s.basins := rfl
@[simp] theorem State.setQuay_mem (q : Nat) (x : Quay) : (s.setQuay q x).mem = s.mem := rfl
@[simp] theorem State.setQuay_lines (q : Nat) (x : Quay) : (s.setQuay q x).lines = s.lines := rfl
@[simp] theorem State.setQuay_far (q : Nat) (x : Quay) : (s.setQuay q x).far = s.far := rfl
@[simp] theorem State.setQuay_tlb (q : Nat) (x : Quay) : (s.setQuay q x).tlb = s.tlb := rfl
@[simp] theorem State.setQuay_bars (q : Nat) (x : Quay) : (s.setQuay q x).bars = s.bars := rfl
@[simp] theorem State.setQuay_objs (q : Nat) (x : Quay) : (s.setQuay q x).objs = s.objs := rfl
@[simp] theorem State.setQuay_nextAge (q : Nat) (x : Quay) : (s.setQuay q x).nextAge = s.nextAge := rfl
@[simp] theorem State.setQuay_net (q : Nat) (x : Quay) : (s.setQuay q x).net = s.net := rfl
@[simp] theorem State.setQuay_sptbase (q : Nat) (x : Quay) : (s.setQuay q x).sptbase = s.sptbase := rfl
@[simp] theorem State.setQuay_time (q : Nat) (x : Quay) : (s.setQuay q x).time = s.time := rfl
@[simp] theorem State.setQuay_bootReason (q : Nat) (x : Quay) : (s.setQuay q x).bootReason = s.bootReason := rfl
@[simp] theorem State.setQuay_bootMode (q : Nat) (x : Quay) : (s.setQuay q x).bootMode = s.bootMode := rfl
@[simp] theorem State.setQuay_ring (q : Nat) (x : Quay) : (s.setQuay q x).ring = s.ring := rfl
@[simp] theorem State.setQuay_svc (q : Nat) (x : Quay) : (s.setQuay q x).svc = s.svc := rfl
@[simp] theorem State.setQuay_errs (q : Nat) (x : Quay) : (s.setQuay q x).errs = s.errs := rfl
@[simp] theorem State.setQuay_hostRead (q : Nat) (x : Quay) : (s.setQuay q x).hostRead = s.hostRead := rfl

@[simp] theorem State.setObj_core (h : Nat) (x : WorkObj) : (s.setObj h x).core = s.core := rfl
@[simp] theorem State.setObj_ctx (h : Nat) (x : WorkObj) : (s.setObj h x).ctx = s.ctx := rfl
@[simp] theorem State.setObj_sched (h : Nat) (x : WorkObj) : (s.setObj h x).sched = s.sched := rfl
@[simp] theorem State.setObj_free (h : Nat) (x : WorkObj) : (s.setObj h x).free = s.free := rfl
@[simp] theorem State.setObj_seq (h : Nat) (x : WorkObj) : (s.setObj h x).seq = s.seq := rfl
@[simp] theorem State.setObj_fetched (h : Nat) (x : WorkObj) : (s.setObj h x).fetched = s.fetched := rfl
@[simp] theorem State.setObj_written (h : Nat) (x : WorkObj) : (s.setObj h x).written = s.written := rfl
@[simp] theorem State.setObj_watches (h : Nat) (x : WorkObj) : (s.setObj h x).watches = s.watches := rfl
@[simp] theorem State.setObj_cores (h : Nat) (x : WorkObj) : (s.setObj h x).cores = s.cores := rfl
@[simp] theorem State.setObj_basins (h : Nat) (x : WorkObj) : (s.setObj h x).basins = s.basins := rfl
@[simp] theorem State.setObj_mem (h : Nat) (x : WorkObj) : (s.setObj h x).mem = s.mem := rfl
@[simp] theorem State.setObj_lines (h : Nat) (x : WorkObj) : (s.setObj h x).lines = s.lines := rfl
@[simp] theorem State.setObj_far (h : Nat) (x : WorkObj) : (s.setObj h x).far = s.far := rfl
@[simp] theorem State.setObj_tlb (h : Nat) (x : WorkObj) : (s.setObj h x).tlb = s.tlb := rfl
@[simp] theorem State.setObj_bars (h : Nat) (x : WorkObj) : (s.setObj h x).bars = s.bars := rfl
@[simp] theorem State.setObj_quays (h : Nat) (x : WorkObj) : (s.setObj h x).quays = s.quays := rfl
@[simp] theorem State.setObj_nextAge (h : Nat) (x : WorkObj) : (s.setObj h x).nextAge = s.nextAge := rfl
@[simp] theorem State.setObj_net (h : Nat) (x : WorkObj) : (s.setObj h x).net = s.net := rfl
@[simp] theorem State.setObj_sptbase (h : Nat) (x : WorkObj) : (s.setObj h x).sptbase = s.sptbase := rfl
@[simp] theorem State.setObj_time (h : Nat) (x : WorkObj) : (s.setObj h x).time = s.time := rfl
@[simp] theorem State.setObj_bootReason (h : Nat) (x : WorkObj) : (s.setObj h x).bootReason = s.bootReason := rfl
@[simp] theorem State.setObj_bootMode (h : Nat) (x : WorkObj) : (s.setObj h x).bootMode = s.bootMode := rfl
@[simp] theorem State.setObj_ring (h : Nat) (x : WorkObj) : (s.setObj h x).ring = s.ring := rfl
@[simp] theorem State.setObj_svc (h : Nat) (x : WorkObj) : (s.setObj h x).svc = s.svc := rfl
@[simp] theorem State.setObj_errs (h : Nat) (x : WorkObj) : (s.setObj h x).errs = s.errs := rfl
@[simp] theorem State.setObj_hostRead (h : Nat) (x : WorkObj) : (s.setObj h x).hostRead = s.hostRead := rfl

@[simp] theorem State.setBar_core (i : Nat) (x : Barrier) : (s.setBar i x).core = s.core := rfl
@[simp] theorem State.setBar_ctx (i : Nat) (x : Barrier) : (s.setBar i x).ctx = s.ctx := rfl
@[simp] theorem State.setBar_sched (i : Nat) (x : Barrier) : (s.setBar i x).sched = s.sched := rfl
@[simp] theorem State.setBar_free (i : Nat) (x : Barrier) : (s.setBar i x).free = s.free := rfl
@[simp] theorem State.setBar_seq (i : Nat) (x : Barrier) : (s.setBar i x).seq = s.seq := rfl
@[simp] theorem State.setBar_fetched (i : Nat) (x : Barrier) : (s.setBar i x).fetched = s.fetched := rfl
@[simp] theorem State.setBar_written (i : Nat) (x : Barrier) : (s.setBar i x).written = s.written := rfl
@[simp] theorem State.setBar_watches (i : Nat) (x : Barrier) : (s.setBar i x).watches = s.watches := rfl
@[simp] theorem State.setBar_cores (i : Nat) (x : Barrier) : (s.setBar i x).cores = s.cores := rfl
@[simp] theorem State.setBar_basins (i : Nat) (x : Barrier) : (s.setBar i x).basins = s.basins := rfl
@[simp] theorem State.setBar_mem (i : Nat) (x : Barrier) : (s.setBar i x).mem = s.mem := rfl
@[simp] theorem State.setBar_lines (i : Nat) (x : Barrier) : (s.setBar i x).lines = s.lines := rfl
@[simp] theorem State.setBar_far (i : Nat) (x : Barrier) : (s.setBar i x).far = s.far := rfl
@[simp] theorem State.setBar_tlb (i : Nat) (x : Barrier) : (s.setBar i x).tlb = s.tlb := rfl
@[simp] theorem State.setBar_quays (i : Nat) (x : Barrier) : (s.setBar i x).quays = s.quays := rfl
@[simp] theorem State.setBar_objs (i : Nat) (x : Barrier) : (s.setBar i x).objs = s.objs := rfl
@[simp] theorem State.setBar_nextAge (i : Nat) (x : Barrier) : (s.setBar i x).nextAge = s.nextAge := rfl
@[simp] theorem State.setBar_net (i : Nat) (x : Barrier) : (s.setBar i x).net = s.net := rfl
@[simp] theorem State.setBar_sptbase (i : Nat) (x : Barrier) : (s.setBar i x).sptbase = s.sptbase := rfl
@[simp] theorem State.setBar_time (i : Nat) (x : Barrier) : (s.setBar i x).time = s.time := rfl
@[simp] theorem State.setBar_bootReason (i : Nat) (x : Barrier) : (s.setBar i x).bootReason = s.bootReason := rfl
@[simp] theorem State.setBar_bootMode (i : Nat) (x : Barrier) : (s.setBar i x).bootMode = s.bootMode := rfl
@[simp] theorem State.setBar_ring (i : Nat) (x : Barrier) : (s.setBar i x).ring = s.ring := rfl
@[simp] theorem State.setBar_svc (i : Nat) (x : Barrier) : (s.setBar i x).svc = s.svc := rfl
@[simp] theorem State.setBar_errs (i : Nat) (x : Barrier) : (s.setBar i x).errs = s.errs := rfl
@[simp] theorem State.setBar_hostRead (i : Nat) (x : Barrier) : (s.setBar i x).hostRead = s.hostRead := rfl

/-! ## Reading back -/

variable {s}

@[simp] theorem State.getCore_setCore (n : Nat) (k : Core) : (s.setCore n k).getCore n = k := by
  simp [State.getCore, State.setCore]

theorem State.getCore_setCore_ne {n m : Nat} (k : Core) (h : m ≠ n) : (s.setCore n k).getCore m = s.getCore m := by
  simp [State.getCore, State.setCore, mget_mput_ne h]

@[simp] theorem Core.getCtx_setCtx (k : Core) (c : Nat) (x : Ctx) : (k.setCtx c x).getCtx c = x := by
  simp [Core.getCtx, Core.setCtx]

theorem Core.getCtx_setCtx_ne {c d : Nat} (k : Core) (x : Ctx) (h : d ≠ c) : (k.setCtx c x).getCtx d = k.getCtx d := by
  simp [Core.getCtx, Core.setCtx, mget_mput_ne h]

@[simp] theorem State.getCtx_setCtx (n c : Nat) (x : Ctx) : (s.setCtx n c x).getCtx n c = x := by
  simp [State.getCtx, State.setCtx]

theorem State.getCtx_setCtx_ne {n c m d : Nat} (x : Ctx) (h : m ≠ n ∨ d ≠ c) :
    (s.setCtx n c x).getCtx m d = s.getCtx m d := by
  by_cases hm : m = n
  · subst hm
    have hd : d ≠ c := h.resolve_left fun h => h rfl
    simp [State.getCtx, State.setCtx, Core.getCtx_setCtx_ne _ _ hd]
  · simp [State.getCtx, State.setCtx, State.getCore_setCore_ne _ hm]

@[simp] theorem State.cur_setCur (x : Ctx) : (s.setCur x).cur = x := by simp [State.cur, State.setCur]

@[simp] theorem State.getBasin_setBasin (b : Nat) (x : Basin) : (s.setBasin b x).getBasin b = x := by
  simp [State.getBasin, State.setBasin]

theorem State.getBasin_setBasin_ne {b b' : Nat} (x : Basin) (h : b' ≠ b) : (s.setBasin b x).getBasin b' = s.getBasin b' := by
  simp [State.getBasin, State.setBasin, mget_mput_ne h]

@[simp] theorem State.getQuay_setQuay (q : Nat) (x : Quay) : (s.setQuay q x).getQuay q = x := by
  simp [State.getQuay, State.setQuay]

theorem State.getQuay_setQuay_ne {q q' : Nat} (x : Quay) (h : q' ≠ q) : (s.setQuay q x).getQuay q' = s.getQuay q' := by
  simp [State.getQuay, State.setQuay, mget_mput_ne h]

@[simp] theorem State.getObj_setObj (h : Nat) (x : WorkObj) : (s.setObj h x).getObj h = x := by
  simp [State.getObj, State.setObj]

theorem State.getObj_setObj_ne {h h' : Nat} (x : WorkObj) (e : h' ≠ h) : (s.setObj h x).getObj h' = s.getObj h' := by
  simp [State.getObj, State.setObj, mget_mput_ne e]

@[simp] theorem State.getBar_setBar (i : Nat) (x : Barrier) : (s.setBar i x).getBar i = x := by
  simp [State.getBar, State.setBar]

theorem State.getBar_setBar_ne {i j : Nat} (x : Barrier) (h : j ≠ i) : (s.setBar i x).getBar j = s.getBar j := by
  simp [State.getBar, State.setBar, mget_mset_ne h]

end Sys2Proof.Machine
end

