-- ==== Sys2Proof/Laws/Issue.lean ====
section
/-! SUPPORT. What the issue of an instruction does: the attempt of an instruction whose registers are ready, the end of
its effect, and the frame of an effect on its own context. -/

namespace Sys2Proof.Machine

/-! ## The attempt -/

/-- An instruction whose registers are ready performs its body. -/
theorem State.attempt_of_ready {s : State} {i : Instr} {srcs dsts : List Nat} {body : Body}
    (h : s.ready i srcs dsts = true) :
    s.attempt i srcs dsts body = match body s with
      | .ok (s, f) => (s.clearRegs dsts).finish i f
      | .error e => State.stopped i e := by
  simp only [State.ready, Bool.and_eq_true, Option.isNone_iff_eq_none, List.all_eq_true, Bool.not_eq_true',
    decide_eq_false_iff_not, decide_eq_true_eq] at h
  obtain ⟨⟨⟨⟨⟨⟨⟨⟨⟨h1, h2⟩, h3⟩, h4⟩, h5⟩, h6⟩, h7⟩, h8⟩, h9⟩, h10⟩ := h
  rw [← Bool.not_eq_true] at h10
  have e1 : ((usedIds srcs dsts).filter fun id => decide (s.cur.regState id = .absent)) = [] := by
    rw [List.filter_eq_nil_iff]; intro id hid; simpa using h5 id hid
  have e2 : (srcs.any fun id => !decide (s.cur.regState id = .full)) = false := by
    rw [List.any_eq_false]; intro id hid; simpa using h6 id hid
  have e3 : dsts.any s.outstanding = false := by
    rw [List.any_eq_false]; intro id hid; simpa using h7 id hid
  unfold State.attempt State.tryIssue
  simp only [h1, h2, h3, h4, e1, e2, e3, h8, h9, if_neg h10, Option.isSome_none, Bool.false_eq_true, if_false, List.isEmpty_nil,
    Bool.not_true, Bool.false_or, decide_false] <;> rfl

theorem issue_of_ready {s : State} {i : Instr} {srcs dsts : List Nat} {body : Body} {u : State} {f : Flow}
    (h : s.ready i srcs dsts = true) (hb : body s = .ok (u, f)) :
    issue i srcs dsts s body = .next ((u.clearRegs dsts).finish i f) := by
  rw [issue, State.attempt_of_ready h, hb]

theorem issue_stopped {s : State} {i : Instr} {srcs dsts : List Nat} {body : Body} {e : Stop}
    (h : s.ready i srcs dsts = true) (hb : body s = .error e) :
    issue i srcs dsts s body = .next (State.stopped i e) := by
  rw [issue, State.attempt_of_ready h, hb]

/-! ## The marks of registers with a parity error -/

section
variable (s : State) (n c id : Nat) (ds : List Nat)

theorem State.clearReg_eq : ∃ e, s.clearReg n c id = { s with errs := { s.errs with regs := e } } := by
  unfold State.clearReg; split
  · exact ⟨s.errs.regs, rfl⟩
  · exact ⟨_, rfl⟩

theorem State.clearRegs_eq : ∃ e w, s.clearRegs ds = { s with errs := { s.errs with regs := e }, written := w } := by
  have gen : ∀ (ds : List Nat) (u : State), (∃ e, u = { s with errs := { s.errs with regs := e } }) →
      ∃ e, ds.foldl (fun s id => s.clearReg s.core s.ctx id) u = { s with errs := { s.errs with regs := e } } := by
    intro ds
    induction ds with
    | nil => exact fun u h => h
    | cons d t ih =>
      rintro u ⟨e, rfl⟩
      obtain ⟨e', he⟩ := State.clearReg_eq ({ s with errs := { s.errs with regs := e } } : State) s.core s.ctx d
      exact ih _ ⟨e', he⟩
  obtain ⟨e, he⟩ := gen (ds.filter fun id => decide (s.cur.regState id = .full)) s ⟨s.errs.regs, rfl⟩
  unfold State.clearRegs
  rw [he]
  exact ⟨e, _, rfl⟩

@[simp] theorem State.clearRegs_cores : (s.clearRegs ds).cores = s.cores := by
  obtain ⟨e, w, he⟩ := s.clearRegs_eq ds; rw [he]
@[simp] theorem State.clearRegs_core : (s.clearRegs ds).core = s.core := by
  obtain ⟨e, w, he⟩ := s.clearRegs_eq ds; rw [he]
@[simp] theorem State.clearRegs_ctx : (s.clearRegs ds).ctx = s.ctx := by
  obtain ⟨e, w, he⟩ := s.clearRegs_eq ds; rw [he]
@[simp] theorem State.clearRegs_cur : (s.clearRegs ds).cur = s.cur := by
  obtain ⟨e, w, he⟩ := s.clearRegs_eq ds; rw [he]; rfl
@[simp] theorem State.clearRegs_me : (s.clearRegs ds).me = s.me := by
  obtain ⟨e, w, he⟩ := s.clearRegs_eq ds; rw [he]; rfl
@[simp] theorem State.clearRegs_getCore : (s.clearRegs ds).getCore n = s.getCore n := by
  obtain ⟨e, w, he⟩ := s.clearRegs_eq ds; rw [he]; rfl
@[simp] theorem State.clearRegs_getCtx : (s.clearRegs ds).getCtx n c = s.getCtx n c := by
  obtain ⟨e, w, he⟩ := s.clearRegs_eq ds; rw [he]; rfl
@[simp] theorem State.clearRegs_byteAt : (s.clearRegs ds).byteAt n = s.byteAt n := by
  obtain ⟨e, w, he⟩ := s.clearRegs_eq ds; rw [he]; rfl
@[simp] theorem State.clearRegs_lineState : (s.clearRegs ds).lineState n = s.lineState n := by
  obtain ⟨e, w, he⟩ := s.clearRegs_eq ds; rw [he]; rfl
@[simp] theorem State.clearRegs_rest : (s.clearRegs ds).rest = s.rest := by
  obtain ⟨e, w, he⟩ := s.clearRegs_eq ds; rw [he]; rfl
@[simp] theorem State.clearRegs_restButBytes : (s.clearRegs ds).restButBytes = s.restButBytes := by
  obtain ⟨e, w, he⟩ := s.clearRegs_eq ds; rw [he]; rfl
end

/-- The withdrawal of a context's pops changes FIFO banks alone. -/
theorem State.withdrawPops_eq (s : State) (n c : Nat) : ∃ b, s.withdrawPops n c = { s with basins := b } := by
  unfold State.withdrawPops; split
  · exact ⟨s.basins, rfl⟩
  · exact ⟨_, rfl⟩

/-! ## The end of an effect -/

theorem Ctx.advance_eq (x : Ctx) (len : Nat) : ∃ pc rc, x.advance len = { x with pc := pc, rc := rc } := by
  unfold Ctx.advance; split
  · split
    · exact ⟨_, _, rfl⟩
    · exact ⟨_, _, rfl⟩
  · exact ⟨_, x.rc, rfl⟩

theorem Ctx.issued_stays (x : Ctx) : x.issued.stays = false := by
  unfold Ctx.issued Ctx.stays; simp only; split <;> rfl

/-- The PC and RC after an instruction that goes on, in the words of the statements. -/
theorem State.finish_seq (s : State) (i : Instr) : Next i s (s.finish i .seq) := by
  have h : s.finish i .seq = s.setCur (s.cur.issued.advance (lengthOf i)) := rfl
  obtain ⟨pc, rc, e⟩ := Ctx.advance_eq s.cur.issued (lengthOf i)
  have hpc : (pc, rc) = s.nextPc (lengthOf i) := by
    have e1 := congrArg Ctx.pc e
    have e2 := congrArg Ctx.rc e
    simp only at e1 e2
    rw [← e1, ← e2]
    unfold State.nextPc
    by_cases h1 : s.cur.rc ≠ 0 ∧ s.cur.le.toNat = s.cur.pc.toNat / 2
    · have h3 : s.cur.issued.rc ≠ 0 ∧ s.cur.issued.le.toNat = s.cur.issued.pc.toNat / 2 := h1
      rw [Ctx.advance, if_pos h1, if_pos h3]
      by_cases h2 : 1 < s.cur.rc.toNat
      · rw [if_pos h2, if_pos (show 1 < s.cur.issued.rc.toNat from h2)]; rfl
      · rw [if_neg h2, if_neg (show ¬1 < s.cur.issued.rc.toNat from h2)]; rfl
    · have h3 : ¬(s.cur.issued.rc ≠ 0 ∧ s.cur.issued.le.toNat = s.cur.issued.pc.toNat / 2) := h1
      rw [Ctx.advance, if_neg h1, if_neg h3]; rfl
  rw [Next, ← hpc, h, e]
  exact ⟨rfl, rfl, by simpa [Ctx.stays] using Ctx.issued_stays s.cur, by simp, by simp⟩

/-- Going on changes nothing of the context but PC, RC and what the model notes of an issue. -/
theorem State.finish_seq_cur (s : State) (i : Instr) : ∃ pc rc st, (s.finish i .seq) =
    s.setCur { s.cur with pc := pc, rc := rc, status := st, judged := none, blockedOn := [], verdict := none } := by
  obtain ⟨pc, rc, e⟩ := Ctx.advance_eq s.cur.issued (lengthOf i)
  exact ⟨pc, rc, s.cur.issued.status, by rw [show s.finish i .seq = s.setCur (s.cur.issued.advance (lengthOf i)) from rfl, e]; rfl⟩

/-! ## The frame of an effect on the own context -/

/-- An effect on the own context alone: it is enough to say what became of the context. -/
theorem State.completes_ctx {s : State} {i : Instr} {srcs dsts : List Nat} {body : Body} {x : Ctx} {post : State → Prop}
    (hi : exec i s = issue i srcs dsts s body)
    (hb : s.ready i srcs dsts = true → body s = .ok (s.setCur x, .seq))
    (hpc : x.pc = s.cur.pc ∧ x.rc = s.cur.rc)
    (hr : x.rest = s.cur.rest)
    (hid : ∀ id, id < 160 → id ∉ dsts → x.value id = s.cur.value id ∧ x.regState id = s.cur.regState id)
    (hp : ∀ t : State, Frame s t dsts → (∃ pc rc st, t.cur = { x with pc := pc, rc := rc, status := st, judged := none, blockedOn := [], verdict := none }) →
      post t) :
    Completes i s srcs dsts post := by
  intro h
  refine ⟨_, by rw [hi, issue_of_ready h (hb h)], ?_, ?_⟩
  · have n := State.finish_seq ((s.setCur x).clearRegs dsts) i
    have e : ((s.setCur x).clearRegs dsts).nextPc (lengthOf i) = s.nextPc (lengthOf i) := by
      have hl : x.rest.ls = s.cur.rest.ls := by rw [hr]
      have hm : x.rest.le = s.cur.rest.le := by rw [hr]
      change x.ls = s.cur.ls at hl
      change x.le = s.cur.le at hm
      unfold State.nextPc
      simp [hpc.1, hpc.2, hl, hm]
    rw [Next, e] at n
    exact ⟨by simpa using n.core, by simpa using n.ctx, n.status, n.pc, n.rc⟩
  · obtain ⟨pc, rc, st, e⟩ := State.finish_seq_cur ((s.setCur x).clearRegs dsts) i
    rw [e]
    simp only [State.clearRegs_cur, State.cur_setCur]
    have hcur : (((s.setCur x).clearRegs dsts).setCur { x with pc := pc, rc := rc, status := st, judged := none, blockedOn := [], verdict := none }).cur
        = { x with pc := pc, rc := rc, status := st, judged := none, blockedOn := [], verdict := none } := by simp
    refine hp _ ?_ ⟨pc, rc, st, hcur⟩
    refine { cores := ?_, core := ?_, ctxs := ?_, special := ?_, regs := ?_, rest := ?_, bytes := ?_ }
    · intro n hn
      have h1 : n ≠ ((s.setCur x).clearRegs dsts).core := by simpa using hn
      rw [State.setCur, State.setCtx, State.getCore_setCore_ne _ h1]
      simp [State.setCur, State.setCtx, State.getCore_setCore_ne _ hn]
    · simp [State.me, State.setCur, State.setCtx, Core.rest, Core.setCtx]
    · intro c hc
      simp [State.me, State.setCur, State.setCtx, Core.getCtx_setCtx_ne _ _ hc]
    · rw [hcur, ← hr]; rfl
    · intro id h1 h2
      rw [hcur]
      exact hid id h1 h2
    · show ((s.setCur x).clearRegs dsts).rest = s.rest
      rw [State.clearRegs_rest]; rfl
    · intro a
      show ((s.setCur x).clearRegs dsts).byteAt a = s.byteAt a
      rw [State.clearRegs_byteAt]; rfl

end Sys2Proof.Machine
end

