-- ==== Sys2Proof/Laws/Regs.lean ====
section
/-! SUPPORT. Registers: what a write changes, and the forms that write registers and nothing else. -/

namespace Sys2Proof.Machine

/-! ## One write -/

section
variable (x : Ctx) (id k : Nat) (v : W128)

/-- A write changes registers and their states alone. -/
theorem Ctx.write_fields : ∃ g' v' p' w' e' r', x.write id v = { x with g := g', v := v', p := p', w := w', e := e', rst := r' } := by
  unfold Ctx.write
  by_cases h : id = 0
  · exact ⟨x.g, x.v, x.p, x.w, x.e, x.rst, by simp [h]⟩
  · simp only [if_neg h]
    split <;> exact ⟨_, _, _, _, _, _, rfl⟩

@[simp] theorem Ctx.write_rest : (x.write id v).rest = x.rest := by
  obtain ⟨_, _, _, _, _, _, h⟩ := x.write_fields id v; rw [h]; rfl
@[simp] theorem Ctx.write_pc : (x.write id v).pc = x.pc := by
  obtain ⟨_, _, _, _, _, _, h⟩ := x.write_fields id v; rw [h]
@[simp] theorem Ctx.write_rc : (x.write id v).rc = x.rc := by
  obtain ⟨_, _, _, _, _, _, h⟩ := x.write_fields id v; rw [h]
@[simp] theorem Ctx.write_pend : (x.write id v).pend = x.pend := by
  obtain ⟨_, _, _, _, _, _, h⟩ := x.write_fields id v; rw [h]

@[simp] theorem Ctx.write_zero : x.write 0 v = x := by simp [Ctx.write]

theorem Ctx.write_rst (h : id ≠ 0) : (x.write id v).rst = mset .full x.rst id .full := by
  unfold Ctx.write; simp only [if_neg h]

/-- The state of a register after a write of any register. -/
theorem Ctx.regState_write : (x.write id v).regState k = if k = id then .full else x.regState k := by
  by_cases h : id = 0
  · subst h
    by_cases hk : k = 0
    · simp [Ctx.regState, hk]
    · simp [hk]
  · unfold Ctx.regState
    rw [x.write_rst id v h, mget_mset]
    by_cases hk : k = 0
    · simp [hk]
    · simp [hk]

/-- The value of another register is as before. -/
theorem Ctx.value_write_ne (h1 : id < 160) (h2 : k < 160) (h : k ≠ id) : (x.write id v).value k = x.value k := by
  by_cases h0 : id = 0
  · subst h0; simp
  by_cases hk : k = 0
  · simp [Ctx.value, hk]
  unfold Ctx.value Ctx.write
  simp only [if_neg h0, if_neg hk]
  have hc : id / 32 ≤ 4 := by omega
  have hd : k / 32 ≤ 4 := by omega
  have hq : id / 32 = k / 32 → k % 32 ≠ id % 32 := by omega
  generalize id / 32 = a at hc hq ⊢
  generalize k / 32 = b at hd hq ⊢
  interval_cases a <;> interval_cases b <;> simp_all [mget_mset]
end

@[simp] theorem Ctx.rg_wg (x : Ctx) (d r : BitVec 5) (v : W32) :
    (x.wg d v).rg r = if r = d then (if d = 0 then 0 else v) else x.rg r := by
  by_cases hd : d = 0
  · subst hd
    have h0 : gid 0 = 0 := rfl
    rw [Ctx.wg, h0, Ctx.write_zero]
    by_cases hr : r = 0
    · simp [Ctx.rg, hr]
    · rw [if_neg hr]
  · have hn : gid d ≠ 0 := fun h => hd (BitVec.eq_of_toNat_eq h)
    have hlt : d.toNat < 32 := d.isLt
    have h1 : gid d % 32 = d.toNat := Nat.mod_eq_of_lt hlt
    have h2 : gid d / 32 = 0 := Nat.div_eq_of_lt hlt
    have hg : (x.wg d v).g = mset 0 x.g d.toNat v := by
      unfold Ctx.wg Ctx.write; simp only [if_neg hn, h1, h2]; simp
    unfold Ctx.rg
    rw [hg, mget_mset]
    by_cases hr : r = d
    · simp [hr]
    · have : r.toNat ≠ d.toNat := fun h => hr (BitVec.eq_of_toNat_eq h)
      simp [hr, this]

@[simp] theorem Ctx.rp_wp (x : Ctx) (d r : BitVec 3) (v : W64) :
    (x.wp d v).rp r = if r = d then v else x.rp r := by
  have hn : pid d ≠ 0 := by unfold pid; omega
  have hlt : d.toNat < 8 := d.isLt
  have h1 : pid d % 32 = d.toNat := by unfold pid; omega
  have h2 : pid d / 32 = 2 := by unfold pid; omega
  have hg : (x.wp d v).p = mset 0 x.p d.toNat v := by
    unfold Ctx.wp Ctx.write; simp only [if_neg hn, h1, h2]; simp
  unfold Ctx.rp
  rw [hg, mget_mset]
  by_cases hr : r = d
  · simp [hr]
  · have : r.toNat ≠ d.toNat := fun h => hr (BitVec.eq_of_toNat_eq h)
    simp [hr, this]

/-! ## Forms that write one register at once -/

theorem gid_lt (d : BitVec 5) : gid d < 160 := by have := d.isLt; unfold gid; omega
theorem pid_lt (d : BitVec 3) : pid d < 160 := by have := d.isLt; unfold pid; omega

/-- A body that writes one g register. -/
theorem setsG_of {i : Instr} {s : State} {srcs : List Nat} {d : BitVec 5} {v : W32} {body : Body}
    (hi : exec i s = issue i srcs [gid d] s body)
    (hb : s.ready i srcs [gid d] = true → body s = .ok (s.wg d v, .seq)) : SetsG i s srcs d v := by
  refine State.completes_ctx (x := s.cur.wg d v) hi hb ⟨by simp [Ctx.wg], by simp [Ctx.wg]⟩ (by simp [Ctx.wg]) ?_ ?_
  · intro id h1 h2
    have hne : id ≠ gid d := by simpa using h2
    exact ⟨Ctx.value_write_ne _ _ _ _ (gid_lt d) h1 hne, by rw [Ctx.wg, Ctx.regState_write, if_neg hne]⟩
  · rintro t hf ⟨pc, rc, st, ht⟩
    refine ⟨hf, by rw [ht]; simp [Ctx.wg], ?_, ?_⟩
    · have : t.rg d = (s.cur.wg d v).rg d := by unfold State.rg; rw [ht]; rfl
      rw [this]; simp
    · have : t.cur.regState (gid d) = (s.cur.wg d v).regState (gid d) := by rw [ht]; rfl
      rw [this, Ctx.wg, Ctx.regState_write, if_pos rfl]

/-- A body that writes one p register. -/
theorem setsP_of {i : Instr} {s : State} {srcs : List Nat} {d : BitVec 3} {v : W64} {body : Body}
    (hi : exec i s = issue i srcs [pid d] s body)
    (hb : s.ready i srcs [pid d] = true → body s = .ok (s.wp d v, .seq)) : SetsP i s srcs d v := by
  refine State.completes_ctx (x := s.cur.wp d v) hi hb ⟨by simp [Ctx.wp], by simp [Ctx.wp]⟩ (by simp [Ctx.wp]) ?_ ?_
  · intro id h1 h2
    have hne : id ≠ pid d := by simpa using h2
    exact ⟨Ctx.value_write_ne _ _ _ _ (pid_lt d) h1 hne, by rw [Ctx.wp, Ctx.regState_write, if_neg hne]⟩
  · rintro t hf ⟨pc, rc, st, ht⟩
    refine ⟨hf, by rw [ht]; simp [Ctx.wp], ?_, ?_⟩
    · have : t.rp d = (s.cur.wp d v).rp d := by unfold State.rp; rw [ht]; rfl
      rw [this]; simp
    · have : t.cur.regState (pid d) = (s.cur.wp d v).regState (pid d) := by rw [ht]; rfl
      rw [this, Ctx.wp, Ctx.regState_write, if_pos rfl]

/-! ## Results on their way -/

/-- Registers that are marked empty, and nothing else of the context. -/
theorem Ctx.empties_fields (x : Ctx) (regs : List (Nat × W128)) :
    ∃ r', regs.foldl (fun x r => x.setRegState r.1 .empty) x = { x with rst := r' } := by
  induction regs generalizing x with
  | nil => exact ⟨x.rst, rfl⟩
  | cons a t ih =>
    obtain ⟨r', h⟩ := ih (x.setRegState a.1 .empty)
    rw [List.foldl_cons, h]
    unfold Ctx.setRegState; split
    · exact ⟨r', rfl⟩
    · exact ⟨r', rfl⟩

theorem Ctx.regState_setRegState (x : Ctx) (id k : Nat) (r : RegState) :
    (x.setRegState id r).regState k = if k = id ∧ k ≠ 0 then r else x.regState k := by
  unfold Ctx.setRegState Ctx.regState
  by_cases h : id = 0
  · subst h; by_cases hk : k = 0 <;> simp [hk]
  · by_cases hk : k = 0
    · simp [hk]
    · simp [h, hk, mget_mset]

theorem Ctx.regState_empties (x : Ctx) (regs : List (Nat × W128)) (k : Nat) :
    (regs.foldl (fun x r => x.setRegState r.1 .empty) x).regState k
      = if k ∈ regs.map (·.1) ∧ k ≠ 0 then .empty else x.regState k := by
  induction regs generalizing x with
  | nil => simp
  | cons a t ih =>
    rw [List.foldl_cons, ih, Ctx.regState_setRegState]
    by_cases hk : k = 0
    · simp [hk]
    · by_cases ha : k = a.1
      · subst ha; simp [hk]
      · simp [hk, ha]

theorem Ctx.pendReg_fields (x : Ctx) (regs : List (Nat × W128)) (fl : Option (BitVec 5)) (due : Option Nat) (mem : Bool) :
    ∃ r', x.pendReg regs fl due mem = { x with rst := r', pend := x.pend ++ [{ regs := regs, flags := fl, due := due, mem := mem }] } := by
  obtain ⟨r', h⟩ := x.empties_fields regs
  exact ⟨r', by unfold Ctx.pendReg; simp only [h]⟩

theorem Ctx.regState_pendReg (x : Ctx) (regs : List (Nat × W128)) (fl : Option (BitVec 5)) (due : Option Nat) (mem : Bool)
    (k : Nat) : (x.pendReg regs fl due mem).regState k = if k ∈ regs.map (·.1) ∧ k ≠ 0 then .empty else x.regState k := by
  rw [← Ctx.regState_empties]; rfl

/-- A body that issues results with a latency. -/
theorem landsAfter_of {i : Instr} {s : State} {srcs : List Nat} {lat : Nat} {regs : List (Nat × W128)}
    {fl : Option (BitVec 5)} {body : Body}
    (hi : exec i s = issue i srcs (regs.map (·.1)) s body)
    (hb : s.ready i srcs (regs.map (·.1)) = true → body s = .ok (s.later lat regs fl, .seq)) :
    LandsAfter i s srcs lat regs fl := by
  obtain ⟨r', h⟩ := s.cur.pendReg_fields regs fl (some (s.me.cyc + lat)) false
  refine State.completes_ctx (x := s.cur.pendReg regs fl (some (s.me.cyc + lat)) false) hi hb ⟨?_, ?_⟩ ?_ ?_ ?_
  · rw [h]
  · rw [h]
  · rw [h]; rfl
  · intro id h1 h2
    refine ⟨by rw [h]; rfl, ?_⟩
    rw [Ctx.regState_pendReg, if_neg fun e => h2 e.1]
  · rintro t hf ⟨pc, rc, st, ht⟩
    refine ⟨hf, by rw [ht, h], ?_⟩
    intro id h1 h2
    have : t.cur.regState id = (s.cur.pendReg regs fl (some (s.me.cyc + lat)) false).regState id := by rw [ht]; rfl
    rw [this, Ctx.regState_pendReg, if_pos ⟨h1, h2⟩]

end Sys2Proof.Machine
end

