-- ==== Sys2Proof/Laws/Forms.lean ====
section
/-! SUPPORT. From what the body of an instruction answers to what the instruction does: for each way an instruction can
end, one lemma in the terms of Safety.lean. -/

namespace Sys2Proof.Machine

variable {i : Instr} {s u : State} {srcs dsts : List Nat} {body : Body}

/-- The mark of an issue changes PC, RC and what the model notes of it, and nothing else. -/
theorem reaches_setCur (u : State) (ds : List Nat) (pc : Off) (rc : W32) (st : Status) :
    Reaches u ((u.clearRegs ds).setCur { u.cur with pc := pc, rc := rc, status := st, judged := none, blockedOn := [], verdict := none }) := by
  refine ⟨{ cores := ?_, core := ?_, ctxs := ?_, special := ?_, regs := ?_, rest := ?_, bytes := ?_ }, by simp⟩
  · intro n hn
    have h1 : n ≠ (u.clearRegs ds).core := by simpa using hn
    rw [State.setCur, State.setCtx, State.getCore_setCore_ne _ h1]
    simp
  · simp [State.me, State.setCur, State.setCtx, Core.rest, Core.setCtx]
  · intro c hc
    simp [State.me, State.setCur, State.setCtx, Core.getCtx_setCtx_ne _ _ hc]
  · simp [Ctx.rest]
  · intro id _ _
    simp [Ctx.value, Ctx.regState]
  · show (u.clearRegs ds).rest = u.rest
    rw [State.clearRegs_rest]
  · intro a
    show (u.clearRegs ds).byteAt a = u.byteAt a
    rw [State.clearRegs_byteAt]

/-- What the next PC depends on. -/
theorem State.nextPc_of_eq {s u : State} (len : Nat) (h1 : u.cur.pc = s.cur.pc) (h2 : u.cur.rc = s.cur.rc)
    (h3 : u.cur.ls = s.cur.ls) (h4 : u.cur.le = s.cur.le) : u.nextPc len = s.nextPc len := by
  unfold State.nextPc; simp only [h1, h2, h3, h4]

/-- An instruction that goes on after the effect `u`. -/
theorem becomes_of (hi : exec i s = issue i srcs dsts s body)
    (hb : s.ready i srcs dsts = true → body s = .ok (u, .seq)) : Becomes i s srcs dsts u := by
  intro h
  refine ⟨_, by rw [hi, issue_of_ready h (hb h)], ?_, ?_⟩
  · have n := State.finish_seq (u.clearRegs dsts) i
    rw [Next, State.nextPc_of_eq (s := u) (u := u.clearRegs dsts) _ (by simp) (by simp) (by simp) (by simp)] at n
    exact ⟨by simpa using n.core, by simpa using n.ctx, n.status, n.pc, n.rc⟩
  · obtain ⟨pc, rc, st, e⟩ := State.finish_seq_cur (u.clearRegs dsts) i
    rw [e, State.clearRegs_cur]
    exact reaches_setCur u dsts pc rc st

/-- The same, where the effect leaves alone what the next PC depends on. -/
theorem completes_of (hi : exec i s = issue i srcs dsts s body)
    (hb : s.ready i srcs dsts = true → body s = .ok (u, .seq))
    (h0 : u.core = s.core) (hc : u.ctx = s.ctx) (h1 : u.cur.pc = s.cur.pc) (h2 : u.cur.rc = s.cur.rc)
    (h3 : u.cur.ls = s.cur.ls) (h4 : u.cur.le = s.cur.le) : Completes i s srcs dsts (Reaches u) := by
  intro h
  obtain ⟨t, he, hn, hr⟩ := becomes_of hi hb h
  refine ⟨t, he, ?_, hr⟩
  rw [Next, State.nextPc_of_eq _ h1 h2 h3 h4] at hn
  exact ⟨hn.core.trans h0, hn.ctx.trans hc, hn.status, hn.pc, hn.rc⟩

/-- An instruction that transfers control. -/
theorem jumps_of {target : Off} (hi : exec i s = issue i srcs [] s body)
    (hb : s.ready i srcs [] = true → body s = .ok (u, .jump target))
    (h0 : u.core = s.core) (hc : u.ctx = s.ctx) (h2 : u.cur.rc = s.cur.rc) : Jumps i s srcs target u := by
  intro h
  refine ⟨_, by rw [hi, issue_of_ready h (hb h)], ?_, ?_⟩
  · refine ⟨h0, hc, ?_, ?_, ?_⟩
    · show ((u.setCur { u.cur.issued with pc := target }).cur).stays = false
      simpa [Ctx.stays] using Ctx.issued_stays u.cur
    · show ((u.setCur { u.cur.issued with pc := target }).cur).pc = target
      simp
    · show ((u.setCur { u.cur.issued with pc := target }).cur).rc = s.cur.rc
      simpa [Ctx.issued] using h2
  · exact reaches_setCur u [] target u.cur.rc u.cur.issued.status

/-- An instruction that stays where it is, with a part of its effect. -/
theorem stays_of (hi : exec i s = issue i srcs [] s body)
    (hb : s.ready i srcs [] = true → body s = .ok (u, .stay))
    (h0 : u.core = s.core) (hc : u.ctx = s.ctx) (h1 : u.cur.pc = s.cur.pc) (h2 : u.cur.rc = s.cur.rc)
    (h : s.ready i srcs [] = true) : ∃ t, exec i s = .next t ∧ Issued s t s.cur.pc s.cur.rc ∧ Reaches u t := by
  refine ⟨_, by rw [hi, issue_of_ready h (hb h)], ?_, ?_⟩
  · refine ⟨h0, hc, ?_, ?_, ?_⟩
    · show ((u.setCur u.cur.issued).cur).stays = false
      simpa [Ctx.stays] using Ctx.issued_stays u.cur
    · show ((u.setCur u.cur.issued).cur).pc = s.cur.pc
      simpa [Ctx.issued] using h1
    · show ((u.setCur u.cur.issued).cur).rc = s.cur.rc
      simpa [Ctx.issued] using h2
  · exact reaches_setCur u [] u.cur.pc u.cur.rc u.cur.issued.status

/-- An instruction that traps. -/
theorem traps_of {c : Cause} {v : W32} (hi : exec i s = issue i srcs dsts s body)
    (hb : s.ready i srcs dsts = true → body s = .error (.trap s c v)) : Traps i s srcs dsts c v := by
  intro h
  rw [hi, issue_stopped h (hb h)]
  rfl

/-- An instruction that waits. -/
theorem waitsIn_of (hi : exec i s = issue i srcs dsts s body)
    (hb : s.ready i srcs dsts = true → body s = .error (.wait u)) : WaitsIn i s srcs dsts u := by
  intro h
  rw [hi, issue_stopped h (hb h)]
  rfl

/-- The form that only some contexts may issue, in one that may. -/
theorem issueIf_of {legal : Bool} (h : legal = true) (i : Instr) (srcs dsts : List Nat) (s : State) (body : Body) :
    issueIf legal i srcs dsts s body = issue i srcs dsts s body := if_pos h

end Sys2Proof.Machine
end

