-- ==== Sys2Proof/Laws/Memory.lean ====
section
/-! SUPPORT. What the memory operations do: read after write, bytes elsewhere, and that each of them keeps the canonical
form of memory and of line states. -/

namespace Sys2Proof.Machine

theorem mfind_mput {α : Type} {m : SMap α} {k k' : Nat} {v : α} :
    mfind (mput m k v) k' = if k' = k then some v else mfind m k' := by
  have hdel : ∀ m : SMap α, mfind (mdel m k) k' = if k' = k then none else mfind m k' := by
    intro m
    induction m with
    | nil => simp [mdel, mfind]
    | cons e t ih =>
      obtain ⟨a, b⟩ := e
      by_cases ha : a = k
      · subst ha
        by_cases h : k' = a
        · rw [h] at ih ⊢; simpa [mdel] using ih
        · simp [mdel, mfind, ih, h, Ne.symm h]
      · by_cases h : k' = k
        · subst h; simp [mdel, mfind, ha, ih]
        · simp [mdel, mfind, ha, ih, h]
  have hins : ∀ m : SMap α, (∀ e ∈ m, e.1 ≠ k) → mfind (mins k v m) k' = if k' = k then some v else mfind m k' := by
    intro m
    induction m with
    | nil =>
      intro _
      by_cases h : k' = k
      · simp [mins, mfind, h]
      · simp [mins, mfind, h, Ne.symm h]
    | cons e t ih =>
      intro hk
      obtain ⟨a, b⟩ := e
      have ha : a ≠ k := hk (a, b) (by simp)
      unfold mins
      split
      · by_cases h : k' = k
        · simp [mfind, h]
        · simp [mfind, h, Ne.symm h]
      · have := ih fun e he => hk e (by simp [he])
        by_cases h : k' = k
        · subst h; simp [mfind, ha, this]
        · simp [mfind, this, h]
  rw [mput, hins _ mdel_no_key, hdel]
  by_cases h : k' = k <;> simp [h]

/-! ## Canonical form -/

/-- What leaves memory and line states alone keeps their form. -/
theorem State.Canonical.of_eq {s t : State} (h : s.Canonical) (hm : t.mem = s.mem) (hl : t.lines = s.lines) : t.Canonical := by
  unfold State.Canonical; rw [hm, hl]; exact h

theorem State.canonical_foldl {α : Type} (f : State → α → State) (hf : ∀ s a, s.Canonical → (f s a).Canonical)
    (l : List α) : ∀ s : State, s.Canonical → (l.foldl f s).Canonical := by
  induction l with
  | nil => exact fun _ h => h
  | cons a t ih => exact fun s h => ih _ (hf s a h)

theorem Mem.wf_put (bs : List Byte) : ∀ (m : Mem) (k : Nat), Memory.wf m = true → Memory.wf (Mem.put m k bs) = true := by
  induction bs with
  | nil => exact fun _ _ h => h
  | cons b t ih => exact fun m k h => ih _ _ (mwf_mset h)

theorem mwf_msets {α : Type} [DecidableEq α] {d : α} (l : SMap α) :
    ∀ m : SMap α, mwf d m = true → mwf d (l.foldl (fun m e => mset d m e.1 e.2) m) = true := by
  induction l with
  | nil => exact fun _ h => h
  | cons e t ih => exact fun m h => ih _ (mwf_mset h)

/-! ## What running contexts see of a write -/

/-- Keeping a fetched byte changes nothing else. -/
theorem State.keepFetched_eq (s : State) (k : Nat) (b : Byte) : ∃ m, s.keepFetched k b = { s with fetched := m } := by
  unfold State.keepFetched
  split
  · exact ⟨s.fetched, rfl⟩
  · dsimp only
    split
    · exact ⟨s.fetched, rfl⟩
    · exact ⟨_, rfl⟩

/-- The reads of waiting `waitf` change nothing else. -/
theorem State.noteLines_eq (lks : List Nat) (s : State) : ∃ w, lks.foldl State.noteLine s = { s with watches := w } := by
  have gen : ∀ (lks : List Nat) (u : State), (∃ w, u = { s with watches := w }) →
      ∃ w, lks.foldl State.noteLine u = { s with watches := w } := by
    intro lks
    induction lks with
    | nil => exact fun _ h => h
    | cons lk t ih =>
      rintro u ⟨w, rfl⟩
      exact ih _ ⟨_, rfl⟩
  exact gen lks s ⟨s.watches, rfl⟩

/-- Writing bytes changes, beside the bytes, the marks of errors and what the waiting `waitf` have read. -/
theorem State.putBytes_eq (s : State) (k : Nat) (bs : List Byte) :
    ∃ m d w, s.putBytes k bs = let u := s.putBytesAux k bs
      { u with errs := { u.errs with mem := m, dram := d }, watches := w } := by
  unfold State.putBytes
  dsimp only
  split
  · obtain ⟨w, h⟩ := State.noteLines_eq (linesOf k bs.length) (s.putBytesAux k bs)
    exact ⟨_, _, w, h⟩
  · obtain ⟨w, h⟩ := State.noteLines_eq (linesOf k bs.length) { s.putBytesAux k bs with
      errs := { (s.putBytesAux k bs).errs with
        mem := (coveredGranules 8 k bs.length).foldl mdel (s.putBytesAux k bs).errs.mem
        dram := (coveredGranules 64 k bs.length).foldl mdel (s.putBytesAux k bs).errs.dram } }
    exact ⟨_, _, w, h⟩

theorem State.canonical_putByte {s : State} (k : Nat) (b : Byte) (h : s.Canonical) : (s.putByte k b).Canonical := by
  unfold State.putByte
  split
  · split
    · exact h
    · exact ⟨mwf_mset h.1, h.2⟩
  · obtain ⟨m, e⟩ := s.keepFetched_eq k b
    rw [e]
    exact ⟨mwf_mset h.1, h.2⟩

theorem State.canonical_putBytesAux (bs : List Byte) :
    ∀ (s : State) (k : Nat), s.Canonical → (s.putBytesAux k bs).Canonical := by
  induction bs with
  | nil => exact fun _ _ h => h
  | cons b t ih => exact fun s k h => ih _ _ (State.canonical_putByte k b h)

theorem State.canonical_putBytes {s : State} (k : Nat) (bs : List Byte) (h : s.Canonical) : (s.putBytes k bs).Canonical := by
  obtain ⟨m, d, w, e⟩ := s.putBytes_eq k bs
  rw [e]
  exact State.canonical_putBytesAux bs s k h

theorem State.canonical_setLine {s : State} (lk : Nat) (st : LineState) (h : s.Canonical) : (s.setLine lk st).Canonical := by
  unfold State.setLine
  split
  · exact h
  · exact ⟨h.1, mwf_mset h.2⟩

theorem State.canonical_zeroLine {s : State} (lk : Nat) (h : s.Canonical) : (s.zeroLine lk).Canonical :=
  State.canonical_putBytes _ _ h

theorem State.canonical_decLine {s : State} (lk : Nat) (h : s.Canonical) : (s.decLine lk).Canonical := by
  unfold State.decLine
  split
  · split
    · exact State.canonical_setLine _ _ (State.canonical_zeroLine _ h)
    · exact State.canonical_setLine _ _ h
  · exact h

theorem State.canonical_closeLine {s : State} (lk : Nat) (h : s.Canonical) : (s.closeLine lk).Canonical := by
  unfold State.closeLine
  split
  · exact h
  · exact State.canonical_setLine _ _ (State.canonical_zeroLine _ h)

theorem State.canonical_writeParts (ps : List Part) :
    ∀ (s : State) (bs : List Byte), s.Canonical → (s.writeParts bs ps).Canonical := by
  induction ps with
  | nil => exact fun _ _ h => h
  | cons p t ih => exact fun s bs h => ih _ _ (State.canonical_putBytes _ _ h)

theorem State.canonical_writeBack {s : State} (lk : Nat) (h : s.Canonical) : (s.writeBack lk).Canonical := by
  unfold State.writeBack
  split
  · split
    · exact ⟨Mem.wf_put _ _ _ h.1, h.2⟩
    · exact h
  · exact h

theorem State.canonical_evict {s : State} (lk : Nat) (h : s.Canonical) : (s.evict lk).Canonical :=
  State.canonical_writeBack lk h

theorem State.canonical_touchLine {s : State} (lk : Nat) (h : s.Canonical) : (s.touchLine lk).Canonical := by
  unfold State.touchLine
  split
  · exact h
  · split
    · exact h
    · lift_lets
      extract_lets held ways free open_
      split
      · exact h
      · have hv : ∀ o : Option (Nat × FarLine), (match o with
            | some e => State.evict { s with free := s.free + 1 } e.1
            | none => ({ s with free := s.free + 1 } : State)).Canonical := by
          rintro (_ | e)
          · exact h
          · exact State.canonical_evict _ h
        exact hv _

theorem State.canonical_fillCounted {s : State} (lk count : Nat) (d : Line) (h : s.Canonical) :
    (s.fillCounted lk count d).Canonical := by
  unfold State.fillCounted
  refine State.canonical_setLine _ _ (State.canonical_putBytes _ _ ?_)
  split
  · exact State.canonical_writeBack _ (State.canonical_touchLine _ h)
  · exact h

theorem State.canonical_failPops {s : State} (ps : List PopWait) (h : s.Canonical) : (s.failPops ps).Canonical := by
  unfold State.failPops
  refine State.canonical_foldl _ (fun s p h => ?_) ps s h
  exact h.of_eq rfl rfl

theorem State.canonical_switchBank {s : State} (b k : Nat) (m : BitVec 2) (h : s.Canonical) : (s.switchBank b k m).Canonical := by
  unfold State.switchBank
  refine State.canonical_failPops _ ⟨mwf_mclear ?_, mwf_mclear ?_⟩
  · exact (State.canonical_foldl _ (fun s e h => State.canonical_evict _ h) _ s h).1
  · exact (State.canonical_foldl _ (fun s e h => State.canonical_evict _ h) _ s h).2

theorem State.canonical_restore {s : State} (h : Nat) (r : LaunchRec) (v : Saved) (hs : s.Canonical) :
    (s.restore h r v).Canonical := by
  unfold State.restore
  refine State.canonical_foldl _ (fun s w h => ?_) _ _ (State.canonical_foldl _ (fun s n h => ?_) _ _
    (State.canonical_foldl _ (fun s e h => ?_) _ _ ⟨mwf_msets _ _ (mwf_filter hs.1), mwf_msets _ _ (mwf_filter hs.2)⟩))
  · exact h.of_eq rfl rfl
  · exact h.of_eq rfl rfl
  · exact h.of_eq rfl rfl

theorem State.canonical_loadSection {s u : State} (k : Nat) (bs : List Byte) (h : s.Canonical) (e : s.loadSection k bs = .ok u) :
    u.Canonical := by
  unfold State.loadSection at e
  split at e
  · cases e
  · cases e; exact State.canonical_putBytes _ _ h

theorem State.canonical_loadLocal {s u : State} (m : Image) (n : Nat) (h : s.Canonical) (e : s.loadLocal m n = .ok u) :
    u.Canonical := by
  have bind {a : Except (State × Nat) State} {f : State → Except (State × Nat) State} (e : a >>= f = .ok u) :
      ∃ w, a = .ok w ∧ f w = .ok u := by
    cases a with
    | error _ => cases e
    | ok w => exact ⟨w, rfl, e⟩
  unfold State.loadLocal at e
  obtain ⟨w1, h1, e⟩ := bind e
  obtain ⟨w2, h2, e⟩ := bind e
  obtain ⟨w3, h3, e⟩ := bind e
  cases e
  have fresh {s : State} (h : s.Canonical) : (s.freshFetch n).Canonical := h
  have h0 : ({ s with lines := mclear s.lines (localKey n 0 / 64) 2048 } : State).Canonical := ⟨h.1, mwf_mclear h.2⟩
  exact fresh (canonical_loadSection _ _ (canonical_loadSection _ _ (canonical_loadSection _ _ h0 h1) h2) h3)

theorem State.canonical_afterReset {s : State} (h : s.Canonical) : s.afterReset.Canonical :=
  ⟨mwf_filter h.1, rfl⟩

theorem State.canonical_reset : State.reset.Canonical := ⟨rfl, rfl⟩

/-! ## Read after write -/

/-- A byte of a line after one byte of it is replaced. -/
theorem line_byte (d : Line) (b : Byte) (i j : Nat) (hi : i < 64) (hj : j < 64) :
    BitVec.ofNat 8 ((d &&& ~~~((0xFF : Line) <<< (8 * i)) ||| (b.zeroExtend 512 <<< (8 * i))).toNat / 2 ^ (8 * j))
      = if j = i then b else BitVec.ofNat 8 (d.toNat / 2 ^ (8 * j)) := by
  have e (x : Line) : BitVec.ofNat 8 (x.toNat / 2 ^ (8 * j)) = x.extractLsb' (8 * j) 8 := by
    apply BitVec.eq_of_toNat_eq
    simp [BitVec.extractLsb'_toNat, Nat.shiftRight_eq_div_pow]
  have ff (n : Nat) : (0xFF : Line).getLsbD n = decide (n < 8) := by
    rw [show (0xFF : Line) = BitVec.ofNat 512 (2 ^ 8 - 1) from rfl, BitVec.getLsbD_ofNat, Nat.testBit_two_pow_sub_one]
    simp; omega
  rw [e, e]
  ext k hk
  simp only [BitVec.getElem_extractLsb', BitVec.getLsbD_or, BitVec.getLsbD_and, BitVec.getLsbD_not, BitVec.getLsbD_shiftLeft,
    ff, BitVec.getLsbD_setWidth]
  split
  · next h =>
    subst h
    have h1 : 8 * j + k < 512 := by omega
    have h2 : ¬8 * j + k < 8 * j := by omega
    have h3 : 8 * j + k - 8 * j = k := by omega
    have h4 : k < 512 := by omega
    simp [h1, h3, h4, hk]
  · next h =>
    have h1 : 8 * j + k < 512 := by omega
    rw [BitVec.getElem_extractLsb']
    by_cases hlt : 8 * j + k < 8 * i
    · simp [hlt, h1]
    · have h2 : ¬8 * j + k - 8 * i < 8 := by omega
      have h3 : b.getLsbD (8 * j + k - 8 * i) = false := BitVec.getLsbD_of_ge _ _ (by omega)
      simp [h1, h2, h3]

/-- 00 R11: a byte written is read back, and no other byte changes. -/
theorem State.byteAt_putByte (s : State) (k a : Nat) (b : Byte) :
    (s.putByte k b).byteAt a = if a = k then b else s.byteAt a := by
  unfold State.putByte State.byteAt
  by_cases hk : isFarKey k = true
  · simp only [hk, if_true]
    cases hf : s.farLine (k / 64) with
    | none =>
      by_cases ha : isFarKey a = true
      · simp only [ha, if_true, State.farLine]
        by_cases hl : a / 64 = k / 64
        · rw [hl]
          have : mfind s.far (k / 64) = none := hf
          simp [this, mget_mset]
        · have hne : a ≠ k := fun h => hl (by rw [h])
          simp only [hne, if_false]
          split <;> simp_all [mget_mset]
      · have hne : a ≠ k := fun h => ha (h ▸ hk)
        simp [ha, hne, mget_mset]
    | some l =>
      by_cases ha : isFarKey a = true
      · simp only [ha, if_true, State.farLine, mfind_mput]
        by_cases hl : a / 64 = k / 64
        · have hs : mfind s.far (a / 64) = some l := by rw [hl]; exact hf
          simp only [hl, if_true]
          rw [line_byte _ _ _ _ (by omega) (by omega)]
          by_cases hak : a = k
          · simp [hak]
          · have : a % 64 ≠ k % 64 := by omega
            rw [if_neg this, if_neg hak, ← hl, hs]
        · have hne : a ≠ k := fun h => hl (by rw [h])
          simp [hl, hne]
      · have hne : a ≠ k := fun h => ha (h ▸ hk)
        simp [ha, hne]
  · have hk' : isFarKey k = false := by simpa using hk
    obtain ⟨m, e⟩ := s.keepFetched_eq k b
    simp only [hk', Bool.false_eq_true, if_false, e]
    by_cases ha : isFarKey a = true
    · have hne : a ≠ k := fun h => by rw [h] at ha; simp_all
      simp only [ha, if_true, hne, if_false, State.farLine]
      split <;> simp_all [mget_mset]
    · simp [ha, mget_mset]

theorem State.lineState_putByte (s : State) (k lk : Nat) (b : Byte) : (s.putByte k b).lineState lk = s.lineState lk := by
  unfold State.putByte
  split
  · split
    · next l hl =>
      unfold State.lineState State.farLine
      simp only [mfind_mput]
      by_cases h : lk = k / 64
      · subst h
        have : mfind s.far (k / 64) = some l := hl
        simp [this]
      · simp [h]
    · rfl
  · obtain ⟨m, e⟩ := s.keepFetched_eq k b
    rw [e]; rfl

theorem State.byteAt_putBytesAux (bs : List Byte) : ∀ (s : State) (k a : Nat),
    (s.putBytesAux k bs).byteAt a = if k ≤ a ∧ a < k + bs.length then bs.getD (a - k) 0 else s.byteAt a := by
  induction bs with
  | nil => intro s k a; simp [State.putBytesAux]
  | cons b t ih =>
    intro s k a
    rw [State.putBytesAux, ih, State.byteAt_putByte, List.length_cons]
    by_cases h1 : a = k
    · subst h1; simp
    · by_cases h2 : k + 1 ≤ a ∧ a < k + 1 + t.length
      · have h3 : k ≤ a ∧ a < k + (t.length + 1) := by omega
        obtain ⟨j, rfl⟩ : ∃ j, a = k + (j + 1) := ⟨a - k - 1, by omega⟩
        simp only [h2, h3, and_self, if_true]
        rw [show k + (j + 1) - (k + 1) = j by omega, show k + (j + 1) - k = j + 1 by omega, List.getD_cons_succ]
      · have h3 : ¬(k ≤ a ∧ a < k + (t.length + 1)) := by omega
        rw [if_neg h2, if_neg h1, if_neg h3]

/-- Bytes written are read back, and no other byte changes. -/
theorem State.byteAt_putBytes (s : State) (k a : Nat) (bs : List Byte) :
    (s.putBytes k bs).byteAt a = if k ≤ a ∧ a < k + bs.length then bs.getD (a - k) 0 else s.byteAt a := by
  rw [← State.byteAt_putBytesAux]
  obtain ⟨m, d, w, e⟩ := s.putBytes_eq k bs
  rw [e]; rfl

theorem State.lineState_putBytes (s : State) (k lk : Nat) (bs : List Byte) : (s.putBytes k bs).lineState lk = s.lineState lk := by
  have aux : ∀ (bs : List Byte) (s : State) (k : Nat), (s.putBytesAux k bs).lineState lk = s.lineState lk := by
    intro bs
    induction bs with
    | nil => exact fun _ _ => rfl
    | cons b t ih => exact fun s k => (ih _ _).trans (State.lineState_putByte s k lk b)
  obtain ⟨m, d, w, e⟩ := s.putBytes_eq k bs
  rw [e]
  exact aux bs s k

end Sys2Proof.Machine
end

