-- ==== Sys2Proof/Laws/Sources.lean ====
section
/-! SUPPORT. What every instruction does before its effect: the lists of Machine/Sources.lean are those that exec uses, so
that what holds of an issue holds of every instruction at once. -/

namespace Sys2Proof.Machine

/-- Every instruction that a program word codes is issued with its sources and destinations, where its context may issue it. -/
theorem exec_issue (i : Instr) (s : State) (h : (encode i).isSome = true) :
    ∃ body, exec i s = issueIf (legalIn s i) i (sourcesOf s i) (destsOf i) s body := by
  cases i <;> first
    | exact nomatch (show false = true from h)
    | exact ⟨_, rfl⟩
    | exact ⟨fun s => .error (.ill s), rfl⟩

/-- An instruction that a program word codes, in a context that may issue it. -/
theorem exec_attempt {i : Instr} {s : State} (h : (encode i).isSome = true) (hl : legalIn s i = true) :
    ∃ body, exec i s = issue i (sourcesOf s i) (destsOf i) s body := by
  obtain ⟨body, e⟩ := exec_issue i s h
  exact ⟨body, by rw [e, issueIf_of hl]⟩

end Sys2Proof.Machine
end

