-- ==== Sys2Proof/Tests/Slice0.lean ====
section
/-! SUPPORT. The model's own tests: terms and words that are refused, words written out from the encoding tables,
single steps with results from the spec's worked examples, and for every statement a state that meets its hypotheses. -/

namespace Sys2Proof.Tests

-- One test at a time: tests that wait for each other would hold a thread, with its stack, each.
set_option Elab.async false

open Sys2Proof Sys2Proof.Machine

/-! ## Small states -/

/-- Core 0, context 0, running at 0x100, with its context changed. -/
def at0 (f : Ctx → Ctx) : State := State.reset.setCur (f { State.reset.cur with status := .ready, pc := 0x100 })
/-- Core 0, context 1, running a task at 0x100. -/
def at1 (f : Ctx → Ctx) : State :=
  let s : State := { State.reset with ctx := 1 }
  s.setCur (f { s.cur with status := .ready, pc := 0x100, task := some { msg := {} } })
/-- Registers by their FOVREG ids. -/
def regs (xs : List (Nat × W128)) (x : Ctx) : Ctx := xs.foldl (fun x e => x.write e.1 e.2) x
/-- A launch of basin 0 with barriers 3 to 7, which holds core 0. -/
def launched (s : State) : State :=
  let r : LaunchRec := { d0 := 0, d1 := 0, r0 := 0, r1 := 0, c0 := 0, c1 := 0, baren := true, barlo := 3, barhi := 7 }
  (s.setObj 5 { state := .sealed_, launch := some { lrec := r, phase := .running } }).setCore 0
    { s.getCore 0 with launch := some 5 }
def a0 (f : Ctx → Ctx) : State := launched (at0 f)
def a1 (f : Ctx → Ctx) : State := launched (at1 f)

/-- What holds of the state that a step answers. -/
def after (o : Host.Outcome State Fault Refusal) (f : State → Bool) : Bool :=
  match o with
  | .next t => f t
  | _ => false
/-- A register of the issuing context, once what it waits for has landed. -/
def reg (t : State) (id : Nat) : W128 := t.cur.landAll.value id
/-- An instruction writes a register. -/
def gives (i : Instr) (s : State) (id : Nat) (v : W128) : Bool := after (exec i s) fun t => reg t id == v
def isOk {ε α : Type} (x : Except ε α) : Bool :=
  match x with
  | .ok _ => true
  | .error _ => false
/-- The decoder names these instructions. -/
def names (ws : List Nat) (is : List Instr) : Bool := decide (ws.map decode = is.map Except.ok)
def refuses (w : Nat) : Bool := !isOk (decode w)

/-! ## Ill-formed terms (03 R67 to R77, 06 R151, 08 R220) -/

theorem test_wf_scope : [Instr.ldbPtr 1 1 .relaxed 1 false false, .ldwPtr 1 1 .relaxed 3 true true, .vld 1 1 .relaxed 2 false false,
    .stwPtr 1 1 .relaxed 1 false, .vst 1 1 .relaxed 1 false, .rmwadd false .relaxed .basin 1 1 1, .rmwcas .relaxed .sys 1 1 1,
    .rmwdec .relaxed .die 1 1 1, .rcdec false .pkg 1 false].all (fun i => !wellFormed i) = true := by decide
theorem test_wf_groups : [Instr.vldg 6 1 false false, .vstg 2 1 false, .stc .core 5 1 1 false, .hpack 3 1 1, .hpack 4 5 1, .hpack 4 1 4,
    .hunpk 1 3 1, .hunpk 5 4 1, .vq8b 1 4, .vq8b 2 5, .vq8b 4 4, .vdq8b 2 0 0, .vdq8b 4 5 0, .vdq8b 4 0 7, .vmx8 3 0 0, .vmx8 2 3 0,
    .vmx8 2 0 3, .vtern false 1 2 0, .vtern true 5 4 0, .vthr 9 8 0, .vtrpk 12 14 0, .vzip .b 1 2 3, .vzip .h 2 3 0, .vuzp .w 2 0 3,
    .callat 1 1 6, .callat 9 1 8, .rdtime 7].all (fun i => !wellFormed i) = true := by decide
theorem test_wf_classes : [Instr.rmwor true .acquire .core 16 1 1, .rmwmin true .acquire .core 1 1 16, .clr .v 16, .clr .p 8, .clr .w 31,
    .clr .e 8, .mfs 1 29, .mts 29 1, .mfs 1 63].all (fun i => !wellFormed i) = true := by decide
theorem test_wf_options : [Instr.vcvt .w2f false 1 1 1, .vcvt .blo2h true 1 1 0, .vext .w 1 1 4, .vext .h 1 1 8, .vins .b 1 1 16,
    .get 1 1 1 true false, .put 1 1 1 true false false, .getx 1 1 1 true false, .putx 1 1 1 true, .fence .core 0 1, .fence .core 1 0,
    .loop 1 0, .loop 1 1, .loopi 1 1, .msave .slot 1 1 2, .mrest .queue 1 1 1].all (fun i => !wellFormed i) = true := by decide
theorem test_wf_compact : [Instr.hMv 0 1, .hLi 0 1, .hAddi 0 1, .hAdd 0 1, .hSub 0 1, .hAnd 0 1, .hOr 0 1, .hXor 0 1, .hShl 0 1,
    .hShr 0 1, .hAsr 0 1, .hLdw 0 1, .hNeg 0 1].all (fun i => !wellFormed i) = true := by decide
theorem test_wf_steps : wellFormed (.resultLand 16384 0 0) = false ∧ wellFormed (.budget 0 11) = false ∧ wellFormed (.dispatch 16384) = false
    ∧ wellFormed (.fifoPopServed 2048 0) = false ∧ wellFormed (.fifoPushAppended 0 12) = false
    ∧ wellFormed (.countedFillPin (.stc 0 11)) = false ∧ wellFormed (.cntLimitExpiry (.tug 2048 0)) = false
    ∧ wellFormed (.kickRegisterStore 0 0 2048 0) = false ∧ wellFormed (.lin 2048 0) = false ∧ wellFormed (.doorbell 16 0 0) = false
    ∧ wellFormed (.launch 0 64) = false ∧ wellFormed (.ended 16384) = false ∧ wellFormed (.fix 16 0) = false
    ∧ wellFormed (.portFailure 4) = false ∧ wellFormed (.ringArrival { port := 4, hop := 1, srcBasin := 0, basin := 0, item := .entry 0 0 }) = false := by decide

/-! ## Words that name no instruction (03 R78) -/

/-- In the order of the list of R78: the major, an index, an f3 and a size past their lists, an unused field, a register
outside its class, a broken group rule, the cop, a compact field rule, and option bits. -/
theorem test_illegal_words : [0xFFFFFFFF, 0x00000001, 0x0000003D, 0x07C00003, 0x000E0005, 0x00C0001F, 0x06420003, 0x00C0809B, 0x0280030F,
    0x0000, 0x002C, 0x0002, 0x0062, 0x0800001B, 0x00044017, 0x3000000F].all refuses = true := by decide

/-! ## Words written out from the encoding tables -/

/-- OPR words, from 03 R64 to R77. -/
theorem test_decode_opr : names [
    0x00031483, 0x00451483, 0x00871483, 0x00C91483, 0x010B1483, 0x014D1483, 0x018F1483, 0x01D11483, 0x02131483,
    0x02551483, 0x02971483, 0x02D91483, 0x031B1483, 0x035D1483, 0x039F1483, 0x03E11483, 0x04231483, 0x04651483,
    0x04A71483, 0x04E91483, 0x052B1483, 0x056D1483, 0x05AF1483, 0x05F11483, 0x06331483, 0x0641E083, 0x0681E103,
    0x06C1E183, 0x0701E203, 0x0741E283, 0x0781E303] [
    .add 9 17 1, .sub 9 17 2, .and 9 17 3, .or 9 17 4, .xor 9 17 5, .andn 9 17 6, .orn 9 17 7, .sll 9 17 8,
    .srl 9 17 9, .sra 9 17 10, .rol 9 17 11, .ror 9 17 12, .slt 9 17 13, .sltu 9 17 14, .min 9 17 15, .max 9 17 16,
    .minu 9 17 17, .maxu 9 17 18, .mul 9 17 19, .mulh 9 17 20, .mulhu 9 17 21, .div 9 17 22, .divu 9 17 23,
    .rem 9 17 24, .remu 9 17 25, .clz 1 30, .ctz 2 30, .popc 3 30, .sextb 4 30, .sexth 5 30, .zexth 6 30] = true := by decide

/-- OPI words, from 03 R64 to R77. -/
theorem test_decode_opi : names [
    0x80114585, 0x80234585, 0x80354585, 0x80474585, 0x80594585, 0x806B4585, 0x01DC2F85, 0x41DC2F85, 0x81DC2F85,
    0xC1DC2F85] [
    .addi 11 20 0x801, .andi 11 20 0x802, .ori 11 20 0x803, .xori 11 20 0x804, .slti 11 20 0x805, .sltiu 11 20 0x806,
    .shi 31 2 .sll 29, .shi 31 2 .srl 29, .shi 31 2 .sra 29, .shi 31 2 .ror 29] = true := by decide

/-- HIIM, PCIM, CALL, JMP words, from 03 R64 to R77. -/
theorem test_decode_u : names [
    0xAD5E6F07, 0x54000089, 0x80000093, 0x55E6F795] [
    .lui 21 0xABCDE, .aui 10 0x80001, .call 0x1000001, .j 0xABCDEF] = true := by decide

/-- LDG, STG words, from 03 R64 to R77. -/
theorem test_decode_ldg : names [
    0x7F00DD0B, 0x7F12DD0B, 0x7F24DD0B, 0x7F36DD0B, 0x7F48DD0B, 0x562C590D, 0x586C590D, 0x5AAC590D] [
    .ldb 26 13 0x7f0, .ldbu 26 13 0x7f1, .ldh 26 13 0x7f2, .ldhu 26 13 0x7f3, .ldw 26 13 0x7f4, .stb 22 5 0x92b,
    .sth 22 5 0x92c, .stw 22 5 0x92d] = true := by decide

/-- MEMP words, from 03 R64 to R77. -/
theorem test_decode_memp : names [
    0x1400198F, 0x5840298F, 0x9480398F, 0xD8C0498F, 0x1500598F, 0xE1407E0F, 0xA5806E0F, 0x61C05E0F, 0x0A00368F,
    0x9640450F, 0x0E80560F, 0x06C0640F] [
    .ldbPtr 19 1 .order 0 false true, .ldbuPtr 19 2 .order 1 true false, .ldhPtr 19 3 .order 2 false true,
    .ldhuPtr 19 4 .order 3 true false, .ldwPtr 19 5 .order 0 false true, .stbPtr 28 7 .sc 3 false,
    .sthPtr 28 6 .sc 2 true, .stwPtr 28 5 .sc 1 false, .vld 13 3 .relaxed 0 true false, .vst 10 4 .order 2 true,
    .vldg 12 5 true true, .vstg 8 6 true] = true := by decide

/-- BR, JIND, REP words, from 03 R64 to R77. -/
theorem test_decode_br : names [
    0xA6366A11, 0xA8766A11, 0xAAB66A11, 0xACF66A11, 0xAF366A11, 0xB1766A11, 0x8F107017, 0x70F38017, 0x00040017,
    0x00012019, 0xFFF20019, 0x80249019, 0x1237B919] [
    .beq 6 27 0xa53, .bne 6 27 0xa54, .blt 6 27 0xa55, .bge 6 27 0xa56, .bltu 6 27 0xa57, .bgeu 6 27 0xa58,
    .jr 7 0x8F1, .callr 24 0x70F, .ret, .rep 18, .repi 4095, .loop 9 0x802, .loopi 882 0x123] = true := by decide

/-- PTR words, from 03 R64 to R77. -/
theorem test_decode_ptr : names [
    0x003DD29B, 0x0044331B, 0x0444331B, 0x0090939B, 0x00F2419B, 0x0100609B, 0x01402F9B, 0x05402F9B, 0x0181721B,
    0x0580321B] [
    .pset 5 29 30, .pnear 6 3 2 false, .pnear 6 3 2 true, .pfar 7 9 8, .padd 3 4 25, .pwalk 1 6, .pget 31 2 false,
    .pget 31 2 true, .wset 4 23 false, .wset 4 3 true] = true := by decide

/-- BITS words, from 03 R64 to R77. -/
theorem test_decode_bits : names [
    0x000C521D, 0x0052839D, 0x0098B51D, 0x00C1501D, 0x0100311D, 0x0140311D, 0x0181F01D, 0x01C0001D, 0x0201089D,
    0x0246209D, 0x0290721D, 0x02D0629D] [
    .ext 4 5 6, .extu 7 8 9, .ins 10 11 12, .bbset 21, .bget 2 3, .bpeek 2 3, .bskip 31, .balign, .bgetu 17 16,
    .hlay 1 2 3, .hpack 4 7 8, .hunpk 5 6 8] = true := by decide

/-- VINT words, from 03 R64 to R77. -/
theorem test_decode_vint : names [
    0x001E071F, 0x015E171F, 0x029E271F, 0x031E371F, 0x045E471F, 0x059E571F, 0x061E671F, 0x075E771F, 0x089E871F,
    0x091E971F, 0x0A00959F, 0x0B02959F, 0x0C04959F, 0x0D06959F, 0x0E06C01F, 0x0F46C09F, 0x1086C11F, 0x1106C19F,
    0x1246C21F, 0x1386C29F, 0x1480321F, 0x1500321F, 0x1644321F, 0x1784321F, 0x1840D21F, 0x190C539F] [
    .vadd .b 14 0 15, .vsub .h 14 1 15, .vadds .w 14 2 15, .vsubs .b 14 3 15, .vaddus .h 14 4 15, .vsubus .w 14 5 15,
    .vmin .b 14 6 15, .vmax .h 14 7 15, .vminu .w 14 8 15, .vmaxu .b 14 9 15, .vand 11 9 0, .vor 11 9 1,
    .vxor 11 9 2, .vandn 11 9 3, .vsll .b 0 12 3, .vsrl .h 1 12 3, .vsra .w 2 12 3, .vceq .b 3 12 3, .vclt .h 4 12 3,
    .vcltu .w 5 12 3, .vabs .w 4 3, .vneg .b 4 3, .vmul .h 4 3 2, .vmulh .w 4 3 2, .vsum .h 4 13, .vdot4 7 5 6] = true := by decide

/-- VFLT words, from 03 R64 to R77. -/
theorem test_decode_vflt : names [
    0x001E0421, 0x015C1421, 0x021A2421, 0x03583421, 0x04164421, 0x05545421, 0x06126421, 0x07507421, 0x080E8421,
    0x0900A7A1, 0x0A40A7A1, 0x0B00A7A1, 0x0C40A7A1, 0x0D00A7A1] [
    .vfadd .f 8 0 15, .vfsub .bf 8 1 14, .vfmul .f 8 2 13, .vfma .bf 8 3 12, .vfmin .f 8 4 11, .vfmax .bf 8 5 10,
    .vfceq .f 8 6 9, .vfclt .bf 8 7 8, .vfcle .f 8 8 7, .vfabs .f 15 10, .vfneg .bf 15 10, .vfsum .f 15 10,
    .vfrcp .bf 15 10, .vfrsq .f 15 10] = true := by decide

/-- VCVT, VMOV words, from 03 R64 to R77. -/
theorem test_decode_vcvt : names [
    0x400A74A3, 0x040074A3, 0x080074A3, 0x4C0074A3, 0x100074A3, 0x140074A3, 0x180074A3, 0x1C0074A3, 0x200074A3,
    0x240A74A3, 0x280A74A3, 0x00404123, 0x00928223, 0x00C20323, 0x05068123, 0x0140C5A3, 0x019E41A3, 0x01FAE6A3,
    0x0041F7A5, 0x0186FF25, 0x021FD725, 0x034A63A5, 0x04928325, 0x05062225, 0x06062225, 0x07002225] [
    .vcvt .f2bf true 9 7 5, .vcvt .bflo2f false 9 7 0, .vcvt .bfhi2f false 9 7 0, .vcvt .w2f true 9 7 0,
    .vcvt .f2w false 9 7 0, .vcvt .blo2h false 9 7 0, .vcvt .bhi2h false 9 7 0, .vcvt .hlo2w false 9 7 0,
    .vcvt .hhi2w false 9 7 0, .vcvt .h2b false 9 7 5, .vcvt .w2h false 9 7 5, .vq8b 2 4, .vdq8b 4 8 9, .vmx8 6 0 1,
    .vtern true 2 8 3, .vthr 11 12 0, .vtrpk 3 4 15, .vtrunpk 13 14 29, .vsplat .h 15 31, .vext .w 30 15 3,
    .vins .b 14 29 15, .vshuf .h 7 6 5, .vzip .w 6 8 9, .vuzp .b 4 2 3, .vsel 4 2 3, .vmv 4 2] = true := by decide

/-- LMEM, CNT, FAR words, from 03 R64 to R77. -/
theorem test_decode_mem : names [
    0x000620A7, 0x007DDE27, 0x30226429, 0x58683029, 0x14800B29, 0x48C07029, 0x20C01029, 0x01005829, 0x0408312B,
    0x3048302B, 0x084834AB, 0x209C702B, 0x00DE60AB, 0x0100002B] [
    .lcopy 1 2 3, .lfill 28 29 30, .stc .sys 8 6 17 true, .rcopen 6 3 20 .fault, .rcclose 22 5,
    .rcdec true .die 7 false, .rcdec false .core 1 true, .rcpeek 16 5, .get 2 3 4 false true,
    .put 0 3 4 true true false, .put 9 3 4 false false true, .getx 0 7 14 true false, .putx 1 6 15 false, .fwait] = true := by decide

/-- ATOM, FENCE words, from 03 R64 to R77. -/
theorem test_decode_atom : names [
    0x001C06AD, 0x1A5C16AD, 0x249C26AD, 0x3EDC36AD, 0x401C46AD, 0x5A1C56AD, 0x645C66AD, 0x7E9C76AD, 0x801C06AD,
    0x97303BAD, 0xA27E202D, 0x9C08002F] [
    .rmwadd false .relaxed .core 13 0 14, .rmwand true .acquire .basin 13 1 14, .rmwor false .release .die 13 2 14,
    .rmwxor true .acqRel .pkg 13 3 14, .rmwmin false .relaxed .core 13 4 14, .rmwmax true .acquire .core 13 5 14,
    .rmwminu false .release .basin 13 6 14, .rmwmaxu true .acqRel .die 13 7 14,
    .rmwswap false .relaxed .core 13 0 14, .rmwcas .acqRel .sys 23 3 24, .rmwdec .acquire .basin 0 2 31,
    .fence .sys 9 12] = true := by decide

/-- MAT words, from 03 R64 to R77. -/
theorem test_decode_mat : names [
    0x140A41B1, 0xF4446F31, 0x008F3031, 0x10C22931, 0x05066031, 0x05400631, 0x0181B031, 0x01D25431, 0x16016031,
    0x024C1131, 0x06823231, 0x0A803231] [
    .mwld .p14 1 3 4 5, .mrun .rdn true true true 1 30 6 2, .macz 7 19, .mdrain .raw 18 2 1, .macc true 3 6,
    .mstat 12 1, .mfmt 27, .mcmd 8 5 9, .mcap 5 22, .msave .tile 2 1 6, .mrest .slot 4 3 1, .mrest .queue 4 3 0] = true := by decide

/-- MSG, TASK, BAR, ENG words, from 03 R64 to R77. -/
theorem test_decode_msg : names [
    0x00085033, 0x004C5233, 0x008C5233, 0x00D05233, 0x01009033, 0x01443033, 0x00000035, 0x00400035, 0x188002B5,
    0x00CE8035, 0x000E8037, 0x004E84B7, 0x008E8537, 0x00CE85B7, 0x050080B7, 0x00003139, 0x00404039, 0x04805339] [
    .send 5 4, .sendw 4 5 6, .spawn 4 5 6, .callat 4 5 8, .reply 9, .start 3 2, .done, .commit, .tmsg 5 6,
    .waitf 8 7, .barinit 8 7, .bararr 9 8 7, .barwait 10 8 7, .bardrop 11 8 7, .bartest 1 8 true, .kick 2 3,
    .keep 0 4, .ktest 6 5 true] = true := by decide

/-- SYS words, from 03 R64 to R77. -/
theorem test_decode_sys : names [
    0x700003BB, 0x3440603B, 0xFC40F0BB, 0x0086403B, 0x00C0503B, 0x0100003B, 0x0140003B, 0xA580003B, 0x01C2203B,
    0x0212703B, 0x0652703B, 0x0280033B, 0x02C0003B, 0x0301A03B] [
    .mfs 7 28, .mts 13 6, .clr .v 15, .trap 4 3, .svc 5, .tret, .idle, .brk 41, .bmode 2 1, .l2wb 7 9,
    .l2inv 7 9 true, .rdtime 6, .isync, .skey 26] = true := by decide

/-- compact words, from 03 R64 to R77. -/
theorem test_decode_compact : names [
    0xF842, 0xF084, 0xE8C6, 0xE108, 0xD94A, 0xD18C, 0xC9CE, 0xC210, 0xBA52, 0xB294, 0xAAD6, 0xA318, 0x9B5A, 0x939C,
    0x8BDE, 0xAAE0, 0x0022, 0x0024, 0x0026, 0x0028, 0x20EA] [
    .hMv 1 31, .hLi 2 30, .hAddi 3 29, .hAdd 4 28, .hSub 5 27, .hAnd 6 26, .hOr 7 25, .hXor 8 24, .hShl 9 23,
    .hShr 10 22, .hAsr 11 21, .hLdw 12 20, .hStw 13 19, .hBz 14 18, .hBnz 15 17, .hJ 0x2AB, .hRet, .hDone, .hCommit,
    .hNop, .hNeg 3 4] = true := by decide

/-! ## Single steps: scalar instructions (expected values from the examples of 04, or by hand from its rules) -/

theorem test_add_wraps : gives (.add 9 3 4) (at0 (regs [(3, 0xFFFFFFFF), (4, 2)])) 9 1 = true := by decide
theorem test_sub_borrows : gives (.sub 9 3 4) (at0 (regs [(3, 1), (4, 2)])) 9 0xFFFFFFFF = true := by decide
theorem test_sra_amount : gives (.sra 9 3 4) (at0 (regs [(3, 0x80000000), (4, 0x24)])) 9 0xF8000000 = true := by decide
theorem test_rol_by_zero : gives (.rol 9 3 4) (at0 (regs [(3, 0x80000001), (4, 32)])) 9 0x80000001 = true := by decide
theorem test_slt_signed : gives (.slt 9 3 4) (at0 (regs [(3, 0x80000000), (4, 1)])) 9 1 = true := by decide
theorem test_write_g0_discarded : gives (.add 0 3 3) (at0 (regs [(3, 1)])) 0 0 = true := by decide
theorem test_clz : gives (.clz 9 3) (at0 (regs [(3, 0x00010000)])) 9 15 = true ∧ gives (.ctz 9 0) (at0 id) 9 32 = true := by decide
theorem test_mulh : gives (.mulh 9 3 4) (at0 (regs [(3, 0xFFFFFFFF), (4, 2)])) 9 0xFFFFFFFF = true
    ∧ gives (.mulhu 9 3 4) (at0 (regs [(3, 0xFFFFFFFF), (4, 2)])) 9 1 = true := by decide
/-- The examples of R94. -/
theorem test_div : gives (.div 9 3 4) (at0 (regs [(3, 0xFFFFFFF9), (4, 2)])) 9 0xFFFFFFFD = true
    ∧ gives (.rem 9 3 4) (at0 (regs [(3, 0xFFFFFFF9), (4, 2)])) 9 0xFFFFFFFF = true
    ∧ gives (.div 9 3 4) (at0 (regs [(3, 7)])) 9 0xFFFFFFFF = true ∧ gives (.rem 9 3 4) (at0 (regs [(3, 7)])) 9 7 = true
    ∧ gives (.div 9 3 4) (at0 (regs [(3, 0x80000000), (4, 0xFFFFFFFF)])) 9 0x80000000 = true
    ∧ gives (.rem 9 3 4) (at0 (regs [(3, 0x80000000), (4, 0xFFFFFFFF)])) 9 0 = true := by decide
theorem test_mul_empties_destination : after (exec (.mul 9 3 4) (at0 id)) (fun t => t.cur.regState 9 == .empty) = true := by decide
theorem test_sltiu_extends : gives (.sltiu 9 3 0xFFF) (at0 (regs [(3, 0xFFFFFFFE)])) 9 1 = true := by decide
theorem test_aui : gives (.aui 9 0x80000) (at0 id) 9 0x80000100 = true := by decide
/-- The fragment of R98: g4, g5, g6 and w1 give p1, and `pwalk` gives p2. -/
theorem test_walk_fragment : gives (.addi 4 0 536) (at0 id) 4 0x218 = true ∧ gives (.lui 5 4) (at0 id) 5 0x4000 = true
    ∧ gives (.pnear 1 4 5 false) (at0 (regs [(4, 0x218), (5, 0x4000)])) 65 0x4000000086004000 = true
    ∧ gives (.pwalk 2 1) (at0 (regs [(65, 0x4000000086004000), (97, 0x02C00400)])) 66 0x4000000086004400 = true := by decide
/-- The table of R38: the access that crosses the span moves to the next core, and to the next basin after slot 7. -/
theorem test_walk_crosses : gives (.pwalk 2 1) (at0 (regs [(65, 0x4000000086004C00), (97, 0x02C00400)])) 66 0x4000000086204000 = true
    ∧ gives (.pwalk 2 1) (at0 (regs [(65, 0x4000000086E04C00), (97, 0x02C00400)])) 66 0x4000000088004000 = true := by decide
theorem test_padd_wraps : gives (.padd 2 1 3) (at0 (regs [(65, 0x1FFFF), (3, 2)])) 66 1 = true := by decide
theorem test_ins : gives (.ins 9 3 4) (at0 (regs [(9, 0xFFFFFFFF), (3, 0), (4, 0x0804)])) 9 0xFFFFF00F = true := by decide
/-- The first three passes of the handler of R112's chapter: field, DATA, FILL and OFF. -/
theorem test_bit_buffer :
    let s := (at0 (regs [(1, 0x400), (2, 3)])).putBytes 0x400 [0xD1, 0x2C]
    after (exec (.bbset 1) s) (fun t => after (exec (.bgetu 3 2) t) fun t =>
      t.cur.rg 3 == 1 && t.cur.bbData == 0x1A && t.cur.bbFill == 5 && t.cur.bbOff == 0x401 && after (exec (.bgetu 3 2) t) fun t =>
        after (exec (.bgetu 3 2) t) fun t => t.cur.rg 3 == 3 && t.cur.bbData == 0x16 && t.cur.bbFill == 7 && t.cur.bbOff == 0x402) = true := by decide
/-- The descriptor of 03 R90 and the header of R102. -/
theorem test_headers : gives (.hlay 9 3 4) ((at0 (regs [(3, 0x400), (4, 1)])).putBytes 0x400 [4, 0x0C, 0x10]) 9 0x0C04 = true
    ∧ gives (.hunpk 9 4 3) (at0 (regs [(4, 0xABCD1235), (3, 0x0C04)])) 9 0x123 = true := by decide
theorem test_branch_taken : after (exec (.bne 3 0 0xFFC) (at0 (regs [(3, 1)]))) (fun t => t.cur.pc == 0xF8) = true
    ∧ after (exec (.hBz 3 31) (at0 id)) (fun t => t.cur.pc == 0x140) = true := by decide
theorem test_branch_out_of_range : after (exec (.beq 0 0 0x800) (at0 fun x => { x with trapVec := 0x20 })) (fun t =>
    t.cur.code == 0x03 && t.cur.trapVal == 0xFFFFF100 && t.cur.pc == 0x40 && t.cur.inh) = true := by decide
/-- The table of R107: after 8 calls the ninth spills, and LINK_LIMIT stops the thirteenth. -/
theorem test_link_spill : let full (top : BitVec 15) : State := at0 fun x => { x with
      links := [1, 2, 3, 4, 5, 6, 7, 8], spillBase := 0x7C00, spillTop := top, linkLimit := 0x7C04 }
    after (exec (.call 8) (full 0x7C00)) (fun t => t.cur.spillTop == 0x7C01 && t.memNat 0x1F000 4 == 1 && t.cur.links.getLast? == some 0x104) = true
      ∧ after (exec (.call 8) (full 0x7C04)) (fun t => t.cur.code == 0x09 && t.cur.trapVal == 0x1F010) = true := by decide
theorem test_ret_underflow : after (exec .ret (at0 fun x => { x with spillBase := 0x7C00, spillTop := 0x7C00 })) (fun t =>
    t.cur.code == 0x0A && t.cur.trapVal == 0x1F000) = true := by decide
theorem test_repeat_goes_back : after (exec .hNop (at0 fun x => { x with rc := 2, ls := 0x40, le := 0x80 })) (fun t =>
    t.cur.pc == 0x80 && t.cur.rc == 1) = true := by decide
theorem test_loop_sets : after (exec (.loopi 5 4) (at0 id)) (fun t => t.cur.rc == 5 && t.cur.ls == 0x82 && t.cur.le == 0x84) = true := by decide

/-! ## Memory -/

theorem test_load_signed : gives (.ldb 9 3 0xFFF) ((at0 (regs [(3, 0x101)])).putBytes 0x100 [0x80, 0xFF]) 9 0xFFFFFF80 = true := by decide
theorem test_load_little_endian : gives (.ldw 9 3 0) ((at0 (regs [(3, 0x1FFFC)])).putBytes 0x1FFFC [1, 2, 3, 4]) 9 0x04030201 = true := by decide
theorem test_load_past_end : after (exec (.ldw 9 3 0) (at0 (regs [(3, 0x1FFFE)]))) (fun t => t.cur.code == 0x03 && t.cur.trapVal == 0x1FFFE) = true := by decide
theorem test_store_half : after (exec (.sth 4 3 0) (at0 (regs [(3, 0x80), (4, 0x12345678)]))) (fun t => t.memNat 0x80 4 == 0x5678) = true := by decide
theorem test_store_counted : after (exec (.stb 4 3 0) ((at0 (regs [(3, 0x80)])).setLine 2 (.counted 1))) (fun t => t.cur.code == 0x08) = true := by decide
theorem test_task_reads_its_stores : after (exec (.stw 4 3 0) (at1 (regs [(3, 0x80), (4, 7)]))) (fun t =>
    gives (.ldw 9 3 0) t 9 7 && t.memNat 0x80 4 == 0) = true := by decide
theorem test_post_increment : after (exec (.ldwPtr 9 1 .relaxed 0 false true) (at0 (regs [(65, 0x80), (97, 0x01100004)]))) (fun t =>
    t.rp 1 == 0x84) = true := by decide
theorem test_consume_last : after (exec (.ldwPtr 9 1 .relaxed 0 true false) (((at0 (regs [(65, 0x80)])).putBytes 0x80 [5]).setLine 2 (.counted 1)))
    (fun t => reg t 9 == 5 && t.lineState 2 == .dropped && t.memNat 0x80 1 == 0) = true := by decide
theorem test_bad_pointer : after (exec (.vld 3 1 .relaxed 0 false false) (at0 (regs [(65, 0xC000000000000000)]))) (fun t =>
    t.cur.code == 0x16 && t.cur.trapVal == 1) = true := by decide
/-- The example of R123: the first pass copies the upper half. -/
theorem test_lcopy_downwards : after (exec (.lcopy 3 4 5) ((at0 (regs [(3, 0x108), (4, 0x100), (5, 32)])).putBytes 0x110 [0xAA])) (fun t =>
    t.memNat 0x118 1 == 0xAA && t.cur.prog == 16 && t.cur.pc == 0x100) = true := by decide
theorem test_stc_sets_count : after (exec (.stc .core 4 1 3 false) ((at0 (regs [(65, 0x80), (3, 255), (36, 9)])).setMe
    { (at0 id).setCur (regs [(65, 0x80), (3, 255), (36, 9)] (at0 id).cur) |>.me with
      regions := [(0, some { base := 0x80, len := 64, ranges := [(2, 3)], faultPolicy := true })] }))
    (fun t => t.lineState 2 == .counted 255 && t.memNat 0x80 4 == 9) = true := by decide
theorem test_rcpeek_dropped : gives (.rcpeek 9 1) ((at0 (regs [(65, 0xBF)])).setLine 2 .dropped) 9 0x100 = true := by decide
theorem test_rcclose_not_open : gives (.rcclose 9 7) (at0 id) 9 0xFFFFFFFF = true := by decide
theorem test_get_starts : after (exec (.get 9 1 3 false false) (at0 (regs [(65, 0x400), (3, 0x80), (128, 20)]))) (fun t =>
    t.cur.regState 9 == .empty && after (exec (.transferChunk 0 (State.reset.me.nextXfer)) (t.putBytes 0x40F [7])) fun t => t.memNat 0x8F 1 == 7) = true := by decide
theorem test_rmwmin_signed : after (exec (.rmwmin false .relaxed .core 9 1 3) ((at0 (regs [(65, 0x80), (3, 1)])).putBytes 0x80 [0xFF, 0xFF, 0xFF, 0xFF]))
    (fun t => reg t 9 == 0xFFFFFFFF && t.memNat 0x80 4 == 0xFFFFFFFF) = true := by decide
theorem test_rmwcas : after (exec (.rmwcas .relaxed .core 9 1 3) (at0 (regs [(65, 0x80), (3, 8), (128, 0)]))) (fun t =>
    reg t 9 == 0 && t.memNat 0x80 4 == 8) = true := by decide

/-! ## Vectors (the examples of 02 and 06) -/

theorem test_vadds : gives (.vadds .b 3 1 2) (at0 (regs [(33, 0x7F), (34, 0x05)])) 35 0x7F = true
    ∧ gives (.vaddus .b 3 1 2) (at0 (regs [(33, 0xFB), (34, 0x0A)])) 35 0xFF = true
    ∧ gives (.vsra .h 3 1 2) (at0 (regs [(33, 0xFF00), (34, 0x0014)])) 35 0xFFF0 = true := by decide
theorem test_vdot4_accumulates : gives (.vdot4 3 1 2) (at0 (regs [(33, 0xFF02), (34, 0x0305), (35, 1)])) 35 8 = true := by decide
theorem test_vshuf_out_of_range : gives (.vshuf .w 3 1 2) (at0 (regs [(33, 0x00000007), (34, 0x0000000400000000)])) 35
    0x00000007000000070000000000000007 = true := by decide
theorem test_vzip_pair : gives (.vzip .w 4 1 2) (at0 (regs [(33, 0x00000004000000030000000200000001), (34, 0x80000000700000006000000050000000)])) 37
    0x80000000000000047000000000000003 = true := by decide
/-- The example of R148: the sum of (2^24, 1, 1, 1) in the tree is 2^24 + 2, with NX. -/
theorem test_vfsum_tree : after (exec (.vfsum .f 3 1) (at0 (regs [(33, 0x3F8000003F8000003F8000004B800000)]))) (fun t =>
    reg t 35 == 0x4B800001 && t.cur.landAll.fflags == 0x10) = true := by decide +kernel
/-- The listing of 06: `vtern.sr` and `vtrpk`. -/
theorem test_vtern_sr : after (exec (.vtern true 12 4 1) (at0 (regs [(36, 0xC00000003F400000BE00000000000000), (33, 0x3F000000)]))) (fun t =>
    reg t 44 == 0xFF01FF00 && t.cur.srseq == 1) = true := by decide +kernel
theorem test_vtrpk : gives (.vtrpk 9 12 8) (at0 (regs [(44, 0xFF01FF00)])) 41 0x79797979797979797979797979797964 = true := by decide +kernel
/-- The block of R45: scale container 0x07B5 and elements 37, −122, 6, 88. -/
theorem test_vq8b : let s := at0 (regs [(36, 0x40E800003F000000C120000040400000)])
    gives (.vq8b 2 4) s 34 0x58068625 = true ∧ after (exec (.vq8b 2 4) s) (fun t => (reg t 35).toNat % 65536 == 0x07B5 && t.cur.landAll.fflags == 0x10) = true := by
  decide +kernel
/-- The block of R46 with X = 5. -/
theorem test_vmx8_small_scale : gives (.vmx8 2 1 3) (at0 (regs [(33, 0x7FFD06), (35, 5)])) 34 0x20FF02 = true := by decide +kernel
/-- R58: key 0 and counter 1. -/
theorem test_spate : spate 0 0 0 1 = 0x04000080 := by decide

/-! ## Matrix, messages, barriers, engines -/

theorem test_macz_queues : after (exec (.macz 3 5) (at0 (regs [(5, 0x3FF)]))) (fun t =>
    t.me.mat.queue.length == 1 && after (exec (.tileZero 0) t) fun t => (t.me.mat.tile 3).anchor == 0x3FF && t.me.mat.queue.isEmpty) = true := by decide
theorem test_mrun_odd_rows : after (exec (.mrun .rne false false false 0 9 1 0) (a0 (regs [(128, 0x0300)]))) (fun t => t.cur.code == 0x03) = true := by decide
theorem test_send_leaves : after (exec (.sendw 9 3 4) (a0 (regs [(3, 7), (4, 0x11), (132, 0x80000100), (133, 0x22)]))) (fun t =>
    t.cur.regState 9 == .empty && t.net.length == 1) = true := by decide
theorem test_send_outside_set : after (exec (.send 3 4) (a0 (regs [(3, 8)]))) (fun t => t.cur.code == 0x03 && t.cur.trapVal == 8 && t.net.isEmpty) = true := by decide
theorem test_start_registers : after (exec (.start 3 4) (a0 (regs [(3, 10), (4, 0x200), (128, 5), (129, 6)]))) (fun t =>
    let x := t.getCtx 0 10
    x.status == .ready && x.pc == 0x200 && x.rg 1 == 5 && x.rg 2 == 6 && x.started) = true := by decide
theorem test_dispatch_lowest : after (exec (.dispatch 0) ((a0 id).setLevel 0 3 { hw := [{ pc := 0x80, arg0 := 9 }] })) (fun t =>
    (t.getCtx 0 1).pc == 0x80 && (t.getCtx 0 1).rg 1 == 9 && (t.getCtx 0 1).task.isSome) = true := by decide
theorem test_commit_publishes : after (exec .commit (a1 fun x => { x with held := [.store (localPtr 0x80) [7] none] })) (fun t =>
    t.memNat 0x80 1 == 7 && t.cur.held.isEmpty) = true := by decide
/-- The example of R214: the last of the three arrivals releases the phase with the flags of all. -/
theorem test_barrier_release : let s := (a0 id).setBar 5 { exp := 3, arr := 2, acc := 0x14, drops := 0 }
    let x := s.getCtx 0 2
    after (exec (.barrierArrival 0 2) (s.setCtx 0 2 { x with bar := .sent 5 false true 0 })) (fun t =>
      let y := t.getBar 5
      y.ph && y.rfl == 0x14 && y.exp == 2 && y.arr == 0) = true := by decide
theorem test_bartest_not_granted : after (exec (.bartest 9 3 false) (a0 (regs [(3, 8)]))) (fun t => t.cur.code == 0x03) = true := by decide
theorem test_kick_gives_token : after (exec (.kick 9 3) (a0 (regs [(3, 0x40)]))) (fun t => (t.getBasin 0).tug.cmds.length == 1 && t.cur.regState 9 == .empty) = true := by decide
theorem test_ktest_unknown : gives (.ktest 9 3 false) (a0 (regs [(3, 5)])) 9 3 = true := by decide

/-! ## System registers, traps, and a cycle -/

theorem test_mfs_reset : gives (.mfs 9 23) (at0 id) 9 65536 = true ∧ gives (.mfs 9 25) (at0 id) 9 2 = true := by decide
theorem test_mts_reserved : after (exec (.mts 5 3) (at0 (regs [(3, 0xFFFFFFFF)]))) (fun t => gives (.mfs 9 5) t 9 0x800000FF) = true := by decide
theorem test_clr_g0_ignored : after (exec (.clr .g 0) (at0 id)) (fun t => t.cur.regState 0 == .full) = true := by decide
theorem test_svc_after_itself : after (exec (.svc 3) (at0 fun x => { regs [(3, 9)] x with trapVec := 0x20 })) (fun t =>
    t.cur.code == 0x17 && t.cur.trapPc == 0x82 && t.cur.trapVal == 9 && t.cur.pc == 0x40
      && after (exec .tret t) fun t => t.cur.pc == 0x104 && !t.cur.inh) = true := by decide
theorem test_fault_inside_handler : after (exec (.svc 3) (a0 fun x => { x with trapVec := 0x20, inh := true })) (fun t => t.cur.status == .idle) = true := by decide
theorem test_empty_source_parks : after (exec (.add 9 3 4) (at0 fun x => { x with rst := [(4, .empty)] })) (fun t =>
    t.cur.status == .parked && t.cur.pc == 0x100) = true := by decide
/-- The bytes of `addi g6, g6, -3` (03) at the PC of c0. -/
theorem test_cycle_runs : after (step { ((at0 (regs [(6, 6)])).putBytes 0x100 [0x05, 0x63, 0xD0, 0xFF]).refetch 0 0 with sched := [.cycle 0] }) (fun t =>
    (t.getCtx 0 0).rg 6 == 3 && (t.getCtx 0 0).pc == 0x104) = true := by decide
theorem test_fetch_word_runs : after (step (State.reset.withFetchWord 32 0xFFD06305)) (fun t =>
    (t.getCtx 0 0).rg 6 == 0xFFFFFFFD) = true := by decide
/-- The example of R324: a WPTR 16 ahead is accepted, and 17 ahead is OVERRUN. -/
theorem test_doorbell : let s := State.reset.setQueue 0 1 { log2 := 4, rdptr := 0xFFFFFFF8, en := true, state := 1 }
    after (exec (.doorbell 0 1 8) s) (fun t => (t.queue 0 1).state == 1) = true
      ∧ after (exec (.doorbell 0 1 9) s) (fun t => (t.queue 0 1).state == 3) = true
      ∧ after (exec (.doorbell 0 1 0xFFFFFFF0) s) (fun t => (t.queue 0 1).state == 3) = true := by decide
theorem test_time_never_back : after (exec (.timeSync 5) { State.reset with time := 9, ring := { State.reset.ring with pos := 1 } }) (fun t => t.time == 9) = true := by decide
theorem test_reset_memory : after (exec .reset ((at0 id).putBytes 0x80 [7])) (fun t => t.memNat 0x80 1 == 0 && t.cur.status == .idle) = true := by decide

/-- Every count of a state is from 1 to 255. -/
def countsOk (s : State) : Bool :=
  let ok (st : LineState) : Bool := match st with
    | .counted n => decide (1 ≤ n ∧ n ≤ 255)
    | _ => true
  s.lines.all (fun e => ok e.2) && s.far.all (fun e => ok e.2.st) && s.objs.all fun o => match o.2.launch with
    | some l => match l.save with
      | some v => v.lines.all fun e => ok e.2
      | none => true
    | none => true
theorem countsOk_counts {s : State} (h : countsOk s = true) : s.CountsOk := by
  simp only [countsOk, Bool.and_eq_true, List.all_eq_true] at h
  refine ⟨fun e he n hn => ?_, fun e he n hn => ?_, fun o ho l hl v hv e he n hn => ?_⟩
  · simpa [hn] using h.1.1 e he
  · simpa [hn] using h.1.2 e he
  · have := h.2 o ho; simp only [hl, hv, List.all_eq_true] at this; simpa [hn] using this e he
/-- The first granule of these keys holds an uncorrectable error. -/
def hurt (s : State) (ks : List Nat) : State := { s with errs := { s.errs with mem := ks.map fun k => (k / 8, true) } }
/-- A task whose write buffer is full. -/
def stuffed (x : Ctx) : Ctx := { x with held := List.replicate 64 (.store (localPtr 0x800) [7] none) }

/-! ## The standards of 19 R381 -/

/-- The one-block example of FIPS 180-4, "abc". -/
theorem test_sha_abc :
    sha256 [0x61, 0x62, 0x63] = 0xba7816bf8f01cfea414140de5dae2223b00361a396177a9cb410ff61f20015ad := by decide +kernel
/-- Twice the base point of P-256, from the published multiples. -/
theorem test_p256_double : EcPoint.mul 2 2 p256G =
    some (0x7cf27b188d034f7e8a52380304b51ac3c08969e277f21b35a60b48fc47669978,
      0x07775510db8ed040293d9ac69f7430dbba7dade63ce982299e04b79d227873d1) := by decide +kernel
/-- FIPS 186: r and s lie from 1 to n − 1. -/
theorem test_ecdsa_range : ecdsaVerifies 1 2 3 0 1 = false ∧ ecdsaVerifies 1 2 3 1 p256N = false := by decide +kernel

/-! ## Witnesses: for each statement, states and operands that meet its hypotheses together, at the boundaries of its clauses -/

/-- Pointers: p0 the last line of local memory, p1 malformed, p2 core 1, p3 SCRATCH bank 2, p4 a core outside the launch,
p5 misaligned, p6 the last byte of local memory, p7 FIFO bank 3. -/
def pointers (x : Ctx) : Ctx :=
  regs [(64, 0x1FFC0), (65, 0xC000000000000000), (66, (nearPtr 0 1 0x40).zeroExtend 128),
    (67, (nearPtr 0 8 (2 * 131072 + 64)).zeroExtend 128), (68, (nearPtr 1 0 0).zeroExtend 128), (69, 0x41), (70, 0x1FFFF),
    (71, (nearPtr 0 8 (3 * 131072)).zeroExtend 128)] x
/-- Bank 2 SCRATCH and bank 3 FIFO; the first line of local memory is counted, the second dropped. -/
def banks (s : State) : State :=
  ((s.setBasin 0 ((({} : Basin).setMode 2 1).setMode 3 2)).setLine 0 (.counted 1)).setLine 1 .dropped
def w0 (f : Ctx → Ctx) : State := banks (a0 (pointers ∘ f))
def w1 (f : Ctx → Ctx) : State := banks (a1 (pointers ∘ f))
/-- Sources and destinations of a scalar instruction, g0 and g31 among them. -/
def s0 : State := at0 (regs [(3, 0x80000000), (4, 0xFFFFFFFF)])

/-- Space 0 maps nothing far; p0 far and aligned, p1 misaligned, p2 the last line of the space, p3 near. -/
def farState (f : Ctx → Ctx) : State :=
  a0 (regs [(64, 0x8000000000000000), (65, 0x8000000000000020), (66, 0x8000FFFFFFFFFFC0), (67, 0)] ∘ f)
theorem test_witness_OprResults : s0.ready .hNop [gid 3, gid 31] [gid 0] = true := by decide
theorem test_witness_UnaryAndMultiplyResults : s0.ready .hNop [gid 31] [gid 0] = true ∧ s0.ready .hNop [gid 3, gid 4] [gid 31] = true := by decide
theorem test_witness_DivisionResults : s0.ready .hNop [gid 3, gid 4] [gid 3] = true ∧ s0.rg 5 = 0
    ∧ ((s0.rg 3).toInt = -2 ^ 31 ∧ (s0.rg 4).toInt = -1) ∧ s0.rg 3 ≠ 0 ∧ ¬((s0.rg 4).toInt = -2 ^ 31 ∧ (s0.rg 3).toInt = -1) := by decide
theorem test_witness_ImmediateAndCompactResults : s0.ready .hNop [gid 3] [gid 0] = true ∧ s0.ready .hNop [gid 0, gid 31] [gid 0] = true
    ∧ s0.ready .hNop [] [] = true := by decide
theorem test_witness_UpperImmediateResults : s0.ready .hNop [] [gid 0] = true := by decide
theorem test_witness_PointerResults : (w0 id).ready .hNop [pid 0, gid 0] [pid 7] = true ∧ ((w0 id).rp 0).toNat / 2 ^ 62 ≠ 3
    ∧ ((w0 id).rp 1).toNat / 2 ^ 62 = 3 ∧ (w0 id).ready .hNop [pid 1, wid 1] [pid 0] = true ∧ (w0 id).popsOf 0 0 = []
    ∧ (w0 id).ready .hNop [gid 31] [eid 7] = true := by decide
theorem test_witness_WalkResult : (w0 id).ready .hNop [pid 3, wid 3] [pid 0] = true
    ∧ (((w0 id).rp 3).toNat / 2 ^ 62 = 1 ∧ ¬((w0 id).rp 3).toNat / 2 ^ 24 % 2 = 0)
    ∧ (((w0 id).rp 2).toNat / 2 ^ 62 = 1 ∧ ((w0 id).rp 2).toNat / 2 ^ 24 % 2 = 0) := by decide
theorem test_witness_FieldResults : s0.ready .hNop [gid 31, gid 3, gid 4] [gid 31] = true := by decide
theorem test_witness_BitBufferResults : let s := at0 (regs [(3, 32), (4, 64), (5, 61)])
    s.ready (.bget 1 3) [gid 3, bbId] [gid 0] = true ∧ (∀ i, i < 4 → s.localReads ((0 + i) % 2 ^ 17)) ∧ (0 : Nat) ≤ s.cur.bbFill
      ∧ (s.cur.bbFill < 64 ∧ (64 - s.cur.bbFill) % 8 = 0) ∧ ((61 - s.cur.bbFill) % 8 ≠ 0 ∧ s.localReads 7) := by
  simp only [State.localReads]; decide +kernel
theorem test_witness_HeaderResults : let s := (at0 (regs [(3, 0x1FFF8), (4, 7), (5, 8)])).putBytes 0x1FFF8 [8, 8, 8, 8, 8, 8, 8, 8]
    s.ready (.hlay 0 3 4) [gid 3, gid 4] [gid 0] = true ∧ (s.rg 3).toNat ≤ 0x1FFF8 ∧ (s.rg 3).toNat % 8 = 0
      ∧ (∀ j, j < 8 → s.localReads (0x1FFF8 + j)) ∧ ((s.rg 4).toNat < 8 ∧ ∀ j, j ≤ 7 → (s.localByte (0x1FFF8 + j)).toNat = 8)
      ∧ ¬(s.rg 5).toNat < 8 ∧ (30 : BitVec 5).toNat % 2 = 0 ∧ s.ready (.hpack 30 0 3) [gid 30, gid 30 + 1, gid 0, gid 3] [gid 30, gid 30 + 1] = true := by
  simp only [State.localReads]; decide +kernel
theorem test_witness_LocalLoads : let s := w0 (regs [(3, 0x20000), (4, 2), (5, 0x7F), (6, 0x1FFFC)])
    s.ready (.ldw 0 3 0) [gid 3] [gid 0] = true ∧ s.popsOf 0 0 = [] ∧ ¬((s.rg 3).toNat + 1 ≤ 0x20000) ∧ (s.rg 4).toNat % 4 ≠ 0
      ∧ s.seenState (s.decsOf s.core s.cur) (localKey s.core 0x7F / 64) = .dropped
      ∧ ((s.rg 6).toNat + 4 ≤ 0x20000 ∧ (s.rg 6).toNat % 4 = 0 ∧ ∀ j, j < 4 → s.localReads (0x1FFFC + j)) := by
  simp only [State.localReads]; decide +kernel
theorem test_witness_LocalLoads_ue : let s := hurt (w0 (regs [(6, 0x1FFFC)])) [0x1FFF8]
    s.ready (.ldw 0 6 0) [gid 6] [gid 0] = true ∧ s.popsOf 0 0 = [] ∧ (s.rg 6).toNat + 4 ≤ 0x20000 ∧ (s.rg 6).toNat % 4 = 0
      ∧ s.seenState (s.decsOf s.core s.cur) (localKey s.core 0x1FFFC / 64) ≠ .dropped
      ∧ s.badGranule (localKey s.core 0x1FFFC) 4 = some 0x3FFF := by decide +kernel
theorem test_witness_LocalStores : let s := w0 (regs [(3, 0x1FFFD), (6, 0x1FFFC)])
    let t := w1 (regs [(6, 0x1FFFC)])
    s.core < 16384 ∧ s.ready (.stw 5 3 0) [gid 5, gid 3] [] = true ∧ s.popsOf 0 0 = [] ∧ ¬((s.rg 3).toNat + 4 ≤ 0x20000) ∧ (s.rg 3).toNat % 2 ≠ 0
      ∧ (t.inTask = true ∧ t.popsOf 0 1 = [] ∧ t.seenState (t.decsOf t.core t.cur) (localKey 0 0x40 / 64) = .dropped)
      ∧ (s.inTask = false ∧ s.lineState (localKey 0 0x40 / 64) = .dropped)
      ∧ t.seenState (t.decsOf t.core t.cur) (localKey 0 0x3F / 64) = .counted 1 ∧ s.lineState (localKey 0 0x3F / 64) = .counted 1
      ∧ (s.lineState (localKey 0 0x1FFFC / 64) = .plain ∧ s.badPartial (localKey 0 0x1FFFC) 4 = none)
      ∧ (t.seenState (t.decsOf t.core t.cur) (localKey 0 0x1FFFC / 64) = .plain ∧ t.ready (.stw 5 3 0) [gid 5, gid 6] [] = true ∧ t.bufferRoom 4) := by
  simp only [State.bufferRoom]; decide +kernel

theorem test_witness_LocalStores_faults : let s := hurt (w0 (regs [(6, 0x1FFFC)])) [0x1FFF8]
    let t := w1 (stuffed ∘ regs [(6, 0x1FFFC)])
    (countsOk s && countsOk t && countsOk (w0 id) && countsOk (w1 id)) = true
      ∧ (s.lineState (localKey 0 0x1FFFC / 64) = .plain ∧ s.badPartial (localKey 0 0x1FFFC) 4 = some 0x3FFF ∧ s.inTask = false)
      ∧ (t.inTask = true ∧ t.seenState (t.decsOf t.core t.cur) (localKey 0 0x1FFFC / 64) = .plain ∧ ¬t.bufferRoom 4
        ∧ t.ready (.stw 5 6 0) [gid 5, gid 6] [] = true ∧ t.popsOf 0 1 = []) := by
  simp only [State.bufferRoom]; decide +kernel
/-- The memory parts of an access. -/
def parts (s : State) (p : BitVec 3) (z : Nat) (acc : Acc) (form : Form) : Option (List Part) :=
  match s.resolve s.core (s.rp p) z (min z 16) acc form with
  | .ok (.mem ps, t) => if t = s then some ps else none
  | _ => none
/-- The failure of an access. -/
def fails (s : State) (p : BitVec 3) (z : Nat) (acc : Acc) (form : Form) (f : Fail) : Bool :=
  match s.resolve s.core (s.rp p) z (min z 16) acc form with
  | .error e => decide (e = f)
  | _ => false
/-- A check of the parts fails with a cause. -/
def checkFails (s : State) (acc : Acc) (ps : List Part) (c : Cause) : Bool :=
  match s.checkParts acc (s.decsOf s.core s.cur) ps with
  | .error e => decide (e = .cause c)
  | .ok _ => false
theorem test_witness_PointerLoads : let s := w0 (regs [(72, 0)])
    s.ready (.ldwPtr 0 0 .order 3 true true) [pid 0, wid 0, eid 7] [gid 0, pid 0] = true ∧ s.popsOf 0 0 = [] ∧ fails s 1 4 .read .word (.ptr .ptr) = true
      ∧ fails s 5 2 .consume .any (.cause .align) = true ∧ fails s 6 4 .read .word (.cause .range) = true
      ∧ parts s 5 1 .read .any = some [{ key := 0x41, len := 1 }] ∧ checkFails s .read [{ key := 0x41, len := 1 }] .overread = true
      ∧ parts s 0 64 .consume .group = some [{ key := 0x1FFC0, len := 64 }]
      ∧ isOk (s.checkParts .consume (s.decsOf s.core s.cur) [{ key := 0x1FFC0, len := 64 }]) = true
      ∧ isOk (s.consume (s.rp 0) [{ key := 0x1FFC0, len := 64 }]) = true := by decide +kernel
theorem test_witness_PointerStores : let s := w0 id
    s.inTask = false ∧ s.accessPending s.core s.ctx (s.memScope 2) = false ∧ s.ready (.vstg 12 0 true) (vgroup 12 ++ [pid 0, wid 0]) [pid 0] = true
      ∧ s.popsOf 0 0 = [] ∧ fails s 4 1 .write .any (.ptr .range) = true ∧ fails s 6 16 .write .any (.cause .range) = true
      ∧ parts s 5 1 .write .any = some [{ key := 0x41, len := 1 }] ∧ checkFails s .write [{ key := 0x41, len := 1 }] .overread = true
      ∧ parts s 0 64 .write .group = some [{ key := 0x1FFC0, len := 64 }]
      ∧ isOk (s.checkParts .write [] [{ key := 0x1FFC0, len := 64 }]) = true := by decide +kernel
theorem test_witness_groups : (w0 id).popsHold 0 0 = false ∧ (w1 id).popsHold 0 1 = false := by decide +kernel
/-- A place that is a FIFO bank. -/
def fifoAt (s : State) (p : BitVec 3) (acc : Acc) (b k : Nat) : Bool :=
  match s.resolve s.core (s.rp p) 64 16 acc .group with
  | .ok (.fifo b' k', t) => decide (b' = b ∧ k' = k ∧ t = s)
  | _ => false
theorem test_witness_FifoAccesses : let s := (w0 id).setFifo 0 3 { entries := [5] }
    let f := (w0 id).setFifo 0 3 { entries := List.replicate 2048 0 }
    let p : State := { (w0 id).setFifo 0 3 { pushes := [{ src := .ctx 0 0, data := 0 }] } with seq := 1 }
    s.inTask = false ∧ fifoAt s 7 .read 0 3 = true ∧ fifoAt s 7 .write 0 3 = true ∧ (¬∃ q ∈ (s.fifo 0 3).pushes, q.src = .ctx s.core s.ctx ∧ q.seq < s.seq)
      ∧ s.ready (.vldg 0 7 false true) [pid 7, wid 7] (vgroup 0 ++ [pid 7]) = true ∧ ((s.fifo 0 3).entries = [5] ∧ (s.fifo 0 3).pops = [] ∧ 0 ∉ (s.fifo 0 3).bad)
      ∧ (fifoAt (w0 id) 7 .read 0 3 = true ∧ ((w0 id).fifo 0 3).entries = [])
      ∧ ((s.fifo 0 3).entries.length < 2048 ∧ (s.fifo 0 3).pushes = []) ∧ (fifoAt f 7 .write 0 3 = true ∧ ¬(f.fifo 0 3).entries.length < 2048)
      ∧ (∃ q ∈ (p.fifo 0 3).pushes, q.src = .ctx p.core p.ctx ∧ q.seq < p.seq) := by decide +kernel
theorem test_witness_FifoAccesses_ue : let s := (w0 id).setFifo 0 3 { entries := [5], bad := [0] }
    s.popsHold 0 0 (some (0, 3)) = false ∧ (s.fifo 0 3).entries ≠ [] ∧ (s.fifo 0 3).pops = [] ∧ (s.fifo 0 3).pushes = [] ∧ 0 ∈ (s.fifo 0 3).bad
      ∧ fifoAt s 7 .read 0 3 = true ∧ s.ready (.vldg 0 7 false true) [pid 7, wid 7] (vgroup 0 ++ [pid 7]) = true ∧ s.popsOf 0 0 = [] := by
  decide +kernel
theorem test_witness_BlockPasses : let s := at0 fun x => { regs [(3, 0x1FFE0), (4, 0x100), (5, 32), (6, 33)] x with prog := 16 }
    s.inTask = false ∧ s.cur.held = [] ∧ s.ready (.lcopy 3 4 5) [gid 3, gid 4, gid 5] [] = true ∧ (s.rg 7).toNat ≤ s.cur.prog.toNat
      ∧ (s.cur.prog.toNat < (s.rg 6).toNat ∧ 0x20000 < (s.rg 3).toNat + (s.rg 6).toNat ∧ s.popsOf 0 0 = [])
      ∧ (s.cur.prog.toNat < (s.rg 5).toNat ∧ (s.rg 3).toNat + (s.rg 5).toNat ≤ 0x20000 ∧ (s.rg 4).toNat + (s.rg 5).toNat ≤ 0x20000)
      ∧ (0x20000 < (s.rg 3).toNat + (s.rg 6).toNat ∧ (s.rg 4).toNat + (s.rg 6).toNat ≤ 0x20000)
      ∧ s.rangeStop s.core 0x100 16 .read [] = none ∧ isOk (s.doLmem s.core 0x1FFF0 [1]) = true
      ∧ s.cur.prog.toNat + min 16 (32 - 16) = 32 ∧ s.cur.prog.toNat + min 16 (33 - 16) < 33 := by decide +kernel
/-- A pass of 16 bytes from 0x1F8 to 0x38, over the end of line 0 of the destination. -/
theorem test_witness_BlockPasses_traps : let f := regs [(3, 0x38), (4, 0x1F8), (5, 16)]
    let s := at0 f
    let t := at1 f
    let met (s : State) (off : Nat) : LineState := if s.inTask then s.seenState (s.decsOf s.core s.cur) (localKey s.core off / 64) else s.lineState (localKey s.core off / 64)
    let cnt (s : State) := s.setLine 1 (.counted 1)
    (countsOk (cnt s) && countsOk (cnt t) && t.ready (.lcopy 3 4 5) [gid 3, gid 4, gid 5] [] && t.inTask) = true ∧ t.popsOf 0 1 = []
      ∧ (met (s.setLine 1 .dropped) 0x40 = .dropped ∧ met (cnt s) 0x40 = .counted 1 ∧ ∀ j, j < 8 → met (cnt s) (0x38 + j) = .plain)
      ∧ (met (t.setLine 1 .dropped) 0x40 = .dropped ∧ met (cnt t) 0x40 = .counted 1 ∧ ∀ j, j < 8 → met (cnt t) (0x38 + j) = .plain)
      ∧ (met (t.setLine 8 .dropped) 0x200 = .dropped ∧ ∀ j, j < 8 → met (t.setLine 8 .dropped) (0x1F8 + j) ≠ .dropped)
      ∧ ((∀ j, j < 16 → met t (0x38 + j) = .plain) ∧ t.bufferRoom 16 ∧ ¬(at1 (stuffed ∘ f)).bufferRoom 16)
      ∧ (let u := hurt (at0 (regs [(3, 0x44), (4, 0x200), (5, 16)])) [0x48, 0x50, 0x200]
        (u.badPartial (localKey 0 0x44) 16 = some 10 ∧ 0x44 % 64 + 16 ≤ 64) ∧ (u.badGranule (localKey 0 0x200) 16 = some 0x40 ∧ 0x200 % 64 + 16 ≤ 64)) := by
  simp only [State.bufferRoom]; decide +kernel
theorem test_witness_WritesAndDecrements : [({ key := 0, len := 2 } : Part), { key := 2, len := 1 }].Pairwise
      (fun p q => p.key + p.len ≤ q.key ∨ q.key + q.len ≤ p.key) ∧ [1, 2, 3].length = ([({ key := 0, len := 2 } : Part), { key := 2, len := 1 }].map Part.len).sum
    ∧ (w0 id).lineState 1 = .dropped ∧ (w0 id).lineState 0 = .counted 1 ∧ (((w0 id).setLine 2 (.counted 2)).lineState 2 = .counted 2)
    ∧ (w0 id).lineState 3 = .plain := by decide +kernel
/-- Pointer words that R36 refuses, and those of a core or basin outside the launch set, and past a core's memory. -/
theorem test_witness_WritesAndDecrements_pointers : let L := (a0 id).recOf 0
    let kind (P : Nat) := P / 2 ^ 62
    (kind 0xC000000000000000 = 3 ∧ (kind 0x20000 = 0 ∧ 0x20000 / 2 ^ 17 ≠ 0) ∧ (kind (2 ^ 62 + 2 ^ 36) = 1 ∧ 2 ^ 36 / 2 ^ 36 % 2 ^ 26 ≠ 0)
        ∧ (kind (2 ^ 62 + 11 * 2 ^ 21) = 1 ∧ 11 * 2 ^ 21 / 2 ^ 21 % 16 = 11) ∧ (kind (2 ^ 63 + 2 ^ 48) = 2 ∧ 2 ^ 48 / 2 ^ 48 % 2 ^ 14 ≠ 0))
      ∧ (kind (2 ^ 62 + 2 ^ 25) = 1 ∧ ¬(L.c0 ≤ 1 % 32 ∧ 1 % 32 ≤ L.c1)) ∧ (kind (2 ^ 62 + 2 ^ 17) = 1 ∧ 2 ^ 17 ≤ (2 ^ 62 + 2 ^ 17) % 2 ^ 21) := by decide +kernel
/-- The places that pointers name: the last bytes of local memory, over two lines, a SCRATCH bank, a FIFO bank, a bank that is cache,
the KICK register and one after it, far memory in one part, and far memory that is not mapped. -/
theorem test_witness_WritesAndDecrements_places : let s := w0 id
    let near (unit off : Nat) : W64 := BitVec.ofNat 64 (2 ^ 62 + unit * 2 ^ 21 + off)
    let place (P : W64) (z align : Nat) (form : Form) (ps : List (Nat × Nat)) : Bool := match s.resolve 0 P z align .read form with
      | .ok (.mem qs, u) => decide (qs.map (fun q => (q.key, q.len)) = ps ∧ u = s)
      | _ => false
    let fails (P : W64) (z align : Nat) (form : Form) (c : Cause) : Bool := match s.resolve 0 P z align .read form with
      | .error (.cause d) => decide (d = c)
      | _ => false
    (place 0x1FFFC 4 4 .word [(0x1FFFC, 4)] && place 0x3E 4 1 .any [(0x3E, 2), (0x40, 2)] && place (near 1 0x1FFFF) 1 1 .any [(0x3FFFF, 1)]
        && fails 0x1FFFD 4 4 .word .range && fails 0x3E 4 4 .word .align && fails (near 1 0x1FFFE) 4 1 .any .range
        && place (near 8 (2 * 131072 + 0x1FFC0)) 64 16 .group [(2 ^ 32 + 2 * 131072 + 0x1FFC0, 64)] && fails (near 8 (2 * 131072 + 0x1FFFF)) 2 1 .any .range
        && fails (near 8 0) 1 1 .any .range && fails (near 8 (12 * 131072)) 1 1 .any .range && fails (near 8 (3 * 131072)) 4 4 .word .range
        && fails (near 8 (3 * 131072 + 64)) 64 16 .group .range && fails (near 9 12) 4 4 .word .range && fails (near 10 4) 4 4 .word .range
        && fails (near 9 0) 4 4 .any .range) = true
      ∧ ([(9, 0), (9, 8), (10, 0)].all fun e : Nat × Nat => match s.resolve 0 (near e.1 e.2) 4 4 .write .word with
        | .ok (.engine b u off, v) => decide (b = 0 ∧ u = e.1 ∧ off = e.2 ∧ v = s)
        | _ => false) = true := by decide +kernel
theorem test_witness_CountedStore : let s := (w0 (regs [(3, 255), (4, 256), (73, 0)])).setMe { (w0 (regs [(3, 255), (4, 256)])).me with
        regions := [(7, some { base := 0, len := 0x20000, ranges := [(0, 1), (0x7FF, 0x800)], faultPolicy := false })] }
    s.core < 16384 ∧ s.inTask = false ∧ s.accessPending s.core s.ctx .sys = false ∧ s.ready (.stc .sys 12 0 3 true) (vgroup 12 ++ [pid 0, wid 0] ++ [gid 3]) [pid 0] = true
      ∧ s.popsOf 0 0 = [] ∧ ((s.rp 5).toNat < 0x20000 - 63 ∧ (s.rp 5).toNat % 64 ≠ 0) ∧ ((s.rp 0).toNat < 0x20000 - 63 ∧ (s.rp 0).toNat % 64 = 0)
      ∧ s.inRegion (localKey 0 0x40 / 64) = false ∧ s.inRegion (localKey 0 0x1FFC0 / 64) = true ∧ ((s.rg 0).toNat = 0 ∧ 255 < (s.rg 4).toNat)
      ∧ (s.inRegion 0 = true ∧ s.lineState 0 = .counted 1) ∧ (1 ≤ (s.rg 3).toNat ∧ (s.rg 3).toNat ≤ 255 ∧ s.lineState 0x7FF = .plain) := by
  decide +kernel
/-- The place of a decrement or a peek. -/
def byteAtPtr (s : State) (p : BitVec 3) (acc : Acc) : Option (List Part) :=
  match s.resolve s.core (s.rp p) 1 1 acc with
  | .ok (.mem ps, t) => if t = s then some ps else none
  | _ => none
theorem test_witness_CountedStore_counts : countsOk (w0 id) = true := by decide
theorem test_witness_DecrementAndPeek : let s := w0 id
    let t := w1 id
    byteAtPtr s 6 .dec = some [{ key := 0x1FFFF, len := 1 }] ∧ s.inTask = false ∧ s.accessPending s.core s.ctx .core = false
      ∧ isOk (s.checkParts .dec [] [{ key := 0x1FFFF, len := 1 }]) = true ∧ s.ready (.rcdec false .core 6 true) [pid 6, wid 6] [pid 6] = true
      ∧ byteAtPtr t 6 .dec = some [{ key := 0x1FFFF, len := 1 }] ∧ t.inTask = true ∧ t.ready (.rcdec false .core 6 true) [pid 6] [] = true
      ∧ isOk (t.checkParts .dec (t.decsOf t.core t.cur) [{ key := 0x1FFFF, len := 1 }]) = true ∧ t.bufferRoom 0
      ∧ byteAtPtr s 5 .peek = some [{ key := 0x41, len := 1 }] ∧ s.ready (.rcpeek 0 5) [pid 5] [gid 0] = true := by
  simp only [State.bufferRoom]; decide +kernel
theorem test_witness_RegionResults : let s := at0 (regs [(64, 0x1FFC0), (65, 1), (3, 64), (4, 63), (5, 128)])
    let r : Region := { base := 0, len := 64, ranges := [(0, 1)], faultPolicy := true }
    let t := (s.setMe { s.me with regions := [(7, some r)] }).setLine 0 (.counted 3)
    s.ctx = 0 ∧ s.accessPending s.core s.ctx .pkg = false ∧ s.ready (.rcopen 5 0 3 .fault) [pid 0, gid 3] [] = true ∧ s.popsOf 0 0 = [] ∧ (s.rp 1).toNat % 64 ≠ 0
      ∧ ((s.rg 0).toNat = 0 ∧ (s.rg 4).toNat % 64 ≠ 0) ∧ (0 < (s.rg 5).toNat ∧ (s.rg 5).toNat % 64 = 0 ∧ 0x20000 < (s.rp 0).toNat + (s.rg 5).toNat)
      ∧ (mget none t.me.regions 7).isSome = true ∧ ((s.rp 0).toNat + (s.rg 3).toNat ≤ 0x20000 ∧ mget none s.me.regions 7 = none ∧ s.me.regions = [])
      ∧ (mget none t.me.regions 7 = some r ∧ (t.closeRegion t.core 7 r).1 = 1 ∧ t.ready (.rcclose 31 7) [] [gid 31] = true ∧ t.popsOf t.core t.ctx = [])
      ∧ (s.closeRegion s.core 7 r).1 = 0 := by decide +kernel
/-- Targets of `rcopen`: a core of another basin, a SCRATCH bank up to its end and past it, a bank that is cache, and a FIFO bank; and
a range that meets the region of slot 6. -/
theorem test_witness_RegionResults_targets : let s := w0 (regs [(3, 64), (4, 131072), (5, 131072 - 64), (72, 0)])
    let meets (a b : Nat × Nat) : Bool := decide (a.1 < b.2 ∧ b.1 < a.2)
    let own (P : W64) : Bool := decide (ptrKind P = 0 ∨ (ptrKind P = 1 ∧ ptrUnit P < 8 ∧ ptrBasin P * 8 + ptrUnit P = 0))
    let scratch (P : W64) : Bool := decide (ptrKind P = 1 ∧ ptrUnit P = 8 ∧ ptrBasin P = basinOf 0 ∧ ptrOff P / 131072 < 12) && s.mode 0 (ptrOff P / 131072) == 1
    let inside (P : W64) (len : Nat) : Bool := (List.range 14).all fun k =>
      !decide (ptrOff P / 131072 ≤ k ∧ k * 131072 < ptrOff P + len) || (decide (k < 12) && s.mode 0 k == 1)
    (ptrCheck (s.recOf 0) (s.rp 1) = some .ptr ∧ s.ready (.rcopen 5 1 3 .fault) [pid 1, gid 3] [] = true ∧ s.popsOf 0 0 = [])
      ∧ (ptrCheck (s.recOf 0) (s.rp 2) = none ∧ ptrKind (s.rp 2) = 1 ∧ own (s.rp 2) = false ∧ scratch (s.rp 2) = false)
      ∧ own (nearPtr 0 0 0x40) = true ∧ (scratch (s.rp 3) = true ∧ inside (s.rp 3) (s.rg 5).toNat = true ∧ inside (s.rp 3) (s.rg 4).toNat = false)
      ∧ (scratch (s.rp 7) = false ∧ own (s.rp 7) = false)
      ∧ meets (0x7FF, 0x800) (0x7FE, 0x800) = true ∧ meets (0x7FF, 0x800) (0x7FE, 0x7FF) = false := by decide +kernel
/-- A region over a counted, a dropped and a plain line: one line counted, two that close. -/
theorem test_witness_RegionResults_close : let s := ((at0 id).setLine 0 (.counted 255)).setLine 1 .dropped
    let r : Region := { base := 0, len := 192, ranges := [(0, 3)], faultPolicy := true }
    let t := s.setMe { s.me with regions := [(7, some r)] }
    let cnt (lk : Nat) : Bool := match t.lineState lk with
      | .counted _ => true
      | _ => false
    (mget none t.me.regions 7 = some r ∧ t.ctx = 0 ∧ t.accessPending t.core t.ctx .pkg = false ∧ ([0] : List Nat).Nodup)
      ∧ ((List.range 4).filter fun lk => decide (lk < 3) && cnt lk) = [0] ∧ t.lineState 0 = .counted 255 ∧ t.lineState 1 = .dropped ∧ t.lineState 2 = .plain := by
  decide +kernel
theorem test_witness_TransfersStart : let f := regs [(64, 0x400), (128, 64), (129, 16), (130, 0x100), (132, 0x80000100), (133, 255), (134, 0x1FFFC)]
    let s := a0 f
    let t := a1 f
    ptrCheck (s.recOf s.core) (s.rp 0) = none ∧ (s.re 0).toNat ≤ 4096 ∧ (s.re 1).toNat ≤ 4096 ∧ (s.rg 3).toNat + 64 * 16 ≤ 131072
      ∧ (s.re 2).toNat % 4 = 0 ∧ ((s.re 6).toNat ≤ 0x1FFFC ∧ (s.re 6).toNat % 4 = 0) ∧ isOk (fifoWindowCheck s (s.rp 0) 1024) = true
      ∧ (ptrOff (s.rp 0) % 64 = 0 ∧ (s.re 0).toNat % 64 = 0 ∧ (s.re 5).toNat ≤ 255)
      ∧ (¬(ptrKind (s.rp 0) = 1 ∧ 8 ≤ ptrUnit (s.rp 0)) ∧ handlerOk (s.re 4) = true)
      ∧ s.ready .hNop ([pid 0, gid 3] ++ [0, 1, 2, 3, 4, 5, 6].map eid) [gid 0] = true ∧ s.inTask = false
      ∧ (t.inTask = true ∧ t.ready .hNop ([pid 0, gid 3] ++ [0, 1, 2, 3, 4, 5, 6].map eid) [gid 31] = true ∧ t.bufferRoom 0)
      ∧ s.xfersOf s.core s.ctx = [] := by simp only [State.bufferRoom]; decide +kernel
/-- A transfer of core 0 half moved, one whose bytes have all moved with a destination, one with none, and one with a counter. -/
def moving (k : XferKind) (n : Nat) (pos dst : Nat) (ctr : Option Nat) : State :=
  let s := a0 id
  s.setMe { s.me with xfers := [{ id := 0, core := 0, ctx := 0, att := 0, handle := 5, kind := k, ptr := localPtr 0x400, loff := 0x100,
                                  len := n, pos := pos, dst := dst, ctr := ctr }], nextXfer := 1 }
/-- The one transfer of core 0. -/
def xferIs (s : State) (f : Xfer → Bool) : Bool :=
  match s.findXfer 0 0 with
  | some x => x.stop.isNone && x.tag.isNone && x.cnt.isNone && x.hnd.isNone && decide (x.ringOut = 0) && f x
  | none => false
/-- What the next unit of the transfer comes to. -/
def unitIs (s : State) (z : Nat) (f : Except Fail Sent → Bool) : Bool :=
  xferIs s fun x =>
    let p : Span := { ptr := x.ptr, loff := x.loff, len := x.len }
    match State.gather 0 x p x.pos z 6 x.buf s with
    | (buf, u, none) => !s.priorPending 0 x.ctx x.after && !s.xferExpired 0 x && decide (x.pos < x.len)
        && f ((u.setXfer 0 { x with buf := buf }).writeDest 0 { x with buf := buf } p x.pos (buf.take z))
    | _ => false
def sentIs (r : Except Fail Sent) : Bool :=
  match r with
  | .ok (.done ..) => true
  | _ => false
def failedIs (c : Cause) (r : Except Fail Sent) : Bool :=
  match r with
  | .error e => decide (e = .cause c)
  | _ => false
theorem test_witness_TransferProgress : let lk (off : Nat) : Nat := localKey 0 off / 64
    unitIs (moving .get 17 16 9 none) 1 sentIs = true ∧ unitIs (moving .put 17 16 9 none) 1 sentIs = true
      ∧ unitIs ((moving .get 17 16 9 none).setLine (lk 0x100) (.counted 1)) 1 (failedIs .cntwrite) = true
      ∧ (let s := moving .get 17 16 9 none
        s.lineState (lk 0x410) = .plain ∧ s.badGranule 0x410 1 = none ∧ s.lineState (lk 0x110) = .plain ∧ s.badPartial 0x110 1 = none)
      ∧ ((moving .get 17 16 9 none).setLine (lk 0x410) .dropped).lineState (lk 0x410) = .dropped
      ∧ xferIs (moving .get 16 16 9 none) (fun x => decide (x.len ≤ x.pos ∧ x.ctr = none ∧ x.dst ≠ 0)) = true
      ∧ xferIs (moving .get 0 0 0 none) (fun x => decide (x.len ≤ x.pos ∧ x.ctr = none ∧ x.dst = 0)) = true
      ∧ xferIs (moving .get 0 0 0 (some 0)) (fun x => decide (x.len ≤ x.pos ∧ x.ctr = some 0)) = true
      ∧ (let s := moving .get 17 16 9 none
        let t := s.setMe { s.me with xfers := s.me.xfers.map fun x => { x with stop := some (.overread, 16) } }
        (t.findXfer 0 0).any (fun x => decide (x.stop = some (.overread, 16) ∧ x.ringOut = 0 ∧ x.ctr = none ∧ x.dst ≠ 0)) = true
          ∧ Cause.overread ∉ [Cause.none, .cap, .order, .queue]) := by decide +kernel
/-- An element of a transfer of core 0, with its index read or not. -/
def indexed (k : XferKind) (idx : Nat) (cur : Option W32) (z sub : Nat) : State :=
  let s := a0 id
  s.setMe { s.me with xfers := [{ id := 0, core := 0, ctx := 0, att := 0, handle := 5, kind := k, ptr := localPtr 0x400, loff := 0x100, len := 2, esize := z,
                                  idx := idx, stride := 0xFFFFFFFF, pos := 0, sub := sub, curIdx := cur, dst := 9 }], nextXfer := 1 }
theorem test_witness_TransferProgress_index : let lk := localKey 0 0x1FFFC / 64
    let is (s : State) (f : Xfer → Bool) : Bool := xferIs s fun x => x.verdict.isNone && decide (x.curIdx = none ∧ x.idx % 4 = 0 ∧ x.pos < x.len)
      && !s.priorPending 0 x.ctx x.after && f x
    let s := indexed .getx 0x1FFFC none 8 0
    is (indexed .putx 0x20000 none 8 0) (fun x => decide (0x20000 ≤ x.idx)) = true ∧ is s (fun x => decide (x.idx < 0x20000)) = true
      ∧ (s.lineState lk ≠ .dropped ∧ s.badGranule (localKey 0 0x1FFFC) 4 = none) ∧ (s.setLine lk .dropped).lineState lk = .dropped
      ∧ (hurt s [0x1FFF8]).badGranule (localKey 0 0x1FFFC) 4 = some 0x3FFF ∧ countsOk s = true := by decide +kernel
theorem test_witness_TransferProgress_element : let s := indexed .getx 0 (some 0x10) 8 0
    let is (s : State) (f : Xfer → Bool) : Bool := xferIs s fun x => decide (x.sub < x.esize ∧ x.pos < x.len ∧ x.verdict = none) && f x
    let next (s : State) (whole : Bool) : Bool := xferIs s fun x => (ptrAdd x.ptr ((x.curIdx.getD 0).toNat * x.stride.toInt)).any fun Q =>
      let p : Span := { ptr := Q, loff := x.loff + x.pos * x.esize, len := x.esize }
      s.entersFifo 0 p x.sub == whole && match State.gather 0 x p x.sub 8 6 x.buf s with
        | (buf, u, none) => sentIs ((u.setXfer 0 { x with buf := buf }).writeDest 0 { x with buf := buf } p x.sub (buf.take 8))
        | _ => false
    is s (fun x => decide (x.curIdx = some 0x10)) = true ∧ is (indexed .putx 0 (some 0xFFFFFFFF) 4096 4095) (fun x => decide (x.kind = .putx)) = true
      ∧ next s false = true ∧ next (indexed .putx 0 (some 0x10) 8 0) false = true
      ∧ (0x3F0 % 16 = 0x100 % 16 ∧ s.lineState (localKey 0 0x3F0 / 64) = .plain ∧ s.badGranule (localKey 0 0x3F0) 8 = none
        ∧ s.lineState (localKey 0 0x100 / 64) = .plain ∧ s.badPartial (localKey 0 0x100) 8 = none ∧ countsOk s = true)
      ∧ (s.setLine (localKey 0 0x3F0 / 64) .dropped).lineState (localKey 0 0x3F0 / 64) = .dropped := by decide +kernel
/-- An element of `putx` that enters FIFO bank 3, a pointer that no element is reached from, and a transfer whose chunk the host refused. -/
theorem test_witness_TransferProgress_stops : let s := banks (indexed .putx 0 (some 0) 64 0)
    let x := (s.me.xfers.head?).getD { id := 0, core := 0, ctx := 0, att := 0, handle := 0, kind := .get, ptr := 0, loff := 0, len := 0 }
    let Q := nearPtr 0 8 (3 * 131072)
    x.kind = .putx ∧ ptrAdd Q 0 = some Q ∧ ptrKind (0xC000000000000000 : W64) = 3
      ∧ (let m := moving .get 17 16 9 none
        let t := m.setMe { m.me with xfers := m.me.xfers.map fun x => { x with verdict := some .xlate } }
        xferIs t (fun x => decide (x.pos < x.len ∧ x.verdict = some .xlate)) = true ∧ t.priorPending 0 0 0 = false ∧ countsOk t = true)
      ∧ (unitIs (moving .get 32 16 9 none) 16 sentIs && unitIs (moving .put 80 16 9 none) 16 sentIs) = true := by decide +kernel
theorem test_witness_AtomicResults : let s := a0 (regs [(64, 0x1FFFC), (65, 0x1FFF8), (3, 7), (132, 0x80000100)])
    s.core < 16384 ∧ s.inTask = false ∧ s.accessPending s.core s.ctx .sys = false ∧ (s.rp 0).toNat ≤ 0x1FFFC ∧ (s.rp 0).toNat % 4 = 0
      ∧ s.lineState (localKey 0 0x1FFFC / 64) = .plain ∧ s.badGranule (localKey 0 0x1FFFC) 4 = none
      ∧ s.ready (.rmwadd false .acqRel .sys 0 0 3) ([pid 0, gid 3] ++ [eid 4, eid 5]) [gid 0] = true ∧ handlerOk (s.re 4) = true
      ∧ (BitVec.ofNat 32 (s.memNat (localKey 0 0x1FFFC) 4) = 0 ∧ s.rg 3 ≠ 0) := by decide +kernel
/-- The memory parts of an atomic. -/
def atomParts (s : State) (op : AtomOp) (z : Nat) : Option (List Part) :=
  match s.resolveAtomic s.core (s.rp 0) op z with
  | .ok (.mem ps, u) => if u = s then some ps else none
  | _ => none
def atomFails (s : State) (p : BitVec 3) (op : AtomOp) (f : Fail) : Bool :=
  match s.resolveAtomic s.core (s.rp p) op 4 with
  | .error e => decide (e = f)
  | _ => false
theorem test_witness_AtomicForms : let s := w0 (regs [(3, 7), (132, 0x80000100)])
    let t := w1 (regs [(3, 7), (64, 0x1FFC0), (132, 0x80000100)])
    let ps : List Part := [{ key := 0x1FFC0, len := 16 }]
    let qs : List Part := [{ key := 0x1FFC0, len := 4 }]
    (s.inTask = false ∧ isOk s.publish = true ∧ s.accessPending s.core s.ctx .die = false ∧ s.ready (.rmwmax true .acqRel .sys 0 0 3) [pid 0, vid 15] [vid 15] = true
        ∧ atomParts s .max 16 = some ps ∧ isOk (s.checkParts .atomic [] ps) = true)
      ∧ (t.inTask = true ∧ isOk t.publish = true ∧ t.ready (.rmwmax true .acqRel .sys 0 0 3) [pid 0, gid 3] [gid 31] = true ∧ t.accessPending t.core t.ctx .die = false
        ∧ atomParts t .dec 4 = some qs ∧ isOk (t.checkParts .atomic [] qs) = true ∧ handlerOk (t.re 4) = true ∧ (31 : BitVec 5) ≠ 0)
      ∧ (t.checkStates .atomic (t.decsOf t.core t.cur) qs = none ∧ t.bufferRoom 4 ∧ t.ready (.rmwmax true .acqRel .sys 0 0 3) [pid 0, gid 3] [gid 0] = true)
      ∧ t.checkStates .atomic (t.decsOf t.core t.cur) [{ key := 0, len := 4 }] = some .cntwrite
      ∧ atomFails s 1 .add (.ptr .ptr) = true ∧ atomFails s 5 .add (.cause .align) = true
      ∧ checkFails s .atomic [{ key := 0x40, len := 4 }] .overread = true
      ∧ (atomParts s .dec 4 = some qs ∧ handlerOk ((w0 (regs [(132, 1)])).re 4) = false)
      ∧ (let f := farState id
        ptrCheck (f.recOf f.core) (f.rp 0) = none ∧ ¬(ptrKind (f.rp 0) = 0 ∨ (ptrKind (f.rp 0) = 1 ∧ ptrUnit (f.rp 0) < 8))) := by
  simp only [State.bufferRoom]; decide +kernel
theorem test_witness_FenceEffect : let s := (w0 id).setFifo 0 3 { pops := [{ core := 0, ctx := 0, vreg := 0, val := 0 }] }
    let t := w1 id
    ((w0 id).fencePending 0 0 .sys 3 = false ∧ (w0 id).inTask = false ∧ (w0 id).ready .hNop [] [] = true)
      ∧ (t.fencePending 0 1 .core 1 = false ∧ t.inTask = true ∧ t.bufferRoom 0 ∧ t.ready .hNop [] [] = true)
      ∧ (s.fencePending s.core s.ctx .core 1 = true ∧ s.ready .hNop [] [] = true) := by simp only [State.bufferRoom]; decide +kernel
theorem test_witness_BranchResults : let s (pc : Off) : State := at0 fun x => { regs [(3, 5), (4, 0xFFFFFFFF)] x with pc := pc }
    (s 0).ready .hNop [gid 3, gid 4] [] = true ∧ (s 0).popsOf 0 0 = [] ∧ ((s 0).rg 3).toNat < ((s 0).rg 4).toNat
      ∧ ¬((s 0).rg 3).toInt < ((s 0).rg 4).toInt
      ∧ ((0 : Int) ≤ (s 0).cur.pc.toNat + 2 * (0 : BitVec 12).toInt ∧ ((s 0x1FFFE).cur.pc.toNat : Int) + 2 * (0 : BitVec 12).toInt ≤ 0x1FFFE)
      ∧ ¬(0 : Int) ≤ (s 0).cur.pc.toNat + 2 * (0xFFF : BitVec 12).toInt
      ∧ ¬((s 0x1FFFE).cur.pc.toNat : Int) + 2 * ((0 : BitVec 5).toNat + 1) ≤ 0x1FFFE := by decide +kernel
theorem test_witness_JumpsAndCalls : let s (pc : Off) (n : Nat) (top lim : BitVec 15) (g : W32) : State :=
      (at0 fun x => { regs [(3, g.zeroExtend 128)] x with pc := pc, links := List.replicate n 2, spillTop := top, linkLimit := lim }).setLine 0 .dropped
    let t := (s 0 8 31 32 0).setLine 1 (.counted 1)
    (s 0 7 0 0 0x1FFFE).ready .hNop [gid 3, linkId] [] = true ∧ (s 0 7 0 0 0).popsOf 0 0 = [] ∧ (s 0 7 0 0 0).cur.links.length < 8
      ∧ (s 0 8 0 0 0).cur.links = 2 :: List.replicate 7 2
      ∧ (s 0 8 16 16 0).cur.linkLimit.toNat ≤ (s 0 8 16 16 0).cur.spillTop.toNat
      ∧ ((s 0 8 15 16 0).cur.spillTop.toNat < (s 0 8 15 16 0).cur.linkLimit.toNat ∧ (s 0 8 15 16 0).lineState (localKey 0 60 / 64) = .dropped)
      ∧ (t.cur.spillTop.toNat < t.cur.linkLimit.toNat ∧ t.lineState (localKey 0 124 / 64) = .counted 1)
      ∧ ((s 0 8 32766 32767 0).lineState (localKey 0 0x1FFF8 / 64) = .plain ∧ (s 0 8 32766 32767 0).badGranule (localKey 0 0x1FFF8) 4 = none)
      ∧ ¬(0 : Int) ≤ 0 + 2 * (0x1FFFFFF : BitVec 25).toInt ∧ ¬(0x1FFFE : Int) + 2 * (1 : BitVec 10).toInt ≤ 0x1FFFE
      ∧ ((s 0 7 0 0 0x1FFFE).rg 3 + BitVec.ofInt 32 (0 : BitVec 12).toInt = 0x1FFFE ∧ (s 0 7 0 0 0x20000).rg 3 + BitVec.ofInt 32 (0xFFF : BitVec 12).toInt = 0x1FFFF
        ∧ ¬((s 0 7 0 0 0x20000).rg 3).toNat ≤ 0x1FFFE ∧ (s 0 7 0 0 1).rg 3 = 1) := by decide +kernel
theorem test_witness_JumpsAndCalls_ue : let s := hurt (at0 fun x => { x with links := List.replicate 8 2, spillTop := 32766, linkLimit := 32767 }) [0x1FFF8]
    s.lineState (localKey 0 0x1FFF8 / 64) = .plain ∧ s.badPartial (localKey 0 0x1FFF8) 4 = some 0x3FFF ∧ countsOk s = true ∧ s.popsHold 0 0 = false
      ∧ s.popsOf 0 0 = [] ∧ s.ready (.call 8) [linkId] [] = true ∧ s.cur.links = 2 :: List.replicate 7 2 := by decide +kernel
theorem test_witness_Returns : let s (ls : List (BitVec 18)) (base top : BitVec 15) : State :=
      (at0 fun x => { x with links := ls, spillBase := base, spillTop := top }).setLine 1 .dropped
    let t := (s [] 0 1).putBytes 0 [0xFE, 0xFF, 1, 0]
    let u := (s [] 0 1).putBytes 0 [0xFF, 0xFF, 1, 0]
    (s [4, 0x1FFFE] 0 0).ready .hNop [linkId] [] = true ∧ (s [4] 0 0).popsOf 0 0 = []
      ∧ (s [4, 0x1FFFE] 0 0).cur.links = [4] ++ [0x1FFFE] ∧ (s [4, 0x20000] 0 0).cur.links = [4] ++ [0x20000]
      ∧ ((s [] 1 1).cur.links = [] ∧ (s [] 1 1).cur.spillTop.toNat * 4 ≤ (s [] 1 1).cur.spillBase.toNat * 4)
      ∧ ((s [] 16 17).cur.spillBase.toNat * 4 < (s [] 16 17).cur.spillTop.toNat * 4
        ∧ (s [] 16 17).seenState ((s [] 16 17).decsOf 0 (s [] 16 17).cur) (localKey 0 64 / 64) = .dropped)
      ∧ (∀ j, j < 4 → t.localReads (0 + j)) ∧ t.localNat 0 4 = 0x1FFFE ∧ (∀ j, j < 4 → u.localReads (0 + j)) ∧ u.localNat 0 4 = 0x1FFFF := by
  simp only [State.localReads]; decide +kernel
theorem test_witness_RepeatResults : let s (pc : Off) : State :=
      ((at0 fun x => { regs [(3, 1)] x with pc := pc }).putBytes 0x1FFFC [0, 0, 1]).refetch 0 0
    let d := (at0 id).setLine (localKey 0 0x104 / 64) .dropped
    (s 0).ready .hNop [gid 3] [] = true ∧ (s 0).popsOf 0 0 = [] ∧ 0x1FFFE < (s 0x1FFFE).cur.pc.toNat + 4 ∧ ((s 0x1FFFA).cur.pc.toNat + 4 ≤ 0x1FFFE ∧ (s 0).rg 3 ≠ 0)
      ∧ ((s 0).rg 4 = 0 ∧ (s 0).lineState (localKey 0 0x1FFFE / 64) ≠ .dropped ∧ (s 0).badGranule (localKey 0 0x1FFFE) 2 = none)
      ∧ ((d.rg 4 = 0 ∧ d.cur.pc.toNat + 4 = 0x104) ∧ d.lineState (localKey 0 0x104 / 64) = .dropped)
      ∧ (((s 0).fetchByte 0 0 0x1FFFC).toNat % 2 = 0 ∧ 0x1FFFC + 2 < 0x20000) ∧ ((s 0).fetchByte 0 0 0x1FFFE).toNat % 2 = 1
      ∧ ((at0 id).fetchByte 0 0 0x1FFFE).toNat % 2 = 0 ∧ 0x1FFFE + 2 = 0x20000 := by decide +kernel
theorem test_witness_VectorIntegerResults : (at0 id).ready .hNop [vid 15, vid 0, vid 15] [vid 15] = true := by decide
theorem test_witness_VectorMoveResults : (at0 id).ready .hNop [vid 15, gid 0] [vid 15] = true ∧ (at0 id).ready .hNop [vid 0, vid 1] [vid 14, vid 14 + 1] = true
    ∧ (at0 id).ready .hNop [vid 3] [gid 0] = true ∧ (15 : BitVec 5).toNat < 128 / laneBits .b ∧ (3 : BitVec 5).toNat < 128 / laneBits .w := by decide
theorem test_witness_VectorFloatResults : (at0 id).ready .hNop [vid 15, vid 0, vid 15] [vid 15] = true := by decide
theorem test_witness_ConversionResults : (at0 id).ready .hNop [vid 12, vid 12 + 1, vid 12 + 2, vid 12 + 3, vid 8] [vid 0] = true
    ∧ (at0 id).ready .hNop [vid 3, vid 4] [vid 12, vid 12 + 1, vid 12 + 2, vid 12 + 3] = true ∧ (at0 id).ready .hNop [vid 3, gid 31] [vid 15] = true := by decide
theorem test_witness_MatrixIssue : let f := regs [(64, 0x400), (65, 0x800), (128, 64), (129, 0x1FFFF), (130, 0xFFFF)]
    let s := a0 f
    let t := a1 f
    ptrCheck (s.recOf s.core) (s.rp 0) = none ∧ ptrCheck (s.recOf s.core) (s.rp 1) = none ∧ mwldE0 .t5 (s.re 3) = true ∧ mwldE0 .p24 (s.re 3) = true
      ∧ (s.inTask = false ∧ s.me.mat.full (.mstat 0) = false) ∧ (t.inTask = true ∧ t.bufferRoom 0)
      ∧ s.ready .hNop [pid 0, pid 1, eid 0] [gid 31] = true ∧ t.ready .hNop [pid 0, pid 1, eid 0] [gid 0] = true
      ∧ (ptrKind (s.rp 0) ≤ 1 ∧ mrunE0 true (s.re 0) = true ∧ (s.re 1).toNat < 2 ^ 17 ∧ (s.re 2).toNat < 2 ^ 16)
      ∧ s.ready .hNop (mrunSrcs s true 0) [gid 3] = true ∧ mdrainE0 (s.re 0) = true ∧ s.ready .hNop ([pid 0, wid 0, eid 0] ++ [eid 1]) [gid 3] = true
      ∧ s.ctx = 0 ∧ s.ready .hNop [pid 0] [gid 0] = true := by simp only [State.bufferRoom]; decide +kernel
/-- The word that a `mcmd` carries: `mcmd` of an `mstat`. -/
def carried : W32 := wordOf (.mstat 5 1)
theorem test_witness_MatrixControl : let f := regs [(3, 2), (4, 3), (66, (nearPtr 0 1 0).zeroExtend 128), (131, carried.zeroExtend 128)]
    let s := a0 f
    let t := a1 f
    let u := s.setMat 0 { s.me.mat with fmt := some (2, true) }
    s.ctx = 0 ∧ (s.rg 3).toNat ≤ 2 ∧ 2 < (s.rg 4).toNat ∧ s.ready .hNop [gid 3] [] = true ∧ s.popsOf 0 0 = [] ∧ s.me.mat.fmt = none
      ∧ (u.ctx = 0 ∧ u.me.mat.fmt = some (2, true) ∧ u.ready .hNop [gid 3] [] = true)
      ∧ (ptrCheck (s.recOf s.core) (s.rp 2) = none ∧ ptrKind (s.rp 2) = 1 ∧ ptrUnit (s.rp 2) < 8 ∧ s.cur.regState (eid 3) = .full)
      ∧ ((carriedForm s (s.re 3)).any fun g => isOk (g.capture s (s.re 3) 9) && s.ready .hNop ([pid 2, gid 3, eid 3] ++ g.srcs) [gid 9]) = true
      ∧ s.inTask = false ∧ (t.inTask = true ∧ t.bufferRoom 0
        ∧ ((carriedForm t (t.re 3)).any fun g => isOk (g.capture t (t.re 3) 0) && t.ready .hNop ([pid 2, gid 3, eid 3] ++ g.srcs) [gid 0]) = true) := by
  simp only [State.bufferRoom]; decide +kernel
/-- The unit of core 0 with a command of e0 = 1 at its head, and slot 0 valid. -/
def unit (op : MatOp) : State :=
  let s := a0 id
  s.setMat 0 { s.me.mat with queue := [{ op := op, word := 0, e0 := 1, pa := localPtr 0x400, pb := localPtr 0x800 }], slot0 := { state := .valid } }
theorem test_witness_MatrixSteps :
    let heads (op : MatOp) : Bool := ((unit op).nextMat 0).any fun e => decide (e.1 = 0 ∧ e.2.op = op ∧ e.2.bad = false ∧ e.2.verdict = none)
    let c : MatCmd := { op := .macz 0, word := 0, e0 := 1, pa := localPtr 0x400, pb := localPtr 0x800 }
    let s := unit (.mrun .rne true false false 0 7)
    let m := s.me.mat
    let l := (unit (.mwld .p24 1)).setMat 0 ((unit (.mwld .p24 1)).me.mat.setSlot 1 { state := .loading })
    (heads (.mwld .p24 1) = true ∧ ((unit (.mwld .p24 1)).me.mat.slot 1).state ≠ .loading)
      ∧ ((l.nextMat 0).isSome = true ∧ (l.me.mat.slot 1).state = .loading ∧ isOk (l.loadTile 0 .p24 c) = true)
      ∧ (heads (.mrun .rne true false false 0 7) = true ∧ (m.tile 7).absent = false ∧ (m.slot 0).bad = false ∧ (m.slot 0).state = .valid
        ∧ (m.tile 7).tag = s.me.netfmt ∧ (m.tile 7).prog < groupsOf (m.slot 0).kq
        ∧ isOk (s.groupRows 0 s.me.netfmt (m.slot 0).kq false c 0 (List.range 1)) = true ∧ s.badElem 0 7 0 1 = none)
      ∧ heads (.macz 7) = true
      ∧ (heads (.macc false 0 7) = true ∧ (m.tile 0).absent = false ∧ (m.tile 0).tag = s.me.netfmt ∧ s.badElem 0 0 0 64 = none ∧ s.badElem 0 7 0 64 = none)
      ∧ (heads (.mdrain .raw 7) = true ∧ (s.drainRows 0 .raw (m.tile 7) 0 7 c (List.range 1) 0).2.2.isNone = true)
      ∧ (heads (.mstat 1) = true ∧ (m.slot 1).bad = false) := by decide +kernel
/-- An image of zeros restores a tile. -/
theorem word_of_zeros (n off : Nat) : wordAt (List.replicate n 0#8) off = 0 := by
  have h (m : Nat) : leNat (List.replicate m 0#8) = 0 := by
    induction m with
    | zero => rfl
    | succ m ih => simp [List.replicate_succ, leNat, ih]
  simp [wordAt, h]
theorem find_nothing (l : List Nat) : (l.find? fun _ => false) = none := by induction l <;> simp_all
theorem test_witness_MatrixServiceSteps_tile (n : Nat) : ∃ t, parseTile (List.replicate n 0#8) = .ok t := by
  unfold parseTile
  simp only [word_of_zeros, Nat.zero_mod, Nat.zero_div, bne_self_eq_false, find_nothing]
  exact ⟨_, rfl⟩
/-- A read of the last 64 of `n` bytes that are all zero. -/
def readsZeros (s : State) (n : Nat) : Bool :=
  let r := s.readOn 0 (chunksOf (localPtr 0x400) (n - 64) 64) (List.replicate (n - 64) 0)
  decide (r.1.length = n) && r.1.all (· == 0) && r.2.2.isNone
theorem test_witness_MatrixServiceSteps : let s := a0 id
    let u := s.setMat 0 { s.me.mat with fmt := some (2, false) }
    let P := localPtr 0x400
    (u.me.mat.fmt = some (2, false) ∧ u.me.mat.queue = [])
      ∧ ((unit (.msave .tile 7)).nextMat 0).any (fun e => decide (e.2.bad = false ∧ e.2.verdict = none)) = true ∧ ptrOff P % 64 = 0
      ∧ (s.me.mat.tile 7).absent = false ∧ s.badElem 0 7 0 64 = none ∧ (s.me.mat.slot 1).bad = false
      ∧ readsZeros s 8256 = true ∧ readsZeros s 2752 = true ∧ isOk (parseSlot (List.replicate 2752 0)) = true := by decide +kernel
/-- A command on its way to core 1, whose capability table holds 7. -/
def carrying (cap : BitVec 16) (t : Option RegTarget) (q p : List MatCmd) : State :=
  let s : State := { a0 id with net := [.mcmd 5 1 cap { op := .macz 0, word := 0, target := t }] }
  s.setMat 1 { s.mat 1 with caps := [(0, 7)], queue := q, port := p }
theorem test_witness_MatrixServiceSteps_arrival : let c : MatCmd := { op := .macz 0, word := 0 }
    let t (s : State) : MatUnit := ({ s with net := s.net.eraseIdx 0 } : State).mat 1
    (carrying 7 none [] []).net[0]? = some (.mcmd 5 1 7 c) ∧ ((7 : BitVec 16) ≠ 0 ∧ ∃ e ∈ (t (carrying 7 none [] [])).caps, e.2 = 7)
      ∧ ((t (carrying 7 none [] [])).port = [] ∧ (t (carrying 7 none [] [])).full c.op = false)
      ∧ (t (carrying 7 none (List.replicate 8 c) [])).full c.op = true
      ∧ (¬∃ e ∈ (t (carrying 8 none [] [])).caps, e.2 = 8)
      ∧ (carrying 0 (some { core := 0, ctx := 0, reg := 31 }) [] []).net[0]? = some (.mcmd 5 1 0 { c with target := some { core := 0, ctx := 0, reg := 31 } }) := by
  decide +kernel
theorem test_witness_MessagesSent : let f := regs [(3, 7), (4, 8), (132, 0xC001FFFE), (133, 5)]
    let s := a0 f
    let t := a1 f
    let bad := a0 (regs [(3, 7), (132, 0x20000)])
    (s.recOf s.core).hasCore (s.rg 3).toNat = true ∧ (s.recOf s.core).hasCore (s.rg 4).toNat = false ∧ s.popsOf 0 0 = []
      ∧ ((s.re 4).toNat / 2 ^ 17 % 2 ^ 13 = 0 ∧ (s.re 4).toNat % 2 = 0) ∧ ¬(bad.re 4).toNat / 2 ^ 17 % 2 ^ 13 = 0
      ∧ s.ready .hNop [gid 3, gid 4, gid 4 + 1, gid 4 + 2, gid 4 + 3, eid 4] [gid 31] = true ∧ s.ready .hNop [gid 3, gid 4, eid 4, eid 5] [gid 0] = true
      ∧ s.inTask = false ∧ (t.inTask = true ∧ t.bufferRoom 16 ∧ t.ready .hNop [gid 3, gid 4, eid 4, eid 5] [gid 31] = true) := by
  simp only [State.bufferRoom]; decide +kernel
theorem test_witness_RepliesAndStarts : let s := a0 (regs [(3, 10), (4, 0x1FFFE), (5, 0), (6, 11), (7, 0x20000), (8, 1), (9, 0x1FFFD)])
    let run : TaskRun := { msg := { call := true, reply := 0x80000021 } }
    let t (r : TaskRun) : State := a1 fun x => { x with task := some r }
    let u := s.setCtx 0 10 { s.getCtx 0 10 with status := .ready }
    ((t run).cur.task = some run ∧ run.replied = false ∧ run.msg.reply.getLsbD 31 = true ∧ (t run).bufferRoom 4 ∧ (t run).ready .hNop [gid 3] [] = true)
      ∧ s.cur.task = none ∧ ((t { run with replied := true }).cur.task = some { run with replied := true } ∧ (t run).popsOf 0 1 = [])
      ∧ (s.ctx = 0 ∧ s.ready .hNop [gid 3, gid 4, eid 0, eid 1] [] = true ∧ s.popsOf 0 0 = [] ∧ s.accessPending s.core s.ctx .core = false) ∧ (s.rg 5).toNat < 1 ∧ 10 < (s.rg 6).toNat
      ∧ (1 ≤ (u.rg 3).toNat ∧ (u.rg 3).toNat ≤ 10 ∧ (u.getCtx 0 10).status ≠ .idle)
      ∧ ((s.getCtx 0 10).status = .idle ∧ 0x1FFFE < (s.rg 7).toNat)
      ∧ (1 ≤ (s.rg 8).toNat ∧ (s.rg 9).toNat ≤ 0x1FFFE ∧ (s.rg 9).toNat % 2 = 1) ∧ ((s.rg 4).toNat ≤ 0x1FFFE ∧ (s.rg 4).toNat % 2 = 0)
      ∧ s.ready .hNop [] [gid 0] = true := by simp only [State.bufferRoom]; decide +kernel
/-- What a publication leaves. -/
def published (s : State) (f : State → Bool) : Bool :=
  match s.publish with
  | .ok v => f v
  | .error _ => false
theorem test_witness_CommitPoints : let f := regs [(3, 0x1FFFC), (4, 1)]
    let s := a0 f
    let t := a1 fun x => { f x with held := [.store (localPtr 0x80) [7] none] }
    let m := s.setMat 0 { s.me.mat with queue := [{ op := .macz 0, word := 0, core := 0, ctx := 0 }] }
    let r : State := { (a0 id).setFifo 0 3 { pushes := [{ src := .ctx 0 0, data := 0 }] } with seq := 1 }
    let w (hit : Option (Option Cause)) : State := { s with watches := [{ core := 0, ctx := 0, off := 0x1FFFC, need := 1, hit }] }
    published t (fun v => decide (v.xfersOf v.core v.ctx = [] ∧ v.matBusy v.core v.ctx v.cur.att = false ∧ v.cur.held = [])
        && !v.ringBusy v.core v.ctx && !v.storesBefore v.core v.ctx v.seq true) = true ∧ t.ctx ≠ 0 ∧ t.ready .hNop [] [] = true
      ∧ published m (fun v => v.matBusy v.core v.ctx v.cur.att) = true ∧ m.inTask = false ∧ m.ready .hNop [] [] = true
      ∧ (published r (fun v => v.storesBefore v.core v.ctx v.seq true) = true ∧ r.ready .hNop [] [] = true)
      ∧ (published s (fun v => (v.watchOf 0x1FFFC 1).isNone && decide (v.lineState (localKey 0 0x1FFFC / 64) ≠ .dropped ∧ v.badGranule 0x1FFFC 4 = none)) = true
        ∧ ((s.rg 3).toNat ≤ 0x1FFFC ∧ (s.rg 3).toNat % 4 = 0) ∧ s.ready .hNop [gid 3, gid 4] [] = true
        ∧ s.memNat 0x1FFFC 4 < (s.rg 4).toNat ∧ (s.rg 0).toNat ≤ s.memNat 0x1FFFC 4)
      ∧ published (w (some none)) (fun v => (v.watchOf 0x1FFFC 1).any fun w => w.hit == some none) = true
      ∧ published (w none) (fun v => (v.watchOf 0x1FFFC 1).any fun w => w.hit == none) = true := by decide +kernel
theorem test_witness_CommitPoints_fault : let d := a1 fun x => { x with deferred := [{ cause := .range, val := 0 }] }
    published d (fun v => decide (v.cur.deferred ≠ [])) = true ∧ d.ready .hNop [] [] = true ∧ d.ctx ≠ 0
      ∧ published (a1 id) (fun v => decide (v.cur.deferred = []) && !v.priorPending v.core v.ctx v.seq) = true := by decide +kernel
theorem test_witness_BarrierResults : let f := regs [(3, 3), (4, 65535), (5, 65536), (6, 8), (7, 7)]
    let s := a0 f
    let grants (n : Nat) : Bool := decide ((s.recOf s.core).baren = true ∧ (s.recOf s.core).barlo ≤ n ∧ n ≤ (s.recOf s.core).barhi ∧ n ≤ 255)
    let at_ (b : BarPhase) : State := (s.setBar 7 { exp := 1 }).setCur { s.cur with bar := b }
    grants (s.rg 3).toNat = true ∧ grants (s.rg 7).toNat = true ∧ grants (s.rg 6).toNat = false ∧ s.popsOf 0 0 = []
      ∧ (s.ready .hNop [gid 3] [gid 0] = true ∧ (s.getBar 3).bad = false) ∧ s.ctx = 0 ∧ ((s.rg 0).toNat < 1 ∧ 65535 < (s.rg 5).toNat)
      ∧ (1 ≤ (s.rg 4).toNat ∧ (s.rg 4).toNat ≤ 65535 ∧ s.ready .hNop [gid 3, gid 4] [] = true)
      ∧ published (at_ .none) (fun v => decide (v.cur.bar = .none) && !v.flagsPending v.core v.ctx && !v.accessPending v.core v.ctx .pkg) = true
      ∧ published (at_ (.done true)) (fun v => decide (v.cur.bar = .done true)) = true ∧ (at_ .none).ready .hNop [gid 7, gid 0] [gid 31] = true
      ∧ published (at_ (.freed 31)) (fun v => decide (v.cur.bar = .freed 31 ∧ (v.getBar 7).bad = false)) = true
      ∧ published (at_ (.wait 7 true)) (fun v => decide (v.cur.bar = .wait 7 true) && !(v.getBar 7).bad && !(v.getBar 7).brk
        && ((v.getBar 7).ph == (v.rg 0).getLsbD 0) && ((v.getBar 7).ph != (v.rg 3).getLsbD 0)) = true
      ∧ (((at_ (.sent 7 false true 1)).getCtx 0 0).bar = .sent 7 false true 1 ∧ ((at_ .none).getBar 7).bad = false ∧ ((at_ .none).getBar 7).brk = false
        ∧ ((at_ .none).getBar 7).exp ≠ 0 ∧ ((at_ .none).getBar 7).ph = false)
      ∧ ((at_ (.sent 3 true false 1)).getCtx 0 0).bar = .sent 3 true false 1 ∧ (true ≠ (s.getBar 3).ph ∨ (s.getBar 3).exp = 0) := by decide +kernel
/-- A keeper block: SCAN of no elements. -/
def scanBlock : Line := 5
theorem test_witness_EngineCommands : let f := regs [(3, 0x1FFC0), (4, 0x1FFE0), (5, 0x20000), (6, 0xFFFF)]
    let s := (a0 f).putBytes 0x1FFC0 [5]
    let t := a1 f
    let b := s.getBasin 0
    let r : KeepReq := { token := 0xFFFF, core := 0, ctx := 0, att := 0, handle := 5, off := 0, block := scanBlock }
    let u := s.setBasin 0 { b with keeper := { b.keeper with reqs := List.replicate 4 r } }
    let e := s.setBasin 0 { b with keeper := { b.keeper with ended := [(0xFFFF, .none)] } }
    let full := s.setBasin 0 { b with tug := { b.tug with cmds := (List.range 16).map fun k => { token := k, core := 0, ctx := 0, att := 0, handle := 5, off := 0 } } }
    (s.rg 4).toNat % 64 ≠ 0 ∧ ((s.rg 5).toNat % 64 = 0 ∧ 0x1FFC0 < (s.rg 5).toNat) ∧ ((s.rg 3).toNat % 64 = 0 ∧ (s.rg 3).toNat ≤ 0x1FFC0)
      ∧ s.ready .hNop [gid 3] [gid 31] = true ∧ s.popsOf 0 0 = [] ∧ (t.inTask = true ∧ t.bufferRoom 0 ∧ t.ready .hNop [gid 3] [gid 0] = true)
      ∧ published s (fun v => !v.accessPending v.core v.ctx .basin && !v.tugFull 0 && decide (v.core = 0 ∧ (v.getBasin 0).keeper.reqs.length < 4)
        && decide (v.readBlock 0 0x1FFC0 = (scanBlock, none)) && (keeperBad (v.recOf 0) scanBlock).isNone && (keeperBad (v.recOf 0) 0).isSome) = true
      ∧ published full (fun v => !v.accessPending v.core v.ctx .basin && v.tugFull 0) = true
      ∧ published (s.setLine 0x7FF .dropped) (fun v => decide ((v.readBlock 0 0x1FFC0).2 = some (.overread, 0, 0x1FFC0))) = true
      ∧ published u (fun v => decide (4 ≤ (v.getBasin 0).keeper.reqs.length)) = true
      ∧ (∃ r ∈ (u.getBasin 0).keeper.reqs, r.token = (u.rg 6).toNat % 65536)
      ∧ (¬∃ c ∈ (s.getBasin 0).tug.cmds, c.token = 0) ∧ ((s.getBasin 0).tug.next - BitVec.ofNat 16 0).toNat = 0
      ∧ ((e.getBasin 0).keeper.next - BitVec.ofNat 16 0xFFFF).toNat = 1 ∧ ((e.getBasin 0).keeper.ended.find? fun x => x.1 == 0xFFFF) = some (0xFFFF, .none)
      ∧ (s.getBasin 0).keeper.ended = [] := by simp only [State.bufferRoom]; decide +kernel
/-- A store to KICK still on its way, a push that waits before a `keep`, a block that cannot be read, and a command in a save area. -/
theorem test_witness_EngineCommands_waits : let f := regs [(3, 0x1FFC0), (6, 0xFFFF)]
    let s : State := { a0 f with net := [.kick 5 0 0 0 0 64 0] }
    let p : State := { (a0 f).setFifo 0 3 { pushes := [{ src := .ctx 0 0, data := 0 }] } with seq := 1 }
    let u := hurt ((a0 f).putBytes 0x1FFC0 [5]) [0x1FFC8]
    let c : TugCmd := { token := 0xFFFF, core := 0, ctx := 0, att := 0, handle := 5, off := 0 }
    let v : Saved := { basins := [(0, { tug := { cmds := [c] } })] }
    let l : Launch := { lrec := { d0 := 0, d1 := 0, r0 := 0, r1 := 0, c0 := 0, c1 := 0 }, phase := .saved, save := some v }
    let m := (a0 f).setObj 6 { level := 1, state := .sealed_, launch := some l }
    published s (fun v => !v.tugFull 0 && v.kicksOut 0 0 0 && !v.accessPending 0 0 .basin) = true ∧ s.ready (.kick 9 3) [gid 3] [gid 9] = true
      ∧ published p (fun v => v.priorPending 0 0 v.seq) = true ∧ p.ready (.keep 9 3) [gid 3] [gid 9] = true
      ∧ published u (fun v => (v.readBlock 0 0x1FFC0).2 == some (.ue, 8, 0x1FFC8)) = true
      ∧ (m.objs.any fun o => o.2.launch.any fun l => l.save.any fun v => v.basins.any fun e => e.1 == 0 && e.2.tug.cmds.any fun c => c.token == (m.rg 6).toNat % 65536) = true := by
  decide +kernel
/-- Core 0 and a tug command with its block at the last line of local memory. -/
def tugged (blk : Line) (f : TugCmd → TugCmd) : State :=
  let s := (a0 id).putBytes 0x1FFC0 (leBytes 64 blk.toNat)
  let b := s.getBasin 0
  s.setBasin 0 { b with tug := { b.tug with next := 1, cmds := [f { token := 0, core := 0, ctx := 0, att := 0, handle := 5, off := 0x1FFC0, block := blk }] } }
/-- A block from its words and their offsets. -/
def blockOf (ws : List (Nat × Nat)) : Line := BitVec.ofNat 512 (ws.map fun e => e.2 * 2 ^ (8 * e.1)).sum
/-- LIN of nothing, PATCH, CDEL, HOST and TERN blocks at the lower bounds of their fields. -/
def tugBlocks : List (Nat × Line) :=
  [(1, blockOf [(0, 1)]), (2, blockOf [(0, 2), (0x2C, 1)]), (3, blockOf [(0, 3), (0x24, 1)]), (4, blockOf [(0, 4)]), (5, blockOf [(0, 5), (0x28, 1)])]
/-- The one command of the tug of basin 0. -/
def tugIs (s : State) (f : TugCmd → Bool) : Bool := (s.findTug 0 0).any f
theorem test_witness_TugSteps : (tugBlocks.all fun e =>
      let s := tugged e.2 id
      tugIs s fun c => decide (s.tugBlock c = (e.2, none) ∧ blkOp e.2 = e.1 ∧ tugBad (s.recOf c.core) e.2 = none)
        && (s.getBasin 0).tug.mayStart c (blkSer e.2) && !(s.getBasin 0).tug.imemBad && !blkHnd e.2 && !s.priorPending c.core c.ctx c.after) = true
    ∧ ([(1, blockOf [(0, 1), (0x20, 16777217)]), (2, 2), (3, 3), (4, blockOf [(0, 4), (0x3C, 1)]), (5, 5)].all fun e : Nat × Line =>
      let s := tugged e.2 id
      tugIs s fun c => decide (blkOp e.2 = e.1) && (tugBad (s.recOf c.core) e.2).isSome && (s.getBasin 0).tug.mayStart c (blkSer e.2)) = true
    ∧ (let s := tugged (blockOf [(0, 1), (0x10, 0x400), (0x18, 0x800), (0x20, 1)]) fun c => { c with started := true, nboxes := 1 }
      tugIs s fun c => s.boxReady c 0 && match s.runBox 0 c 0 with
        | .done .. => true
        | _ => false) = true
    ∧ (let s := (tugged (blockOf [(0, 1), (0x10, 0x400), (0x18, 0x800), (0x20, 1)]) fun c => { c with started := true, nboxes := 1 }).setLine 0x10 .dropped
      tugIs s fun c => s.boxReady c 0 && match s.runBox 0 c 0 with
        | .fail _ _ _ f => decide (f.fail = .cause .overread)
        | _ => false) = true
    ∧ (tugIs (tugged (blockOf [(0, 3), (0x24, 1)]) fun c => { c with block := blockOf [(0, 3 + 2 ^ 9), (0x24, 1)] }) fun c => (handCore c).isSome) = true
    ∧ (let s := tugged 1 fun c => { c with started := true, nboxes := 1, boxes := [(0, true)] }
      tugIs s fun c => c.worked && c.tag.isNone && c.cword.isNone && c.verdict.isNone && decide (c.ringOut = 0) && !decide (blkOp c.block = 3)
        && isOk (s.writeCword c.ending (.tug 0 c.token))) = true
    ∧ (tugIs (tugged 1 fun c => { c with started := true, nboxes := 1, boxes := [(0, true)], cword := some none }) fun c =>
      c.worked && c.tag.isNone && decide (c.ringOut = 0 ∧ c.cword = some none)) = true := by decide +kernel
theorem test_witness_TugSteps_hand : let s := tugged (blockOf [(0, 3 + 2 ^ 9), (0x18, 0x1000000), (0x1C, 0x40000000), (0x24, 1)]) id
    tugIs s (fun c => decide (s.tugBlock c = (blockOf [(0, 3 + 2 ^ 9), (0x18, 0x1000000), (0x1C, 0x40000000), (0x24, 1)], none))
      && blkHnd (s.tugBlock c).1 && decide (blkOp (s.tugBlock c).1 = 3) && (tugBad (s.recOf c.core) (s.tugBlock c).1).isNone
      && (handCore { c with started := true, block := (s.tugBlock c).1 }).isNone && !c.imem && !s.priorPending c.core c.ctx c.after) = true := by decide +kernel
theorem test_witness_TugSteps_imem : let s := tugged (blockOf [(0, 1), (0x10, 0x400), (0x18, 0x800), (0x20, 1)]) fun c => { c with started := true, nboxes := 1 }
    let t := s.setBasin 0 { s.getBasin 0 with tug := { (s.getBasin 0).tug with imemBad := true } }
    tugIs t (fun c => t.boxReady c 0) = true ∧ (t.getBasin 0).tug.imemBad = true := by decide +kernel
/-- Core 0 and a keeper request. -/
def kept (blk : Line) (res : Option (Cause × W32)) : State :=
  let s := a0 id
  let b := s.getBasin 0
  s.setBasin 0 { b with keeper := { b.keeper with next := 1, reqs := [{ token := 0, core := 0, ctx := 0, att := 0, handle := 5, off := 0, block := blk, result := res }] } }
def keeps (run : KeepReq → State → KeepM (Nat × State)) (op : Nat) (blk : Line) : Bool :=
  let s := kept blk none
  match (s.getBasin 0).keeper.reqs with
  | [r] => decide (blkOp r.block = op) && r.result.isNone && r.tag.isNone && !s.priorPending r.core r.ctx r.after && match run r s with
    | .ok (k, u) => isOk (u.keepRes r k)
    | .error _ => false
  | _ => false
theorem test_witness_KeeperSteps : let at_ : List (Nat × Nat) := [(0x10, 0x400), (0x18, 0x800), (0x20, 0xC00)]
    keeps (fun r s => s.keepBin r) 1 (blockOf ((0, 1) :: (0x28, 1) :: at_)) = true
      ∧ keeps (fun r s => s.keepMerge r false) 2 (blockOf ((0, 2) :: (0x38, 0x1000) :: at_)) = true
      ∧ keeps (fun r s => s.keepMerge r true) 3 (blockOf ((0, 3) :: (0x38, 0x1000) :: at_)) = true
      ∧ keeps (fun r s => s.keepPart r) 4 (blockOf ((0, 4) :: (0x28, 1) :: (0x2C, 1) :: at_)) = true
      ∧ keeps (fun r s => s.keepScan r (List.range 0) 0) 5 5 = true
      ∧ (let s := kept 5 (some (.none, 0))
        (s.getBasin 0).keeper.reqs.all fun r => r.tag.isNone && r.cword.isNone && r.verdict.isNone && decide (r.ringOut = 0)
          && isOk (s.writeCword (r.ending .none 0) (.keeper 0 r.token))) = true := by decide +kernel
/-- Two stores to the KICK register on their way, of core 1 and of core 0, with a tug that holds `n` commands. -/
def kicked (n : Nat) : State :=
  let s := kept 5 none
  let b := s.getBasin 0
  { s with net := [.kick 5 1 0 0 0 7 0, .kick 5 0 0 0 0 64 0] }.setBasin 0 { b with tug := { b.tug with cmds := (List.range n).map fun k =>
    { token := k, core := 0, ctx := 0, att := 0, handle := 5, off := 0 } } }
theorem test_witness_KeeperSteps_kick : (kicked 15).net = [.kick 5 1 0 0 0 7 0] ++ .kick 5 0 0 0 0 64 0 :: []
    ∧ (∀ h' att' m', Flight.kick h' 0 0 att' 0 64 m' ∉ [Flight.kick 5 1 0 0 0 7 0])
    ∧ ((kicked 15).tugFull 0 = false ∧ (kicked 15).savedAway 5 = false) ∧ (kicked 16).tugFull 0 = true := by
  refine ⟨by decide +kernel, by simp, by decide +kernel, by decide +kernel⟩
theorem test_witness_SystemRegisters : let s := at0 (regs [(3, 0x001FFFFF), (4, 0xFFFFFFFF), (5, 0x00040000)])
    s.ready .hNop [] [gid 0] = true ∧ s.ready .hNop [gid 3] [] = true ∧ s.flagsPending s.core s.ctx = false ∧ (∀ id ∈ stateIds s.cur.sel, s.cur.regState id ≠ .absent)
      ∧ isOk s.publish = true ∧ (s.rg 4).toNat % 2 ^ 16 = 0xFFFF ∧ (∀ id ∈ stateIds ((s.rg 5).extractLsb' 16 5), s.cur.regState id ≠ .absent)
      ∧ (at1 id).ready .hNop [gid 31] [] = true ∧ (at1 id).ctx ≠ 0 := by decide +kernel
theorem test_witness_SystemResults : let s := (farState (regs [(3, 12), (4, 3), (5, 64), (6, 63), (7, 128), (8, 11), (9, 2), (10, 1)])).setFifo 0 4 { entries := [5] }
    let b := s.getBasin 0
    let m := s.setBasin 0 ((b.setMode 11 2).setMode 4 2)
    let c := s.setBasin 0 (b.setMode 11 1)
    let w := s.setFifo 0 11 { pushes := [{ src := .ctx 0 0, data := 0 }] }
    (s.cur.regState (gid 0) ≠ .absent ∧ s.cur.regState 135 ≠ .absent ∧ s.ready .hNop [] [] = true) ∧ s.ready .hNop [] [gid 30, gid 30 + 1] = true
      ∧ s.ready .hNop [gid 3] [] = true ∧ (s.ctx = 0 ∧ s.popsOf 0 0 = [] ∧ s.ready .hNop [gid 3, gid 4] [] = true) ∧ 11 < (s.rg 3).toNat
      ∧ ((s.rg 8).toNat ≤ 11 ∧ 2 < (s.rg 4).toNat) ∧ ((m.rg 9).toNat ≤ 2 ∧ ((m.getBasin 0).mode 11).toNat = (m.rg 9).toNat)
      ∧ (((s.getBasin 0).mode 11).toNat ≠ (s.rg 9).toNat ∧ (b.fifo 11).holds 0 0 = false ∧ ((w.getBasin 0).fifo 11).holds 0 0 = true
        ∧ (if poolMoves b 11 2 then s.dieLines 0 else s.bankLines 0 11) = [])
      ∧ ((m.getBasin 0).mode 4 = 2 ∧ ((m.getBasin 0).fifo 4).entries ≠ [] ∧ (if poolMoves (m.getBasin 0) 4 1 then m.dieLines 0 else []) = [])
      ∧ ((c.getBasin 0).mode 11 ≠ 2 ∧ s.badDirty [] = none)
      ∧ ptrCheck (s.recOf s.core) 0xC000000000000000 = some .ptr
      ∧ ptrKind (s.rp 3) ≠ 2 ∧ (ptrKind (s.rp 0) = 2 ∧ ptrCheck (s.recOf s.core) (s.rp 0) = none ∧ s.ready .hNop [pid 0, gid 5] [] = true)
      ∧ (s.rp 1).toNat % 64 ≠ 0 ∧ ((s.rp 0).toNat % 64 = 0 ∧ (s.rg 6).toNat % 64 ≠ 0)
      ∧ ((s.rg 7).toNat % 64 = 0 ∧ 2 ^ 48 < (s.rp 2).toNat % 2 ^ 48 + (s.rg 7).toNat)
      ∧ ((s.rg 0).toNat % 64 = 0 ∧ (s.rp 0).toNat % 2 ^ 48 + (s.rg 0).toNat ≤ 2 ^ 48
        ∧ isOk ((s.via 0).2.rangeLines (s.via 0).1 (s.rp 0) .inv (vaParts (0 / 2 ^ 19 + 2) 0 0)) = true) := by decide +kernel
/-- A counted far line held in bank 11 of basin 0 keeps the bank from switching. -/
theorem test_witness_SystemResults_pressure : let s := a0 (regs [(3, 11), (4, 1)])
    let t : State := { s with far := [(2 ^ 42, { bank := 11, dirty := false, data := 0, st := .counted 1 })] }
    ((t.getBasin 0).mode 11).toNat ≠ (t.rg 4).toNat
      ∧ ∃ e ∈ (if poolMoves (t.getBasin 0) 11 1 then t.dieLines 0 else t.bankLines 0 11), ∃ c, e.2.st = .counted c := by
  refine ⟨by decide +kernel, (2 ^ 42, { bank := 11, dirty := false, data := 0, st := .counted 1 }), by decide +kernel, 1, rfl⟩
/-- A dirty line of bank 11 that cannot be written back. -/
theorem test_witness_SystemResults_ue : let s := a0 (regs [(3, 11), (4, 1)])
    let k := 2 ^ 42
    let t : State := { s with far := [(k, { bank := 11, dirty := true, data := 0 })], errs := { mem := [(k * 8 + 1, true)] } }
    let b := t.getBasin 0
    let lines := if poolMoves b 11 1 then t.dieLines 0 else t.bankLines 0 11
    (lines.map (·.1)) = [k] ∧ t.badDirty [k] = some (k * 64 + 8) ∧ ((b.mode 11).toNat ≠ (t.rg 4).toNat ∧ b.mode 11 ≠ 2)
      ∧ (b.fifo 11).holds t.core t.ctx = false ∧ (lines.all fun e => e.2.st == .plain) = true ∧ t.ready (.bmode 3 4) [gid 3, gid 4] [] = true
      ∧ t.popsOf 0 0 = [] ∧ t.ctx = 0 := by decide +kernel
theorem test_witness_TrapInstructions : let s := at0 (regs [(3, 0x18), (4, 0x19)])
    let t := at1 id
    (s.ready .hNop [gid 3, gid 4] [] = true ∧ s.popsOf s.core s.ctx = [] ∧ (s.rg 3).toNat = causeCode .brk)
      ∧ ([Cause.ill, .align, .range, .xlate, .perm, .overread, .underread, .cntwrite, .linkovf, .linkunf, .budget, .taskbuf, .barover, .fmt,
        .meta_, .trit, .ue, .pressure, .ptr, .svc, .brk].all fun c => decide ((s.rg 4).toNat ≠ causeCode c)) = true
      ∧ s.ready .hNop [] [] = true ∧ (s.inTask = false ∧ s.ctx = 0) ∧ (t.inTask = true ∧ t.ctx ≠ 0 ∧ t.popsOf t.core t.ctx = []) ∧ 28 < (29 : BitVec 6).toNat := by decide
theorem test_witness_TrapEntry : let s (vec : BitVec 16) (h : Bool) : Ctx := ((at0 fun x => { x with trapVec := vec, inh := h }).dropFmt 0 0).getCtx 0 0
    let x : Ctx := { pend := [{ regs := [(159, 1)] }] }
    ((s 1 false).landAll.task = none ∧ (s 1 false).landAll.trapVec ≠ 0 ∧ (s 1 false).landAll.inh = false)
      ∧ ((s 0 false).landAll.task = none ∧ (s 0 false).landAll.trapVec = 0) ∧ ((s 1 true).landAll.task = none ∧ (s 1 true).landAll.inh = true)
      ∧ ((((at1 id).dropFmt 0 1).getCtx 0 1).landAll.task).isSome = true
      ∧ (∃ l ∈ x.pend, 159 ∈ l.regs.map (·.1)) ∧ (∀ l ∈ x.pend, ∀ e ∈ l.regs, e.1 ≠ 1 ∧ e.1 < 160) := by decide
/-- `add g9, g3, g5` with g3 empty: outside a task, in one at the first look, and where g3 comes from an own load. -/
theorem test_witness_EmptySourcesPark : let i : Instr := .add 9 3 5
    let f (x : Ctx) : Ctx := { x with rst := [(3, .empty)] }
    let s := at0 f
    let t := at1 f
    let l := at1 fun x => { f x with pend := [{ regs := [(3, 1)], mem := true }] }
    let a := at0 fun x => { x with rst := [(162, .absent)] }
    let o := at0 fun x => { x with pend := [{ regs := [(9, 1)] }], rst := [(9, .empty)] }
    let quiet (s : State) : Bool := decide ((encode i).isSome = true ∧ legalIn s i = true ∧ s.cur.xtag = none ∧ s.cur.verdict = none
      ∧ s.cur.publishing = false ∧ s.cur.judged ≠ some true)
    let gone (s : State) : List Nat := (repeatId :: (sourcesOf s i ++ destsOf i)).filter fun id => decide (s.cur.regState id = .absent)
    let empties (s : State) : List Nat := (sourcesOf s i).filter fun id => !decide (s.cur.regState id = .full)
    ([s, t, l, a, o].all quiet) = true ∧ gone a = [162]
      ∧ (gone s = [] ∧ empties s = [3] ∧ s.inTask = false)
      ∧ (gone t = [] ∧ empties t = [3] ∧ t.inTask = true ∧ t.cur.judged = none ∧ t.cur.pend = [] ∧ t.popsOf 0 1 = [] ∧ t.xfersOf 0 1 = []
        ∧ isOk ((t.setCur { t.cur with blockedOn := [3], status := .parked, judged := some true }).publish) = true)
      ∧ (gone l = [] ∧ empties l = [3] ∧ ∃ e ∈ l.cur.pend, e.mem = true ∧ 3 ∈ e.regs.map (·.1))
      ∧ (gone o = [] ∧ empties o = [] ∧ ∃ id ∈ destsOf i, o.outstanding id = true) := by decide +kernel
/-- A state of core 0 with one context, and a fill on its way to g31 of context 2. -/
def filling (x : RegState) (st : Status) (touched : List Nat) : State :=
  let s := (at1 id).setCtx 0 2 { status := st, rst := [(31, x)] }
  { s.setCore 0 { s.getCore 0 with touched } with net := [.fill 5 0 2 31 7] }
theorem test_witness_CoreSteps_fills :
    (let s := at0 fun x => { x with pend := [{ regs := [(9, 1)], due := some 0 }, { regs := [(10, 1)] }] };
      (s.getCtx 0 0).pend[1]? = some { regs := [(10, 1)] } ∧ (s.getCtx 0 0).pend[0]? = some { regs := [(9, 1)], due := some 0 } ∧ 0 ≤ (s.getCore 0).cyc)
      ∧ (filling .full .idle []).net[0]? = some (.fill 5 0 2 31 7 .none)
      ∧ ((filling .full .idle []).fillWaits 0 2 31 = false ∧ ((filling .full .idle []).getCtx 0 2).status = .idle)
      ∧ ((filling .empty .waiting []).fillWaits 0 2 31 = false ∧ ((filling .empty .waiting []).getCtx 0 2).regState 31 = .empty)
      ∧ ((filling .full .waiting []).fillWaits 0 2 31 = false ∧ ((filling .full .waiting []).getCtx 0 2).regState 31 = .full)
      ∧ (filling .absent .waiting []).fillWaits 0 2 31 = true ∧ (filling .full .waiting [2 * 256 + 31]).fillWaits 0 2 31 = true := by decide +kernel
/-- The fill's register was written with latency 1 in this cycle. -/
theorem test_witness_CoreSteps_written : let s : State := { filling .full .waiting [] with written := [regKey 0 2 31] }
    s.net[0]? = some (.fill 5 0 2 31 7 .none) ∧ s.fillWaits 0 2 31 = false ∧ (s.getCtx 0 2).status ≠ .idle ∧ regKey 0 2 31 ∈ s.written
      ∧ regKey 0 2 31 ∉ (filling .full .waiting []).written := by decide +kernel
theorem test_witness_CoreSteps_banks : let f : Fifo := { entries := [5], pops := [{ core := 0, ctx := 0, vreg := 12, val := 0 }] }
    let g (src : PushSrc) : Fifo := { entries := List.replicate 2047 0, pushes := [{ src, data := 7 }] }
    f.nextPop = some ({ core := 0, ctx := 0, vreg := 12, val := 0 }, []) ∧ (0 ∉ f.bad ∧ 0 ∈ ({ f with bad := [0] } : Fifo).bad)
      ∧ ({ f with bad := [0] } : Fifo).nextPop.isSome = true
      ∧ ((g (.ctx 0 0)).pushes ≠ [] ∧ (g (.ctx 0 0)).entries.length < 2048 ∧ (g (.port 3)).entries.length < 2048) := by decide +kernel
theorem test_witness_CoreSteps_watch : let w : Watch := { core := 0, ctx := 1, off := 0x80, need := 5 }
    let s : State := { at1 id with watches := [w] }
    w ∈ s.watches ∧ w.hit = none ∧ localKey 0 0x80 / 64 ∈ linesOf (localKey 0 0x80) 4 := by decide
theorem test_witness_CoreSteps_traps :
    (let s := (at1 id).setCtx 0 1 { (at1 id).cur with deferred := [{ cause := .trit, val := 1 }] }
      let t := s.landDue 0
      t.reached 0 1 = true ∧ (t.getCtx 0 1).inArrival = false ∧ t.popsOf 0 1 = [] ∧ (s.getCtx 0 1).deferred ≠ []
        ∧ (t.getCtx 0 1).deferred = [{ cause := .trit, val := 1 }])
      ∧ (let s := (at1 id).setCtx 0 1 { (at1 id).cur with budget := 9, task := some { msg := {}, used := 9 } }
        let t := s.landDue 0
        t.reached 0 1 = true ∧ (t.getCtx 0 1).inArrival = false ∧ t.popsOf 0 1 = [] ∧ (s.getCtx 0 1).deferred = []
          ∧ (s.getCtx 0 1).overBudget = true ∧ (t.getCtx 0 1).deferred = [] ∧ (t.getCtx 0 1).overBudget = true
          ∧ (t.getCtx 0 1).publishing = false ∧ t.doneEnds 0 1 = false) := by decide +kernel
theorem test_witness_CoreSteps_restores : let m := (a0 id).me.mat
    let s := (a0 fun x => { x with rst := [(31, .absent), (161, .absent), (162, .absent)] }).setMat 0 { m with tiles := [(7, { absent := true })] }
    let t := { s.setCtx 0 0 { s.getCtx 0 0 with status := .waiting, blockedOn := [31] } with errs := { mem := [] } }
    (((s.getCore 0).mat.tile 7).absent = true ∧ s.granuleUe 0 0 (.tile 7) = none)
      ∧ (s.granuleUe 0 0 (.g 3) = none ∧ ∃ id ∈ granuleIds (.g 3), (s.getCtx 0 0).regState id = .absent)
      ∧ (∃ id ∈ granuleIds .link, (s.getCtx 0 0).regState id = .absent) ∧ (∃ id ∈ granuleIds (.g 0), (s.getCtx 0 0).regState id = .absent)
      ∧ ((t.getCtx 0 0).waitsGranule (.g 3) = true ∧ t.popsOf 0 0 = []) ∧ (s.getCtx 0 0).waitsGranule (.g 3) = false := by decide +kernel
/-- A granule of a launch with a save area at the start of LPDDR 6, which holds an error. -/
theorem test_witness_CoreSteps_restoreUe : let s := (a0 fun x => { x with status := .waiting, blockedOn := [31], rst := [(31, .absent)] })
    let l : Launch := { lrec := { d0 := 0, d1 := 0, r0 := 0, r1 := 0, c0 := 0, c1 := 0 }, phase := .running, area := some 0 }
    let t := s.setObj 5 { state := .sealed_, launch := some l }
    let pa := ((t.granulePas 0 0 (.g 3)).map (·.1)).headD 0
    let u := { t with errs := { mem := [(lpddrKey pa / 8, true)] } }
    ((u.granuleUe 0 0 (.g 3)).isSome && (u.getCtx 0 0).waitsGranule (.g 3)) = true := by decide +kernel
theorem test_witness_CoreSteps_pins : let s (n : Nat) : State :=
      (at0 fun x => { x with pinStart := some 0 }).setMe { (at0 fun x => { x with pinStart := some 0 }).me with cyc := n }
    (s 0).pinSince (.stc 0 0) = some (0, 0) ∧ ((s 65535).getCore 0).cyc - 0 < ((s 65535).getCore 0).cntLimit.toNat
      ∧ ((s 65536).getCore 0).cntLimit.toNat ≤ ((s 65536).getCore 0).cyc - 0 := by decide +kernel
/-- A message for core 0 on its way, with a level whose hardware entries and spill area are these. -/
def sent (call : Bool) (st : Option RegTarget) (obj : ObjState) (q : QLevel) : State :=
  let s := (a0 id).setLevel 0 0 q
  { s.setObj 5 { s.getObj 5 with state := obj } with net := [.msg 5 0 0 0 { call := call } 0 st 0] }
theorem test_witness_MessageSteps_accept : let full : QLevel := { hw := List.replicate 64 {}, spill := List.replicate 4096 { call := false, host := false } }
    let r : RegTarget := { core := 0, ctx := 0, reg := 9 }
    let live (s : State) (ok : Bool) : Bool := s.mayAccept 0 && s.liveLaunch 5 && (s.enqueue 0 { call := false }).1 == ok
    let liveCall (s : State) (ok : Bool) : Bool := s.mayAccept 0 && s.liveLaunch 5 && (s.enqueue 0 { call := true }).1 == ok
    let s := sent false none .sealed_ {}
    let held : State := { s.setFifo 0 3 { pushes := [{ src := .ctx 0 0, data := 0 }] } with net := [.msg 5 0 0 0 {} 0 none 1] }
    ((sent false none .cancelled {}).mayAccept 0 && !(sent false none .cancelled {}).liveLaunch 5) = true
      ∧ live s true = true ∧ live (sent false none .sealed_ full) false = true
      ∧ live (sent false (some r) .sealed_ {}) true = true ∧ live (sent false (some r) .sealed_ full) false = true
      ∧ liveCall (sent true none .sealed_ {}) true = true ∧ liveCall (sent true none .sealed_ full) false = true
      ∧ held.mayAccept 0 = false ∧ (({ s with net := [.retry 5 0 {}] } : State).net[0]? = some (.retry 5 0 {}) ∧ s.liveLaunch 5 = true) := by decide +kernel
/-- Levels `h` and `l` of core 0 that wait, one with a retry and one with these messages. -/
def levels (h l : Nat) (q : QLevel) (stv : Nat) : State :=
  let u := ((a0 id).setLevel 0 h { retry := some {} }).setLevel 0 l q
  u.setCore 0 { u.getCore 0 with stv := stv }
theorem test_witness_MessageSteps_dispatch : let q : QLevel := { hw := [{}] }
    let free (u : State) (j : Nat) : Bool := decide (((u.getCore 0).getCtx j).status = .idle ∧ ((u.getCore 0).getCtx j).started = false)
    let waits (u : State) (l : Nat) : Bool :=
      decide (((u.getCore 0).level l).retry ≠ none ∨ ((u.getCore 0).level l).hw ≠ [] ∨ ((u.getCore 0).level l).spill ≠ [])
    let spilled := levels 3 2 { spill := [{ call := false, host := false }] } 32
    ((levels 3 3 q 0).getCore 0).noDispatch = false ∧ free (levels 3 3 q 0) 1 = true ∧ waits (levels 3 3 q 0) 3 = true
      ∧ ((List.range 3).all fun l => !waits (levels 3 3 q 0) l) = true ∧ waits (levels 3 2 q 32) 3 = true ∧ waits (levels 3 2 q 32) 2 = true
      ∧ ((levels 3 2 q 32).getCore 0).stv = 32 ∧ ((levels 3 2 q 31).getCore 0).stv = 31
      ∧ ((levels 3 2 q 32).level 0 3).retry = some {} ∧ (((levels 3 2 q 32).level 0 2).retry = none ∧ ((levels 3 2 q 32).level 0 2).hw = [{}])
      ∧ (waits spilled 2 = true ∧ (spilled.level 0 2).hw = [] ∧ (spilled.level 0 2).retry = none)
      ∧ ((levels 3 2 { hw := [{ bad := true }] } 32).level 0 2).hw = [{ bad := true }]
      ∧ (let u := (levels 3 3 q 0).setCtx 0 1 { started := true }
        free u 1 = false ∧ free u 2 = true)
      ∧ (let u := (List.range 9).foldl (fun u j => u.setCtx 0 (j + 1) { status := .parked }) (levels 3 3 q 0)
        free u 10 = true ∧ ((List.range 9).all fun j => !free u (j + 1)) = true) := by decide +kernel
theorem test_witness_MessageSteps_slot : let s := (a0 id).setCore 0 { (a0 id).getCore 0 with port := [{ level := 0 }, { level := 3 }] }
    (s.getCore 0).port[1]? = some { level := 3 } ∧ (s.level 0 3).retry = none ∧ ∀ m' ∈ (s.getCore 0).port.take 1, m'.level ≠ 3 := by decide +kernel
/-- Space 0 maps its first 2 GiB to the first of LPDDR 6, and its next 2 GiB to a page near its end. -/
def mapped (s : State) : State :=
  (((s.putBytes (lpddrKey 0) (leBytes 8 0x1001)).putBytes (lpddrKey 0x1000) (leBytes 8 0x2001)).putBytes (lpddrKey 0x2000) (leBytes 8 0x0F))
theorem test_mapped : (match readFar (mapped State.reset) 0 0 0x2000 64 with
  | .ok (bs, _) => decide (bs.take 2 = [0x0F, 0])
  | .error _ => false) = true := by decide +kernel
/-- Far memory in one part, over two pages, and not mapped; a translation that cannot be read; and a page of a ring window. -/
theorem test_witness_WritesAndDecrements_far : let m := mapped State.reset
    let far (va : Nat) : W64 := BitVec.ofNat 64 (2 ^ 63 + va)
    let r (s : State) (va z : Nat) : Except Fail (Place × State) := s.resolve 0 (far va) z 1 .read
    let len (o : Except Fail (Place × State)) : List Nat := match o with
      | .ok (.mem ps, _) => ps.map (·.len)
      | _ => []
    let isMiss (o : Except Fail (Place × State)) : Bool := match o with
      | .error (.miss _) => true
      | _ => false
    let isUe (o : Except Fail (Place × State)) : Bool := match o with
      | .error (.ue _) => true
      | _ => false
    len (r m 0x1000 64) = [64] ∧ len (r m 0x103E 4) = [2, 2] ∧ isMiss (r m (2 ^ 31) 4) = true ∧ isUe (r (hurt m [lpddrKey 0x2000]) 0x1000 4) = true
      ∧ (match r m (2 ^ 48 - 1) 2 with
        | .error (.cause c) => decide (c = .range)
        | _ => false) = true := by decide +kernel
/-- The same with a ring window of hop 1 at 2 GiB. -/
def ringed : State := ((((mapped State.reset).putBytes (lpddrKey 0x2008) (leBytes 8 0x3001)).putBytes (lpddrKey 0x3000) (leBytes 8 0x4001)).putBytes
  (lpddrKey 0x4000) (leBytes 8 0x10000000008F))
theorem test_witness_WritesAndDecrements_ring : (match ringed.resolve 0 0x8000000080000040 16 16 .write with
      | .ok (.ring ps, _) => decide (ps.map (·.len) = [16])
      | _ => false) = true
    ∧ (match ringed.resolve 0 0x800000007FFFFFFE 4 1 .write with
      | .error (.cause c) => decide (c = .range)
      | _ => false) = true := by decide +kernel
theorem test_witness_RegionResults_far : let m := (mapped State.reset).putBytes (lpddrKey 0x2000) (leBytes 8 0x3F)
    let open_ (s : State) (va : Nat) : Bool × Bool := match (s.via 0).2.translate (s.via 0).1 0 va .open_ with
      | .ok (.mem key _) _ => (decide (key < 2 ^ 49), false)
      | .ok (.ring _) _ => (false, true)
      | _ => (false, false)
    ptrCheck (m.recOf 0) 0x8000000000000000 = none ∧ open_ m 0x10000 = (true, false) ∧ open_ ringed (2 ^ 31) = (false, true)
      ∧ isOk ((m.via 0).2.farRanges (m.via 0).1 0x8000000000010000 (pageParts (64 / 2 ^ 19 + 2) 0x10000 64) []) = true := by decide +kernel
/-- Queue 63 of quay core 0 with an entry at its head, an image at 0x20000, and objects: 1 free, 2 open, 3 ended, 5 running. -/
def queued (ws : List (Nat × Nat)) : State :=
  let s := mapped State.reset
  let s := (s.putBytes (lpddrKey 0x10000) (leBytes 64 (blockOf ws).toNat)).putBytes (lpddrKey 0x20000) (leBytes 64 (blockOf [(0, 0x4D494259), (4, 0x10000), (8, 4), (0x2C, 0x80)]).toNat)
  let s := ((s.setObj 2 { level := 2, state := .open_ }).setObj 3 { level := 1, state := .ended }).setObj 5
    { level := 1, state := .sealed_, launch := some { lrec := { lid := 9, d0 := 0, d1 := 0, r0 := 0, r1 := 0, c0 := 0, c1 := 0 }, phase := .running } }
  s.setQueue 0 63 { en := true, state := 1, base := 0x10000, wptr := 1 }
/-- What the entry comes to: performed or refused. -/
def outcome (f : Nat → Nat → HQueue → List Byte → State → Served) (ws : List (Nat × Nat)) : Option Bool :=
  let s := queued ws
  let k := s.queue 0 63
  match readFar s 0 0 0x10000 64 with
  | .ok (bs, u) => match f 0 63 k bs u with
    | .done _ => some true
    | .refuse .. => some false
    | _ => none
  | .error _ => none
theorem test_witness_QueueSteps_takes : let s := queued []
    let k := s.queue 0 63
    s.takes 0 63 = true ∧ k.tag = none ∧ k.onRing = false := by decide +kernel
theorem test_witness_QueueSteps_launch : outcome launchEntry [(0, 0x10001), (8, 0x20000)] = some true ∧ outcome launchEntry [(0, 0x20001), (8, 0x20000)] = some false := by
  decide +kernel
theorem test_witness_QueueSteps_open : outcome (fun q _ _ => openEntry q) [(0, 0x10002), (8, 2)] = some true
    ∧ outcome (fun q _ _ => openEntry q) [(0, 0x10002), (8, 1)] = some false := by
  decide +kernel
theorem test_witness_QueueSteps_seal : outcome (fun q _ _ => sealEntry q) [(0, 0x20003)] = some true ∧ outcome (fun q _ _ => sealEntry q) [(0, 0x10003)] = some false := by
  decide +kernel
theorem test_witness_QueueSteps_cancel : outcome (fun q _ _ => cancelEntry q) [(0, 0x20004)] = some true
    ∧ outcome (fun q _ _ => cancelEntry q) [(0, 0x4000 * 65536 + 4)] = some false := by
  decide +kernel
theorem test_witness_QueueSteps_msg : outcome (fun q _ _ => msgEntry q) [(0, 0x50005), (8, 7), (0xC, 0x80000000)] = some true
    ∧ outcome (fun q _ _ => msgEntry q) [(0, 0x20005)] = some false := by
  decide +kernel
theorem test_witness_QueueSteps_free : outcome (fun q _ _ => freeEntry q) [(0, 0x30006)] = some true ∧ outcome (fun q _ _ => freeEntry q) [(0, 0x20006)] = some false := by
  decide +kernel
theorem test_witness_QueueSteps_unknown : outcome (fun _ _ _ bs u => if bs.headD 0 = 0 ∨ 6 < (bs.headD 0).toNat then .refuse 1 u else .stall u) [] = some false
    ∧ outcome (fun _ _ _ bs u => if bs.headD 0 = 0 ∨ 6 < (bs.headD 0).toNat then .refuse 1 u else .stall u) [(0, 7)] = some false := by
  decide +kernel
/-- An entry in a page that is not mapped, one whose image is in none, a freed object, and an OPEN that finds no object. -/
theorem test_witness_QueueSteps_waits : let s := queued []
    let k := s.queue 0 63
    let lost := s.setQueue 0 63 { k with base := 0x100000000 }
    let freed : State := (queued [(0, 0x10002), (8, 2)]).setObj 1 { freed := true }
    let served (f : Nat → Nat → HQueue → List Byte → State → Served) (u : State) (g : Served → Bool) : Bool := match readFar u 0 0 0x10000 64 with
      | .ok (bs, v) => g (f 0 63 (u.queue 0 63) bs v)
      | .error _ => false
    (match readFar lost 0 0 0x100000000 64 with
      | .error (.miss ..) => true
      | _ => false) = true ∧ lost.takes 0 63 = true ∧ k.tag = none
      ∧ served launchEntry (queued [(0, 0x10001), (8, 0), (0xC, 1)]) (fun o => match o with
        | .wait .. => true
        | _ => false) = true
      ∧ served (fun q _ _ => openEntry q) freed (fun o => match o with
        | .later _ => true
        | _ => false) = true := by decide +kernel
theorem test_witness_QueueSteps : let s := State.reset.setQueue 15 63 { log2 := 4, rdptr := 0xFFFFFFF8, en := true, state := 1 }
    let k := s.queue 15 63
    let d := State.reset.queue 0 0
    (k.state ≠ 3 ∧ 2 ^ k.log2.toNat < ((9 : W32) - k.rdptr).toNat) ∧ ((8 : W32) - k.rdptr).toNat ≤ 2 ^ k.log2.toNat
      ∧ ((0xC0000010 : W32).toNat % 32 ≤ 16 ∧ s.bootMode ≠ 2 ∧ (0xC0000010 : W32).getLsbD 30 = true)
      ∧ ((0x80000010 : W32).getLsbD 30 = false ∧ (0x80000010 : W32).getLsbD 31 = true ∧ d.en = false ∧ d.state = 0)
      ∧ (16 < (0x40000011 : W32).toNat % 32 ∧ (0x40000011 : W32).getLsbD 30 = true) ∧ s.svc.mb.go = false := by decide +kernel
/-- Basin 0 with launch 5 of it in a phase, and a launch 6 of PRIO 7 that waits for the same basin; core 0 holds nothing in hand. -/
def phased (st : ObjState) (p : Phase) (f : Launch → Launch) : State :=
  let r : LaunchRec := { d0 := 0, d1 := 0, r0 := 0, r1 := 0, c0 := 0, c1 := 0 }
  let s := State.reset.setQuay 0 { svblocks := 2 }
  let s := s.setObj 5 { level := 1, state := st, launch := some (f { lrec := r, phase := p, age := 1 }) }
  if p = .waiting ∨ p = .saved then s
  else (s.setObj 6 { level := 1, state := .sealed_, launch := some { lrec := { r with prio := 7 }, age := 2 } }).setCore 0
    { s.getCore 0 with launch := some 5 }
/-- What holds of the launch 5 of a state. -/
def launchIs (s : State) (f : Launch → Bool) : Bool := (s.launchOf 5).any f
theorem test_witness_LaunchSteps_load : launchIs (phased .sealed_ .waiting id) (fun l => let s := phased .sealed_ .waiting id
    !(s.getObj 5).bad && decide (l.phase = .waiting ∧ l.tag = none ∧ l.verdict = none) && s.mayStart 5 l) = true := by decide +kernel
theorem test_witness_LaunchSteps_end : launchIs (phased .cancelled .running id) (fun l => let s := phased .cancelled .running id
    !(s.getObj 5).bad && !s.launchBusy 5 l.lrec && !(s.getObj 5).closed) = true := by decide +kernel
theorem test_witness_LaunchSteps_preempt : launchIs (phased .sealed_ .running id) (fun l => let s := phased .sealed_ .running id
    (s.areaFor 5 l).isSome && s.waitingLaunches.any fun w => w.2.lrec.meets l.lrec && (s.runningIn w.2.lrec).all (s.yields w.2.lrec.prio)) = true := by
  decide +kernel
/-- The launch 5 on its way to its save area, with a task that has not ended. -/
def leaving (task : Bool) : State :=
  let s := phased .sealed_ .preempting fun l => { l with area := some 0 }
  if task then s.setCtx 0 1 { status := .ready, task := some { msg := {} } } else s
theorem test_witness_LaunchSteps_save : (((leaving false).haltSet 5).readyToSave 5 && !(leaving false).readyToSave 5
    && (leaving false).tasksEnded 5 && !(leaving true).readyToSave 5 && !(leaving true).tasksEnded 5
    && launchIs ((leaving false).haltSet 5) fun l => decide (l.area = some 0 ∧ l.phase = .preempting)) = true := by decide +kernel
theorem test_witness_LaunchSteps_restore :
    launchIs (phased .sealed_ .saved fun l => { l with area := some 0, save := some { basins := [(0, ({} : Basin).setMode 11 2)] } })
      (fun l => let s := phased .sealed_ .saved fun l => { l with area := some 0, save := some { basins := [(0, ({} : Basin).setMode 11 2)] } }
        s.mayStart 5 l && l.save.any fun v => (s.switchAll v.basins).isSome) = true := by decide +kernel
theorem test_witness_LaunchSteps_object : let o := ((State.reset.setObj 7 { level := 4, state := .sealed_ }).getObj 7)
    o.launch = none ∧ o.bad = false ∧ o.freed = false ∧ o.closed = false ∧ o.live = 0 ∧ o.notify = false ∧ o.state = .sealed_ := by decide +kernel
theorem test_witness_LaunchSteps_quay : let s := State.reset.setQuay 15 { tags := [(0xFFFF, some { space := 0, block := 0, reason := 2 })] }
    ((s.getQuay 15).inv = none ∧ (0x80000000 : W32).getLsbD 31 = true ∧ s.bootMode ≠ 2 ∧ s.ring.out = [])
      ∧ (mget none (s.getQuay 15).tags ((0x8000FFFF : W32).toNat % 2 ^ 16)).isSome = true ∧ (0x8000FFFF : W32).toNat / 2 ^ 30 ≠ 3 := by decide +kernel
theorem test_witness_LaunchSteps_host : ([HostTarget.near (nearPtr 0 7 0x1FFFF), .lpddr (2 ^ 28 * 992 - 1), .host (2 ^ 48 - 1)].all fun t =>
    (State.reset.hostParts 0 t 1).any fun ps => isOk (State.reset.checkParts .write [] ps) && isOk (State.reset.checkParts .read [] ps)) = true := by
  decide +kernel
/-- A put.hnd through a ring window that an invalidation waits for, a byte of a host access in a granule with an error, and one that no
home holds. -/
theorem test_witness_LaunchSteps_waits :
    let x : Xfer := { id := 0, core := 0, ctx := 0, att := 0, handle := 5, kind := .put, ptr := 0x8000000000000000, loff := 0, len := 16
                      hnd := some 0, win := some 1 }
    let s := (a0 id).setMe { (a0 id).me with xfers := [x] }
    let uses (s : State) : Bool := s.cores.any fun e => e.2.xfers.any fun t => t.hnd.isSome && t.win.isSome
      && invalidates 0 0x20000000 (tlbKey 0 4 e.2.spaceId.toNat (ptrOff t.ptr))
    let u := hurt State.reset [lpddrKey 0x40]
    (s.getQuay 0).inv = none ∧ s.ring.out = [] ∧ uses s = true ∧ uses (a0 id) = false
      ∧ ((u.hostParts 0 (.lpddr 0x41) 1).any fun ps => decide ((match u.checkParts .write [] ps with
        | .error (.ue k) => some k
        | _ => none) = some (lpddrKey 0x40))) = true
      ∧ ((u.hostParts 0 (.lpddr 0x41) 1).any fun ps => decide ((match u.checkParts .read [] ps with
        | .error (.ue k) => some k
        | _ => none) = some (lpddrKey 0x40))) = true
      ∧ (State.reset.hostParts 0 (.lpddr (2 ^ 28 * 992)) 1).isNone = true := by decide +kernel
theorem test_witness_RingSteps : let r : Ring := { pos := 1, last := 3, up := 0xB, failed := some 0 }
    let s : State := { State.reset with ring := r }
    let k : RingPkt := { port := 0, hop := 1, srcBasin := 2, basin := 0, item := .chunk 131072 [1] }
    let j : RingPkt := { k with basin := 1, item := .entry 0 0 }
    let t := s.setBasin 1 (({} : Basin).setMode 0 2)
    let ordered (a b : RingPkt) : Prop := r.sourceOf a = r.sourceOf b ∧ a.srcBasin = b.srcBasin ∧ a.basin = b.basin
      ∧ (a.hop.toInt < 0 ↔ b.hop.toInt < 0)
    (r.up.getLsbD 0 = true ∧ (mget {} r.ports 0).rxSeq = 0 ∧ (0xFFF : BitVec 12) ≠ (mget {} r.ports 0).rxSeq)
      ∧ (r.lost k = false ∧ k.left ≤ 1 ∧ r.lost { k with left := 2 } = false)
      ∧ ([j] ++ k :: [] = [j, k] ∧ r.reconf = false ∧ k ∉ [j] ∧ (∀ x ∈ r.atBank ++ [j], ¬ordered k x) ∧ s.mode k.basin (131072 / 131072) ≠ 1)
      ∧ ordered j j
      ∧ (t.mode j.basin 0 = 2 ∧ (t.fifo j.basin 0).entries.length < 2048 ∧ (t.fifo j.basin 0).pushes = []
        ∧ 2048 ≤ ((t.setFifo 1 0 { entries := List.replicate 2048 0 }).fifo j.basin 0).entries.length)
      ∧ (r.up.getLsbD 0 = true ∧ r.up.getLsbD 1 = true) ∧ (r.up.getLsbD 3 = true ∧ r.up.getLsbD 2 = false)
      ∧ (s.ring.reconf = false ∧ (3 : BitVec 6).toNat ≤ r.last.toNat ∧ (3 : BitVec 6) ≠ r.pos) ∧ r.failed = some 0 := by decide +kernel
/-- A state whose mailbox has been started, with its buffer at 0x10000 in cached lines and islands as at reset. -/
def boxed (op : BitVec 8) (a0 a1 a2 : W32) (s : State) : State :=
  { s with bootMode := 1
           far := (List.range 4).map fun j => ((2 ^ 48 + 0x10000) / 64 + j, { bank := 0, dirty := true, data := 0 })
           svc := { s.svc with mb := { go := true, op := op, arg0 := a0, arg1 := a1, arg2 := a2, bufVa := 0x10000 } } }
/-- The mailbox is ready to run an operation. -/
def runsOp (s : State) (op : Nat) : Bool :=
  s.svc.mb.go && s.svc.stopped.isNone && s.bootMode != 2 && s.svc.mb.op.toNat == op && s.svc.mb.legal
/-- A far read or write of a state succeeds. -/
def gotOk (g : Got) (f : List Byte → State → Bool) : Bool :=
  match g with
  | .ok bs s => f bs s
  | _ => false
theorem test_witness_ServiceSteps_start : (∀ f ∈ [(1 : BitVec 8), 3, 0x13], f ∈ startReasons) ∧ (0 : BitVec 6).toNat ≤ (63 : BitVec 6).toNat
    ∧ 3 ≤ [(1 : BitVec 8), 3, 0x13].length ∧ [(1 : BitVec 8), 3].length < 3 ∧ (State.reset.firmware 0).active.ok = true ∧ (State.reset.firmware 1).active.ok = true
    ∧ (let s (i : Nat) : State := { State.reset with svc := { State.reset.svc with stopped := some i } }
      (State.reset.svc.mb.go = false ∧ State.reset.svc.stopped = none ∧ 64 ≤ 69 ∧ 69 < 70)
        ∧ (s 63).svc.stopped = some 63 ∧ (s 69).svc.stopped = some 69 ∧ (200 : W32).toNat ≤ 200)
    ∧ (let s := boxed 4 0 1 0 { State.reset with svc := { State.reset.svc with stopped := some 64 } }
      s.svc.stopped = some 64 ∧ s.bootMode ≠ 2 ∧ s.svc.mb.go = true ∧ s.svc.mb.op = 4 ∧ s.svc.mb.legal = true ∧ s.svc.mb.arg1 = 1) := by decide +kernel
theorem test_witness_ServiceSteps : let m := mapped State.reset
    let stage (n : W32) := boxed 1 2 n 0 m
    let held := launched State.reset
    let load (s : State) := boxed 3 0 0 0 { s with svc := { s.svc with staged := some [] } }
    (runsOp (boxed 1 3 0 0 m) 1 = false ∧ (boxed 1 3 0 0 m).svc.mb.go = true ∧ (boxed 1 3 0 0 m).svc.mb.legal = false)
      ∧ (runsOp (stage 63) 1 && gotOk ((stage 63).farRead 0 0 0x10000 63) fun bs _ => bs.length == 63) = true
      ∧ (runsOp (stage 64) 1 && gotOk ((stage 64).farRead 0 0 0x10000 64) fun bs _ => bs.length == 64) = true
      ∧ (runsOp (boxed 2 1 0 0 m) 2 && ((boxed 2 1 0 0 m).firmware 1).inactive.ok && (boxed 2 0 0 0 m).noneInHand) = true
      ∧ (let s := boxed 2 0 0 0 { m with svc := { m.svc with fw := [(0, { bankB := { ok := false } })] } }
        runsOp s 2 && !(s.firmware 0).inactive.ok) = true
      ∧ (runsOp (load m) 3 && !(load m).basinHeld 0 && ((load m).getBasin 0).tug.cmds.isEmpty && (load m).svc.staged.isSome) = true
      ∧ (runsOp (load held) 3 && (load held).basinHeld 0) = true
      ∧ (runsOp (boxed 4 63 0 1900 m) 4 = true ∧ runsOp (boxed 4 0 1 0 m) 4 = true)
      ∧ (runsOp (boxed 5 2047 0 0 m) 5 && !(boxed 5 2047 0 0 m).basinHeld 2047) = true ∧ (runsOp (boxed 5 0 0 0 held) 5 && (boxed 5 0 0 0 held).basinHeld 0) = true
      ∧ (let s := boxed 5 0 0 0 { m with svc := { m.svc with usedSites := [(0, 16)] } }
        runsOp s 5 && !s.basinHeld 0 && decide (16 ≤ mget 0 s.svc.usedSites 0)) = true
      ∧ (let s := boxed 6 31 0 0 { m with svc := { m.svc with retired := 0x80000000 } }
        runsOp s 6 && s.svc.retired.getLsbD 31) = true := by decide +kernel
theorem test_witness_ServiceSteps_identity : let s := boxed 8 0 0 0 (mapped State.reset)
    (runsOp s 8 && gotOk (s.farWrite 0 0 0x10000 identityPublic) fun _ _ => true) = true := by decide +kernel
theorem test_witness_ServiceSteps_attest : let s := boxed 7 0 0 0 (mapped State.reset)
    (runsOp s 7 && gotOk (s.farRead 0 0 0x10000 32) fun nonce u => let body := u.reportBody nonce
      gotOk (({ u with free := u.free + 64 } : State).farWrite 0 0 0x10000 (body ++ identitySign body u.free)) fun _ _ => true) = true := by decide +kernel
/-- The mailbox asks for channel 0 to be retired, and no far memory holds anything. -/
def retiring : State := { State.reset with bootMode := 1, svc := { State.reset.svc with mb := { go := true, op := 6 } } }
theorem test_witness_ServiceSteps_retchan : runsOp retiring 6 = true ∧ retiring.svc.retired.getLsbD 0 = false ∧ retiring.spaceReaching (lpddrBytes 1) = none := by
  refine ⟨by decide, by decide, ?_⟩
  have h (pa : Nat) : retiring.entry pa = 0 := by
    simp [State.entry, State.bytesAt, State.byteAt, State.farLine, retiring, State.reset, mget, mfind, leNat, List.range_succ]
  have g (k : Nat) : retiring.badGranule k 8 = none := by simp [State.badGranule, retiring, State.reset, badIn]
  simp only [State.spaceReaching]
  exact List.findSome?_eq_none_iff.mpr fun n _ => by simp only [State.spaceBlocks, h, g]; rfl
theorem test_witness_ServiceSteps_unread : let t := hurt (boxed 6 0 0 0 (mapped State.reset)) [lpddrKey 0]
    runsOp t 6 = true ∧ t.svc.retired.getLsbD 0 = false ∧ t.spaceReaching (lpddrBytes 1) = some (0, some (lpddrKey 0)) := by decide +kernel
/-- With a second page of 2 GiB at 242 GiB, which retiring a channel takes away. -/
theorem test_witness_ServiceSteps_inuse : let t := boxed 6 0 0 0 ((mapped State.reset).putBytes (lpddrKey 0x2008) (leBytes 8 0x3C8000000F))
    runsOp t 6 = true ∧ t.spaceReaching (lpddrBytes 1) = some (0, none) := by decide +kernel
/-- A state whose next move is a cycle of core 16,383, with its contexts searched from c0. -/
def cycling (pc : Off) (bs : List Byte) : State :=
  let s : State := { State.reset with core := 16383, ctx := 0, sched := [.cycle 16383] }
  ((s.setCur { s.cur with status := .ready, pc := pc }).putBytes (localKey 16383 pc.toNat) bs).refetch 16383 0
/-- The same as its search begins. -/
def searched (s : State) : State := { ({ s with sched := [] } : State).landDue 16383 with core := 16383, ctx := 0 }
/-- The word that the context fetches. -/
def fetchedWord (s : State) (k : Nat) : Nat :=
  ((List.range k).map fun i => (s.fetchByte 16383 0 (s.cur.pc.toNat + i)).toNat * 256 ^ i).sum
theorem test_witness_StepRunsDecoded : let s := cycling 0 [0x05, 0x63, 0xD0, 0xFF]
    let u := searched s
    let key := localKey 16383 0
    (s.sched = [.cycle 16383] ∧ s.standsStill (basinOf 16383) = false ∧ ((s.getCore 16383).ilast + 1) % 11 = 0)
      ∧ (u.cur.status ≠ .idle ∧ u.cur.ending = none ∧ u.heldAtBoundary 16383 u.cur = false ∧ u.trapDue 16383 0 = false ∧ u.popsOf 16383 0 = [])
      ∧ (u.lineState (key / 64) ≠ .dropped ∧ u.badGranule key 2 = none ∧ (u.fetchByte 16383 0 0).toNat % 2 = 1
        ∧ u.lineState ((key + 2) / 64) ≠ .dropped ∧ u.badGranule (key + 2) 2 = none
        ∧ isOk (decode (fetchedWord u 4)) = true ∧ after (exec (.addi 6 6 0xFFD) u) (fun t => !(t.getCtx 16383 0).stays) = true)
      ∧ (let u := searched (cycling 0 [0xFF, 0xFF, 0xFF, 0xFF])
        isOk (decode (fetchedWord u 4)) = false
          ∧ after (exec (.illegalInstruction (BitVec.ofNat 32 (fetchedWord u 4))) u) (fun t => !(t.getCtx 16383 0).stays) = true)
      ∧ (let v := cycling 0 [0x05, 0x63, 0xD0, 0xFF]
        after (exec (.addi 6 6 0xFFD) (searched (v.setCur { v.cur with rst := [(6, .empty)] }))) (fun t => (t.getCtx 16383 0).stays) = true) := by
  decide +kernel
theorem test_witness_StepRunsDecoded_faults : let short := searched (cycling 0x1FFFE [0x01])
    let dead := searched ((cycling 0x40 []).setLine (localKey 16383 0x40 / 64) .dropped)
    let bad := searched { cycling 0x40 [] with errs := { mem := [(localKey 16383 0x40 / 8, true)] } }
    let late := searched ((cycling 0x7E [0x01]).setLine (localKey 16383 0x80 / 64) .dropped)
    (short.lineState (localKey 16383 0x1FFFE / 64) ≠ .dropped ∧ short.badGranule (localKey 16383 0x1FFFE) 2 = none
        ∧ (short.fetchByte 16383 0 0x1FFFE).toNat % 2 = 1 ∧ short.cur.pc.toNat = 0x1FFFE)
      ∧ dead.lineState (localKey 16383 0x40 / 64) = .dropped
      ∧ (bad.lineState (localKey 16383 0x40 / 64) ≠ .dropped ∧ (bad.badGranule (localKey 16383 0x40) 2).isSome = true)
      ∧ (late.lineState (localKey 16383 0x7E / 64) ≠ .dropped ∧ (late.fetchByte 16383 0 0x7E).toNat % 2 = 1
        ∧ late.lineState ((localKey 16383 0x7E + 2) / 64) = .dropped) := by decide +kernel
theorem test_witness_DecodeEncode : wellFormed (.addi 31 0 0x800) = true ∧ (∀ x, Instr.addi 31 0 0x800 ≠ .illegalInstruction x)
    ∧ (encode (.addi 31 0 0x800)).isSome = true ∧ wellFormed .hRet = true ∧ (encode .hRet).isSome = true := by
  refine ⟨by decide, by simp, by decide, by decide, by decide⟩
theorem test_witness_StepKeepsCanonical : let s := cycling 0 [0x05, 0x63, 0xD0, 0xFF]
    (Memory.wf s.mem = true ∧ mwf LineState.plain s.lines = true) ∧ countsOk s = true ∧ after (step s) (fun _ => true) = true := by decide +kernel
/-- A step keeps a count: a `stc` of the least and the greatest. -/
theorem test_counts_kept : (([1, 255] : List W128).all fun n =>
    let s := at0 (regs [(65, 0x80), (3, n), (36, 9)])
    let k : Core := s.me
    after (exec (.stc .core 4 1 3 false) (s.setMe { k with regions := [(0, some { base := 0x80, len := 64, ranges := [(2, 3)], faultPolicy := true })] })) fun t =>
      countsOk t && t.lineState 2 != .plain) = true := by decide
theorem test_witness_ResetState : (16383 < 16384 ∧ 10 ≤ 10 ∧ 0x1FFFF < 0x20000 ∧ 2047 < 2048 ∧ 11 < 12 ∧ 15 < 16 ∧ 0x1FFF < 0x2000)
    ∧ State.reset.Canonical ∧ countsOk State.reset = true := by simp only [State.Canonical]; decide

/-! ## Witnesses for faults, waits, and forms in a task -/

/-- A refill that stops at its first byte, at its third, and at the byte that a `bskip` reads. -/
theorem test_witness_BitBufferResults_stops : let s := at0 (fun x => { regs [(3, 32), (5, 61)] x with bbOff := 0x3E })
    let d := s.setLine 1 .dropped
    let h := hurt s [0x38]
    let k := hurt s [0x40]
    let seen (s : State) (off : Nat) : LineState := s.seenState (s.decsOf s.core s.cur) (localKey s.core off / 64)
    s.popsHold s.core s.ctx = false ∧ s.ready (.bget 1 3) [gid 3, bbId] [gid 1] = true ∧ s.cur.bbFill = 0
      ∧ ((∀ j, j < 2 → d.localReads ((0x3E + j) % 2 ^ 17)) ∧ seen d 0x40 = .dropped)
      ∧ (seen h 0x3E ≠ .dropped ∧ h.badGranule (localKey h.core 0x3E) 1 = some 7)
      ∧ ((∀ j, j < 2 → k.localReads ((0x3E + j) % 2 ^ 17)) ∧ seen k 0x40 ≠ .dropped ∧ k.badGranule (localKey k.core 0x40) 1 = some 8)
      ∧ (s.ready (.bskip 5) [gid 5, bbId] [] = true ∧ (61 - s.cur.bbFill) % 8 ≠ 0 ∧ seen d (0x3E + 7) = .dropped
        ∧ seen k (0x3E + 7) ≠ .dropped ∧ k.badGranule (localKey k.core (0x3E + 7)) 1 = some 8) := by
  simp only [State.localReads]; decide +kernel
theorem test_witness_HeaderResults_faults : let s := at0 (regs [(3, 0x1FFF9), (4, 0x1FFF4), (5, 0x1FFF8)])
    let d := s.setLine (localKey 0 0x1FFF8 / 64) .dropped
    let h := hurt s [0x1FFF8]
    s.ready (.hlay 0 3 4) [gid 3, gid 4] [gid 0] = true ∧ 0x1FFF8 < (s.rg 3).toNat ∧ ((s.rg 4).toNat ≤ 0x1FFF8 ∧ (s.rg 4).toNat % 8 ≠ 0)
      ∧ ((s.rg 5).toNat ≤ 0x1FFF8 ∧ (s.rg 5).toNat % 8 = 0)
      ∧ d.seenState (d.decsOf d.core d.cur) (localKey d.core 0x1FFF8 / 64) = .dropped
      ∧ (h.seenState (h.decsOf h.core h.cur) (localKey h.core 0x1FFF8 / 64) ≠ .dropped
        ∧ h.badGranule (localKey h.core 0x1FFF8) 8 = some 0x3FFF) := by decide +kernel
/-- How an access through a pointer register fails. -/
def failWith (s : State) (p : BitVec 3) (z : Nat) (acc : Acc) (form : Form) (f : Fail → Bool) : Bool :=
  match s.resolve s.core (s.rp p) z (min z 16) acc form with
  | .error e => f e
  | .ok _ => false
def isMiss (f : Fail) : Bool :=
  match f with
  | .miss _ => true
  | _ => false
def isUe (f : Fail) : Bool :=
  match f with
  | .ue _ => true
  | _ => false
/-- The place of an access. -/
def placed (s : State) (p : BitVec 3) (z : Nat) (acc : Acc) (form : Form) (f : Place → State → Bool) : Bool :=
  match s.resolve s.core (s.rp p) z (min z 16) acc form with
  | .ok (x, u) => f x u
  | .error _ => false
/-- The checks of the parts of an access fail. -/
def checksFail (s : State) (acc : Acc) (decs : List Nat) (ps : List Part) (f : Fail → Bool) : Bool :=
  match s.checkParts acc decs ps with
  | .error e => f e
  | .ok _ => false
/-- With p0 a far place that is not mapped, p1 the tug's registers, p2 those of the keeper, p3 the KICK register. -/
def engined (f : Ctx → Ctx) : State → State := fun s => s.setCur (regs [(64, 0x8000000000000000), (65, (nearPtr 0 9 8).zeroExtend 128),
  (66, (nearPtr 0 10 0).zeroExtend 128), (67, (nearPtr 0 9 0).zeroExtend 128)] (f s.cur))
/-- The engine register that an access names. -/
def engineAt (s : State) (p : BitVec 3) (acc : Acc) (unit off : Nat) : Bool :=
  match s.resolve s.core (s.rp p) 4 4 acc .word with
  | .ok (.engine 0 u o, v) => decide (u = unit ∧ o = off ∧ v = s)
  | _ => false
theorem test_witness_PointerLoads_fails : let s := w0 id
    let e := engined id (a0 id)
    (failWith e 0 4 .consume .any isMiss && checksFail (hurt s [0x80]) .read [] [{ key := 0x84, len := 1 }] (fun f => decide (f = .ue 0x80))
      && checksFail s .read (s.decsOf s.core s.cur) [{ key := 0x41, len := 1 }] (fun f => decide (f = .cause .overread))
      && engineAt e 1 .read 9 8 && engineAt e 2 .read 10 0
      && e.ready (.ldwPtr 0 1 .relaxed 0 false true) [pid 1, wid 1] [gid 0, pid 1]) = true := by decide +kernel
/-- The windows of `ringed` in a ring of four packages, with a FIFO window after the first: p0 in the first, p1 in the FIFO window,
p2 a far page that is not mapped, p3 the KICK register, p4 a FIFO bank. -/
def windowed (f : Ctx → Ctx) (task : Bool) (last : BitVec 6) : State :=
  let s := { (ringed.putBytes (lpddrKey 0x4008) (leBytes 8 0x10001000008F)) with ring := { ringed.ring with last } }
  let s := (launched { s with ctx := if task then 1 else 0 }).setBasin 0 (({} : Basin).setMode 3 2)
  s.setCur (regs [(64, 0x8000000080000040), (65, 0x8000000080080000), (66, 0x8000000100000000), (67, (nearPtr 0 9 0).zeroExtend 128),
    (68, (nearPtr 0 8 (3 * 131072)).zeroExtend 128)] (f { s.cur with status := .ready, pc := 0x100, task := if task then some { msg := {} } else none }))
/-- The ring parts of an access. -/
def ringAt (s : State) (p : BitVec 3) (z : Nat) (acc : Acc) (form : Form) (f : List RingPart → State → Bool) : Bool :=
  placed s p z acc form fun x u => match x with
    | .ring ps => f ps u
    | _ => false
theorem test_witness_PointerStores_ring : let s (task : Bool) (last : BitVec 6) := windowed id task last
    let one (fifo reaches : Bool) (ps : List RingPart) (u : State) : Bool := decide (ps.length = 1)
      && ps.all fun q => ringFifo q.leaf == fifo && u.ring.reaches q.leaf == reaches
    ringAt (s false 3) 0 16 .write .any (one false true) = true ∧ ringAt (s false 0) 0 64 .write .group (one false false) = true
      ∧ ringAt (s false 3) 1 64 .write .group (one true true) = true ∧ ringAt (s false 3) 1 4 .write .word (one true true) = true
      ∧ (ringAt (s true 3) 0 16 .write .any (one false true) = true ∧ (s true 3).inTask = true ∧ (s true 3).bufferRoom 16)
      ∧ ¬(windowed stuffed true 3).bufferRoom 16 ∧ (failWith (s false 3) 2 4 .write .word isMiss && (s false 3).ready (.vst 0 0 .relaxed 0 true) [vid 0, pid 0, wid 0] [pid 0]) = true
      ∧ (s false 3).popsHold 0 0 ((s false 3).bankOf 0 ((s false 3).rp 1) .write) = false := by
  simp only [State.bufferRoom]; decide +kernel
theorem test_witness_PointerStores_held : let t := w1 id
    t.inTask = true ∧ parts t 5 1 .write .any = some [{ key := 0x41, len := 1 }]
      ∧ t.checkStates .write (t.decsOf t.core t.cur) [{ key := 0x41, len := 1 }] = some .overread
      ∧ parts t 0 64 .write .group = some [{ key := 0x1FFC0, len := 64 }] ∧ t.checkStates .write (t.decsOf t.core t.cur) [{ key := 0x1FFC0, len := 64 }] = none
      ∧ (t.bufferRoom 64 ∧ ¬(w1 stuffed).bufferRoom 64) ∧ t.ready (.vstg 12 0 true) (vgroup 12 ++ [pid 0, wid 0]) [pid 0] = true
      ∧ t.popsHold 0 1 (t.bankOf 0 (t.rp 0) .write) = false ∧ (fifoAt t 7 .write 0 3 = true ∧ t.popsHold 0 1 (t.bankOf 0 (t.rp 7) .write) = false)
      ∧ checksFail (hurt (w0 id) [0x80]) .write [] [{ key := 0x84, len := 1 }] isUe = true := by
  simp only [State.bufferRoom]; decide +kernel
/-- A store to KICK of g3, g4, g5 (aligned, misaligned, past the last block), one that meets a full tug, and one to another register. -/
theorem test_witness_PointerStores_kick : let s := engined (regs [(3, 0xFFFFFFC0), (4, 0xFFFE0020), (5, 0x1FFC0)]) (a0 id)
    let b := s.getBasin 0
    let full := s.setBasin 0 { b with tug := { b.tug with cmds := (List.range 16).map fun k => { token := k, core := 0, ctx := 0, att := 0, handle := 5, off := 0 } } }
    (engineAt s 3 .write 9 0 && engineAt s 1 .write 9 8 && engineAt full 3 .write 9 0) = true ∧ s.inTask = false
      ∧ (bytes32 (leBytes 4 (s.rg 4).toNat)).toNat % 2 ^ 17 % 64 ≠ 0
      ∧ ((bytes32 (leBytes 4 (s.rg 3).toNat)).toNat % 2 ^ 17 % 64 = 0 ∧ (bytes32 (leBytes 4 (s.rg 5).toNat)).toNat % 2 ^ 17 ≤ 0x1FFC0)
      ∧ (s.accessPending s.core s.ctx .basin = false ∧ s.tugFull 0 = false ∧ full.tugFull 0 = true)
      ∧ s.ready (.stwPtr 3 3 .relaxed 0 true) [gid 3, pid 3, wid 3] [pid 3] = true := by decide +kernel
/-- Sixteen pops of context 0 hold FIFO bank 3, and a seventeenth waits at its mesh port, with a push behind it. -/
theorem test_witness_FifoAccesses_port : let pop (c k : Nat) : PopWait := { core := 0, ctx := c, vreg := 0, val := 0, seq := k }
    let f (c : Nat) (ps : List PushWait) : Fifo := { pops := (List.range 17).map (pop c), pushes := ps }
    let s (c : Nat) (ps : List PushWait) : State := { (w0 id).setFifo 0 3 (f c ps) with seq := 20 }
    let q : PushWait := { src := .ctx 0 1, data := 0, seq := 19 }
    let here (f : Fifo) := (f.pops.filter fun p => !f.pushes.any fun q => q.src == .ctx p.core p.ctx && decide (q.seq < p.seq)).take 16
    let atPort (f : Fifo) (q : PushWait) : Bool := f.pops.any fun p => !(here f).contains p && q.src == .ctx p.core p.ctx && decide (p.seq < q.seq)
    let new (s : State) : PushWait := { src := .ctx s.core s.ctx, data := 0, seq := s.seq }
    (fifoAt (s 0 []) 7 .write 0 3 = true ∧ (s 0 []).popsHold 0 0 (some (0, 3)) = false ∧ atPort (f 0 []) (new (s 0 [])) = true)
      ∧ (fifoAt (s 1 [q]) 7 .write 0 3 = true ∧ atPort (f 1 [q]) (new (s 1 [q])) = false ∧ atPort (f 1 [q]) q = true ∧ (s 1 [q]).repliesBefore 0 0 20 = false)
      ∧ (let r : State := { s 1 [] with net := [.fill 5 0 2 31 7 (.ctx 0 0 19)] }
        r.repliesBefore r.core r.ctx r.seq = true ∧ fifoAt r 7 .write 0 3 = true) := by decide +kernel
theorem test_witness_BlockPasses_bytes : let s := at0 fun x => { regs [(3, 0x38), (4, 0x100), (5, 16)] x with prog := 0 }
    s.inTask = false ∧ s.core < 16384 ∧ (s.cur.prog.toNat < (s.rg 5).toNat ∧ (∀ j, j < 16 → s.lineState (localKey 0 (0x38 + j) / 64) = .plain))
      ∧ ∀ p ∈ localParts s.core 0x38 16, s.badPartial p.key p.len = none := by decide +kernel
/-- Accesses over the end of a line into a page that is not mapped, from a window into memory, and between windows. -/
theorem test_witness_WritesAndDecrements_crossing : let s := windowed id false 3
    let t := s.putBytes (lpddrKey 0x4008) (leBytes 8 0x20000000008F)
    let u := t.putBytes (lpddrKey 0x4008) (leBytes 8 0)
    let r (s : State) (va : Nat) : Except Fail (Place × State) := s.resolve 0 (BitVec.ofNat 64 (2 ^ 63 + va)) 4 1 .write
    let err (o : Except Fail (Place × State)) (f : Fail → Bool) : Bool := match o with
      | .error e => f e
      | .ok _ => false
    let window (k : Nat) (ring : Bool) (s : State) (va : Nat) : Bool := match (s.via k).2.translate (s.via k).1 0 va .write with
      | .ok (.ring _) _ => ring
      | .ok (.mem ..) _ => !ring
      | _ => false
    (err (r u 0x8007FFFE) isMiss && window 0 true u 0x8007FFFE) = true
      ∧ (err (r (s.putBytes (lpddrKey 0x2000) (leBytes 8 0)) (2 ^ 31 - 2)) isMiss) = true
      ∧ (err (r ((s.putBytes (lpddrKey 0x2010) (leBytes 8 0x80000000F))) 0xFFFFFFFE)) isMiss = true
      ∧ (err (r s 0x8007FFFE) (fun f => decide (f = .cause .range)) && window 0 true s 0x8007FFFE && window 0 true s 0x80080000) = true
      ∧ (match r t 0x8007FFFE with
        | .ok (.ring ps, _) => decide (ps.map RingPart.len = [2, 2] ∧ (ps.map RingPart.leaf).Nodup)
        | _ => false) = true := by decide +kernel
/-- The state of `windowed` with far pages that hold counted lines, and a region over a far line, one of bank 2 and one of local
memory; basin 0 has `n` ways, the far line is cached, and another line of its set has the count `k`. -/
def counting (f : Ctx → Ctx) (task : Bool) (n : Nat) (k : LineState) : State :=
  let s := windowed (f ∘ regs [(69, 0x8000000000010000), (70, (nearPtr 0 8 (2 * 131072 + 64)).zeroExtend 128), (71, 0x80), (3, 255), (45, 7)]) task 3
  let s := ((s.putBytes (lpddrKey 0x2000) (leBytes 8 0x3F)).putBytes (lpddrKey 0x4000) (leBytes 8 0x10000000009F)).putBytes
    (lpddrKey 0x4008) (leBytes 8 0x10001000009F)
  let s := s.setBasin 0 (((List.range (12 - n)).foldl (fun b j => b.setMode (n + j) 1) (s.getBasin 0)).setMode 3 2)
  let lk (key : Nat) : Nat × Nat := (key / 64, key / 64 + 1)
  { s.setMe { s.me with regions := [(0, some { base := 0, len := 64, ranges := [(2, 3), lk (bankKey 0 2 64), lk (2 ^ 48 + 0x10000)], faultPolicy := true })] }
    with far := [((2 ^ 48 + 0x10000) / 64, { bank := 1, dirty := true, data := 5 }), ((2 ^ 48 + 0x30000) / 64, { bank := 0, dirty := false, data := 0, st := k })] }
/-- The far line of `counting` passes the checks of `stc` and its set answers so. -/
def pins (s : State) (r : Option Bool) (t : Option Nat) : Bool :=
  placed s 5 64 .counted .group fun x u => match x with
    | .mem [p] => decide (p.key = 2 ^ 48 + 0x10000 ∧ u.inRegion (p.key / 64) = true ∧ u.lineState (p.key / 64) = .plain ∧ u.badPartial p.key p.len = none
        ∧ u.pinRoom (p.key / 64) = r ∧ u.cur.pinStart = t)
    | _ => false
theorem test_witness_CountedStore_places : let s := counting id false 2 .plain
    let e (st : LineState) : State := counting (fun x => { x with pinStart := some 0 }) false 2 st
    let near (s : State) (a : BitVec 3) (f : Part → State → Bool) : Bool := placed s a 64 .counted .group fun x u => match x with
      | .mem [p] => u.inRegion (p.key / 64) && u.lineState (p.key / 64) == .plain && f p u
      | _ => false
    (pins s (some true) none && pins (counting id false 1 .plain) none none && pins (counting id false 2 (.counted 1)) (some false) none
        && pins (e (.counted 1)) (some false) (some 0)) = true
      ∧ ((e LineState.plain).me.cyc - 0 < (e LineState.plain).me.cntLimit.toNat
        ∧ (let x := (e LineState.plain).setMe { (e LineState.plain).me with cyc := 65536 }
          pins x (some true) (some 0) = true ∧ x.me.cntLimit.toNat ≤ x.me.cyc - 0))
      ∧ near s 6 (fun p _ => decide (p.key = bankKey 0 2 64)) = true
      ∧ ringAt s 0 64 .counted .group (fun ps u => ps.all fun q => !ringFifo q.leaf && u.ring.reaches q.leaf) = true
      ∧ ringAt { s with ring := { s.ring with last := 0 } } 0 64 .counted .group (fun ps u => ps.all fun q => !ringFifo q.leaf && !u.ring.reaches q.leaf) = true
      ∧ ringAt s 1 64 .counted .group (fun ps _ => ps.all fun q => ringFifo q.leaf) = true
      ∧ (placed s 4 64 .counted .group (fun x _ => x == .fifo 0 3) && failWith s 2 64 .counted .group isMiss) = true
      ∧ s.ready (.stc .sys 12 5 3 true) (vgroup 12 ++ [pid 5, wid 5] ++ [gid 3]) [pid 5] = true ∧ s.accessPending s.core s.ctx .sys = false
      ∧ ptrOff (0x8000000080000041 : W64) % 64 ≠ 0 := by decide +kernel
theorem test_witness_CountedStore_held : let t := counting id true 2 .plain
    let u := t.setLine 2 (.counted 1)
    let at_ (s : State) (st : LineState) : Bool := placed s 7 64 .counted .group fun x v => match x with
      | .mem [p] => decide (p.key = 0x80) && v.inRegion 2 && v.seenState (v.decsOf s.core s.cur) 2 == st
      | _ => false
    t.inTask = true ∧ (at_ t .plain && at_ u (.counted 1)) = true ∧ (t.bufferRoom 64 ∧ ¬(counting stuffed true 2 .plain).bufferRoom 64)
      ∧ t.ready (.stc .sys 12 7 3 true) (vgroup 12 ++ [pid 7, wid 7] ++ [gid 3]) [pid 7] = true
      ∧ ringAt t 0 64 .counted .group (fun ps _ => ps.all fun q => !ringFifo q.leaf) = true := by
  simp only [State.bufferRoom]; decide +kernel
/-- A transfer of core 0 with the registers of a good one, changed by `xs`: p0 in its own memory, p1 a core outside the launch, p2 FIFO
bank 3, p3 misaligned. -/
def moved (task : Bool) (xs : List (Nat × W128)) : State :=
  let f : Ctx → Ctx := regs ([(64, 0x400), (65, (nearPtr 1 0 0).zeroExtend 128), (66, (nearPtr 0 8 (3 * 131072)).zeroExtend 128), (67, 0x410),
    (128, 64), (129, 16), (130, 0x100), (132, 0x80000100), (133, 255), (134, 0x1FFFC)] ++ xs)
  banks (if task then a1 f else a0 f)
/-- The first failing check of `put.c.cnt.hnd` with p[a] and g3, by its place in R130, and of `putx.c`, by its place in R131. -/
def putStop (s : State) (a : BitVec 3) : Option Nat :=
  let P := s.rp a
  let n := (s.re 0).toNat
  ([131072 < n, 131072 < (s.rg 3).toNat + n, 0x1FFFC < (s.re 6).toNat, (s.re 6).toNat % 4 ≠ 0, ptrKind P = 1 ∧ 8 ≤ ptrUnit P, ptrOff P % 64 ≠ 0,
    n % 64 ≠ 0, (s.re 5).toNat < 1 ∨ 255 < (s.re 5).toNat, n % 64 ≠ 0 ∧ s.fifoWindow s.core P = true, handlerOk (s.re 4) = false] : List Bool).findIdx? id
def putxStop (s : State) (a : BitVec 3) : Option Nat :=
  let n := (s.re 0).toNat
  let z := (s.re 1).toNat
  ([4096 < n, z < 1 ∨ 4096 < z, 131072 < (s.rg 3).toNat + n * z, (s.re 2).toNat % 4 ≠ 0, 0x1FFFC < (s.re 6).toNat, (s.re 6).toNat % 4 ≠ 0,
    n * z % 64 ≠ 0 ∧ s.fifoWindow s.core (s.rp a) = true] : List Bool).findIdx? id
theorem test_witness_TransfersStart_checks : let put (a : BitVec 3) (xs : List (Nat × W128)) := putStop (moved false xs) a
    let putx (xs : List (Nat × W128)) := putxStop (moved false xs) 0
    ptrCheck ((moved false []).recOf 0) ((moved false []).rp 1) = some .range ∧ ptrCheck ((moved false []).recOf 0) ((moved false []).rp 2) = none
      ∧ [put 0 [(128, 131073)], put 0 [(3, 131009)], put 0 [(134, 0x1FFFD)], put 0 [(134, 2)], put 2 [], put 3 [], put 0 [(128, 65)], put 0 [(133, 0)],
        put 0 [(133, 256)], put 0 [(132, 1)], put 0 []] = [some 0, some 1, some 2, some 3, some 4, some 5, some 6, some 7, some 7, some 9, none]
      ∧ [putx [(128, 4097)], putx [(129, 0)], putx [(129, 4097)], putx [(3, 130049)], putx [(130, 2)], putx [(134, 0x20000)], putx [(134, 1)], putx []]
        = [some 0, some 1, some 1, some 2, some 3, some 4, some 5, none] := by decide +kernel
/-- A put of 65 bytes into a FIFO window, of a full buffer, and of a task whose effects are published first; `fwait` with one under way. -/
theorem test_witness_TransfersStart_forms : let w := (windowed (regs [(128, 65), (129, 13)]) false 3)
    let t := moved true []
    let x : Xfer := { id := 0, core := 0, ctx := 0, att := 0, handle := 5, kind := .put, ptr := localPtr 0x400, loff := 0, len := 16 }
    let u := (moved false []).setMe { (moved false []).me with xfers := [x] }
    (ptrCheck (w.recOf 0) (w.rp 1) = none ∧ (w.re 0).toNat % 64 ≠ 0 ∧ w.fifoWindow w.core (w.rp 1) = true ∧ 65 * 13 % 64 ≠ 0)
      ∧ (t.inTask = true ∧ isOk t.publish = true ∧ ¬(a1 stuffed).bufferRoom 0)
      ∧ t.ready (.getx 0 0 3 true true) ([pid 0, gid 3] ++ [0, 1, 2, 3, 6].map eid) [gid 0] = true
      ∧ (u.xfersOf u.core u.ctx ≠ [] ∧ u.ready .fwait [] [] = true) := by simp only [State.bufferRoom]; decide +kernel
/-- Atomics that wait, fail or find no room: p0 not mapped, p1 malformed, p2 a plain word, e4 no handler. -/
theorem test_witness_AtomicForms_fails : let f := regs [(64, 0x8000000000000000), (65, 0xC000000000000000), (66, 0x400), (3, 7), (132, 1)]
    let s := (a0 f).setFifo 0 3 { pushes := [{ src := .ctx 0 0, data := 0 }] }
    let p : State := { s with seq := 1 }
    let t := a1 f
    let place (s : State) (a : BitVec 3) (op : AtomOp) (g : Except Fail (Place × State) → Bool) : Bool := g (s.resolveAtomic s.core (s.rp a) op 4)
    let mem (r : Except Fail (Place × State)) : Bool := match r with
      | .ok (.mem ps, _) => decide (ps.map Part.len = [4])
      | _ => false
    let err (g : Fail → Bool) (r : Except Fail (Place × State)) : Bool := match r with
      | .error e => g e
      | _ => false
    (isOk p.publish = true ∧ p.accessPending p.core p.ctx .basin = true ∧ p.ready (.rmwadd false .release .basin 0 2 3) [pid 2, gid 3] [gid 0] = true)
      ∧ (place t 0 .add (err isMiss) && place t 1 .add (err fun e => decide (e = .ptr .ptr)) && place (a0 f) 0 .add (err isMiss)
        && place t 2 .dec mem && place (a0 f) 2 .dec mem) = true
      ∧ (handlerOk (t.re 4) = false ∧ (t.checkStates .atomic (t.decsOf t.core t.cur) [{ key := 0x400, len := 4 }]) = none ∧ ¬(a1 (stuffed ∘ f)).bufferRoom 4)
      ∧ checksFail (hurt (a0 f) [0x400]) .atomic [] [{ key := 0x400, len := 4 }] isUe = true
      ∧ isOk ((a0 f).checkParts .atomic [] [{ key := 0x400, len := 4 }]) = true := by simp only [State.bufferRoom]; decide +kernel
theorem test_witness_Returns_ue : let s := hurt (at0 fun x => { x with links := [], spillBase := 16, spillTop := 17 }) [0x40]
    s.cur.links = [] ∧ s.cur.spillBase.toNat * 4 < s.cur.spillTop.toNat * 4 ∧ s.popsHold s.core s.ctx = false
      ∧ s.seenState (s.decsOf s.core s.cur) (localKey s.core 0x40 / 64) ≠ .dropped ∧ s.badGranule (localKey s.core 0x40) 4 = some 8
      ∧ s.ready .ret [linkId] [] = true := by decide +kernel
theorem test_witness_RepeatResults_stops : let d := (at0 id).setLine (localKey 0 0x104 / 64) .dropped
    let h := hurt (at0 id) [0x100]
    d.fetchStop d.core d.ctx 0x104 = some .overread ∧ (h.fetchStop h.core h.ctx 0x104 = some .ue ∧ h.badGranule (localKey h.core 0x104) 2 = some 0x20)
      ∧ (at0 id).fetchStop 0 0 0x1FFFE = none ∧ (at0 id).fetchStop 0 0 0x104 = none := by decide +kernel
/-- A unit whose queue is full, one with a halt, and one that changes its format; commands whose operands fail a check. -/
theorem test_witness_MatrixIssue_checks :
    let s (e0 e1 e2 : W128) (fmt : BitVec 2) : State :=
      let u := a0 (regs [(64, 0x400), (65, 0xC000000000000000), (66, 0x8000000000000000), (128, e0), (129, e1), (130, e2)])
      u.setMe { u.me with netfmt := fmt }
    let rows (u : State) (least : Nat) : Bool :=
      let e := (u.re 0).toNat
      decide (e / 2 ^ 14 % 4 ≠ 0 ∨ e / 2 ^ 7 % 2 ≠ 0 ∨ e % 128 < least ∨ 64 < e % 128 ∨ 64 < e / 256 % 64 + e % 128)
    let q (halt : Bool) (fmt : Option (BitVec 2 × Bool)) : State :=
      let u := s 64 0 0 0
      u.setMat 0 { u.me.mat with queue := List.replicate 8 { op := .macz 0, word := 0 }, halt := halt, fmt := fmt }
    (8 ≤ (q false none).me.mat.queue.length ∧ (q true none).me.mat.halt = true ∧ ((q true none).me.mat.queue.length = 8) ∧ (q false (some (0, false))).me.mat.fmt ≠ none)
      ∧ (ptrCheck ((s 0 0 0 0).recOf 0) ((s 0 0 0 0).rp 1) = some .ptr ∧ ptrCheck ((s 0 0 0 0).recOf 0) ((s 0 0 0 0).rp 0) = none)
      ∧ (((s 64 0 0 0).re 0).toNat / 2 ^ 6 ≠ 0 ∧ ((s 1 0 0 0).re 0).toNat % 2 ^ 4 ≠ 0) ∧ 1 < ptrKind ((s 0 0 0 0).rp 2)
      ∧ ([(0 : W128), 65, 128, 0x4000, 0x3F02].all fun e => rows (s e 0 0 0) 1) = true ∧ rows (s 64 0 0 0) 1 = false ∧ rows (s 1 0 0 0) 2 = true
      ∧ ((s 64 0x20000 0x10000 1).me.netfmt ≠ 0 ∧ 2 ^ 17 ≤ ((s 64 0x20000 0x10000 1).re 1).toNat ∧ 2 ^ 16 ≤ ((s 64 0x20000 0x10000 1).re 2).toNat)
      ∧ ¬(a1 stuffed).bufferRoom 0 := by simp only [State.bufferRoom]; decide +kernel
/-- An `mcmd` whose target, word or carried command fails its check: p0 malformed, p1 no core, p2 core 1, e3 an `addi` or an `mrun`. -/
theorem test_witness_MatrixControl_checks :
    let s (e0 e3 : W128) : State :=
      a0 (regs [(64, 0xC000000000000000), (65, 0x400), (66, (nearPtr 0 1 0).zeroExtend 128), (128, e0), (131, e3)])
    let run : W32 := wordOf (.mrun .rdn false false false 0 9 2 2)
    let u := s 3 (run.zeroExtend 128)
    let m := u.setMat 0 { u.me.mat with fmt := some (1, false) }
    (s 0 0).cur.regState (eid 3) = .full ∧ ptrCheck ((s 0 0).recOf 0) ((s 0 0).rp 0) = some .ptr
      ∧ (ptrCheck ((s 0 0).recOf 0) ((s 0 0).rp 1) = none ∧ ¬ptrKind ((s 0 0).rp 1) = 1) ∧ (ptrKind ((s 0 0).rp 2) = 1 ∧ ptrUnit ((s 0 0).rp 2) < 8)
      ∧ (decode ((wordOf (.addi 1 1 1)).toNat) = .ok (.addi 1 1 1) ∧ isOk (decode 0xFFFFFFFF) = false)
      ∧ ((carriedForm u (u.re 3)).any fun f => match f.capture u (u.re 3) 9 with
        | .error (.trap t c v) => decide (t = u ∧ c = .range ∧ v = u.re 0)
        | _ => false) = true
      ∧ (m.me.mat.fmt = some (1, false) ∧ m.ctx = 0 ∧ ¬(a1 stuffed).bufferRoom 0) := by simp only [State.bufferRoom]; decide +kernel
/-- The image of a tile or a slot goes to local memory, or meets a page that is not mapped; it is read back from where a command was. -/
def imaged (op : MatOp) (P : W64) (f : MatCmd → MatCmd) : State :=
  let s := a0 id
  s.setMat 0 { s.me.mat with queue := [f { op := op, word := 0, pa := P }], slot0 := { state := .valid } }
theorem test_witness_MatrixServiceSteps_images : let s := imaged (.msave .slot 0) (localPtr 0x400) id
    let far := imaged (.msave .slot 0) 0x8000000000000000 fun c => { c with image := List.replicate 2752 0, pos := 64 }
    let writes (s : State) (P : W64) (pos : Nat) (image : List Byte) (f : Option (Nat × MatFail) → Bool) : Bool :=
      f (s.writeImage 0 (chunksOf P pos (image.length - pos)) pos (image.drop pos)).2
    (s.nextMat 0).any (fun e => decide (e.2.bad = false ∧ e.2.verdict = none ∧ e.2.image = [] ∧ ptrOff e.2.pa % 64 = 0)) = true
      ∧ (writes s (localPtr 0x400) 2688 (List.replicate 2752 1) Option.isNone && writes s (localPtr 0x400) 8192 (List.replicate 8256 1) Option.isNone) = true
      ∧ writes far 0x8000000000000000 64 (List.replicate 2752 0) (fun r => match r with
        | some (pos, .miss ..) => pos == 64
        | _ => false) = true
      ∧ (far.nextMat 0).any (fun e => decide (e.2.image ≠ [] ∧ e.2.pos = 64)) = true := by decide +kernel
/-- Two commands that `msave.q` moves, the second of which cannot be read, or can. -/
theorem test_witness_MatrixServiceSteps_queue : let c (b : Bool) : MatCmd := { op := .macz 0, word := 0, bad := b }
    let s (b : Bool) : State :=
      let u := imaged (.msave .queue 0) (localPtr 0x400) id
      u.setMat 0 { u.me.mat with halt := true, queue := u.me.mat.queue ++ [c false, c b] }
    let mine (s : State) : List MatCmd := s.me.mat.queue.filter fun x => !x.op.isSave
    ((s true).nextMat 0).any (fun e => decide (e.1 = 0 ∧ e.2.op = .msave .queue 0 ∧ e.2.bad = false ∧ e.2.image = [])) = true ∧ (s true).me.mat.halt = true
      ∧ (c true ∈ (s true).me.mat.queue ∧ (c true).op.isSave = false) ∧ (∀ x ∈ mine (s false), x.bad = false)
      ∧ (let u := s false
        (u.writeImage 0 (chunksOf (localPtr 0x400) 0 (queueImage (mine u)).length) 0 (queueImage (mine u))).2.isNone) = true := by decide +kernel
/-- What a task holds when it publishes: a store of local memory, a pass of `lfill`, and a decrement of a counted line; then a store of
a counted line, which fails. -/
theorem test_witness_CommitPoints_publish :
    let s (held : List Held) (r : Bool) : State :=
      let u := a1 fun x => { x with held := held, task := some { msg := {}, retryable := r } }
      (u.setLine 2 (.counted 1)).setLine 3 (.counted 1)
    let st : Held := .store (localPtr 0x40) [7] none
    let all : List Held := [st, .lmem 0x48 [1, 2], .decr (localPtr 0x80) 0x80 none, .fence .core 1]
    let bad : Held := .store (localPtr 0xC0) [7] none
    let w := s all true
    (w.xferBusy 0 1 w.cur.att = false ∧ w.quiet 0 1 ∧ w.ready .commit [] [] = true)
      ∧ (match w.resolve 0 (localPtr 0x40) 1 1 .write (heldForm [7]) with
        | .ok (.mem ps, x) => isOk (x.checkParts .write [] ps) && decide (x = w)
        | _ => false) = true
      ∧ (∀ p ∈ localParts 0 0x48 2, w.lineState (p.key / 64) = .plain ∧ w.badPartial p.key p.len = none)
      ∧ (match w.resolve 0 (localPtr 0x80) 1 1 .dec with
        | .ok (.mem [p], x) => isOk (x.checkParts .dec [] [p])
        | _ => false) = true
      ∧ w.fencePending 0 1 .core 1 = false
      ∧ published w (fun v => decide (v.cur.held = []) && v.memNat 0x40 1 == 7 && v.memNat 0x48 2 == 0x201 && v.lineState 2 == .dropped
        && v.cur.task.any fun t => !t.retryable) = true
      ∧ (let f := s [st, bad] true
        f.xferBusy 0 1 f.cur.att = false ∧ (match f.resolve 0 (localPtr 0xC0) 1 1 .write (heldForm [7]) with
          | .ok (.mem ps, x) => checksFail x .write [] ps (fun e => decide (e = .cause .cntwrite)) && decide (x = f)
          | _ => false) = true
        ∧ after (exec .commit f) (fun t => (t.getCtx 0 1).code == 0x08 && (t.getCtx 0 1).trapVal == 0xC0 && t.memNat 0x40 1 == 7) = true) := by
  simp only [State.quiet]; decide +kernel
/-- A first commit point with a transfer under way, and one whose task has a push that waits. -/
theorem test_witness_CommitPoints_publish_waits : let s := a1 fun x => { x with task := some { msg := {} } }
    let x : Xfer := { id := 0, core := 0, ctx := 1, att := 0, handle := 5, kind := .get, ptr := localPtr 0x400, loff := 0, len := 16 }
    let t := s.setMe { s.me with xfers := [x] }
    let p : State := { s.setFifo 0 3 { pushes := [{ src := .ctx 0 1, data := 0 }] } with seq := 1 }
    (t.xferBusy 0 1 t.cur.att = true ∧ t.cur.task.any (fun k => k.retryable) = true ∧ t.ready .commit [] [] = true)
      ∧ (p.xferBusy 0 1 p.cur.att = false ∧ p.cur.held = [] ∧ p.storesBefore 0 1 p.seq true = true ∧ p.ready .commit [] [] = true) := by decide +kernel
/-- `waitf` at a misaligned place and past the end, at a dropped line and at an error, and once a write has met one. -/
theorem test_witness_CommitPoints_waitf : let s := a0 (regs [(3, 0x1FFFD), (4, 0x20000), (5, 0x80)])
    let d := s.setLine 2 .dropped
    let h := hurt s [0x80]
    let w : State := { s with watches := [{ core := 0, ctx := 0, off := 0x80, need := 0, hit := some (some .overread) }] }
    published s (fun v => decide (v = s)) = true ∧ ((s.rg 3).toNat % 4 ≠ 0 ∧ (s.rg 4).toNat % 4 = 0 ∧ 0x1FFFC < (s.rg 4).toNat)
      ∧ (s.ready .hNop [gid 5, gid 0] [] = true ∧ s.watchOf 0x80 0 = none)
      ∧ published d (fun v => v.lineState (localKey 0 0x80 / 64) == .dropped && (v.watchOf 0x80 0).isNone) = true
      ∧ published h (fun v => decide (v.lineState (localKey 0 0x80 / 64) ≠ .dropped ∧ v.badGranule (localKey 0 0x80) 4 = some 0x10) && (v.watchOf 0x80 0).isNone) = true
      ∧ published w (fun v => (v.watchOf 0x80 0).any fun x => x.hit == some (some .overread)) = true := by decide +kernel
theorem test_witness_BarrierResults_stops : let s := a0 (regs [(3, 8), (4, 7)])
    let at_ (b : BarPhase) (brk : Bool) : State := (s.setBar 7 { exp := 1, brk }).setCur { s.cur with bar := b }
    let grants (n : Nat) : Bool := decide ((s.recOf 0).baren = true ∧ (s.recOf 0).barlo ≤ n ∧ n ≤ (s.recOf 0).barhi ∧ n ≤ 255)
    let q := { (at_ .none false).setFifo 0 3 { pushes := [{ src := .ctx 0 0, data := 0 }] } with seq := 1 }
    (grants (s.rg 3).toNat = false ∧ grants (s.rg 4).toNat = true)
      ∧ published (at_ .none true) (fun v => decide (v.cur.bar = .none) && (v.getBar 7).brk && !(v.getBar 7).bad) = true
      ∧ published (at_ (.over 255) false) (fun v => decide (v.cur.bar = .over 255)) = true
      ∧ published (at_ (.sent 7 true false 0) false) (fun v => decide (v.cur.bar = .sent 7 true false 0)) = true
      ∧ published q (fun v => decide (v.cur.bar = .none) && v.accessPending v.core v.ctx .pkg) = true
      ∧ (at_ .none true).ready .hNop [gid 4, gid 0] [gid 31] = true := by decide +kernel
/-- A box whose decrements are still to be made: of a line of a counted, a dropped, and an unmapped source. -/
theorem test_witness_TugSteps_decs : let blk (lo hi : Nat) : Line := blockOf [(0, 1 + 2 ^ 8), (0x10, lo), (0x14, hi), (0x18, 0x800), (0x20, 1)]
    let s (lo hi : Nat) (st : LineState) : State := (tugged (blk lo hi) fun c => { c with started := true, nboxes := 1, decs := some [16] }).setLine 16 st
    let dec (s : State) (f : Except Fail (Place × State) → Bool) : Bool := tugIs s fun c =>
      f (s.resolve c.core (setOff c.src ((ptrWidth c.src).getD 0) (64 * 16)) 1 1 .dec .any .tug c.basin)
    tugIs (s 0x400 0 (.counted 1)) (fun c => (s 0x400 0 (.counted 1)).boxReady c 0 && decide (c.decs = some [16])) = true
      ∧ (dec (s 0x400 0 (.counted 1)) (fun r => match r with
          | .ok (.mem [p], u) => decide (p.key = 0x400 ∧ u.lineState (p.key / 64) = .counted 1)
          | _ => false)
        && dec (s 0x400 0 .dropped) (fun r => match r with
          | .ok (.mem [p], u) => decide (p.key = 0x400 ∧ u.lineState (p.key / 64) = .dropped)
          | _ => false)
        && dec (s 0 0x80000000 .plain) (fun r => match r with
          | .error (.miss _) => true
          | _ => false)) = true := by decide +kernel
theorem test_witness_SystemResults_pop : let s := (a0 (regs [(3, 11), (4, 1)])).setFifo 0 11 { pops := [{ core := 0, ctx := 0, vreg := 0, val := 0 }] }
    let s := s.setBasin 0 ((s.getBasin 0).setMode 11 2)
    s.ctx = 0 ∧ ((s.rg 3).toNat ≤ 11 ∧ (s.rg 4).toNat ≤ 2 ∧ ((s.getBasin 0).mode 11).toNat ≠ (s.rg 4).toNat)
      ∧ (∃ w ∈ ((s.getBasin 0).fifo 11).pops, w.core = s.core ∧ w.ctx = s.ctx) ∧ s.ready (.bmode 3 4) [gid 3, gid 4] [] = true := by decide +kernel
/-- An attempt that ends: while a transfer of it runs, killed, aborted, aborted for the last time, and waiting for a page. -/
def ending (kill : Bool) (attempt : Nat) (page : Option (Option (Option Cause))) (pages : Nat) : State :=
  let w (a : Option (Option Cause)) : PageWait := { msg := { attempt }, miss := { space := 0, va := 0, kind := 0, reason := 0 }, tag := none, answer := a }
  let s := a1 fun x => { x with task := some { msg := { attempt } }, ending := some { kill, cause := .range, pc := 0x100, val := 0, page := page.map w } }
  s.setMe { s.me with pages := List.replicate pages (w none) }
theorem test_witness_TrapEntry_attempts :
    let free (s : State) : Bool := s.attemptBusy 0 1 (s.getCtx 0 1).att == false && (s.getCtx 0 1).ending.isSome
      && (s.getCtx 0 1).task.any fun t => (s.getCtx 0 1).ending.all fun e => e.page.all fun w => decide (w.msg = t.msg)
    let x : Xfer := { id := 0, core := 0, ctx := 1, att := 0, handle := 5, kind := .get, ptr := localPtr 0x400, loff := 0, len := 16 }
    let busy := (ending true 0 none 0).setMe { (ending true 0 none 0).me with xfers := [x] }
    let r := (a1 id).recOf 0
    busy.attemptBusy 0 1 (busy.getCtx 0 1).att = true
      ∧ ([ending true 0 none 0, ending false 0 none 0, ending false 255 none 0, ending false 0 (some none) 63, ending false 0 (some none) 64,
          ending false 0 (some (some none)) 0, ending false 0 (some (some (some .xlate))) 0].all free) = true
      ∧ ((r.retry.toNat ≤ 255 ∧ 0 < ({ r with retry := 1 } : LaunchRec).retry.toNat) ∧ ((ending false 0 (some none) 63).getCore 0).pages.length = 63
        ∧ ((ending false 0 (some none) 64).getCore 0).pages.length = 64)
      ∧ (r.hasCore 0 = true ∧ r.d1 < 4 ∧ r.r1 < 16 ∧ r.c1 < 32 ∧ (∃ j, r.hasCore j = true ∧ 0 < j) ∧ r.hasCore 7 = true) := by
  refine ⟨by decide +kernel, by decide +kernel, by decide +kernel, by decide +kernel, by decide +kernel, by decide +kernel, by decide +kernel, ⟨7, by decide +kernel⟩,
    by decide +kernel⟩
/-- A result for g0 and, twice, for w31, the last value of which stays; g5 is not named. -/
theorem test_witness_TrapEntry_lands : let l : Landing := { regs := [(0, 9), (127, 1), (127, 2 ^ 127 + 3)], flags := some 1 }
    let y := ({ rst := [(127, .empty)] } : Ctx).land l
    l.regs = [(0, 9), (127, 1)] ++ (127, 2 ^ 127 + 3) :: [] ∧ (∀ e ∈ l.regs, e.1 ≠ 5 ∧ e.1 < 160) ∧ (y.value 127).toNat = (2 ^ 127 + 3) % 2 ^ 32
      ∧ y.value 0 = 0 ∧ y.regState 127 = .full := by decide +kernel
/-- A source with an error, one that a second read finds clean, an access that misses, and one that the host has refused. -/
theorem test_witness_EmptySourcesPark_stops : let i : Instr := .add 9 3 5
    let s := at0 id
    let broken : State := { s with errs := { s.errs with regs := [(regKey 0 0 5, true)] } }
    let misread : State := { s with errs := { s.errs with glitch := [(regKey 0 0 5, true)] } }
    let quiet (s : State) : Bool := decide ((encode i).isSome = true ∧ legalIn s i = true ∧ s.cur.xtag = none ∧ s.cur.verdict = none ∧ s.cur.publishing = false
      ∧ s.cur.judged ≠ some true ∧ sourcesOf s i = [3] ++ 5 :: []) && (destsOf i).all fun id => !s.outstanding id
    let bad (m : SMap Bool) (r : Nat) : Bool := mget false m (regKey 0 0 r)
    (quiet broken && bad broken.errs.regs 5 && !bad broken.errs.regs 3 && ([3, 5].all fun r => !bad broken.errs.glitch r)) = true
      ∧ (quiet misread && bad misread.errs.glitch 5 && !bad misread.errs.glitch 3) = true
      ∧ (let t := at0 fun x => { x with xtag := some { quay := 0, tag := 0 } }
        let v := at0 fun x => { x with verdict := some .xlate, missVal := 7 }
        (encode i).isSome = true ∧ (legalIn t i = true ∧ t.cur.xtag ≠ none) ∧ (legalIn v i = true ∧ v.cur.xtag = none ∧ v.cur.verdict = some .xlate)) := by
  decide +kernel
/-- Tags of a quay core: one that fits, none, and 64 others; a miss outside a task, in one, and after its first commit point. -/
theorem test_witness_EmptySourcesPark_tags :
    let m : Miss := { space := 1, va := 2 ^ 19, kind := 1, reason := 2 }
    let key (k : Nat) : Tag := { space := 1, block := k, reason := 2 }
    let s (n lo : Nat) : State := (a0 id).setQuay 0 { tags := (List.range n).map fun k => (k, some (key (lo + k))) }
    let y (s : State) : Quay := s.getQuay 0
    (∃ e ∈ (y (s 1 1)).openTags, e.2 = key 1)
      ∧ ((∀ e ∈ (y (s 64 2)).openTags, e.2 ≠ key 1) ∧ 64 ≤ (y (s 64 2)).openTags.length)
      ∧ ((∀ e ∈ (y (s 63 2)).openTags, e.2 ≠ key 1) ∧ (y (s 63 2)).openTags.length < 64) ∧ m.va / 2 ^ 19 = 1
      ∧ (a0 id).cur.task = none ∧ ((a1 id).cur.task.any fun t => t.retryable) = true
      ∧ ((a1 fun x => { x with task := some { msg := {}, retryable := false } }).cur.task.any fun t => !t.retryable) = true := by decide +kernel
/-- A fill of g0, and one for an IDLE helper's g0. -/
theorem test_witness_CoreSteps_g0 : let s : State := { filling .full .waiting [] with net := [.fill 5 0 2 0 7 (.ctx 0 1 3)] }
    let w : State := { s with net := [.fill 5 0 2 0 7] }
    (s.net[0]? = some (.fill 5 0 2 0 7 (.ctx 0 1 3)) ∧ s.fillWaits 0 2 0 = false) ∧ w.net[0]? = some (.fill 5 0 2 0 7 .none) := by decide +kernel
/-- A deferred fault whose status is on its way, one whose status has landed, and one that none goes with. -/
theorem test_witness_CoreSteps_due : let s (fill : Option Nat) (net : List Flight) : State :=
      { (at1 id).setCtx 0 1 { (at1 id).cur with deferred := [{ cause := .trit, val := 1, fill := fill }] } with net := net }
    let f : Flight := .fill 5 0 1 9 0 (.status 4)
    let due (s : State) : Bool := (s.dueFault 0 1).isSome
    f ∈ (s (some 4) [f]).net ∧ (∀ h m e r v, Flight.fill h m e r v (.status 4) ∉ (s (some 4) []).net) ∧ (s none []).dueFault 0 1 ≠ none
      ∧ due (s (some 4) [f]) = false ∧ due (s (some 4) []) = true ∧ (((s (some 4) []).landDue 0).reached 0 1 && due ((s (some 4) []).landDue 0)) = true
      ∧ (let b := (at1 id).setCtx 0 1 { (at1 id).cur with budget := 9, task := some { msg := {}, used := 9 } }
        let p := b.setFifo 0 3 { pops := [{ core := 0, ctx := 1, vreg := 0, val := 0 }] }
        p.dueFault 0 1 = none ∧ (p.landDue 0).reached 0 1 = true ∧ (p.getCtx 0 1).overBudget = true ∧ ((p.landDue 0).getCtx 0 1).publishing = false
          ∧ (p.landDue 0).doneEnds 0 1 = false) := by
  refine ⟨by decide +kernel, by simp, by decide +kernel⟩
/-- A push behind the seventeenth pop of its context lets another context's push go first. -/
theorem test_witness_CoreSteps_order : let f : Fifo := { pops := (List.range 17).map fun k => { core := 0, ctx := 1, vreg := 0, val := 0, seq := k }
                                                         pushes := [{ src := .ctx 0 1, data := 1, seq := 18 }, { src := .ctx 0 2, data := 2, seq := 3 }] }
    f.nextPush = some ({ src := .ctx 0 2, data := 2, seq := 3 }, [{ src := .ctx 0 1, data := 1, seq := 18 }]) ∧ f.entries.length < 2048 := by decide +kernel
/-- The entry in hand is taken as it was read, though its queue is now empty and its ring elsewhere; none is taken while it is there. -/
theorem test_witness_QueueSteps_hand : let bs : List Byte := leBytes 64 (blockOf [(0, 0x10002), (8, 2)]).toNat
    let h : Hand := { queue := 63, space := 0, va := 0x10000, entry := some bs }
    let s := (queued [(0, 0x10002), (8, 2)]).setQuay 0 { (queued [(0, 0x10002), (8, 2)]).getQuay 0 with inHand := some h }
    let s := s.setQueue 0 63 { s.queue 0 63 with wptr := 0, base := 0, en := false }
    ((s.getQuay 0).inHand = some h ∧ s.takes 0 63 = true ∧ s.takes 0 62 = false ∧ s.runnable 0 63 = false ∧ (s.queue 0 63).tag = none
        ∧ (s.queue 0 63).onRing = false)
      ∧ (match openEntry 0 bs ((s.meetObj (entryHandle bs)).meetParent 2 bs) with
        | .done _ => true
        | _ => false) = true
      ∧ (((queued []).getQuay 0).inHand = none ∧ (queued []).takes 0 63 = true ∧ (queued []).runnable 0 63 = true ∧ (((queued []).getQuay 0).served + 1 + 63) % 64 = 63
        ∧ ∀ j, j < 63 → (queued []).runnable 0 ((((queued []).getQuay 0).served + 1 + j) % 64) = false)
      ∧ (let m := (queued []).setQuay 0 { (queued []).getQuay 0 with inHand := some { h with entry := none, va := 2 ^ 32 } }
        m.takes 0 63 = true ∧ (match readFar m 0 0 (2 ^ 32) 64 with
          | .error (.miss ..) => true
          | _ => false) = true) := by decide +kernel
/-- A chunk that arrives at a plain, a counted and a failing place of bank 0 of basin 0, and at a bank that is cache. -/
theorem test_witness_RingSteps_chunk : let r : Ring := { pos := 1, last := 3, up := 0xB }
    let u : State := { State.reset with ring := r }.setBasin 0 (({} : Basin).setMode 0 1)
    let ps (off : Nat) : List Part := (partsOf (bankKey 0 (off / 131072) (off % 131072)) 16).map fun q => { key := q.1, len := q.2 }
    let k : RingPkt := { port := 0, hop := 1, srcBasin := 2, basin := 0, item := .chunk 0x40 (List.replicate 16 1) }
    let e : RingPkt := { k with item := .chunk 0x44 [1, 2] }
    let q : List Part := (partsOf (bankKey 0 0 0x44) 2).map fun q => { key := q.1, len := q.2 }
    let c : State := u.setLine (bankKey 0 0 0x40 / 64) (.counted 1)
    (k ∉ ([] : List RingPkt) ∧ r.reconf = false ∧ u.mode 0 0 = 1 ∧ State.reset.mode 0 0 ≠ 1)
      ∧ (isOk (u.checkParts .write [] (ps 0x40)) && checksFail c .write [] (ps 0x40) (fun f => decide (f = .cause .cntwrite))
        && checksFail (hurt u [bankKey 0 0 0x40]) .write [] q (fun f => decide (f = .ue (bankKey 0 0 0x40)))) = true ∧ e.item = .chunk 0x44 [1, 2] := by
  decide +kernel
/-- The mailbox reads its 32 bytes in one page, and its report ends in another, which is not mapped; or nothing can be written. -/
theorem test_witness_ServiceSteps_unwritten : let m := mapped State.reset
    let at_ (s : State) (va : Nat) : State := { s with svc := { s.svc with mb := { s.svc.mb with bufVa := BitVec.ofNat 48 va } }
                                                       far := [((2 ^ 48 + 2 ^ 31) / 64 - 1, { bank := 0, dirty := true, data := 0 })] }
    let missed (g : Got) : Bool := match g with
      | .miss .. => true
      | _ => false
    let s := at_ (boxed 7 0 0 0 m) (2 ^ 31 - 64)
    let t := at_ (boxed 8 0 0 0 m) (2 ^ 31 - 32)
    (runsOp s 7 && gotOk (s.farRead 0 0 (2 ^ 31 - 64) 32) fun nonce u =>
        missed (({ u with free := u.free + 64 } : State).farWrite 0 0 (2 ^ 31 - 64) (u.reportBody nonce ++ identitySign (u.reportBody nonce) u.free))) = true
      ∧ (runsOp t 8 && missed (t.farWrite 0 0 (2 ^ 31 - 32) identityPublic)) = true := by decide +kernel
/-- A byte stored to since the last `isync` of its context: fetched as it was, until the next one. -/
theorem test_witness_StepRunsDecoded_stale : let s := at0 id
    let t := s.putBytes (localKey 0 0x100) [0x80]
    let d := (s.setLine 4 .dropped).putBytes (localKey 0 0x100) [0x80]
    (s.lineState (localKey 0 0x100 / 64) ≠ .dropped ∧ s.stale 0 0 0x100 = none ∧ s.stale 0 0 0x101 = none ∧ s.badGranule (localKey 0 0x100) 2 = none)
      ∧ ((hurt s [0x100]).badGranule (localKey 0 0x100) 2 = some 0x20 ∧ (hurt s [0x100]).stale 0 0 0x100 = none)
      ∧ (t.stale 0 0 0x100).any (fun e => e.byte == 0 && e.stop.isNone) = true ∧ (s.getCtx 0 0).epoch ≤ (s.getCore 0).epoch
      ∧ (∀ e ∈ mget [] t.fetched (localKey 0 0x100), e.epoch ≤ (t.getCore 0).epoch) ∧ d.lineState (localKey 0 0x100 / 64) = .dropped
      ∧ (t.fetchByte 0 0 0x100 = 0 ∧ (t.refetch 0 0).fetchByte 0 0 0x100 = 0x80) := by decide +kernel

end Sys2Proof.Tests
end

section
/-! # The scalar instructions of 04 R94, R96 and R99

What `div`, `divu`, `rem`, `remu`, `lui`, `aui`, `ext`, `extu` and `ins` write. The instructions are issued by three shared
forms (`alu`, `opr`, `oprLater`); one rule for each form says what it writes, and what remains is the value of each operation. -/

namespace Sys2Proof.Machine

/-! ## The shared forms of Machine/Scalar.lean -/

section
variable {i : Instr} {s : State} {srcs : List Nat} {d a b : BitVec 5} {lat : Nat} {v : W32} {f : State → W32}
  {op : W32 → W32 → W32}

/-- An instruction of latency 1 writes what its function gives of the state. -/
theorem setsG_of_alu (hi : exec i s = alu i srcs d s f) (hv : f s = v) : SetsG i s srcs d v := by
  subst hv
  exact setsG_of hi fun _ => rfl

/-- Binary OPR of latency 1 writes the result of its operation at once. -/
theorem setsG_of_opr (hi : exec i s = opr i d a b s op) (hv : op (s.rg a) (s.rg b) = v) : SetsG i s [gid a, gid b] d v :=
  setsG_of_alu hi hv

/-- The result of binary OPR of a longer latency lands that many cycles later. -/
theorem landsAfter_of_oprLater (hi : exec i s = oprLater i lat d a b s op) (hv : op (s.rg a) (s.rg b) = v) :
    LandsAfter i s [gid a, gid b] lat [(gid d, v.zeroExtend 128)] := by
  subst hv
  exact landsAfter_of hi fun _ => rfl

end

/-! ## Quotients and remainders (04 R94) -/

section
variable {x y : W32}

theorem divOp_of_eq_zero (hy : y = 0) : divOp x y = 0xFFFFFFFF := if_pos hy
theorem remOp_of_eq_zero (hy : y = 0) : remOp x y = x := if_pos hy
theorem divuOp_of_eq_zero (hy : y = 0) : divuOp x y = 0xFFFFFFFF := if_pos hy
theorem remuOp_of_eq_zero (hy : y = 0) : remuOp x y = x := if_pos hy

/-- A divisor of −1 is not 0, so the overflow case is none of the division by 0. -/
theorem ne_zero_of_toInt_eq_neg_one (h : y.toInt = -1) : y ≠ 0 := by
  rintro rfl
  simp at h

theorem divOp_overflow (hx : x.toInt = -2 ^ 31) (hy : y.toInt = -1) : divOp x y = x :=
  (if_neg (ne_zero_of_toInt_eq_neg_one hy)).trans (if_pos ⟨hx, hy⟩)

theorem remOp_overflow (hx : x.toInt = -2 ^ 31) (hy : y.toInt = -1) : remOp x y = 0 :=
  (if_neg (ne_zero_of_toInt_eq_neg_one hy)).trans (if_pos ⟨hx, hy⟩)

theorem divOp_of_ne_zero (hy : y ≠ 0) (ho : ¬(x.toInt = -2 ^ 31 ∧ y.toInt = -1)) :
    divOp x y = BitVec.ofInt 32 (Int.tdiv x.toInt y.toInt) :=
  (if_neg hy).trans (if_neg ho)

theorem remOp_of_ne_zero (hy : y ≠ 0) (ho : ¬(x.toInt = -2 ^ 31 ∧ y.toInt = -1)) :
    remOp x y = BitVec.ofInt 32 (x.toInt - Int.tdiv x.toInt y.toInt * y.toInt) :=
  (if_neg hy).trans (if_neg ho)

theorem divuOp_of_ne_zero (hy : y ≠ 0) : divuOp x y = BitVec.ofNat 32 (x.toNat / y.toNat) := if_neg hy

/-- The model takes the remainder by `%`; R94 takes the product of quotient and divisor from x. -/
theorem remuOp_of_ne_zero (hy : y ≠ 0) : remuOp x y = BitVec.ofNat 32 (x.toNat - x.toNat / y.toNat * y.toNat) := by
  rw [remuOp, if_neg hy, Nat.mod_eq_sub_div_mul]

end

/-- Settles O3: each of the four lands after 18 cycles, and its operation has the value that R94 names in each case. -/
theorem divisionResults : Obligations.DivisionResults := by
  intro s d a b x y lands
  refine ⟨fun hy => ?_, fun ⟨hx, hy⟩ => ?_, fun hy ho => ?_, fun hy => ?_⟩
  · exact ⟨landsAfter_of_oprLater rfl (divOp_of_eq_zero hy), landsAfter_of_oprLater rfl (divuOp_of_eq_zero hy),
      landsAfter_of_oprLater rfl (remOp_of_eq_zero hy), landsAfter_of_oprLater rfl (remuOp_of_eq_zero hy)⟩
  · exact ⟨landsAfter_of_oprLater rfl (divOp_overflow hx hy), landsAfter_of_oprLater rfl (remOp_overflow hx hy)⟩
  · exact ⟨landsAfter_of_oprLater rfl (divOp_of_ne_zero hy ho), landsAfter_of_oprLater rfl (remOp_of_ne_zero hy ho)⟩
  · exact ⟨landsAfter_of_oprLater rfl (divuOp_of_ne_zero hy), landsAfter_of_oprLater rfl (remuOp_of_ne_zero hy)⟩

/-! ## Upper immediates (04 R96) -/

theorem upper_eq_ofNat (imm : BitVec 20) : upper imm = BitVec.ofNat 32 (imm.toNat * 2 ^ 12) := by
  have h : (upper imm).toNat = imm.toNat <<< 12 ||| 0 := BitVec.toNat_append imm 0#12
  apply BitVec.eq_of_toNat_eq
  rw [h, Nat.or_zero, Nat.shiftLeft_eq, BitVec.toNat_ofNat]
  omega

/-- The PC goes into the sum as a 32-bit number (R96). -/
theorem pc_add_upper (pc : Off) (imm : BitVec 20) :
    pc.zeroExtend 32 + upper imm = BitVec.ofNat 32 (pc.toNat + imm.toNat * 2 ^ 12) := by
  rw [upper_eq_ofNat, BitVec.ofNat_add, BitVec.ofNat_toNat]

/-- Settles O5: both are `alu`, with `upper imm` alone or added to the PC. -/
theorem upperImmediateResults : Obligations.UpperImmediateResults := by
  intro s d imm
  exact ⟨setsG_of_alu rfl (upper_eq_ofNat imm), setsG_of_alu rfl (pc_add_upper s.cur.pc imm)⟩

/-! ## Fields (04 R99) -/

theorem takeField_lt (x pos w : Nat) : takeField x pos w < 2 ^ w := Nat.mod_lt _ (Nat.two_pow_pos w)

theorem testBit_takeField (x pos w k : Nat) :
    (takeField x pos w).testBit k = (decide (k < w) && x.testBit (pos + k)) := by
  rw [takeField, Nat.testBit_mod_two_pow, Nat.testBit_div_two_pow, Nat.add_comm k]

/-- The top bit of a `w`-bit vector; one of no bits has none. -/
theorem msb_ofNat_eq_testBit (u w : Nat) : (BitVec.ofNat w u).msb = (decide (0 < w) && u.testBit (w - 1)) := by
  rw [BitVec.msb_eq_getLsbD_last, BitVec.getLsbD_ofNat, decide_eq_decide.mpr (show w - 1 < w ↔ 0 < w by omega)]

/-- `signField` is the sign extension of a `w`-bit vector, also for w = 0. -/
theorem signField_eq_signExtend {u w : Nat} (hu : u < 2 ^ w) : signField u w = (BitVec.ofNat w u).signExtend 32 := by
  rw [BitVec.signExtend, BitVec.toInt_eq_msb_cond, msb_ofNat_eq_testBit, BitVec.toNat_ofNat, Nat.mod_eq_of_lt hu, signField]
  by_cases h : 0 < w ∧ u.testBit (w - 1) = true
  · simp [h]
  · rw [if_neg h, if_neg (by simpa using h), BitVec.ofInt_natCast]

/-- Bit k of a sign-extended field: bit k of the field, or its top bit from there on. A field of no bits is 0. -/
theorem getLsbD_signField {u w k : Nat} (hu : u < 2 ^ w) (hk : k < 32) :
    (signField u w).getLsbD k = (decide (0 < w) && u.testBit (min k (w - 1))) := by
  rw [signField_eq_signExtend hu, BitVec.getLsbD_signExtend, msb_ofNat_eq_testBit, BitVec.getLsbD_ofNat]
  by_cases hw : k < w
  · have hmin : min k (w - 1) = k := by omega
    simp [hk, hw, hmin, show 0 < w by omega]
  · have hmin : min k (w - 1) = w - 1 := by omega
    simp [hk, hw, hmin]

/-- A field put at `pos` as three parts of one number: bits above the field, the field, bits below it. -/
theorem putField_eq (h x : Nat) {pos w top : Nat} (hp : pos ≤ top) :
    putField h x pos w top = 2 ^ pos * (2 ^ min w (top + 1 - pos) * (h / 2 ^ (pos + min w (top + 1 - pos)))
      + x % 2 ^ min w (top + 1 - pos)) + h % 2 ^ pos := by
  rw [putField, if_neg (by omega), pow_add]
  ring

theorem putField_of_top_lt (h x : Nat) {pos w top : Nat} (hp : top < pos) : putField h x pos w top = h := if_pos hp

/-- Bit k of a number with a field replaced, for the bits up to the last that may be replaced. -/
theorem testBit_putField (h x w : Nat) {pos top k : Nat} (hk : k ≤ top) :
    (putField h x pos w top).testBit k = if pos ≤ k ∧ k < pos + w then x.testBit (k - pos) else h.testBit k := by
  by_cases hp : pos ≤ top
  · rw [putField_eq h x hp, Nat.testBit_two_pow_mul_add _ (Nat.mod_lt _ (Nat.two_pow_pos pos))]
    by_cases hlow : k < pos
    · rw [if_pos hlow, if_neg (by omega), Nat.testBit_mod_two_pow]
      simp [hlow]
    · rw [if_neg hlow, Nat.testBit_two_pow_mul_add _ (Nat.mod_lt _ (Nat.two_pow_pos _))]
      by_cases hin : k < pos + w
      · rw [if_pos (by omega), if_pos (by omega), Nat.testBit_mod_two_pow]
        simp [show k - pos < min w (top + 1 - pos) by omega]
      · rw [if_neg (by omega), if_neg (by omega), Nat.testBit_div_two_pow]
        congr 1
        omega
  · rw [putField_of_top_lt h x (by omega), if_neg (by omega)]

section
variable (x y : W32) {k : Nat}

theorem getLsbD_extuOp (hk : k < 32) :
    (extuOp x y).getLsbD k = (decide (k < specWid y) && x.getLsbD (specPos y + k)) := by
  rw [extuOp, BitVec.getLsbD_ofNat, testBit_takeField, BitVec.testBit_toNat]
  simp [hk]

theorem getLsbD_extOp (hk : k < 32) :
    (extOp x y).getLsbD k = (decide (0 < specWid y) && x.getLsbD (specPos y + min k (specWid y - 1))) := by
  rw [extOp, getLsbD_signField (takeField_lt ..) hk, testBit_takeField, BitVec.testBit_toNat]
  by_cases hw : 0 < specWid y
  · simp [hw, show min k (specWid y - 1) < specWid y by omega]
  · simp [hw]

theorem getLsbD_insOp (h : W32) (hk : k < 32) :
    (insOp h x y).getLsbD k
      = if specPos y ≤ k ∧ k < specPos y + specWid y then x.getLsbD (k - specPos y) else h.getLsbD k := by
  rw [insOp, BitVec.getLsbD_ofNat, testBit_putField _ _ _ (Nat.le_of_lt_succ hk), decide_eq_true hk, Bool.true_and,
    BitVec.testBit_toNat, BitVec.testBit_toNat]

end

/-- Settles O8: each of the three writes its operation's result, whose bits are those of the field, its sign, or the old
register. -/
theorem fieldResults : Obligations.FieldResults := by
  intro s d a b x pos w
  exact ⟨⟨extuOp x (s.rg b), fun _ => getLsbD_extuOp x (s.rg b), setsG_of_opr rfl rfl⟩,
    ⟨extOp x (s.rg b), fun _ => getLsbD_extOp x (s.rg b), setsG_of_opr rfl rfl⟩,
    ⟨insOp (s.rg d) x (s.rg b), fun _ => getLsbD_insOp x (s.rg b) (s.rg d), setsG_of_alu rfl rfl⟩⟩

end Sys2Proof.Machine
end

section
/-! # The trap instructions of 08 R223 and R225, and illegal words and forms (03 R78)

`trap`, `svc` and `brk` end in the same way: the body names a cause and a value, and the trap is taken with the next PC. A form
that its context may not issue is stopped before it looks at its registers. -/

namespace Sys2Proof.Machine

/-! ## Forms that the context may not issue (03 R78) -/

/-- Whatever the registers are, the trap is taken at the instruction, with its word. -/
theorem exec_of_not_legalIn {i : Instr} {s : State} (h : (encode i).isSome = true) (hl : legalIn s i = false) :
    exec i s = .next (s.trapEntry s.core s.ctx .ill s.cur.pc (wordOf i)) := by
  obtain ⟨body, e⟩ := exec_issue i s h
  rw [e, hl]
  rfl

theorem wordOf_illegalInstruction (w : W32) : wordOf (.illegalInstruction w) = w :=
  (BitVec.ofNat_toNat 32 w).trans (BitVec.setWidth_eq w)

/-! ## The trap at the next instruction (08 R223) -/

/-- Where an instruction goes on: `Ctx.advance` in the words of the statements. -/
theorem State.advance_issued_cur (s : State) (i : Instr) :
    s.cur.issued.advance (lengthOf i)
      = { s.cur.issued with pc := (s.nextPc (lengthOf i)).1, rc := (s.nextPc (lengthOf i)).2 } := by
  obtain ⟨pc, rc, e⟩ := Ctx.advance_eq s.cur.issued (lengthOf i)
  have hcur : (s.finish i .seq).cur = s.cur.issued.advance (lengthOf i) := State.cur_setCur ..
  have hnext := State.finish_seq s i
  rw [e] at hcur ⊢
  rw [← hnext.pc, ← hnext.rc, hcur]

/-- The trap is taken with the next PC, while the context stands at the instruction; RC has counted a pass. -/
theorem State.finish_trapNext (s : State) (i : Instr) (c : Cause) (v : W32) :
    s.finish i (.trapNext c v) = (s.setCur { s.cur.issued with rc := (s.nextPc (lengthOf i)).2 }).trapEntry
      s.core s.ctx c (s.nextPc (lengthOf i)).1 v := by
  have h : s.finish i (.trapNext c v) = (s.setCur { s.cur.issued.advance (lengthOf i) with pc := s.cur.issued.pc }).trapEntry
      s.core s.ctx c (s.cur.issued.advance (lengthOf i)).pc v := rfl
  rw [h, State.advance_issued_cur]

theorem trapBody_ok {f : State → Except Stop (Cause × W32)} {s : State} {c : Cause} {v : W32} (h : f s = .ok (c, v)) :
    trapBody f s = .ok (s, .trapNext c v) := by
  rw [trapBody, h]
  rfl

theorem trapBody_error {f : State → Except Stop (Cause × W32)} {s : State} {e : Stop} (h : f s = .error e) :
    trapBody f s = .error e := by
  rw [trapBody, h]
  rfl

theorem State.clearRegs_nil (s : State) : s.clearRegs [] = s := rfl

/-- An instruction that raises a trap on purpose. -/
theorem exec_of_trapBody {i : Instr} {s : State} {srcs : List Nat} {c : Cause} {v : W32} {f : State → Except Stop (Cause × W32)}
    (hi : exec i s = issue i srcs [] s (trapBody f)) (hf : f s = .ok (c, v)) (h : s.ready i srcs [] = true) :
    exec i s = .next ((s.setCur { s.cur.issued with rc := (s.nextPc (lengthOf i)).2 }).trapEntry
      s.core s.ctx c (s.nextPc (lengthOf i)).1 v) := by
  rw [hi, issue_of_ready h (trapBody_ok hf), State.clearRegs_nil, State.finish_trapNext]

/-- The three have words of the 32-bit format (03 R62). -/
theorem lengthOf_of_encG {i : Instr} {maj F : Nat} {d a b : BitVec 5} (h : encode i = some (encG maj F d a b)) :
    lengthOf i = 4 := by
  have hodd : isCompact (encG maj F d a b) = false := by
    simp only [isCompact, encG, encR, beq_eq_false_iff_ne]
    omega
  simp [lengthOf, h, hodd]

/-! ## The causes that `trap` may raise (08 R223, R230) -/

/-- The causes of R230 that are faults, and UNDERREAD. -/
def trapCauses : List Cause :=
  [.ill, .align, .range, .xlate, .perm, .overread, .underread, .cntwrite, .linkovf, .linkunf, .budget,
    .taskbuf, .barover, .fmt, .meta_, .trit, .ue, .pressure, .ptr, .svc, .brk]

theorem trapCauseOf_causeCode : ∀ c ∈ trapCauses, trapCauseOf (causeCode c) = some c := by decide

theorem mem_trapCauses_of_trapCauseOf {k : Nat} {c : Cause} (h : trapCauseOf k = some c) : c ∈ trapCauses ∧ k = causeCode c := by
  unfold trapCauseOf at h
  split at h <;> cases h <;> decide

theorem trapCauseOf_eq_none {k : Nat} (h : ∀ c ∈ trapCauses, k ≠ causeCode c) : trapCauseOf k = none := by
  rw [Option.eq_none_iff_forall_ne_some]
  intro c hc
  obtain ⟨hmem, hk⟩ := mem_trapCauses_of_trapCauseOf hc
  exact h c hmem hk

/-! ## The obligation -/

/-- Settles O47: the three traps by `exec_of_trapBody`, `tret` as a jump, and the illegal forms by `exec_of_not_legalIn`. -/
theorem trapInstructions : Obligations.TrapInstructions := by
  intro s a b n w x code raises ill faults
  have raises_of {i : Instr} {srcs : List Nat} {c : Cause} {v : W32} {f : State → Except Stop (Cause × W32)}
      (hl : lengthOf i = 4) (hi : exec i s = issue i srcs [] s (trapBody f)) (hf : f s = .ok (c, v)) : raises i srcs c v := by
    intro h
    rw [exec_of_trapBody hi hf h, hl]
    rfl
  refine ⟨fun c hc hk => ?trap, fun hnone => ?trapIll, ?svc, ?brk, fun htask => ?tret, ?illegalWord, fun hc => ?c0Only,
    fun hc => ?notC0, fun htask => ?notTask, fun hn => ?special⟩
  case trap =>
    refine raises_of (lengthOf_of_encG rfl) rfl ?_
    have hcode : trapCauseOf (s.rg a).toNat = some c := hk ▸ trapCauseOf_causeCode c hc
    simp only [hcode]
  case trapIll =>
    refine traps_of rfl fun _ => trapBody_error ?_
    have hcode : trapCauseOf (s.rg a).toNat = none := trapCauseOf_eq_none hnone
    simp only [hcode]
    rfl
  case svc => exact raises_of (lengthOf_of_encG rfl) rfl rfl
  case brk => exact raises_of (lengthOf_of_encG rfl) rfl (by rw [BitVec.ofNat_toNat])
  case tret =>
    have hi := issueIf_of (legal := !s.inTask) (by rw [htask]; rfl) .tret [] [] s
    exact jumps_of (hi _) (fun _ => rfl) rfl rfl (by rw [State.cur_setCur])
  case illegalWord =>
    rw [exec_of_not_legalIn rfl rfl, wordOf_illegalInstruction]
  case c0Only =>
    have hc0 : (s.ctx == 0) = false := beq_eq_false_iff_ne.mpr hc
    have c0 {i : Instr} (he : (encode i).isSome = true) (hl : legalIn s i = (s.ctx == 0)) : ill i :=
      exec_of_not_legalIn he (hl.trans hc0)
    exact ⟨c0 rfl rfl, c0 rfl rfl, c0 rfl rfl, c0 rfl rfl, fun p q what policy dis =>
      ⟨c0 rfl rfl, c0 rfl rfl, c0 rfl rfl, c0 rfl rfl, c0 rfl rfl, c0 rfl rfl, c0 rfl rfl⟩⟩
  case notC0 =>
    have hc0 : (s.ctx != 0) = false := by rw [hc]; rfl
    exact ⟨exec_of_not_legalIn rfl hc0, exec_of_not_legalIn rfl hc0⟩
  case notTask =>
    have hout : (!s.inTask) = false := by rw [htask]; rfl
    exact ⟨exec_of_not_legalIn rfl hout, exec_of_not_legalIn rfl hout⟩
  case special =>
    have hr : decide (n.toNat ≤ 28) = false := decide_eq_false (Nat.not_le.mpr hn)
    exact ⟨exec_of_not_legalIn rfl hr, exec_of_not_legalIn rfl hr⟩

end Sys2Proof.Machine
end
